-- ==== Sys2Proof/Word.lean ====
section
/-! DEFINITION. The widths the spec names: bus bytes, colours, descriptors and wire frames (spec/00_scope R8, R13). -/

namespace Sys2Proof

/-- One bus byte (R65); also a fast colour, which the block never interprets (R13). -/
abbrev Byte := BitVec 8

/-- A 16-bit Color (R13), a window coordinate as it is sent, or one word of PixMem or GRAM. -/
abbrev Color := BitVec 16

/-- One operation descriptor, OPD (R100). -/
abbrev Descriptor := BitVec 128

/-- One wire word: `dcx` in bit 8, the byte in bits 7:0 (R106). -/
abbrev WireWord := BitVec 9

end Sys2Proof
end

