-- ==== Sys2Proof/Config.lean ====
section
/-! DEFINITION. The fixed parameters of spec/00_scope R7, and the free values: constants with no body, of which
nothing can be proved (log 10). -/

namespace Sys2Proof.Config

/-- `PANEL_W`: columns (R7). -/
def panelW : Nat := 240
/-- `PANEL_H`: rows (R7). -/
def panelH : Nat := 320
/-- `XBUF_BYTES` (R7). -/
def xbufBytes : Nat := 240
/-- `READ_SETTLE_NS` (R7, R140). -/
def readSettleNs : Nat := 400

/-- `CMD_CASET`, "set column window" (R7, R108). -/
def cmdCaset : Byte := 0x2A#8
/-- `CMD_PASET`, "set row window" (R7, R108). -/
def cmdPaset : Byte := 0x2B#8
/-- `CMD_RAMWR`, "begin pixel-data write" (R7, R108). -/
def cmdRamwr : Byte := 0x2C#8
/-- `CMD_RAMRD`, "begin pixel-data read" (R7, R108). -/
def cmdRamrd : Byte := 0x2E#8
/-- `CMD_RAMRD_CONT`, "continue pixel-data read" (R7, R108). -/
def cmdRamrdCont : Byte := 0x3E#8

/-- DESIGN CHOICE (log 10), safe: the byte of a read cycle the spec leaves `any` (R76, R77, R274), fresh at each
occurrence: it is applied to the counter `freeDraws`. -/
opaque freeByte : Nat → Byte

/-- DESIGN CHOICE (log 10), safe: a 16-bit value the spec leaves `any` (R62 unbacked PixMem word, R46 an invalid
window register), fresh at each occurrence. -/
opaque freeWord : Nat → Color

/-- DESIGN CHOICE (log 10), safe: what a read of the write-only register OPD returns (R46, U26), fresh at each
occurrence. -/
opaque freeDescriptor : Nat → Descriptor

/-- DESIGN CHOICE (log 6), safe: what a GRAM cell holds before anything wrote it (R79, U13), one unknown value for
each cell. -/
opaque gramInit : Nat → Color

end Sys2Proof.Config
end

