-- ==== Sys2Proof/Machine/State.lean ====
section
/-! DEFINITION. The state of the machine: the block (spec/10_state), the reference panel (spec/20_memory R70), the pixel
source memory (R62), the parameters (spec/00_scope R7) and the host's pending accesses. All of it is plain data. -/

namespace Sys2Proof.Machine

/-- A finite table by number: (key, value) pairs, keys strictly rising; a key not listed holds nothing. GRAM, PixMem
and the overdraw memory are tables (log 6). -/
abbrev Table (α : Type) := List (Nat × α)

/-- `prim_state` (R22). -/
inductive PrimState where
  | idle
  | windowSet
  | streaming
  deriving DecidableEq, Repr

/-- `bus_dir`, the direction of the data lines (R23). -/
inductive BusDir where
  | write
  | read
  deriving DecidableEq, Repr

/-- `bus_phase` (R23). -/
inductive BusPhase where
  | idle
  | selecting
  | clocking
  | settled
  deriving DecidableEq, Repr

/-- The two kinds of write cycle (R130). -/
inductive WriteKind where
  | cmd
  | dat
  deriving DecidableEq, Repr

/-- A frame: the record of one bus cycle (R12). -/
inductive Frame where
  | cmd (b : Byte)
  | dat (b : Byte)
  | rd (v : Byte)
  deriving DecidableEq, Repr

/-- A remembered run: start, length, colour (R29). -/
structure Run where
  start  : Nat
  len    : Nat
  colour : Color
  deriving DecidableEq, Repr

/-! ### The reference panel (R70) -/

/-- `p_open`, the open command (R70). -/
inductive OpenCommand where
  | none
  | caset
  | paset
  | ramwr
  | ramrd
  | other
  deriving DecidableEq, Repr

/-- `p_half`, the half-pixel latch (R70): a byte on write, `second` on read. -/
inductive HalfPixel where
  | none
  | byte (b : Byte)
  | second
  deriving DecidableEq, Repr

/-- `PANEL_PIXEL_BYTES` (R70, R80). -/
inductive PixelFormat where
  | twoBytes
  | oneByte
  deriving DecidableEq, Repr

/-- The panel's state (R70). A GRAM cell is listed under `row * PANEL_W + column` once it has been written. -/
structure Panel where
  pXs    : Color
  pXe    : Color
  pYs    : Color
  pYe    : Color
  pCx    : Nat
  pCy    : Nat
  pOpen  : OpenCommand
  pK     : Nat
  pPar0  : Byte
  pPar1  : Byte
  pPar2  : Byte
  pPar3  : Byte
  pHalf  : HalfPixel
  pDummy : Nat
  format : PixelFormat
  gram   : Table Color
  deriving DecidableEq, Repr

/-- Why the panel's state is unspecified: the spec's panel-side `refuse` (R11, R77, R78). -/
inductive PanelRefusal where
  /-- A data or read frame the open command does not expect (R77, U1). -/
  | protocolViolation
  /-- A pixel frame under a window outside the panel or reversed (R78, U2). -/
  | windowOutOfRange
  /-- DEDUCED (log 14): a pixel frame with the cursor outside the panel, where no GRAM cell exists (R60). -/
  | cursorOutOfRange
  deriving DecidableEq, Repr

/-- What is known of the panel: its state, or only that the spec gives it none (R77, R78, log 4). -/
inductive PanelView where
  | known (p : Panel)
  | unspecified (why : PanelRefusal)
  deriving DecidableEq, Repr

/-! ### The host's accesses (R46, R47, R62, R290) -/

/-- The nine host registers, numbers 0 to 8 (R46). -/
inductive HostReg where
  | opd
  | result
  | status
  | bgcolor
  | fgcolor
  | winX1
  | winX2
  | winY1
  | winY2
  deriving DecidableEq, Repr

/-- One thing the outside does to the block (log 2). -/
inductive HostAccess where
  /-- A write of a host register; only OPD takes it (R46). -/
  | write (r : HostReg) (v : Descriptor)
  /-- A read of a host register (R46). -/
  | read (r : HostReg)
  /-- A single wire command asked for by its wire word (R106, R108, log 1). -/
  | wire (w : WireWord)
  /-- The host stores a word into its own pixel source memory (R62). -/
  | store (addr : BitVec 32) (v : Color)
  /-- The reset event, between operations (R290). -/
  | reset
  /-- A descriptor is written, and the reset event abandons its operation after `cycles` bus cycles (R290, log 13). -/
  | writeThenReset (v : Descriptor) (cycles : Nat)
  deriving DecidableEq, Repr

/-! ### The machine -/

/-- The whole state. -/
@[ext]
structure State where
  /-- `prim_state` (R22, R36). -/
  primState       : PrimState
  /-- `bus_dir` (R23). -/
  busDir          : BusDir
  /-- `bus_phase` (R23). -/
  busPhase        : BusPhase
  /-- Pin `dout`, the byte held for the data lines (R24). -/
  dout            : Byte
  /-- Pin `dcx`: false = command level, true = data level (R24). -/
  dcx             : Bool
  /-- Pin `wr`, the clock line (R24). -/
  wr              : Bool
  /-- Pin `rd`, the read-request line (R24). -/
  rd              : Bool
  /-- Pin `cs`, chip-select (R24, R137). -/
  cs              : Bool
  /-- `do_masking` (R25). -/
  doMasking       : Bool
  /-- `do_overdraw` (R25). -/
  doOverdraw      : Bool
  /-- `mask_flag` (R25). -/
  maskFlag        : Bool
  /-- `background_color` (R26). -/
  backgroundColor : Color
  /-- `foreground_color` (R26). -/
  foregroundColor : Color
  /-- `win_x1` (R27). -/
  winX1           : Color
  /-- `win_x2` (R27). -/
  winX2           : Color
  /-- `win_y1` (R27). -/
  winY1           : Color
  /-- `win_y2` (R27). -/
  winY2           : Color
  /-- `win_col_set` (R27). -/
  winColSet       : Bool
  /-- `win_row_set` (R27). -/
  winRowSet       : Bool
  /-- `xbuf[0 .. 239]` (R28). -/
  xbuf            : List Byte
  /-- `row_memo[0 .. 319]`; a row not listed is `none` (R29). -/
  rowMemo         : Table Run
  /-- `col_memo[0 .. 239]`; a column not listed is `none` (R29). -/
  colMemo         : Table Run
  /-- `result` (R32). -/
  result          : Color
  /-- `err_illegal` (R33). -/
  errIllegal      : Bool
  /-- `txlog`, oldest frame first (R12, R34). -/
  txlog           : List Frame
  /-- The reference panel (R70 to R80). -/
  panel           : PanelView
  /-- PixMem by word address (R60, R62). -/
  pixMem          : Table Color
  /-- The parameter READ_DUMMY_READS (R7, log 9). -/
  readDummyReads  : Nat
  /-- The parameter TARGET_CLOCK_HZ (R7, log 9). -/
  targetClockHz   : Nat
  /-- The block clock cycles this build waits in step 4 of a read cycle (R133, R312, log 9). -/
  settleCycles    : Nat
  /-- The model's own: host accesses still to come, next first (log 2). -/
  hostQueue       : List HostAccess
  /-- The model's own: what the last host register read returned (R46, log 17). -/
  hostData        : Descriptor
  /-- The model's own: how many free values have been drawn (log 10). -/
  freeDraws       : Nat
  deriving DecidableEq, Repr

/-- The block raises no exception and cannot fail to complete (R270, R276, R278; spec/93 "fault ... used nowhere"): there
is no fault, so this type has no constructor. -/
inductive Fault where
  deriving DecidableEq, Repr

inductive Refusal where
  /-- An instruction without a meaning yet, by its mnemonic; raised by no arm of `exec`. Safe. -/
  | notModelled (mnemonic : String)
  /-- Raised by a step whose next access is a wire word that is none of the five wire commands: the table gives it no
  instruction (R108, R111, log 21). Safe. -/
  | unlistedWireWord
  deriving DecidableEq, Repr

/-! ### Reset -/

/-- DESIGN CHOICE (log 5), unsafe: the panel in an initialised state (R79); its registers are `any` there, and the values
named here are those of the vectors' start state S0. No GRAM cell has been written. -/
def Panel.initialised : Panel where
  pXs := 0x0000#16
  pXe := 0x00EF#16
  pYs := 0x0000#16
  pYe := 0x013F#16
  pCx := 0
  pCy := 0
  pOpen := .none
  pK := 0
  pPar0 := 0x00#8
  pPar1 := 0x00#8
  pPar2 := 0x00#8
  pPar3 := 0x00#8
  pHalf := .none
  pDummy := 0
  format := .twoBytes
  gram := []

/-- The machine right after reset (R40, R290). Fields R40 leaves `any` hold 0: DESIGN CHOICE (log 8), unsafe. The panel
is log 5, the parameters log 9, the model's own fields logs 2, 10, 17. -/
def State.reset : State where
  primState := .idle
  busDir := .write
  busPhase := .idle
  dout := 0x00#8
  dcx := false
  wr := false
  rd := false
  cs := false
  doMasking := false
  doOverdraw := false
  maskFlag := false
  backgroundColor := 0x0000#16
  foregroundColor := 0x0000#16
  winX1 := 0x0000#16
  winX2 := 0x0000#16
  winY1 := 0x0000#16
  winY2 := 0x0000#16
  winColSet := false
  winRowSet := false
  xbuf := List.replicate 240 0x00#8
  rowMemo := []
  colMemo := []
  result := 0x0000#16
  errIllegal := false
  txlog := []
  panel := .known Panel.initialised
  pixMem := []
  readDummyReads := 1
  targetClockHz := 16000000
  settleCycles := 7
  hostQueue := []
  hostData := 0#128
  freeDraws := 0

end Sys2Proof.Machine
end

