-- ==== Sys2Proof/Machine/Flags.lean ====
section
/-! DEFINITION. What is computed from the flags: the masking stage (spec/44 R195) and the STATUS register (spec/10 R46). -/

namespace Sys2Proof.Machine

/-- `eff(color)`, the masking stage (R195). -/
def eff (s : State) (color : Color) : Color :=
  if s.doMasking then (if s.maskFlag then s.foregroundColor else s.backgroundColor) else color

/-- The number of `prim_state` in STATUS bits 5:4 (R22, R46). -/
def PrimState.number : PrimState → BitVec 2
  | .idle => 0#2
  | .windowSet => 1#2
  | .streaming => 2#2

/-- STATUS (R46): bits 15:8 zero, then `win_row_set`, `win_col_set`, `prim_state`, `mask_flag`, `do_overdraw`,
`do_masking`, `err_illegal` in bit 0. -/
def statusWord (s : State) : BitVec 16 :=
  0#8 ++ BitVec.ofBool s.winRowSet ++ BitVec.ofBool s.winColSet ++ s.primState.number ++
    BitVec.ofBool s.maskFlag ++ BitVec.ofBool s.doOverdraw ++ BitVec.ofBool s.doMasking ++ BitVec.ofBool s.errIllegal

end Sys2Proof.Machine
end

