-- ==== Sys2Proof/Syntax.lean ====
section
/-! DEFINITION. The instruction set: one constructor for each row of spec/opcode_table.json, 36 operations
(spec/30_encoding R104) and 5 wire commands (R108). Operands in the order of R104's column "operands";
coordinates and sizes are integers (R9, R103). -/

namespace Sys2Proof

inductive Instr where
  -- bus transport (spec/40)
  | writeCommand (b : Byte)
  | writeData (b : Byte)
  | readData
  | clockPulse
  -- address window (spec/41)
  | setColumnWindow (x1 x2 : Int)
  | setRowWindow (y1 y2 : Int)
  | setPoint (x y : Int)
  | setAddrWindow (x1 y1 x2 y2 : Int)
  -- pixel streaming (spec/42)
  | pushColor (color : Color)
  | pushColors (addr : BitVec 32) (count : Nat) (first : Bool)
  | flood (color : Color) (length : Nat)
  -- compositing control (spec/43)
  | maskingOn
  | maskingOff
  | flipMask
  | overdrawOn
  | overdrawOff
  | setBackgroundColor (color : Color)
  | setForegroundColor (color : Color)
  -- 16-bit rendering (spec/44)
  | drawPixel (x y : Int) (color : Color)
  | drawLine (x0 y0 x1 y1 : Int) (color : Color)
  | drawFastHLine (x y w : Int) (color : Color)
  | drawFastVLine (x y h : Int) (color : Color)
  | fillRect (x y w h : Int) (color : Color)
  | fillScreen (color : Color)
  | readPixel (x y : Int)
  -- fast 8-bit path (spec/45)
  | fastFlood (c8 : Byte) (length : Nat)
  | fastDrawPixel (x y : Int) (c8 : Byte)
  | fastDrawLine (x0 y0 x1 y1 : Int) (c8 : Byte)
  | fastDrawFastHLine (x y w : Int) (c8 : Byte)
  | fastDrawFastVLine (x y h : Int) (c8 : Byte)
  | fastFillRect (x y w h : Int) (c8 : Byte)
  | fastFillScreen (c8 : Byte)
  | fastXorFlood (m : Byte) (length : Nat)
  | fastXorRect (x y w h : Int) (m : Byte)
  | fastFillTriangle (x0 y0 x1 y1 x2 y2 : Int) (c8 : Byte)
  | fastDrawTriangle (x0 y0 x1 y1 x2 y2 : Int) (c8 : Byte)
  -- wire commands (spec/30 R108)
  | caset
  | paset
  | ramwr
  | ramrd
  | ramrdCont
  deriving DecidableEq, Repr

/-- An encoded instruction: a host descriptor (R100) or a wire word (R106). -/
inductive Code where
  | opd (w : Descriptor)
  | wire (w : WireWord)
  deriving DecidableEq, Repr

end Sys2Proof
end

