-- ==== Sys2Proof/Decode.lean ====
section
/-! DEFINITION. Decoding and encoding of both formats: host descriptors (spec/30_encoding R100 to R105) and wire words
(R106, R108). The decoder is total and rejects by name; the encoder stands after it. -/

namespace Sys2Proof

/-! ### Bit fields and operand assembly (R8, R103) -/

/-- `hi8(c) = c[15:8]` (R8). -/
def hi8 (c : Color) : Byte := c.extractLsb' 8 8

/-- `lo8(c) = c[7:0]` (R8). -/
def lo8 (c : Color) : Byte := c.extractLsb' 0 8

/-- `sint16(field)`: two's complement (R8, R103). -/
def sint16 (f : BitVec 16) : Int := f.toInt

/-- `uint16(field)` (R8, R103). -/
def uint16 (f : BitVec 16) : Nat := f.toNat

/-- `uint16(a0)·65536 + uint16(a1)`, a 32-bit unsigned operand (R103). -/
def uint32 (hi lo : BitVec 16) : Nat := uint16 hi * 65536 + uint16 lo

/-! ### The descriptor and its fields (R101) -/

/-- The fields of OPD, most significant first (R101). -/
structure Fields where
  op   : BitVec 8
  rsv  : BitVec 7
  flag : BitVec 1
  c    : BitVec 16
  a0   : BitVec 16
  a1   : BitVec 16
  a2   : BitVec 16
  a3   : BitVec 16
  a4   : BitVec 16
  a5   : BitVec 16
  deriving DecidableEq, Repr

/-- Cut a descriptor into its fields (R101). -/
def Fields.ofWord (w : Descriptor) : Fields where
  op   := w.extractLsb' 120 8
  rsv  := w.extractLsb' 113 7
  flag := w.extractLsb' 112 1
  c    := w.extractLsb' 96 16
  a0   := w.extractLsb' 80 16
  a1   := w.extractLsb' 64 16
  a2   := w.extractLsb' 48 16
  a3   := w.extractLsb' 32 16
  a4   := w.extractLsb' 16 16
  a5   := w.extractLsb' 0 16

/-- Join fields into a descriptor (R101). -/
def Fields.toWord (f : Fields) : Descriptor :=
  f.op ++ f.rsv ++ f.flag ++ f.c ++ f.a0 ++ f.a1 ++ f.a2 ++ f.a3 ++ f.a4 ++ f.a5

/-! ### The operation codes (R104) -/

/-- The 36 operations of R104, without their operands. -/
inductive Op where
  | writeCommand
  | writeData
  | readData
  | clockPulse
  | setColumnWindow
  | setRowWindow
  | setPoint
  | setAddrWindow
  | pushColor
  | pushColors
  | flood
  | maskingOn
  | maskingOff
  | flipMask
  | overdrawOn
  | overdrawOff
  | setBackgroundColor
  | setForegroundColor
  | drawPixel
  | drawLine
  | drawFastHLine
  | drawFastVLine
  | fillRect
  | fillScreen
  | readPixel
  | fastFlood
  | fastDrawPixel
  | fastDrawLine
  | fastDrawFastHLine
  | fastDrawFastVLine
  | fastFillRect
  | fastFillScreen
  | fastXorFlood
  | fastXorRect
  | fastFillTriangle
  | fastDrawTriangle
  deriving DecidableEq, Repr

/-- Column "opcode" of R104. -/
def Op.code : Op → BitVec 8
  | .writeCommand => 0x01#8
  | .writeData => 0x02#8
  | .readData => 0x03#8
  | .clockPulse => 0x04#8
  | .setColumnWindow => 0x10#8
  | .setRowWindow => 0x11#8
  | .setPoint => 0x12#8
  | .setAddrWindow => 0x13#8
  | .pushColor => 0x20#8
  | .pushColors => 0x21#8
  | .flood => 0x22#8
  | .maskingOn => 0x30#8
  | .maskingOff => 0x31#8
  | .flipMask => 0x32#8
  | .overdrawOn => 0x33#8
  | .overdrawOff => 0x34#8
  | .setBackgroundColor => 0x35#8
  | .setForegroundColor => 0x36#8
  | .drawPixel => 0x40#8
  | .drawLine => 0x41#8
  | .drawFastHLine => 0x42#8
  | .drawFastVLine => 0x43#8
  | .fillRect => 0x44#8
  | .fillScreen => 0x45#8
  | .readPixel => 0x46#8
  | .fastFlood => 0x50#8
  | .fastDrawPixel => 0x51#8
  | .fastDrawLine => 0x52#8
  | .fastDrawFastHLine => 0x53#8
  | .fastDrawFastVLine => 0x54#8
  | .fastFillRect => 0x55#8
  | .fastFillScreen => 0x56#8
  | .fastXorFlood => 0x57#8
  | .fastXorRect => 0x58#8
  | .fastFillTriangle => 0x59#8
  | .fastDrawTriangle => 0x5A#8

/-- The 36 operations in the order of R104. -/
def Op.all : List Op :=
  [.writeCommand, .writeData, .readData, .clockPulse] ++
  [.setColumnWindow, .setRowWindow, .setPoint, .setAddrWindow] ++
  [.pushColor, .pushColors, .flood] ++
  [.maskingOn, .maskingOff, .flipMask, .overdrawOn, .overdrawOff, .setBackgroundColor, .setForegroundColor] ++
  [.drawPixel, .drawLine, .drawFastHLine, .drawFastVLine, .fillRect, .fillScreen, .readPixel] ++
  [.fastFlood, .fastDrawPixel, .fastDrawLine, .fastDrawFastHLine, .fastDrawFastVLine, .fastFillRect, .fastFillScreen, .fastXorFlood, .fastXorRect, .fastFillTriangle, .fastDrawTriangle]

/-- The operation whose code is `b`, if R104 assigns one. -/
def Op.ofCode (b : BitVec 8) : Option Op := Op.all.find? (fun m => m.code == b)

/-- What of the field `c` an operation uses (R102, R103). -/
inductive ColourUse where
  | none
  | byte
  | full
  deriving DecidableEq, Repr

/-- The fields an operation uses: the flag, the colour field, and how many of `a0 .. a5`, counted from `a0`
(column "operands" of R104). -/
structure Usage where
  flag   : Bool
  colour : ColourUse
  args   : Nat
  deriving DecidableEq, Repr

/-- Column "operands" of R104, read as the fields it names. -/
def Op.usage : Op → Usage
  | .writeCommand => ⟨false, .byte, 0⟩
  | .writeData => ⟨false, .byte, 0⟩
  | .readData => ⟨false, .none, 0⟩
  | .clockPulse => ⟨false, .none, 0⟩
  | .setColumnWindow => ⟨false, .none, 2⟩
  | .setRowWindow => ⟨false, .none, 2⟩
  | .setPoint => ⟨false, .none, 2⟩
  | .setAddrWindow => ⟨false, .none, 4⟩
  | .pushColor => ⟨false, .full, 0⟩
  | .pushColors => ⟨true, .none, 3⟩
  | .flood => ⟨false, .full, 2⟩
  | .maskingOn => ⟨false, .none, 0⟩
  | .maskingOff => ⟨false, .none, 0⟩
  | .flipMask => ⟨false, .none, 0⟩
  | .overdrawOn => ⟨false, .none, 0⟩
  | .overdrawOff => ⟨false, .none, 0⟩
  | .setBackgroundColor => ⟨false, .full, 0⟩
  | .setForegroundColor => ⟨false, .full, 0⟩
  | .drawPixel => ⟨false, .full, 2⟩
  | .drawLine => ⟨false, .full, 4⟩
  | .drawFastHLine => ⟨false, .full, 3⟩
  | .drawFastVLine => ⟨false, .full, 3⟩
  | .fillRect => ⟨false, .full, 4⟩
  | .fillScreen => ⟨false, .full, 0⟩
  | .readPixel => ⟨false, .none, 2⟩
  | .fastFlood => ⟨false, .byte, 2⟩
  | .fastDrawPixel => ⟨false, .byte, 2⟩
  | .fastDrawLine => ⟨false, .byte, 4⟩
  | .fastDrawFastHLine => ⟨false, .byte, 3⟩
  | .fastDrawFastVLine => ⟨false, .byte, 3⟩
  | .fastFillRect => ⟨false, .byte, 4⟩
  | .fastFillScreen => ⟨false, .byte, 0⟩
  | .fastXorFlood => ⟨false, .byte, 2⟩
  | .fastXorRect => ⟨false, .byte, 4⟩
  | .fastFillTriangle => ⟨false, .byte, 6⟩
  | .fastDrawTriangle => ⟨false, .byte, 6⟩

/-- Why a code is rejected. -/
inductive Reject where
  /-- `op` is a value outside R104 (R110). -/
  | unassignedOp
  /-- A reserved bit or a bit of a field the operation does not use is 1 (R102, R105, R110). -/
  | unusedBitSet
  /-- A wire word that is none of the five wire commands (R108, R111). -/
  | unlistedWireWord
  deriving DecidableEq, Repr

/-- Every bit outside `op` and the used fields is 0 (R102, R105 step 2). -/
def Fields.unusedClear (u : Usage) (f : Fields) : Bool :=
  f.rsv == 0#7 &&
  (u.flag || f.flag == 0#1) &&
  (match u.colour with
    | .none => f.c == 0#16
    | .byte => hi8 f.c == 0#8
    | .full => true) &&
  (decide (0 < u.args) || f.a0 == 0#16) &&
  (decide (1 < u.args) || f.a1 == 0#16) &&
  (decide (2 < u.args) || f.a2 == 0#16) &&
  (decide (3 < u.args) || f.a3 == 0#16) &&
  (decide (4 < u.args) || f.a4 == 0#16) &&
  (decide (5 < u.args) || f.a5 == 0#16)

/-- Assemble the operands of an operation from the fields (R103, R104). -/
def Op.build (f : Fields) : Op → Instr
  | .writeCommand => .writeCommand (lo8 f.c)
  | .writeData => .writeData (lo8 f.c)
  | .readData => .readData
  | .clockPulse => .clockPulse
  | .setColumnWindow => .setColumnWindow (sint16 f.a0) (sint16 f.a1)
  | .setRowWindow => .setRowWindow (sint16 f.a0) (sint16 f.a1)
  | .setPoint => .setPoint (sint16 f.a0) (sint16 f.a1)
  | .setAddrWindow => .setAddrWindow (sint16 f.a0) (sint16 f.a1) (sint16 f.a2) (sint16 f.a3)
  | .pushColor => .pushColor f.c
  | .pushColors => .pushColors (f.a0 ++ f.a1) (uint16 f.a2) (f.flag == 1#1)
  | .flood => .flood f.c (uint32 f.a0 f.a1)
  | .maskingOn => .maskingOn
  | .maskingOff => .maskingOff
  | .flipMask => .flipMask
  | .overdrawOn => .overdrawOn
  | .overdrawOff => .overdrawOff
  | .setBackgroundColor => .setBackgroundColor f.c
  | .setForegroundColor => .setForegroundColor f.c
  | .drawPixel => .drawPixel (sint16 f.a0) (sint16 f.a1) f.c
  | .drawLine => .drawLine (sint16 f.a0) (sint16 f.a1) (sint16 f.a2) (sint16 f.a3) f.c
  | .drawFastHLine => .drawFastHLine (sint16 f.a0) (sint16 f.a1) (sint16 f.a2) f.c
  | .drawFastVLine => .drawFastVLine (sint16 f.a0) (sint16 f.a1) (sint16 f.a2) f.c
  | .fillRect => .fillRect (sint16 f.a0) (sint16 f.a1) (sint16 f.a2) (sint16 f.a3) f.c
  | .fillScreen => .fillScreen f.c
  | .readPixel => .readPixel (sint16 f.a0) (sint16 f.a1)
  | .fastFlood => .fastFlood (lo8 f.c) (uint32 f.a0 f.a1)
  | .fastDrawPixel => .fastDrawPixel (sint16 f.a0) (sint16 f.a1) (lo8 f.c)
  | .fastDrawLine => .fastDrawLine (sint16 f.a0) (sint16 f.a1) (sint16 f.a2) (sint16 f.a3) (lo8 f.c)
  | .fastDrawFastHLine => .fastDrawFastHLine (sint16 f.a0) (sint16 f.a1) (sint16 f.a2) (lo8 f.c)
  | .fastDrawFastVLine => .fastDrawFastVLine (sint16 f.a0) (sint16 f.a1) (sint16 f.a2) (lo8 f.c)
  | .fastFillRect => .fastFillRect (sint16 f.a0) (sint16 f.a1) (sint16 f.a2) (sint16 f.a3) (lo8 f.c)
  | .fastFillScreen => .fastFillScreen (lo8 f.c)
  | .fastXorFlood => .fastXorFlood (lo8 f.c) (uint32 f.a0 f.a1)
  | .fastXorRect => .fastXorRect (sint16 f.a0) (sint16 f.a1) (sint16 f.a2) (sint16 f.a3) (lo8 f.c)
  | .fastFillTriangle =>
    .fastFillTriangle (sint16 f.a0) (sint16 f.a1) (sint16 f.a2) (sint16 f.a3) (sint16 f.a4) (sint16 f.a5) (lo8 f.c)
  | .fastDrawTriangle =>
    .fastDrawTriangle (sint16 f.a0) (sint16 f.a1) (sint16 f.a2) (sint16 f.a3) (sint16 f.a4) (sint16 f.a5) (lo8 f.c)

/-- The decoding procedure of R105. -/
def decodeOpd (w : Descriptor) : Except Reject Instr :=
  let f := Fields.ofWord w
  match Op.ofCode f.op with
  | none => .error .unassignedOp
  | some m => if f.unusedClear m.usage then .ok (m.build f) else .error .unusedBitSet

/-- The five wire commands (R108): `dcx` at the command level and the byte. -/
def decodeWire (w : WireWord) : Except Reject Instr :=
  if w = 0#1 ++ Config.cmdCaset then .ok .caset
  else if w = 0#1 ++ Config.cmdPaset then .ok .paset
  else if w = 0#1 ++ Config.cmdRamwr then .ok .ramwr
  else if w = 0#1 ++ Config.cmdRamrd then .ok .ramrd
  else if w = 0#1 ++ Config.cmdRamrdCont then .ok .ramrdCont
  else .error .unlistedWireWord

/-- Decoding, total on every code of either format. -/
def decode : Code → Except Reject Instr
  | .opd w => decodeOpd w
  | .wire w => decodeWire w

/-- The code whose bits, numbered as spec/opcode_table.json numbers them, are `w`: a 128-bit descriptor, or a 9-bit
wire word in two bytes (the 7 bits above it are 0). -/
def codeOfTableWord (nbits w : Nat) : Option Code :=
  if 16 < nbits then (if w < 2 ^ 128 then some (.opd (BitVec.ofNat 128 w)) else none)
  else if w < 2 ^ 9 then some (.wire (BitVec.ofNat 9 w)) else none

/-- The instruction the decoder reads from a word of the opcode table. -/
def decodeTableWord (nbits w : Nat) : Option Instr :=
  match codeOfTableWord nbits w with
  | none => none
  | some c =>
    match decode c with
    | .ok i => some i
    | .error _ => none

/-! ### The encoder, from the same tables (R101 to R104, R108) -/

/-- A coordinate operand as its descriptor field (R103). -/
def coordField (v : Int) : BitVec 16 := BitVec.ofInt 16 v

/-- High half of a 32-bit unsigned operand (R103). -/
def highField (n : Nat) : BitVec 16 := BitVec.ofNat 16 (n / 65536)

/-- Low half of a 32-bit unsigned operand (R103). -/
def lowField (n : Nat) : BitVec 16 := BitVec.ofNat 16 n

/-- A byte operand in the field `c`, `c[15:8] = 0` (R103). -/
def byteField (b : Byte) : BitVec 16 := 0#8 ++ b

/-- The fields of an operation with the code `m`, all unused fields 0 (R102). -/
def Op.fields (m : Op) (c a0 a1 a2 a3 a4 a5 : BitVec 16) (flag : BitVec 1) : Fields :=
  ⟨m.code, 0#7, flag, c, a0, a1, a2, a3, a4, a5⟩

/-- The code of an instruction (R101 to R104, R108). -/
def encode : Instr → Code
  | .writeCommand b =>
    .opd (Op.fields .writeCommand (byteField b) 0#16 0#16 0#16 0#16 0#16 0#16 0#1).toWord
  | .writeData b =>
    .opd (Op.fields .writeData (byteField b) 0#16 0#16 0#16 0#16 0#16 0#16 0#1).toWord
  | .readData =>
    .opd (Op.fields .readData 0#16 0#16 0#16 0#16 0#16 0#16 0#16 0#1).toWord
  | .clockPulse =>
    .opd (Op.fields .clockPulse 0#16 0#16 0#16 0#16 0#16 0#16 0#16 0#1).toWord
  | .setColumnWindow x1 x2 =>
    .opd (Op.fields .setColumnWindow 0#16 (coordField x1) (coordField x2) 0#16 0#16 0#16 0#16 0#1).toWord
  | .setRowWindow y1 y2 =>
    .opd (Op.fields .setRowWindow 0#16 (coordField y1) (coordField y2) 0#16 0#16 0#16 0#16 0#1).toWord
  | .setPoint x y =>
    .opd (Op.fields .setPoint 0#16 (coordField x) (coordField y) 0#16 0#16 0#16 0#16 0#1).toWord
  | .setAddrWindow x1 y1 x2 y2 =>
    .opd (Op.fields .setAddrWindow 0#16 (coordField x1) (coordField y1) (coordField x2) (coordField y2) 0#16 0#16 0#1).toWord
  | .pushColor color =>
    .opd (Op.fields .pushColor color 0#16 0#16 0#16 0#16 0#16 0#16 0#1).toWord
  | .pushColors addr count first =>
    .opd (Op.fields .pushColors 0#16 (addr.extractLsb' 16 16) (addr.extractLsb' 0 16) (lowField count) 0#16 0#16 0#16 (BitVec.ofBool first)).toWord
  | .flood color length =>
    .opd (Op.fields .flood color (highField length) (lowField length) 0#16 0#16 0#16 0#16 0#1).toWord
  | .maskingOn =>
    .opd (Op.fields .maskingOn 0#16 0#16 0#16 0#16 0#16 0#16 0#16 0#1).toWord
  | .maskingOff =>
    .opd (Op.fields .maskingOff 0#16 0#16 0#16 0#16 0#16 0#16 0#16 0#1).toWord
  | .flipMask =>
    .opd (Op.fields .flipMask 0#16 0#16 0#16 0#16 0#16 0#16 0#16 0#1).toWord
  | .overdrawOn =>
    .opd (Op.fields .overdrawOn 0#16 0#16 0#16 0#16 0#16 0#16 0#16 0#1).toWord
  | .overdrawOff =>
    .opd (Op.fields .overdrawOff 0#16 0#16 0#16 0#16 0#16 0#16 0#16 0#1).toWord
  | .setBackgroundColor color =>
    .opd (Op.fields .setBackgroundColor color 0#16 0#16 0#16 0#16 0#16 0#16 0#1).toWord
  | .setForegroundColor color =>
    .opd (Op.fields .setForegroundColor color 0#16 0#16 0#16 0#16 0#16 0#16 0#1).toWord
  | .drawPixel x y color =>
    .opd (Op.fields .drawPixel color (coordField x) (coordField y) 0#16 0#16 0#16 0#16 0#1).toWord
  | .drawLine x0 y0 x1 y1 color =>
    .opd (Op.fields .drawLine color (coordField x0) (coordField y0) (coordField x1) (coordField y1) 0#16 0#16 0#1).toWord
  | .drawFastHLine x y w color =>
    .opd (Op.fields .drawFastHLine color (coordField x) (coordField y) (coordField w) 0#16 0#16 0#16 0#1).toWord
  | .drawFastVLine x y h color =>
    .opd (Op.fields .drawFastVLine color (coordField x) (coordField y) (coordField h) 0#16 0#16 0#16 0#1).toWord
  | .fillRect x y w h color =>
    .opd (Op.fields .fillRect color (coordField x) (coordField y) (coordField w) (coordField h) 0#16 0#16 0#1).toWord
  | .fillScreen color =>
    .opd (Op.fields .fillScreen color 0#16 0#16 0#16 0#16 0#16 0#16 0#1).toWord
  | .readPixel x y =>
    .opd (Op.fields .readPixel 0#16 (coordField x) (coordField y) 0#16 0#16 0#16 0#16 0#1).toWord
  | .fastFlood c8 length =>
    .opd (Op.fields .fastFlood (byteField c8) (highField length) (lowField length) 0#16 0#16 0#16 0#16 0#1).toWord
  | .fastDrawPixel x y c8 =>
    .opd (Op.fields .fastDrawPixel (byteField c8) (coordField x) (coordField y) 0#16 0#16 0#16 0#16 0#1).toWord
  | .fastDrawLine x0 y0 x1 y1 c8 =>
    .opd (Op.fields .fastDrawLine (byteField c8) (coordField x0) (coordField y0) (coordField x1) (coordField y1) 0#16 0#16 0#1).toWord
  | .fastDrawFastHLine x y w c8 =>
    .opd (Op.fields .fastDrawFastHLine (byteField c8) (coordField x) (coordField y) (coordField w) 0#16 0#16 0#16 0#1).toWord
  | .fastDrawFastVLine x y h c8 =>
    .opd (Op.fields .fastDrawFastVLine (byteField c8) (coordField x) (coordField y) (coordField h) 0#16 0#16 0#16 0#1).toWord
  | .fastFillRect x y w h c8 =>
    .opd (Op.fields .fastFillRect (byteField c8) (coordField x) (coordField y) (coordField w) (coordField h) 0#16 0#16 0#1).toWord
  | .fastFillScreen c8 =>
    .opd (Op.fields .fastFillScreen (byteField c8) 0#16 0#16 0#16 0#16 0#16 0#16 0#1).toWord
  | .fastXorFlood m length =>
    .opd (Op.fields .fastXorFlood (byteField m) (highField length) (lowField length) 0#16 0#16 0#16 0#16 0#1).toWord
  | .fastXorRect x y w h m =>
    .opd (Op.fields .fastXorRect (byteField m) (coordField x) (coordField y) (coordField w) (coordField h) 0#16 0#16 0#1).toWord
  | .fastFillTriangle x0 y0 x1 y1 x2 y2 c8 =>
    .opd (Op.fields .fastFillTriangle (byteField c8) (coordField x0) (coordField y0) (coordField x1) (coordField y1) (coordField x2) (coordField y2) 0#1).toWord
  | .fastDrawTriangle x0 y0 x1 y1 x2 y2 c8 =>
    .opd (Op.fields .fastDrawTriangle (byteField c8) (coordField x0) (coordField y0) (coordField x1) (coordField y1) (coordField x2) (coordField y2) 0#1).toWord
  | .caset => .wire (0#1 ++ Config.cmdCaset)
  | .paset => .wire (0#1 ++ Config.cmdPaset)
  | .ramwr => .wire (0#1 ++ Config.cmdRamwr)
  | .ramrd => .wire (0#1 ++ Config.cmdRamrd)
  | .ramrdCont => .wire (0#1 ++ Config.cmdRamrdCont)

/-! ### The opcode table's own selection test (R105) -/

/-- Column `match` of spec/opcode_table.json. -/
def Op.tableMatch : Op → Descriptor
  | .writeCommand => 0x01000000000000000000000000000000#128
  | .writeData => 0x02000000000000000000000000000000#128
  | .readData => 0x03000000000000000000000000000000#128
  | .clockPulse => 0x04000000000000000000000000000000#128
  | .setColumnWindow => 0x10000000000000000000000000000000#128
  | .setRowWindow => 0x11000000000000000000000000000000#128
  | .setPoint => 0x12000000000000000000000000000000#128
  | .setAddrWindow => 0x13000000000000000000000000000000#128
  | .pushColor => 0x20000000000000000000000000000000#128
  | .pushColors => 0x21000000000000000000000000000000#128
  | .flood => 0x22000000000000000000000000000000#128
  | .maskingOn => 0x30000000000000000000000000000000#128
  | .maskingOff => 0x31000000000000000000000000000000#128
  | .flipMask => 0x32000000000000000000000000000000#128
  | .overdrawOn => 0x33000000000000000000000000000000#128
  | .overdrawOff => 0x34000000000000000000000000000000#128
  | .setBackgroundColor => 0x35000000000000000000000000000000#128
  | .setForegroundColor => 0x36000000000000000000000000000000#128
  | .drawPixel => 0x40000000000000000000000000000000#128
  | .drawLine => 0x41000000000000000000000000000000#128
  | .drawFastHLine => 0x42000000000000000000000000000000#128
  | .drawFastVLine => 0x43000000000000000000000000000000#128
  | .fillRect => 0x44000000000000000000000000000000#128
  | .fillScreen => 0x45000000000000000000000000000000#128
  | .readPixel => 0x46000000000000000000000000000000#128
  | .fastFlood => 0x50000000000000000000000000000000#128
  | .fastDrawPixel => 0x51000000000000000000000000000000#128
  | .fastDrawLine => 0x52000000000000000000000000000000#128
  | .fastDrawFastHLine => 0x53000000000000000000000000000000#128
  | .fastDrawFastVLine => 0x54000000000000000000000000000000#128
  | .fastFillRect => 0x55000000000000000000000000000000#128
  | .fastFillScreen => 0x56000000000000000000000000000000#128
  | .fastXorFlood => 0x57000000000000000000000000000000#128
  | .fastXorRect => 0x58000000000000000000000000000000#128
  | .fastFillTriangle => 0x59000000000000000000000000000000#128
  | .fastDrawTriangle => 0x5A000000000000000000000000000000#128

/-- Column `mask` of spec/opcode_table.json, row by row. -/
def Op.tableMask : Op → Descriptor
  | .writeCommand => 0xFFFFFF00FFFFFFFFFFFFFFFFFFFFFFFF#128
  | .writeData => 0xFFFFFF00FFFFFFFFFFFFFFFFFFFFFFFF#128
  | .readData => 0xFFFFFFFFFFFFFFFFFFFFFFFFFFFFFFFF#128
  | .clockPulse => 0xFFFFFFFFFFFFFFFFFFFFFFFFFFFFFFFF#128
  | .setColumnWindow => 0xFFFFFFFF00000000FFFFFFFFFFFFFFFF#128
  | .setRowWindow => 0xFFFFFFFF00000000FFFFFFFFFFFFFFFF#128
  | .setPoint => 0xFFFFFFFF00000000FFFFFFFFFFFFFFFF#128
  | .setAddrWindow => 0xFFFFFFFF0000000000000000FFFFFFFF#128
  | .pushColor => 0xFFFF0000FFFFFFFFFFFFFFFFFFFFFFFF#128
  | .pushColors => 0xFFFEFFFF000000000000FFFFFFFFFFFF#128
  | .flood => 0xFFFF000000000000FFFFFFFFFFFFFFFF#128
  | .maskingOn => 0xFFFFFFFFFFFFFFFFFFFFFFFFFFFFFFFF#128
  | .maskingOff => 0xFFFFFFFFFFFFFFFFFFFFFFFFFFFFFFFF#128
  | .flipMask => 0xFFFFFFFFFFFFFFFFFFFFFFFFFFFFFFFF#128
  | .overdrawOn => 0xFFFFFFFFFFFFFFFFFFFFFFFFFFFFFFFF#128
  | .overdrawOff => 0xFFFFFFFFFFFFFFFFFFFFFFFFFFFFFFFF#128
  | .setBackgroundColor => 0xFFFF0000FFFFFFFFFFFFFFFFFFFFFFFF#128
  | .setForegroundColor => 0xFFFF0000FFFFFFFFFFFFFFFFFFFFFFFF#128
  | .drawPixel => 0xFFFF000000000000FFFFFFFFFFFFFFFF#128
  | .drawLine => 0xFFFF00000000000000000000FFFFFFFF#128
  | .drawFastHLine => 0xFFFF0000000000000000FFFFFFFFFFFF#128
  | .drawFastVLine => 0xFFFF0000000000000000FFFFFFFFFFFF#128
  | .fillRect => 0xFFFF00000000000000000000FFFFFFFF#128
  | .fillScreen => 0xFFFF0000FFFFFFFFFFFFFFFFFFFFFFFF#128
  | .readPixel => 0xFFFFFFFF00000000FFFFFFFFFFFFFFFF#128
  | .fastFlood => 0xFFFFFF0000000000FFFFFFFFFFFFFFFF#128
  | .fastDrawPixel => 0xFFFFFF0000000000FFFFFFFFFFFFFFFF#128
  | .fastDrawLine => 0xFFFFFF000000000000000000FFFFFFFF#128
  | .fastDrawFastHLine => 0xFFFFFF00000000000000FFFFFFFFFFFF#128
  | .fastDrawFastVLine => 0xFFFFFF00000000000000FFFFFFFFFFFF#128
  | .fastFillRect => 0xFFFFFF000000000000000000FFFFFFFF#128
  | .fastFillScreen => 0xFFFFFF00FFFFFFFFFFFFFFFFFFFFFFFF#128
  | .fastXorFlood => 0xFFFFFF0000000000FFFFFFFFFFFFFFFF#128
  | .fastXorRect => 0xFFFFFF000000000000000000FFFFFFFF#128
  | .fastFillTriangle => 0xFFFFFF00000000000000000000000000#128
  | .fastDrawTriangle => 0xFFFFFF00000000000000000000000000#128

/-- "a word `w` selects the row if and only if `w & mask = match`" (R105). -/
def Op.selects (m : Op) (w : Descriptor) : Bool := (w &&& m.tableMask) == m.tableMatch

end Sys2Proof
end

