-- ==== Sys2Proof/Machine/Operands.lean ====
section
/-! DEFINITION. What an operation computes from its operands alone, on mathematical integers (spec/00_scope R9): clipping
(spec/44 R198), the line walker (R208, R209) and the triangle spans (spec/45 R247). -/

namespace Sys2Proof.Machine

/-- `abs(v)` (R9). -/
def absInt (v : Int) : Int := (v.natAbs : Int)

/-- The low 16 bits of a window value as it is sent (R150). -/
def windowWord (v : Int) : Color := BitVec.ofInt 16 v

/-! ### Bounds and clipping (R198) -/

/-- `inb(x, y)` (R198). -/
def inb (x y : Int) : Bool := decide (0 ≤ x ∧ x < 240 ∧ 0 ≤ y ∧ y < 320)

/-- `clip_h(x, y, w)`: start column, row, length (R198). -/
def clipH (x y w : Int) : Option (Nat × Nat × Nat) :=
  if w ≤ 0 ∨ y < 0 ∨ 320 ≤ y then none
  else
    let x2 := x + w - 1
    if 240 ≤ x ∨ x2 < 0 then none
    else
      let xa := max x 0
      let xb := min x2 239
      some (xa.toNat, y.toNat, (xb - xa + 1).toNat)

/-- `clip_v(x, y, h)`: column, start row, length (R198). -/
def clipV (x y h : Int) : Option (Nat × Nat × Nat) :=
  if h ≤ 0 ∨ x < 0 ∨ 240 ≤ x then none
  else
    let y2 := y + h - 1
    if 320 ≤ y ∨ y2 < 0 then none
    else
      let ya := max y 0
      let yb := min y2 319
      some (x.toNat, ya.toNat, (yb - ya + 1).toNat)

/-- `clip_rect(x, y, w, h)`: left column, top row, width, height (R198). -/
def clipRect (x y w h : Int) : Option (Nat × Nat × Nat × Nat) :=
  if w ≤ 0 ∨ h ≤ 0 then none
  else
    let x2 := x + w - 1
    let y2 := y + h - 1
    if 240 ≤ x ∨ 320 ≤ y ∨ x2 < 0 ∨ y2 < 0 then none
    else
      let xa := max x 0
      let ya := max y 0
      let xb := min x2 239
      let yb := min y2 319
      some (xa.toNat, ya.toNat, (xb - xa + 1).toNat, (yb - ya + 1).toNat)

/-! ### Lines (R208, R209) -/

/-- The loop of `bres`: `n` points still to output, at driving coordinate `x` (R208). -/
def bresWalk (steep : Bool) (dx dy ystep : Int) : Nat → Int → Int → Int → List (Int × Int)
  | 0, _, _, _ => []
  | n + 1, x, y, err =>
    (if steep then (y, x) else (x, y)) ::
      (if err - dy < 0 then bresWalk steep dx dy ystep n (x + 1) (y + ystep) (err - dy + dx)
       else bresWalk steep dx dy ystep n (x + 1) y (err - dy))

/-- `bres` after both swaps: driving coordinate ascending (R208). -/
def bresAscending (steep : Bool) (x0 y0 x1 y1 : Int) : List (Int × Int) :=
  bresWalk steep (x1 - x0) (absInt (y1 - y0)) (if y0 < y1 then 1 else -1) (x1 - x0 + 1).toNat x0 y0 ((x1 - x0) / 2)

/-- `bres` after the steep swap (R208). -/
def bresOrdered (steep : Bool) (x0 y0 x1 y1 : Int) : List (Int × Int) :=
  if x1 < x0 then bresAscending steep x1 y1 x0 y0 else bresAscending steep x0 y0 x1 y1

/-- `bres(x0, y0, x1, y1)`: the points of a sloped line, in order (R208). -/
def bres (x0 y0 x1 y1 : Int) : List (Int × Int) :=
  if absInt (x1 - x0) < absInt (y1 - y0) then bresOrdered true y0 x0 y1 x1 else bresOrdered false x0 y0 x1 y1

/-- What the line dispatcher draws: a horizontal run, a vertical run, or one pixel (R209). -/
inductive Stroke where
  | h (x y w : Int)
  | v (x y h : Int)
  | px (x y : Int)
  deriving DecidableEq, Repr

/-- The line dispatcher (R209): the strokes of a line, in order. -/
def lineStrokes (x0 y0 x1 y1 : Int) : List Stroke :=
  if y0 = y1 then [.h (min x0 x1) y0 (absInt (x1 - x0) + 1)]
  else if x0 = x1 then [.v x0 (min y0 y1) (absInt (y1 - y0) + 1)]
  else (bres x0 y0 x1 y1).map (fun p => .px p.1 p.2)

/-! ### Triangles (R247) -/

/-- One compare-and-swap of two vertices by `y` (R247). -/
def sortByY (p q : Int × Int) : (Int × Int) × (Int × Int) := if q.2 < p.2 then (q, p) else (p, q)

/-- One loop of `tri_spans`: `n` rows still to output, between two edges that start at `xa` and `xb`, with running sums
`sa`, `sb` (R247). Division truncates toward zero (R9). -/
def triRows (xa dxa dya xb dxb dyb : Int) : Nat → Int → Int → Int → List (Int × Int × Int)
  | 0, _, _, _ => []
  | n + 1, y, sa, sb =>
    let a := xa + sa.tdiv dya
    let b := xb + sb.tdiv dyb
    (min a b, y, max a b - min a b + 1) :: triRows xa dxa dya xb dxb dyb n (y + 1) (sa + dxa) (sb + dxb)

/-- `tri_spans` of sorted vertices (R247). -/
def triSorted (x0 y0 x1 y1 x2 y2 : Int) : List (Int × Int × Int) :=
  if y0 = y2 then
    [(min x0 (min x1 x2), y0, max x0 (max x1 x2) - min x0 (min x1 x2) + 1)]
  else
    let last := if y1 = y2 then y1 else y1 - 1
    let y := last + 1
    triRows x0 (x1 - x0) (y1 - y0) x0 (x2 - x0) (y2 - y0) (last - y0 + 1).toNat y0 0 0 ++
      triRows x1 (x2 - x1) (y2 - y1) x0 (x2 - x0) (y2 - y0) (y2 - y + 1).toNat y
        ((x2 - x1) * (y - y1)) ((x2 - x0) * (y - y0))

/-- `tri_spans(x0, y0, x1, y1, x2, y2)`: start column, row, length of each span, top to bottom (R247). -/
def triSpans (x0 y0 x1 y1 x2 y2 : Int) : List (Int × Int × Int) :=
  let a := sortByY (x0, y0) (x1, y1)
  let b := sortByY a.2 (x2, y2)
  let c := sortByY a.1 b.1
  triSorted c.1.1 c.1.2 c.2.1 c.2.2 b.2.1 b.2.2

end Sys2Proof.Machine
end

