-- ==== Sys2Proof/Machine/Store.lean ====
section
/-! DEFINITION. Tables: reading one key, writing one key, dropping a range of keys. Every memory of the machine (GRAM,
PixMem, the overdraw memory) is read and written through these. -/

namespace Sys2Proof.Machine

/-- What the table holds under `k`. -/
def Table.lookup {α : Type} (t : Table α) (k : Nat) : Option α :=
  match t with
  | [] => none
  | (a, v) :: rest => if k = a then some v else Table.lookup rest k

/-- Write `v` under `k`, keeping the keys rising. -/
def Table.insert {α : Type} (t : Table α) (k : Nat) (v : α) : Table α :=
  match t with
  | [] => [(k, v)]
  | (a, w) :: rest =>
    if k < a then (k, v) :: (a, w) :: rest
    else if k = a then (k, v) :: rest
    else (a, w) :: Table.insert rest k v

/-- Drop the keys `lo .. lo + n - 1`. -/
def Table.eraseRange {α : Type} (t : Table α) (lo n : Nat) : Table α :=
  t.filter (fun e => !(decide (lo ≤ e.1) && decide (e.1 < lo + n)))

/-- Every key of the table is greater than `k`. -/
def Table.above {α : Type} (k : Nat) (t : Table α) : Bool :=
  t.all (fun e => decide (k < e.1))

/-- The canonical form: keys strictly rising. Two tables in it that hold the same under every key are equal. -/
def Table.wf {α : Type} : Table α → Bool
  | [] => true
  | (a, _) :: rest => Table.above a rest && Table.wf rest

/-- Every key is below `n`. -/
def Table.below {α : Type} (n : Nat) (t : Table α) : Bool :=
  t.all (fun e => decide (e.1 < n))

/-- A memory of `n` units is in its canonical form and lists no address that does not exist. -/
def Memory.wf {α : Type} (n : Nat) (t : Table α) : Bool := t.wf && t.below n

end Sys2Proof.Machine
end

