-- ==== Sys2Proof/Machine/PanelOps.lean ====
section
/-! DEFINITION. The reference panel's reaction to each frame (spec/20_memory R70 to R80). It moves only here (R71). -/

namespace Sys2Proof.Machine

/-- The table key of the GRAM cell in column `x`, row `y` (R60). -/
def cellKey (x y : Nat) : Nat := y * 240 + x

/-- What the GRAM cell in column `x`, row `y` holds; a cell nothing has written holds its own free value (R79, log 6). -/
def Panel.cell (p : Panel) (x y : Nat) : Color :=
  (p.gram.lookup (cellKey x y)).getD (Config.gramInit (cellKey x y))

/-- The window registers lie inside the panel, start ≤ end (R78). -/
def Panel.windowInRange (p : Panel) : Bool :=
  decide (p.pXs.toNat ≤ p.pXe.toNat ∧ p.pXe.toNat < 240 ∧ p.pYs.toNat ≤ p.pYe.toNat ∧ p.pYe.toNat < 320)

/-- The cursor names a GRAM cell (R60). -/
def Panel.cursorInRange (p : Panel) : Bool := decide (p.pCx < 240 ∧ p.pCy < 320)

/-- What a pixel frame meets before it does anything: a bad window (R78), a cursor on no cell (log 14), or nothing. -/
def Panel.pixelRefusal (p : Panel) : Option PanelRefusal :=
  if !p.windowInRange then some .windowOutOfRange
  else if !p.cursorInRange then some .cursorOutOfRange
  else none

/-- Cursor advance (R75). -/
def Panel.advance (p : Panel) : Panel :=
  if p.pXe.toNat < p.pCx + 1 then
    { p with
      pCx := p.pXs.toNat
      pCy := if p.pYe.toNat < p.pCy + 1 then p.pYs.toNat else p.pCy + 1 }
  else { p with pCx := p.pCx + 1 }

/-- `gram[p_cy][p_cx] <- v` (R74). -/
def Panel.storePixel (p : Panel) (v : Color) : Panel :=
  { p with gram := p.gram.insert (cellKey p.pCx p.pCy) v }

/-- A command frame (R72): whatever was open is closed, then `b` opens. -/
def Panel.onCommand (dummies : Nat) (b : Byte) (p : Panel) : Panel :=
  if b = Config.cmdCaset then { p with pK := 0, pHalf := .none, pOpen := .caset }
  else if b = Config.cmdPaset then { p with pK := 0, pHalf := .none, pOpen := .paset }
  else if b = Config.cmdRamwr then
    { p with pK := 0, pHalf := .none, pOpen := .ramwr, pCx := p.pXs.toNat, pCy := p.pYs.toNat }
  else if b = Config.cmdRamrd then
    { p with pK := 0, pHalf := .none, pOpen := .ramrd, pCx := p.pXs.toNat, pCy := p.pYs.toNat, pDummy := dummies }
  else if b = Config.cmdRamrdCont then { p with pK := 0, pHalf := .none, pOpen := .ramrd, pDummy := dummies }
  else { p with pK := 0, pHalf := .none, pOpen := .other }

/-- `p_par[p_k] <- b ; p_k <- p_k + 1` (R73). -/
def Panel.pushParam (b : Byte) (p : Panel) : Panel :=
  match p.pK with
  | 0 => { p with pPar0 := b, pK := 1 }
  | 1 => { p with pPar1 := b, pK := 2 }
  | 2 => { p with pPar2 := b, pK := 3 }
  | 3 => { p with pPar3 := b, pK := 4 }
  | _ => p

/-- A data frame under CASET (R73): the fourth parameter writes the column window, a fifth is ignored. -/
def Panel.onColumnParam (b : Byte) (p : Panel) : Panel :=
  let q := p.pushParam b
  if p.pK = 3 then { q with pXs := q.pPar0 ++ q.pPar1, pXe := q.pPar2 ++ q.pPar3 } else q

/-- A data frame under PASET (R73): the fourth parameter writes the row window, a fifth is ignored. -/
def Panel.onRowParam (b : Byte) (p : Panel) : Panel :=
  let q := p.pushParam b
  if p.pK = 3 then { q with pYs := q.pPar0 ++ q.pPar1, pYe := q.pPar2 ++ q.pPar3 } else q

/-- A data frame under RAMWR with a good window and cursor (R74). -/
def Panel.onPixelByte (b : Byte) (p : Panel) : Panel :=
  match p.format with
  | .twoBytes =>
    match p.pHalf with
    | .byte h => ({ p with pHalf := .none }.storePixel (h ++ b)).advance
    | _ => { p with pHalf := .byte b }
  | .oneByte => (p.storePixel (0#8 ++ b)).advance

/-- A data frame (R73, R74, R77). -/
def Panel.onData (b : Byte) (p : Panel) : PanelView :=
  match p.pOpen with
  | .caset => .known (p.onColumnParam b)
  | .paset => .known (p.onRowParam b)
  | .ramwr =>
    match p.pixelRefusal with
    | some why => .unspecified why
    | none => .known (p.onPixelByte b)
  | .none => .unspecified .protocolViolation
  | .ramrd => .unspecified .protocolViolation
  | .other => .unspecified .protocolViolation

/-- The byte of pixel data a read frame returns past the dummies (R76). -/
def Panel.pixelByte (p : Panel) : Byte :=
  match p.format with
  | .twoBytes =>
    match p.pHalf with
    | .none => hi8 (p.cell p.pCx p.pCy)
    | _ => lo8 (p.cell p.pCx p.pCy)
  | .oneByte => lo8 (p.cell p.pCx p.pCy)

/-- The panel after that read frame (R76). DESIGN CHOICE (log 23): behind the window's last pixel a read stream goes on at its
first (R75), so a stream longer than the window reads a pixel again; R241 and R316 say a pixel is read once. -/
def Panel.afterPixelByte (p : Panel) : Panel :=
  match p.format with
  | .twoBytes =>
    match p.pHalf with
    | .none => { p with pHalf := .second }
    | _ => { p with pHalf := .none }.advance
  | .oneByte => p.advance

/-- The byte the panel drives in a read frame; `free` stands where the spec says `any` (R76, R77). -/
def Panel.readByte (free : Byte) (p : Panel) : Byte :=
  if p.pOpen ≠ .ramrd then free
  else if 0 < p.pDummy then free
  else
    match p.pixelRefusal with
    | some _ => free
    | none => p.pixelByte

/-- The panel after a read frame (R76, R77, R78). -/
def Panel.onRead (p : Panel) : PanelView :=
  if p.pOpen ≠ .ramrd then .unspecified .protocolViolation
  else if 0 < p.pDummy then .known { p with pDummy := p.pDummy - 1 }
  else
    match p.pixelRefusal with
    | some why => .unspecified why
    | none => .known p.afterPixelByte

/-! ### The panel as far as it is known (R77, R78, log 4) -/

/-- A write frame reaches the panel (R71). An unspecified panel stays unspecified. -/
def PanelView.onWrite (dummies : Nat) (k : WriteKind) (b : Byte) (v : PanelView) : PanelView :=
  match v with
  | .unspecified why => .unspecified why
  | .known p =>
    match k with
    | .cmd => .known (p.onCommand dummies b)
    | .dat => p.onData b

/-- The byte a read frame returns. -/
def PanelView.readByte (free : Byte) (v : PanelView) : Byte :=
  match v with
  | .unspecified _ => free
  | .known p => p.readByte free

/-- The panel after a read frame. -/
def PanelView.onRead (v : PanelView) : PanelView :=
  match v with
  | .unspecified why => .unspecified why
  | .known p => p.onRead

/-- The panel handles one frame of the log (R71). -/
def PanelView.onFrame (dummies : Nat) (v : PanelView) (f : Frame) : PanelView :=
  match f with
  | .cmd b => v.onWrite dummies .cmd b
  | .dat b => v.onWrite dummies .dat b
  | .rd _ => v.onRead

/-- The panel handles a list of frames, in order (R71, R81). -/
def PanelView.onFrames (dummies : Nat) (v : PanelView) (fs : List Frame) : PanelView :=
  fs.foldl (PanelView.onFrame dummies) v

end Sys2Proof.Machine
end

