-- ==== Sys2Proof/Machine/Ops.lean ====
section
/-! DEFINITION. The shared operations over the state: bus cycles at pin and frame level (spec/40), the window procedures
(spec/41), pixel streams (spec/42, 45), the overdraw memory (spec/10 R29 to R31), the pixel source memory (R62), and the
record of a fault of the host port (R33), which is all the block has in place of taking an exception (R270, R278). -/

namespace Sys2Proof.Machine

/-! ### Timing (R140) -/

/-- `READ_SETTLE_CYCLES = max(1, ceil(400 ns * TARGET_CLOCK_HZ))` (R140). -/
def readSettleCycles (hz : Nat) : Nat := max 1 ((Config.readSettleNs * hz + 999999999) / 1000000000)

/-- This build's wait reaches the settle time (R133 step 4, R312). -/
def settleMet (s : State) : Bool := decide (readSettleCycles s.targetClockHz ≤ s.settleCycles)

/-! ### The write cycle (R130, R131) -/

/-- Chip-select is high from before an operation's first bus cycle (R137). -/
def selectChip (s : State) : State := { s with cs := true }

/-- Step 1: the byte is placed on the lines (R131). -/
def writeStep1 (b : Byte) (s : State) : State := { s with busPhase := .selecting, dout := b }

/-- Step 2: the select line goes to its level (R131). -/
def writeStep2 (k : WriteKind) (s : State) : State := { s with dcx := decide (k = .dat) }

/-- Step 3: the clock line is raised (R131). -/
def writeStep3 (s : State) : State := { s with busPhase := .clocking, wr := true }

/-- Step 4: the clock line is lowered (R131). -/
def writeStep4 (s : State) : State := { s with wr := false }

/-- The frame a write cycle appends (R12). -/
def writeFrame (k : WriteKind) (b : Byte) : Frame :=
  match k with
  | .cmd => .cmd b
  | .dat => .dat b

/-- Step 5: the frame is appended, and the panel handles it (R130, R131). -/
def writeStep5 (k : WriteKind) (b : Byte) (s : State) : State :=
  { s with
    busPhase := .settled
    txlog := s.txlog ++ [writeFrame k b]
    panel := s.panel.onWrite s.readDummyReads k b }

/-- Step 6: the bus is idle again (R131). -/
def writeStep6 (s : State) : State := { s with busPhase := .idle }

/-- `bus_write(kind, b)` (R130) as the steps of R131. -/
def busWrite (k : WriteKind) (b : Byte) (s : State) : State :=
  writeStep6 (writeStep5 k b (writeStep4 (writeStep3 (writeStep2 k (writeStep1 b (selectChip s))))))

/-- The states a write cycle passes through, in order: chip-select high, then after each step (R131). -/
def busWriteStates (k : WriteKind) (b : Byte) (s : State) : List State :=
  let s0 := selectChip s
  let s1 := writeStep1 b s0
  let s2 := writeStep2 k s1
  let s3 := writeStep3 s2
  let s4 := writeStep4 s3
  let s5 := writeStep5 k b s4
  [s0, s1, s2, s3, s4, s5, writeStep6 s5]

/-- Several write cycles in a row. -/
def emitAll (fs : List (WriteKind × Byte)) (s : State) : State := fs.foldl (fun s f => busWrite f.1 f.2 s) s

/-! ### The read cycle (R132, R133) -/

/-- Step 1: the lines are released (R133). -/
def readStep1 (s : State) : State := { s with busPhase := .selecting, busDir := .read }

/-- Step 2: the select line is at the data level (R133). -/
def readStep2 (s : State) : State := { s with dcx := true }

/-- Step 3: the read request is issued (R133). Step 4, the wait, changes nothing (R140). -/
def readStep3 (s : State) : State := { s with busPhase := .clocking, rd := true }

/-- Step 5: the lines are sampled (R133). -/
def readStep5 (s : State) : State := { s with busPhase := .settled }

/-- Step 6: the read request ends (R133). -/
def readStep6 (s : State) : State := { s with rd := false }

/-- Step 7: the lines are driven again (R133). -/
def readStep7 (s : State) : State := { s with busDir := .write }

/-- Step 8: the frame is appended, and the panel handles it (R132, R133). One free value has been offered (log 10). -/
def readStep8 (v : Byte) (s : State) : State :=
  { s with
    busPhase := .idle
    txlog := s.txlog ++ [.rd v]
    panel := s.panel.onRead
    freeDraws := s.freeDraws + 1 }

/-- The byte sampled: the panel's, if the settle time is met (R76, R274); else `any` (R312, log 11). -/
def sampledByte (s : State) : Byte :=
  if settleMet s then s.panel.readByte (Config.freeByte s.freeDraws) else Config.freeByte s.freeDraws

/-- The state after `bus_read()` (R132) as the steps of R133. -/
def busRead (s : State) : State :=
  readStep8 (sampledByte s) (readStep7 (readStep6 (readStep5 (readStep3 (readStep2 (readStep1 (selectChip s)))))))

/-- The states a read cycle passes through, in order: chip-select high, then after each step (R133). -/
def busReadStates (s : State) : List State :=
  let s0 := selectChip s
  let s1 := readStep1 s0
  let s2 := readStep2 s1
  let s3 := readStep3 s2
  let s5 := readStep5 s3
  let s6 := readStep6 s5
  let s7 := readStep7 s6
  [s0, s1, s2, s3, s5, s6, s7, readStep8 (sampledByte s) s7]

/-- The bytes of `n` read cycles in a row, and the state after them. -/
def busReads : Nat → State → List Byte × State
  | 0, s => ([], s)
  | n + 1, s =>
    let r := busReads n (busRead s)
    (sampledByte s :: r.1, r.2)

/-! ### The clock pulse (R134) -/

/-- One half of the clock pulse: the byte already in `dout` is clocked again (R134; its phases are log 16). -/
def pulseOnce (s : State) : State := writeStep6 (writeStep5 .dat s.dout (writeStep4 (writeStep3 s)))

/-- `bus_pulse2()` (R134). -/
def busPulse2 (s : State) : State := pulseOnce (pulseOnce (writeStep2 .dat (selectChip s)))

/-- The end of an operation: chip-select is low (R35, R137). -/
def finish (s : State) : State := { s with cs := false }

/-- `prim_state <- p` (R36). -/
def setPrim (p : PrimState) (s : State) : State := { s with primState := p }

/-! ### The overdraw memory (R29 to R31) -/

/-- `memo_clear_all()` (R31). -/
def memoClearAll (s : State) : State := { s with rowMemo := [], colMemo := [] }

/-- A horizontal run of `n` pixels of colour `k` was sent on row `y` from column `x` (R30). -/
def memoRow (x y n : Nat) (k : Color) (s : State) : State :=
  { s with rowMemo := s.rowMemo.insert y ⟨x, n, k⟩, colMemo := s.colMemo.eraseRange x n }

/-- A vertical run of `n` pixels of colour `k` was sent on column `x` from row `y` (R30). -/
def memoCol (x y n : Nat) (k : Color) (s : State) : State :=
  { s with colMemo := s.colMemo.insert x ⟨y, n, k⟩, rowMemo := s.rowMemo.eraseRange y n }

/-- A single pixel was sent (R30). -/
def memoPixel (x y : Nat) (s : State) : State :=
  { s with rowMemo := s.rowMemo.eraseRange y 1, colMemo := s.colMemo.eraseRange x 1 }

/-! ### Window procedures (R150 to R152) -/

/-- "stream logically closed, no bus activity" (R150, R36). -/
def dropStream (s : State) : State := if s.primState = .streaming then setPrim .idle s else s

/-- The five frames of a window command: the byte, then start and end, high byte first (R107, R150). -/
def windowFrames (c : Byte) (u1 u2 : Color) : List (WriteKind × Byte) :=
  [(.cmd, c), (.dat, hi8 u1), (.dat, lo8 u1), (.dat, hi8 u2), (.dat, lo8 u2)]

/-- `win_cols(x1, x2)` (R150). -/
def winCols (x1 x2 : Int) (s : State) : State :=
  let t := emitAll (windowFrames Config.cmdCaset (windowWord x1) (windowWord x2)) (dropStream s)
  { t with winX1 := windowWord x1, winX2 := windowWord x2, winColSet := true, primState := .windowSet }

/-- `win_rows(y1, y2)` (R151). -/
def winRows (y1 y2 : Int) (s : State) : State :=
  let t := emitAll (windowFrames Config.cmdPaset (windowWord y1) (windowWord y2)) (dropStream s)
  { t with winY1 := windowWord y1, winY2 := windowWord y2, winRowSet := true, primState := .windowSet }

/-- `win_set(x1, y1, x2, y2)` (R152). -/
def winSet (x1 y1 x2 y2 : Int) (s : State) : State := winRows y1 y2 (winCols x1 x2 s)

/-! ### Pixel streams (R165 to R167, R230, R231, R240) -/

/-- `stream_begin()` (R165). -/
def streamBegin (s : State) : State := setPrim .streaming (busWrite .cmd Config.cmdRamwr s)

/-- The two data frames of `px16(k)` (R166). -/
def px16Frames (k : Color) : List (WriteKind × Byte) := [(.dat, hi8 k), (.dat, lo8 k)]

/-- `px16(k)` (R166). -/
def px16 (k : Color) (s : State) : State := emitAll (px16Frames k) s

/-- `flood16(k, n)` (R167). -/
def flood16 (k : Color) (n : Nat) (s : State) : State :=
  if n = 0 then s else emitAll (List.replicate n (px16Frames k)).flatten (streamBegin s)

/-- `px8(v)` (R230). -/
def px8 (v : Byte) (s : State) : State := busWrite .dat v s

/-- `flood8(v, n)` (R231). -/
def flood8 (v : Byte) (n : Nat) (s : State) : State :=
  if n = 0 then s else emitAll (List.replicate n (.dat, v)) (streamBegin s)

/-- `emit Cmd(0x2E) ; prim_state <- Streaming`, then the dummy reads, their values discarded (R207, R240). -/
def readBegin (s : State) : State :=
  (busReads s.readDummyReads (setPrim .streaming (busWrite .cmd Config.cmdRamrd s))).2

/-- `xbuf[0 .. n-1] <-` the bytes read (R28, R240). -/
def fillXbuf (bs : List Byte) (s : State) : State := { s with xbuf := bs ++ s.xbuf.drop bs.length }

/-- `xor_run(m, n)` (R240). -/
def xorRun (m : Byte) (n : Nat) (s : State) : State :=
  let r := busReads n (readBegin s)
  let t := fillXbuf r.1 r.2
  emitAll ((t.xbuf.take n).map (fun b => (.dat, b ^^^ m))) (streamBegin t)

/-! ### The pixel source memory (R62) -/

/-- `MemRead(addr, 2)`: a word nothing has stored is `any` (R62, U14, log 7). -/
def pixMemWord (addr : BitVec 32) (s : State) : Color :=
  (s.pixMem.lookup addr.toNat).getD (Config.freeWord s.freeDraws)

/-- One free value has been offered to a memory read (log 10). -/
def countDraw (s : State) : State := { s with freeDraws := s.freeDraws + 1 }

/-- The loop of `pushColors`: `n` words from `addr` on, each sent as one pixel (R169). -/
def pushWords : Nat → BitVec 32 → State → State
  | 0, _, s => s
  | n + 1, addr, s => pushWords n (addr + 1#32) (px16 (pixMemWord addr s) (countDraw s))

/-! ### Faults of the host port (R33, R110, R241) -/

/-- `err_illegal <- 1`, and nothing else (R33, R110, R241). -/
def recordIllegal (s : State) : State := { s with errIllegal := true }

/-! ### The command frame alone (R135) -/

/-- `bus_write(Cmd, b)` and the tracking updates of R135. -/
def rawCommand (b : Byte) (s : State) : State :=
  let t := busWrite .cmd b s
  let t := setPrim
    (if b = Config.cmdRamwr ∨ b = Config.cmdRamrd ∨ b = Config.cmdRamrdCont then .streaming else .idle) t
  let t := if b = Config.cmdCaset then { t with winColSet := false } else t
  let t := if b = Config.cmdPaset then { t with winRowSet := false } else t
  finish (memoClearAll t)

end Sys2Proof.Machine
end

