-- ==== Sys2Proof/Machine/Compositing.lean ====
section
/-! DEFINITION. Compositing control (spec/43): each operation writes exactly one register and moves no frame (R187). -/

namespace Sys2Proof.Machine

/-- `masking_on` (R180). -/
def execMaskingOn (s : State) : Host.Outcome State Fault Refusal := .next { s with doMasking := true }

/-- `masking_off` (R181). -/
def execMaskingOff (s : State) : Host.Outcome State Fault Refusal := .next { s with doMasking := false }

/-- `flip_mask` (R182). -/
def execFlipMask (s : State) : Host.Outcome State Fault Refusal := .next { s with maskFlag := !s.maskFlag }

/-- `overdraw_on` (R183). -/
def execOverdrawOn (s : State) : Host.Outcome State Fault Refusal := .next { s with doOverdraw := true }

/-- `overdraw_off` (R184). -/
def execOverdrawOff (s : State) : Host.Outcome State Fault Refusal := .next { s with doOverdraw := false }

/-- `setBackgroundColor color` (R185). -/
def execSetBackgroundColor (color : Color) (s : State) : Host.Outcome State Fault Refusal :=
  .next { s with backgroundColor := color }

/-- `setForegroundColor color` (R186). -/
def execSetForegroundColor (color : Color) (s : State) : Host.Outcome State Fault Refusal :=
  .next { s with foregroundColor := color }

end Sys2Proof.Machine
end

