-- ==== Sys2Proof/Machine/Fast8.lean ====
section
/-! DEFINITION. Fast 8-bit Path (spec/45). No operation here reads or writes the compositing state (R232). -/

namespace Sys2Proof.Machine

/-! ### Shared pieces -/

/-- `fpixel(x, y, v)` (R244). -/
def fpixel (x y : Int) (v : Byte) (s : State) : State :=
  if inb x y then px8 v (streamBegin (winSet x y x y s)) else s

/-- `fh(x, y, w, v)` (R244). -/
def fh (x y w : Int) (v : Byte) (s : State) : State :=
  match clipH x y w with
  | none => s
  | some (xa, ya, n) => flood8 v n (winSet xa ya ((xa : Int) + n - 1) ya s)

/-- `fv(x, y, h, v)` (R244). -/
def fv (x y h : Int) (v : Byte) (s : State) : State :=
  match clipV x y h with
  | none => s
  | some (xa, ya, n) => flood8 v n (winSet xa ya xa ((ya : Int) + n - 1) s)

/-- One stroke of a line on the fast path (R209, R237). -/
def stroke8 (v : Byte) (s : State) : Stroke → State
  | .h x y w => fh x y w v s
  | .v x y h => fv x y h v s
  | .px x y => fpixel x y v s

/-- The body of `fastFillRect` (R238). -/
def fillRect8 (x y w h : Int) (v : Byte) (s : State) : State :=
  match clipRect x y w h with
  | none => s
  | some (xa, ya, wa, ha) =>
    if wa = 240 then flood8 v (240 * ha) (winSet 0 ya 239 ((ya : Int) + ha - 1) s)
    else (List.range' ya ha).foldl (fun t (j : Nat) => flood8 v wa (winSet xa j ((xa : Int) + wa - 1) j t)) s

/-- The body of `fastXORRect`: one run per scanline (R242). -/
def xorRect8 (x y w h : Int) (m : Byte) (s : State) : State :=
  match clipRect x y w h with
  | none => s
  | some (xa, ya, wa, ha) =>
    (List.range' ya ha).foldl (fun t (j : Nat) => xorRun m wa (winSet xa j ((xa : Int) + wa - 1) j t)) s

/-- The operation appended at least one frame (R245). -/
def emitted (s t : State) : Bool := decide (s.txlog.length < t.txlog.length)

/-- `fast_end` of an operation that began in `s` and has come to `t` (R245); chip-select goes low (R137). -/
def fastEnd (s t : State) : State := finish (setPrim .idle (if emitted s t then memoClearAll t else t))

/-! ### Operations -/

/-- `fastFlood c8, length` (R233). -/
def fastFloodOp (c8 : Byte) (length : Nat) (s : State) : State :=
  if length = 0 then s else finish (memoClearAll (flood8 c8 length s))

/-- `fastFlood c8, length` (R233). -/
def execFastFlood (c8 : Byte) (length : Nat) (s : State) : Host.Outcome State Fault Refusal :=
  .next (fastFloodOp c8 length s)

/-- `fastDrawPixel x, y, c8` (R234). -/
def execFastDrawPixel (x y : Int) (c8 : Byte) (s : State) : Host.Outcome State Fault Refusal :=
  .next (fastEnd s (fpixel x y c8 s))

/-- `fastDrawFastHLine x, y, w, c8` (R235). -/
def execFastDrawFastHLine (x y w : Int) (c8 : Byte) (s : State) : Host.Outcome State Fault Refusal :=
  .next (fastEnd s (fh x y w c8 s))

/-- `fastDrawFastVLine x, y, h, c8` (R236). -/
def execFastDrawFastVLine (x y h : Int) (c8 : Byte) (s : State) : Host.Outcome State Fault Refusal :=
  .next (fastEnd s (fv x y h c8 s))

/-- `fastDrawLine x0, y0, x1, y1, c8` (R237). -/
def execFastDrawLine (x0 y0 x1 y1 : Int) (c8 : Byte) (s : State) : Host.Outcome State Fault Refusal :=
  .next (fastEnd s ((lineStrokes x0 y0 x1 y1).foldl (stroke8 c8) s))

/-- `fastFillRect x, y, w, h, c8` (R238). -/
def execFastFillRect (x y w h : Int) (c8 : Byte) (s : State) : Host.Outcome State Fault Refusal :=
  .next (fastEnd s (fillRect8 x y w h c8 s))

/-- `fastFillScreen c8`: exactly `fastFillRect 0, 0, W, H, c8` (R239). -/
def execFastFillScreen (c8 : Byte) (s : State) : Host.Outcome State Fault Refusal :=
  .next (fastEnd s (fillRect8 0 0 240 320 c8 s))

/-- `fastXORFlood m, length` (R241): a length above `XBUF_BYTES` is not performed and recorded (log 3). DESIGN CHOICE (log 23):
a length above the window's pixel count runs, and the panel's cursor wraps in the reads as in the writes. -/
def fastXorFloodOp (m : Byte) (length : Nat) (s : State) : State :=
  if length = 0 then s
  else if Config.xbufBytes < length then recordIllegal s
  else finish (memoClearAll (xorRun m length s))

/-- `fastXORFlood m, length` (R241). -/
def execFastXorFlood (m : Byte) (length : Nat) (s : State) : Host.Outcome State Fault Refusal :=
  .next (fastXorFloodOp m length s)

/-- `fastXORRect x, y, w, h, m` (R242). -/
def execFastXorRect (x y w h : Int) (m : Byte) (s : State) : Host.Outcome State Fault Refusal :=
  .next (fastEnd s (xorRect8 x y w h m s))

/-- `fastFillTriangle x0, y0, x1, y1, x2, y2, c8` (R246). -/
def execFastFillTriangle (x0 y0 x1 y1 x2 y2 : Int) (c8 : Byte) (s : State) : Host.Outcome State Fault Refusal :=
  .next (fastEnd s ((triSpans x0 y0 x1 y1 x2 y2).foldl (fun t sp => fh sp.1 sp.2.1 sp.2.2 c8 t) s))

/-- `fastDrawTriangle x0, y0, x1, y1, x2, y2, c8`: edges 0-1, 1-2, 2-0 (R248). -/
def execFastDrawTriangle (x0 y0 x1 y1 x2 y2 : Int) (c8 : Byte) (s : State) : Host.Outcome State Fault Refusal :=
  .next (fastEnd s
    ((lineStrokes x0 y0 x1 y1 ++ lineStrokes x1 y1 x2 y2 ++ lineStrokes x2 y2 x0 y0).foldl (stroke8 c8) s))

end Sys2Proof.Machine
end

