-- ==== Sys2Proof/Machine/Rendering.lean ====
section
/-! DEFINITION. Rendering Primitives, 16-bit path (spec/44). -/

namespace Sys2Proof.Machine

/-! ### Shared pieces -/

/-- `pixel16(x, y, k)` (R196). -/
def pixel16 (x y : Int) (k : Color) (s : State) : State :=
  if inb x y then memoPixel x.toNat y.toNat (px16 k (streamBegin (winSet x y x y s))) else s

/-- `hrun(x, y, n, k)` (R199). -/
def hrun (x y n : Nat) (k : Color) (s : State) : State :=
  if s.doOverdraw ∧ s.rowMemo.lookup y = some ⟨x, n, k⟩ then s
  else memoRow x y n k (flood16 k n (winSet x y ((x : Int) + n - 1) y s))

/-- `vrun(x, y, n, k)` (R200). -/
def vrun (x y n : Nat) (k : Color) (s : State) : State :=
  if s.doOverdraw ∧ s.colMemo.lookup x = some ⟨y, n, k⟩ then s
  else memoCol x y n k (flood16 k n (winSet x y x ((y : Int) + n - 1) s))

/-- `hline16(x, y, w, k)` (R202). -/
def hline16 (x y w : Int) (k : Color) (s : State) : State :=
  match clipH x y w with
  | none => s
  | some (xa, ya, n) => hrun xa ya n k s

/-- `vline16(x, y, h, k)` (R203). -/
def vline16 (x y h : Int) (k : Color) (s : State) : State :=
  match clipV x y h with
  | none => s
  | some (xa, ya, n) => vrun xa ya n k s

/-- One stroke of a line on the 16-bit path (R206, R209). -/
def stroke16 (k : Color) (s : State) : Stroke → State
  | .h x y w => hline16 x y w k s
  | .v x y h => vline16 x y h k s
  | .px x y => pixel16 x y k s

/-- The full-width branch of `fillRect`: one window, one flood, then the memory row by row (R204). -/
def fillFullWidth (y h : Nat) (k : Color) (s : State) : State :=
  let t := flood16 k (240 * h) (winSet 0 y 239 ((y : Int) + h - 1) s)
  let t := (List.range' y h).foldl (fun t j => { t with rowMemo := t.rowMemo.insert j ⟨0, 240, k⟩ }) t
  { t with colMemo := t.colMemo.eraseRange 0 240 }

/-- `fillrect16(x, y, w, h, k)` (R204). -/
def fillRect16 (x y w h : Int) (k : Color) (s : State) : State :=
  match clipRect x y w h with
  | none => s
  | some (xa, ya, wa, ha) =>
    if wa = 240 ∧ s.doOverdraw = false then fillFullWidth ya ha k s
    else (List.range' ya ha).foldl (fun t j => hrun xa j wa k t) s

/-- The end of an operation of this family: `prim_state <- Idle` (R36), chip-select low (R137). -/
def endIdle (s : State) : State := finish (setPrim .idle s)

/-! ### Operations -/

/-- `drawPixel x, y, color` (R197). -/
def execDrawPixel (x y : Int) (color : Color) (s : State) : Host.Outcome State Fault Refusal :=
  .next (endIdle (pixel16 x y (eff s color) s))

/-- `drawFastHLine x, y, w, color` (R202). -/
def execDrawFastHLine (x y w : Int) (color : Color) (s : State) : Host.Outcome State Fault Refusal :=
  .next (endIdle (hline16 x y w (eff s color) s))

/-- `drawFastVLine x, y, h, color` (R203). -/
def execDrawFastVLine (x y h : Int) (color : Color) (s : State) : Host.Outcome State Fault Refusal :=
  .next (endIdle (vline16 x y h (eff s color) s))

/-- `fillRect x, y, w, h, color` (R204). -/
def execFillRect (x y w h : Int) (color : Color) (s : State) : Host.Outcome State Fault Refusal :=
  .next (endIdle (fillRect16 x y w h (eff s color) s))

/-- `fillScreen color`: exactly `fillRect 0, 0, W, H, color` (R205). -/
def execFillScreen (color : Color) (s : State) : Host.Outcome State Fault Refusal :=
  .next (endIdle (fillRect16 0 0 240 320 (eff s color) s))

/-- `drawLine x0, y0, x1, y1, color` (R206). -/
def execDrawLine (x0 y0 x1 y1 : Int) (color : Color) (s : State) : Host.Outcome State Fault Refusal :=
  .next (endIdle ((lineStrokes x0 y0 x1 y1).foldl (stroke16 (eff s color)) s))

/-- The in-bounds part of `readPixel`: the window, the read command, the dummies, high byte, low byte (R207). -/
def readPixelAt (x y : Int) (s : State) : State :=
  let t := readBegin (winSet x y x y s)
  let u := busRead t
  { busRead u with result := sampledByte t ++ sampledByte u }

/-- `readPixel x, y` (R207). -/
def execReadPixel (x y : Int) (s : State) : Host.Outcome State Fault Refusal :=
  .next (endIdle (if inb x y then readPixelAt x y s else { s with result := 0#16 }))

end Sys2Proof.Machine
end

