-- ==== Sys2Proof/Machine/Streaming.lean ====
section
/-! DEFINITION. Pixel Streaming Engine (spec/42). -/

namespace Sys2Proof.Machine

/-- `pushColor color` (R168). -/
def execPushColor (color : Color) (s : State) : Host.Outcome State Fault Refusal :=
  .next (finish (memoClearAll (setPrim .streaming (px16 color s))))

/-- `pushColors addr, count, first` (R169). -/
def pushColors (addr : BitVec 32) (count : Nat) (first : Bool) (s : State) : State :=
  if count = 0 then s
  else
    let t := if first then streamBegin s else s
    finish (memoClearAll (setPrim .streaming (pushWords count addr t)))

/-- `pushColors addr, count, first` (R169). -/
def execPushColors (addr : BitVec 32) (count : Nat) (first : Bool) (s : State) : Host.Outcome State Fault Refusal :=
  .next (pushColors addr count first s)

/-- `flood color, length` (R170). -/
def floodOp (color : Color) (length : Nat) (s : State) : State :=
  if length = 0 then s else finish (memoClearAll (flood16 color length s))

/-- `flood color, length` (R170). -/
def execFlood (color : Color) (length : Nat) (s : State) : Host.Outcome State Fault Refusal :=
  .next (floodOp color length s)

end Sys2Proof.Machine
end

