-- ==== Sys2Proof/Machine/Transport.lean ====
section
/-! DEFINITION. Bus Transport (spec/40): the four transport operations, and the five wire commands issued alone (spec/30
R108, log 1). -/

namespace Sys2Proof.Machine

/-- `writeCommand b` (R135). -/
def execWriteCommand (b : Byte) (s : State) : Host.Outcome State Fault Refusal := .next (rawCommand b s)

/-- `writeData b` (R136). -/
def execWriteData (b : Byte) (s : State) : Host.Outcome State Fault Refusal :=
  .next (finish (memoClearAll (busWrite .dat b s)))

/-- `readData` (R138). -/
def execReadData (s : State) : Host.Outcome State Fault Refusal :=
  .next (finish { busRead s with result := 0#8 ++ sampledByte s })

/-- `clockPulse` (R139). -/
def execClockPulse (s : State) : Host.Outcome State Fault Refusal := .next (finish (memoClearAll (busPulse2 s)))

/-- CASET issued alone (R108, R135, log 1). -/
def execCaset (s : State) : Host.Outcome State Fault Refusal := .next (rawCommand Config.cmdCaset s)

/-- PASET issued alone (R108, R135, log 1). -/
def execPaset (s : State) : Host.Outcome State Fault Refusal := .next (rawCommand Config.cmdPaset s)

/-- RAMWR issued alone (R108, R135, log 1). -/
def execRamwr (s : State) : Host.Outcome State Fault Refusal := .next (rawCommand Config.cmdRamwr s)

/-- RAMRD issued alone (R108, R135, log 1). -/
def execRamrd (s : State) : Host.Outcome State Fault Refusal := .next (rawCommand Config.cmdRamrd s)

/-- RAMRD_CONT issued alone (R108, R109, R135, log 1). -/
def execRamrdCont (s : State) : Host.Outcome State Fault Refusal := .next (rawCommand Config.cmdRamrdCont s)

end Sys2Proof.Machine
end

