-- ==== Sys2Proof/Machine/Window.lean ====
section
/-! DEFINITION. Addressing Window Controller (spec/41). -/

namespace Sys2Proof.Machine

/-- `setColumnWindow x1, x2` (R153). -/
def execSetColumnWindow (x1 x2 : Int) (s : State) : Host.Outcome State Fault Refusal :=
  .next (finish (winCols x1 x2 s))

/-- `setRowWindow y1, y2` (R154). -/
def execSetRowWindow (y1 y2 : Int) (s : State) : Host.Outcome State Fault Refusal :=
  .next (finish (winRows y1 y2 s))

/-- `setPoint x, y` (R155). -/
def execSetPoint (x y : Int) (s : State) : Host.Outcome State Fault Refusal := .next (finish (winSet x y x y s))

/-- `setAddrWindow x1, y1, x2, y2` (R156). -/
def execSetAddrWindow (x1 y1 x2 y2 : Int) (s : State) : Host.Outcome State Fault Refusal :=
  .next (finish (winSet x1 y1 x2 y2 s))

end Sys2Proof.Machine
end

