-- ==== Sys2Proof/Machine/Dispatch.lean ====
section
/-! DEFINITION. One arm for each instruction. -/

namespace Sys2Proof.Machine

def exec (i : Instr) (s : State) : Host.Outcome State Fault Refusal :=
  match i with
  | .writeCommand b => Sys2Proof.Machine.execWriteCommand b s
  | .writeData b => Sys2Proof.Machine.execWriteData b s
  | .readData => Sys2Proof.Machine.execReadData s
  | .clockPulse => Sys2Proof.Machine.execClockPulse s
  | .setColumnWindow x1 x2 => Sys2Proof.Machine.execSetColumnWindow x1 x2 s
  | .setRowWindow y1 y2 => Sys2Proof.Machine.execSetRowWindow y1 y2 s
  | .setPoint x y => Sys2Proof.Machine.execSetPoint x y s
  | .setAddrWindow x1 y1 x2 y2 => Sys2Proof.Machine.execSetAddrWindow x1 y1 x2 y2 s
  | .pushColor color => Sys2Proof.Machine.execPushColor color s
  | .pushColors addr count first => Sys2Proof.Machine.execPushColors addr count first s
  | .flood color length => Sys2Proof.Machine.execFlood color length s
  | .maskingOn => Sys2Proof.Machine.execMaskingOn s
  | .maskingOff => Sys2Proof.Machine.execMaskingOff s
  | .flipMask => Sys2Proof.Machine.execFlipMask s
  | .overdrawOn => Sys2Proof.Machine.execOverdrawOn s
  | .overdrawOff => Sys2Proof.Machine.execOverdrawOff s
  | .setBackgroundColor color => Sys2Proof.Machine.execSetBackgroundColor color s
  | .setForegroundColor color => Sys2Proof.Machine.execSetForegroundColor color s
  | .drawPixel x y color => Sys2Proof.Machine.execDrawPixel x y color s
  | .drawLine x0 y0 x1 y1 color => Sys2Proof.Machine.execDrawLine x0 y0 x1 y1 color s
  | .drawFastHLine x y w color => Sys2Proof.Machine.execDrawFastHLine x y w color s
  | .drawFastVLine x y h color => Sys2Proof.Machine.execDrawFastVLine x y h color s
  | .fillRect x y w h color => Sys2Proof.Machine.execFillRect x y w h color s
  | .fillScreen color => Sys2Proof.Machine.execFillScreen color s
  | .readPixel x y => Sys2Proof.Machine.execReadPixel x y s
  | .fastFlood c8 length => Sys2Proof.Machine.execFastFlood c8 length s
  | .fastDrawPixel x y c8 => Sys2Proof.Machine.execFastDrawPixel x y c8 s
  | .fastDrawLine x0 y0 x1 y1 c8 => Sys2Proof.Machine.execFastDrawLine x0 y0 x1 y1 c8 s
  | .fastDrawFastHLine x y w c8 => Sys2Proof.Machine.execFastDrawFastHLine x y w c8 s
  | .fastDrawFastVLine x y h c8 => Sys2Proof.Machine.execFastDrawFastVLine x y h c8 s
  | .fastFillRect x y w h c8 => Sys2Proof.Machine.execFastFillRect x y w h c8 s
  | .fastFillScreen c8 => Sys2Proof.Machine.execFastFillScreen c8 s
  | .fastXorFlood m length => Sys2Proof.Machine.execFastXorFlood m length s
  | .fastXorRect x y w h m => Sys2Proof.Machine.execFastXorRect x y w h m s
  | .fastFillTriangle x0 y0 x1 y1 x2 y2 c8 => Sys2Proof.Machine.execFastFillTriangle x0 y0 x1 y1 x2 y2 c8 s
  | .fastDrawTriangle x0 y0 x1 y1 x2 y2 c8 => Sys2Proof.Machine.execFastDrawTriangle x0 y0 x1 y1 x2 y2 c8 s
  | .caset => Sys2Proof.Machine.execCaset s
  | .paset => Sys2Proof.Machine.execPaset s
  | .ramwr => Sys2Proof.Machine.execRamwr s
  | .ramrd => Sys2Proof.Machine.execRamrd s
  | .ramrdCont => Sys2Proof.Machine.execRamrdCont s

end Sys2Proof.Machine
end

