-- ==== Sys2Proof/Machine/HostPort.lean ====
section
/-! DEFINITION. The host port: issuing a descriptor, reading a register, reset (spec/10 R46, R47; spec/30 R110; spec/70
R290). Step.lean only calls what stands here. -/

namespace Sys2Proof.Machine

/-- A descriptor is written to OPD: the operation it encodes runs to its end, or, if it is illegal, `err_illegal` is set
and nothing else happens (R100, R110, log 3). -/
def issue (w : Descriptor) (s : State) : Host.Outcome State Fault Refusal :=
  match decode (.opd w) with
  | .ok i => exec i s
  | .error _ => .next (recordIllegal s)

/-- A wire word is asked for alone (R106, R108, log 1, log 21). -/
def issueWire (w : WireWord) (s : State) : Host.Outcome State Fault Refusal :=
  match decode (.wire w) with
  | .ok i => exec i s
  | .error _ => .refused .unlistedWireWord

/-- What the host reads in a register (R46). OPD, and a window register whose valid bit is 0, read as `any`. -/
def hostValue (r : HostReg) (s : State) : Descriptor :=
  match r with
  | .opd => Config.freeDescriptor s.freeDraws
  | .result => 0#112 ++ s.result
  | .status => 0#112 ++ statusWord s
  | .bgcolor => 0#112 ++ s.backgroundColor
  | .fgcolor => 0#112 ++ s.foregroundColor
  | .winX1 => 0#112 ++ (if s.winColSet then s.winX1 else Config.freeWord s.freeDraws)
  | .winX2 => 0#112 ++ (if s.winColSet then s.winX2 else Config.freeWord s.freeDraws)
  | .winY1 => 0#112 ++ (if s.winRowSet then s.winY1 else Config.freeWord s.freeDraws)
  | .winY2 => 0#112 ++ (if s.winRowSet then s.winY2 else Config.freeWord s.freeDraws)

/-- A register read: the block is unchanged (R46); the value goes to the model's own `hostData` (log 17). -/
def readRegister (r : HostReg) (s : State) : State := countDraw { s with hostData := hostValue r s }

/-- A register write (R46): OPD issues; the others are read only and the write does nothing. -/
def writeRegister (r : HostReg) (v : Descriptor) (s : State) : Host.Outcome State Fault Refusal :=
  match r with
  | .opd => issue v s
  | .result => .next s
  | .status => .next s
  | .bgcolor => .next s
  | .fgcolor => .next s
  | .winX1 => .next s
  | .winX2 => .next s
  | .winY1 => .next s
  | .winY2 => .next s

/-- The host stores a word into its own memory (R62). -/
def storeWord (addr : BitVec 32) (v : Color) (s : State) : State :=
  { s with pixMem := s.pixMem.insert addr.toNat v }

/-- The reset event (R290): every piece of the block's state takes its value of R40; the panel, the host's memory and
the parameters are not the block's (R48, R291). -/
def resetBlock (s : State) : State :=
  { State.reset with
    panel := s.panel
    pixMem := s.pixMem
    readDummyReads := s.readDummyReads
    targetClockHz := s.targetClockHz
    settleCycles := s.settleCycles
    hostQueue := s.hostQueue
    hostData := s.hostData
    freeDraws := s.freeDraws }

/-- The frames `t` has and `s` had not: what an operation appended to the log (R34). -/
def newFrames (s t : State) : List Frame := t.txlog.drop s.txlog.length

/-- The reset event abandons an operation that took `s` to `t`, after `cycles` of its bus cycles: the panel has handled
those frames and no more (R290, R71, log 13). -/
def abandon (s t : State) (cycles : Nat) : State :=
  { resetBlock t with panel := s.panel.onFrames s.readDummyReads ((newFrames s t).take cycles) }

/-- A descriptor is written and the reset event comes after `cycles` bus cycles of its operation (R290, log 13). -/
def issueThenReset (w : Descriptor) (cycles : Nat) (s : State) : Host.Outcome State Fault Refusal :=
  match issue w s with
  | .next t => .next (abandon s t cycles)
  | .fault e => .fault e
  | .refused r => .refused r

/-- One host access is served; the queue no longer holds it. -/
def serve (a : HostAccess) (s : State) : Host.Outcome State Fault Refusal :=
  match a with
  | .write r v => writeRegister r v s
  | .read r => .next (readRegister r s)
  | .wire w => issueWire w s
  | .store addr v => .next (storeWord addr v s)
  | .reset => .next (resetBlock s)
  | .writeThenReset v cycles => issueThenReset v cycles s

/-- The next access is taken from the queue and served; with none pending the block is idle (R286). -/
def nextAccess (s : State) : Host.Outcome State Fault Refusal :=
  match s.hostQueue with
  | [] => .next s
  | a :: rest => serve a { s with hostQueue := rest }

/-- The access that issues a code (R46, log 1). -/
def accessOf : Code → HostAccess
  | .opd w => .write .opd w
  | .wire w => .wire w

/-- Put the code of a table word in front of the host's pending accesses (log 2). -/
def placeTableWord (s : State) (nbits w : Nat) : State :=
  match codeOfTableWord nbits w with
  | some c => { s with hostQueue := accessOf c :: s.hostQueue }
  | none => s

end Sys2Proof.Machine
end

