-- ==== Sys2Proof/Safety.lean ====
section
/-! DEFINITION. The terms claims are stated in: what the block sends, what an operation may change, the shapes drawing
operations ask for, the pixels they leave, and the invariants. -/

namespace Sys2Proof.Machine

/-! ### What the block sends, frame by frame -/

/-- A 16-bit value on the bus, high byte first (R63, R107). -/
def wordLog (v : Color) : List Frame := [.dat (hi8 v), .dat (lo8 v)]

/-- The frames of `win_cols` (R150). -/
def columnLog (x1 x2 : Int) : List Frame :=
  .cmd 0x2A#8 :: (wordLog (BitVec.ofInt 16 x1) ++ wordLog (BitVec.ofInt 16 x2))

/-- The frames of `win_rows` (R151). -/
def rowLog (y1 y2 : Int) : List Frame :=
  .cmd 0x2B#8 :: (wordLog (BitVec.ofInt 16 y1) ++ wordLog (BitVec.ofInt 16 y2))

/-- The frames of `win_set` (R152). -/
def windowLog (x1 y1 x2 y2 : Int) : List Frame := columnLog x1 x2 ++ rowLog y1 y2

/-- The frames of `flood16(k, n)`, `n ≥ 1` (R167). -/
def floodLog16 (k : Color) (n : Nat) : List Frame := .cmd 0x2C#8 :: (List.replicate n (wordLog k)).flatten

/-- The frames of `flood8(v, n)`, `n ≥ 1` (R231). -/
def floodLog8 (v : Byte) (n : Nat) : List Frame := .cmd 0x2C#8 :: List.replicate n (.dat v)

/-- The frames of an emitted `hrun` (R199). -/
def hrunLog (x y n : Nat) (k : Color) : List Frame := windowLog x y ((x : Int) + n - 1) y ++ floodLog16 k n

/-- The frames of an emitted `vrun` (R200). -/
def vrunLog (x y n : Nat) (k : Color) : List Frame := windowLog x y x ((y : Int) + n - 1) ++ floodLog16 k n

/-- The frames of `pixel16` (R196). -/
def pixelLog16 (x y : Int) (k : Color) : List Frame := if inb x y then windowLog x y x y ++ floodLog16 k 1 else []

/-- One emission of the fast path: a window, and how many pixels are flooded into it (R231, R244). -/
structure Emission where
  x1 : Int
  y1 : Int
  x2 : Int
  y2 : Int
  n  : Nat
  deriving DecidableEq, Repr

/-- The frames of an emission that paints the byte `v`. -/
def Emission.log (v : Byte) (e : Emission) : List Frame := windowLog e.x1 e.y1 e.x2 e.y2 ++ floodLog8 v e.n

/-- What `fh` emits (R244). -/
def fhEmits (x y w : Int) : List Emission :=
  match clipH x y w with
  | none => []
  | some (xa, ya, n) => [⟨xa, ya, (xa : Int) + n - 1, ya, n⟩]

/-- What `fv` emits (R244). -/
def fvEmits (x y h : Int) : List Emission :=
  match clipV x y h with
  | none => []
  | some (xa, ya, n) => [⟨xa, ya, xa, (ya : Int) + n - 1, n⟩]

/-- What `fpixel` emits (R244). -/
def pixelEmits (x y : Int) : List Emission := if inb x y then [⟨x, y, x, y, 1⟩] else []

/-- What one stroke of a line emits on the fast path (R209, R244). -/
def strokeEmits : Stroke → List Emission
  | .h x y w => fhEmits x y w
  | .v x y h => fvEmits x y h
  | .px x y => pixelEmits x y

/-- What `fastFillRect` emits (R238). -/
def rectEmits (x y w h : Int) : List Emission :=
  match clipRect x y w h with
  | none => []
  | some (xa, ya, wa, ha) =>
    if wa = 240 then [⟨0, ya, 239, (ya : Int) + ha - 1, 240 * ha⟩]
    else (List.range' ya ha).map fun j : Nat => ⟨xa, j, (xa : Int) + wa - 1, j, wa⟩

/-- The frames of `xor_run(m, n)` whose dummy reads returned `ds` and whose `n` pixel reads returned `vs` (R240). -/
def xorLog (m : Byte) (ds vs : List Byte) : List Frame :=
  .cmd 0x2E#8 :: (ds.map .rd ++ vs.map .rd ++ .cmd 0x2C#8 :: vs.map (fun v => .dat (v ^^^ m)))

/-- The frames of one scanline of `fastXORRect` (R242). -/
def xorRowLog (m : Byte) (xa wa j : Nat) (ds vs : List Byte) : List Frame :=
  windowLog xa j ((xa : Int) + wa - 1) j ++ xorLog m ds vs

/-- The `i`-th word `pushColors` reads from `addr` on: what PixMem holds there, or `any` (R62, R169). -/
def bufferWord (s : State) (addr : BitVec 32) (i : Nat) : Color :=
  (s.pixMem.lookup ((addr.toNat + i) % 4294967296)).getD (Config.freeWord (s.freeDraws + i))

/-- The frames of `pushColors`, `count ≥ 1` (R169). -/
def bufferLog (s : State) (addr : BitVec 32) (count : Nat) (first : Bool) : List Frame :=
  (if first then [.cmd 0x2C#8] else []) ++ (List.range count).flatMap (fun i => wordLog (bufferWord s addr i))

/-- A frame with a read byte forgotten: what of the log the block itself decides. -/
def Frame.sentPart : Frame → Frame
  | .cmd b => .cmd b
  | .dat b => .dat b
  | .rd _ => .rd 0#8

/-! ### What an operation changes -/

/-- The state after an operation that sent the write frames `fs`, the last of them a data frame carrying `d`, and changed
nothing else (R130, R137). -/
def afterWrites (fs : List Frame) (d : Byte) (s : State) : State :=
  { s with
    cs := false, busPhase := .idle, wr := false, dout := d, dcx := true
    txlog := s.txlog ++ fs, panel := s.panel.onFrames s.readDummyReads fs }

/-- The window shadow holds this window (R27, R150, R151). -/
def withShadow (x1 y1 x2 y2 : Int) (s : State) : State :=
  { s with
    winX1 := BitVec.ofInt 16 x1, winX2 := BitVec.ofInt 16 x2, winColSet := true
    winY1 := BitVec.ofInt 16 y1, winY2 := BitVec.ofInt 16 y2, winRowSet := true }

/-- The state after an operation that sent the frames `fs`: the pins hold what the last frame left on them; with no frame
nothing happened but that chip-select is low (R130, R132, R137). -/
def afterFrames (fs : List Frame) (s : State) : State :=
  match fs.getLast? with
  | none => { s with cs := false }
  | some (.dat b) => afterWrites fs b s
  | some (.cmd b) => { afterWrites fs b s with dcx := false }
  | some (.rd _) => afterWrites fs s.dout s

/-- A drawing operation took `s` to `t` and sent exactly `fs`, all of them write frames: `prim_state` is Idle (R36), and
only the window shadow and the overdraw memory may differ besides. -/
def Drawn (s t : State) (fs : List Frame) : Prop :=
  t = { afterFrames fs s with
    primState := .idle
    winX1 := t.winX1, winX2 := t.winX2, winColSet := t.winColSet
    winY1 := t.winY1, winY2 := t.winY2, winRowSet := t.winRowSet
    rowMemo := t.rowMemo, colMemo := t.colMemo }

/-- The window shadow (R27). -/
def shadowOf (s : State) : (Color × Color × Bool) × (Color × Color × Bool) :=
  ((s.winX1, s.winX2, s.winColSet), (s.winY1, s.winY2, s.winRowSet))

/-- The window shadow after these emissions: the window of the last one (R27, R150, R151). -/
def shadowAfter (es : List Emission) (s : State) : (Color × Color × Bool) × (Color × Color × Bool) :=
  match es.getLast? with
  | none => shadowOf s
  | some e => shadowOf (withShadow e.x1 e.y1 e.x2 e.y2 s)

/-- `prim_state` after an operation (R36). -/
def primAfter (i : Instr) (s : State) : PrimState :=
  match i with
  | .writeCommand b => if b = 0x2C#8 ∨ b = 0x2E#8 ∨ b = 0x3E#8 then .streaming else .idle
  | .writeData _ => s.primState
  | .readData => s.primState
  | .clockPulse => s.primState
  | .setColumnWindow _ _ => .windowSet
  | .setRowWindow _ _ => .windowSet
  | .setPoint _ _ => .windowSet
  | .setAddrWindow _ _ _ _ => .windowSet
  | .pushColor _ => .streaming
  | .pushColors _ count _ => if count = 0 then s.primState else .streaming
  | .flood _ length => if length = 0 then s.primState else .streaming
  | .maskingOn => s.primState
  | .maskingOff => s.primState
  | .flipMask => s.primState
  | .overdrawOn => s.primState
  | .overdrawOff => s.primState
  | .setBackgroundColor _ => s.primState
  | .setForegroundColor _ => s.primState
  | .drawPixel _ _ _ => .idle
  | .drawLine _ _ _ _ _ => .idle
  | .drawFastHLine _ _ _ _ => .idle
  | .drawFastVLine _ _ _ _ => .idle
  | .fillRect _ _ _ _ _ => .idle
  | .fillScreen _ => .idle
  | .readPixel _ _ => .idle
  | .fastFlood _ length => if length = 0 then s.primState else .streaming
  | .fastDrawPixel _ _ _ => .idle
  | .fastDrawLine _ _ _ _ _ => .idle
  | .fastDrawFastHLine _ _ _ _ => .idle
  | .fastDrawFastVLine _ _ _ _ => .idle
  | .fastFillRect _ _ _ _ _ => .idle
  | .fastFillScreen _ => .idle
  | .fastXorFlood _ length => if length = 0 ∨ 240 < length then s.primState else .streaming
  | .fastXorRect _ _ _ _ _ => .idle
  | .fastFillTriangle _ _ _ _ _ _ _ => .idle
  | .fastDrawTriangle _ _ _ _ _ _ _ => .idle
  | .caset => .idle
  | .paset => .idle
  | .ramwr => .streaming
  | .ramrd => .streaming
  | .ramrdCont => .streaming

/-! ### Families of operations -/

/-- The Color operand of the six drawing operations of the 16-bit path (R195). -/
def colourOf16 : Instr → Option Color
  | .drawPixel _ _ color => some color
  | .drawLine _ _ _ _ color => some color
  | .drawFastHLine _ _ _ color => some color
  | .drawFastVLine _ _ _ color => some color
  | .fillRect _ _ _ _ color => some color
  | .fillScreen color => some color
  | _ => none

/-- The same drawing operation with another Color operand. -/
def withColour (k : Color) : Instr → Instr
  | .drawPixel x y _ => .drawPixel x y k
  | .drawLine x0 y0 x1 y1 _ => .drawLine x0 y0 x1 y1 k
  | .drawFastHLine x y w _ => .drawFastHLine x y w k
  | .drawFastVLine x y h _ => .drawFastVLine x y h k
  | .fillRect x y w h _ => .fillRect x y w h k
  | .fillScreen _ => .fillScreen k
  | i => i

/-- The byte operand of the eight operations of the fast path that paint it into a shape of their own (spec/45). -/
def colourOf8 : Instr → Option Byte
  | .fastDrawPixel _ _ c8 => some c8
  | .fastDrawLine _ _ _ _ c8 => some c8
  | .fastDrawFastHLine _ _ _ c8 => some c8
  | .fastDrawFastVLine _ _ _ c8 => some c8
  | .fastFillRect _ _ _ _ c8 => some c8
  | .fastFillScreen c8 => some c8
  | .fastFillTriangle _ _ _ _ _ _ c8 => some c8
  | .fastDrawTriangle _ _ _ _ _ _ c8 => some c8
  | _ => none

/-- What each of the eight painting operations of the fast path emits, in order (R234 to R239, R246, R248). -/
def fastEmits : Instr → List Emission
  | .fastDrawPixel x y _ => pixelEmits x y
  | .fastDrawFastHLine x y w _ => fhEmits x y w
  | .fastDrawFastVLine x y h _ => fvEmits x y h
  | .fastDrawLine x0 y0 x1 y1 _ => (lineStrokes x0 y0 x1 y1).flatMap strokeEmits
  | .fastFillRect x y w h _ => rectEmits x y w h
  | .fastFillScreen _ => rectEmits 0 0 240 320
  | .fastFillTriangle x0 y0 x1 y1 x2 y2 _ => (triSpans x0 y0 x1 y1 x2 y2).flatMap fun sp => fhEmits sp.1 sp.2.1 sp.2.2
  | .fastDrawTriangle x0 y0 x1 y1 x2 y2 _ =>
    (lineStrokes x0 y0 x1 y1 ++ lineStrokes x1 y1 x2 y2 ++ lineStrokes x2 y2 x0 y0).flatMap strokeEmits
  | _ => []

/-- The frames of these operations. -/
def fastLog (i : Instr) : List Frame :=
  match colourOf8 i with
  | some c8 => (fastEmits i).flatMap (Emission.log c8)
  | none => []

/-- The eleven operations of the Fast 8-bit Path (spec/45). -/
def isFast (i : Instr) : Bool :=
  match i with
  | .fastFlood _ _ => true
  | .fastXorFlood _ _ => true
  | .fastXorRect _ _ _ _ _ => true
  | _ => (colourOf8 i).isSome

/-- The two operations that write what they read (R240). -/
def isXor : Instr → Bool
  | .fastXorFlood _ _ => true
  | .fastXorRect _ _ _ _ _ => true
  | _ => false

/-- The operations of spec/44 and spec/45 that take coordinates or stand for one that does (R210). -/
def hasShape (i : Instr) : Bool :=
  match i with
  | .readPixel _ _ => true
  | .fastXorRect _ _ _ _ _ => true
  | _ => (colourOf16 i).isSome || (colourOf8 i).isSome

/-! ### Shapes, on mathematical integers and before any clipping -/

/-- The rectangle of `w` by `h` pixels whose first pixel is `(x, y)`; empty if `w` or `h` is not positive (R198). -/
def inRect (x y w h px py : Int) : Prop := x ≤ px ∧ px < x + w ∧ y ≤ py ∧ py < y + h

/-- The points of a line (R208, R209). -/
def onLine (x0 y0 x1 y1 px py : Int) : Prop :=
  if y0 = y1 then py = y0 ∧ min x0 x1 ≤ px ∧ px ≤ max x0 x1
  else if x0 = x1 then px = x0 ∧ min y0 y1 ≤ py ∧ py ≤ max y0 y1
  else (px, py) ∈ bres x0 y0 x1 y1

/-- The points of a filled triangle (R247). -/
def inTriangle (x0 y0 x1 y1 x2 y2 px py : Int) : Prop :=
  ∃ sp ∈ triSpans x0 y0 x1 y1 x2 y2, inRect sp.1 sp.2.1 sp.2.2 1 px py

/-- The pixels an operation with a shape asks for. -/
def touches (i : Instr) (px py : Int) : Prop :=
  match i with
  | .drawPixel x y _ => px = x ∧ py = y
  | .drawLine x0 y0 x1 y1 _ => onLine x0 y0 x1 y1 px py
  | .drawFastHLine x y w _ => inRect x y w 1 px py
  | .drawFastVLine x y h _ => inRect x y 1 h px py
  | .fillRect x y w h _ => inRect x y w h px py
  | .fillScreen _ => inRect 0 0 240 320 px py
  | .readPixel x y => px = x ∧ py = y
  | .fastDrawPixel x y _ => px = x ∧ py = y
  | .fastDrawLine x0 y0 x1 y1 _ => onLine x0 y0 x1 y1 px py
  | .fastDrawFastHLine x y w _ => inRect x y w 1 px py
  | .fastDrawFastVLine x y h _ => inRect x y 1 h px py
  | .fastFillRect x y w h _ => inRect x y w h px py
  | .fastFillScreen _ => inRect 0 0 240 320 px py
  | .fastXorRect x y w h _ => inRect x y w h px py
  | .fastFillTriangle x0 y0 x1 y1 x2 y2 _ => inTriangle x0 y0 x1 y1 x2 y2 px py
  | .fastDrawTriangle x0 y0 x1 y1 x2 y2 _ =>
    onLine x0 y0 x1 y1 px py ∨ onLine x1 y1 x2 y2 px py ∨ onLine x2 y2 x0 y0 px py
  | _ => False

/-! ### Pixels -/

/-- Between the known panels of `s` and `t`, every cell of the panel inside `shape` came to hold `v`, and every other
cell holds what it held. -/
def Paints (s t : State) (shape : Int → Int → Prop) (v : Color) : Prop :=
  ∃ p q, s.panel = .known p ∧ t.panel = .known q ∧ q.format = p.format ∧
    ∀ x y : Nat, x < 240 → y < 320 →
      (shape x y → q.cell x y = v) ∧ (¬shape x y → q.cell x y = p.cell x y)

/-- The panel's window registers hold columns `x1 .. x1 + w - 1` and rows `y1 .. y1 + h - 1`, inside the panel. -/
structure Panel.HasWindow (p : Panel) (x1 y1 w h : Nat) : Prop where
  xs : p.pXs.toNat = x1
  xe : p.pXe.toNat + 1 = x1 + w
  ys : p.pYs.toNat = y1
  ye : p.pYe.toNat + 1 = y1 + h
  wpos : 0 < w
  hpos : 0 < h
  xin : x1 + w ≤ 240
  yin : y1 + h ≤ 320

/-- The window registers (R70). -/
def Panel.window (p : Panel) : (Color × Color) × (Color × Color) := ((p.pXs, p.pXe), (p.pYs, p.pYe))

/-- The pixels, their format and the cursor (R70). -/
def Panel.pixels (p : Panel) : Table Color × PixelFormat × Nat × Nat := (p.gram, p.format, p.pCx, p.pCy)

/-- The window registers hold columns and rows of the panel, no start above its end (R78). -/
def Panel.WindowInside (p : Panel) : Prop :=
  p.pXs.toNat ≤ p.pXe.toNat ∧ p.pXe.toNat < 240 ∧ p.pYs.toNat ≤ p.pYe.toNat ∧ p.pYe.toNat < 320

/-- The column of pixel `i` of a window, counted from its start along the rows (R75). -/
def pixelCol (x1 w i : Nat) : Nat := x1 + i % w

/-- The row of pixel `i` of a window; after the last row comes the first (R75). -/
def pixelRow (y1 w h i : Nat) : Nat := y1 + i / w % h

/-- The cursor stands at pixel `i` of the window, counted from its start (R75). -/
structure Panel.AtPixel (p : Panel) (x1 y1 w h i : Nat) : Prop where
  cx : p.pCx = x1 + i % w
  cy : p.pCy = y1 + i / w % h

/-- An open write stream, the next data frame being the first of pixel `i` of the window (R74, R75). -/
structure Panel.Writing (p : Panel) (x1 y1 w h i : Nat) : Prop where
  opened : p.pOpen = .ramwr
  half : p.pHalf = .none
  window : p.HasWindow x1 y1 w h
  at_ : p.AtPixel x1 y1 w h i

/-- An open read stream past its dummies, the next read frame being the first of pixel `i` of the window (R76). -/
structure Panel.Reading (p : Panel) (x1 y1 w h i : Nat) : Prop where
  opened : p.pOpen = .ramrd
  dummy : p.pDummy = 0
  half : p.pHalf = .none
  window : p.HasWindow x1 y1 w h
  at_ : p.AtPixel x1 y1 w h i

/-- The bytes that hold a cell in a read stream: two, high byte first, or the low one, by the format (R76). -/
def cellBytes (f : PixelFormat) (v : Color) : List Byte :=
  match f with
  | .twoBytes => [hi8 v, lo8 v]
  | .oneByte => [lo8 v]

/-- Pixels `i .. i + n - 1` of the window as a read stream returns them (R75, R76). -/
def Panel.streamBytes (p : Panel) (x1 y1 w h i n : Nat) : List Byte :=
  (List.range n).flatMap fun j => cellBytes p.format (p.cell (pixelCol x1 w (i + j)) (pixelRow y1 w h (i + j)))

/-- The operations of a program, one after the other. -/
def execAll : List Instr → State → Host.Outcome State Fault Refusal
  | [], s => .next s
  | i :: rest, s =>
    match exec i s with
    | .next t => execAll rest t
    | .fault e => .fault e
    | .refused r => .refused r

/-- From a stream of `n` pixels that began at pixel `k` of the window, the panel `p` came to `q`: the `i`-th of them holds
`v i`, every other cell what it held (R74, R75). -/
def Panel.Streamed (p q : Panel) (x1 y1 w h k n : Nat) (v : Nat → Color) : Prop :=
  q.format = p.format ∧
  (∀ i, i < n → q.cell (pixelCol x1 w (k + i)) (pixelRow y1 w h (k + i)) = v i) ∧
  ∀ x y : Nat, x < 240 → y < 320 → (∀ i, i < n → ¬(x = pixelCol x1 w (k + i) ∧ y = pixelRow y1 w h (k + i))) →
    q.cell x y = p.cell x y

/-! ### Invariants -/

/-- The bus at an operation boundary (R35). -/
def AtRest (s : State) : Prop :=
  s.busDir = .write ∧ s.busPhase = .idle ∧ s.wr = false ∧ s.rd = false ∧ s.cs = false

/-- Every memory is in its canonical form and lists no place that does not exist (R28, R29, R60, R62). -/
def Canonical (s : State) : Prop :=
  (match s.panel with
    | .known p => Memory.wf 76800 p.gram = true
    | .unspecified _ => True) ∧
  Memory.wf 4294967296 s.pixMem = true ∧ Memory.wf 320 s.rowMemo = true ∧ Memory.wf 240 s.colMemo = true ∧
  s.xbuf.length = 240

/-- Every remembered run lies inside the panel (R29). -/
def MemoInRange (s : State) : Prop :=
  (∀ y r, s.rowMemo.lookup y = some r → y < 320 ∧ 0 < r.len ∧ r.start + r.len ≤ 240) ∧
  (∀ x r, s.colMemo.lookup x = some r → x < 240 ∧ 0 < r.len ∧ r.start + r.len ≤ 320)

/-- Every remembered run still stands in the pixel memory of a known panel in the two-byte format (R29, R201). -/
def MemoHolds (s : State) : Prop :=
  ∀ p, s.panel = .known p → p.format = .twoBytes →
    (∀ y r, s.rowMemo.lookup y = some r → ∀ i, i < r.len → p.cell (r.start + i) y = r.colour) ∧
    (∀ x r, s.colMemo.lookup x = some r → ∀ i, i < r.len → p.cell x (r.start + i) = r.colour)

/-- The overdraw memory is sound (R201). -/
def MemoSound (s : State) : Prop := MemoInRange s ∧ MemoHolds s

/-- While a valid bit is set, the shadow is the window a known panel holds, and a parameter list the panel still has open
is complete (R27, R135). -/
def ShadowAgrees (s : State) : Prop :=
  ∀ p, s.panel = .known p →
    (s.winColSet = true → p.pXs = s.winX1 ∧ p.pXe = s.winX2 ∧ (p.pOpen = .caset → p.pK = 4)) ∧
    (s.winRowSet = true → p.pYs = s.winY1 ∧ p.pYe = s.winY2 ∧ (p.pOpen = .paset → p.pK = 4))

/-! ### The flood as clock pulses, the implementation R134, R167 and R231 allow -/

/-- `n` clock pulses. -/
def pulses : Nat → State → State
  | 0, s => s
  | n + 1, s => pulses n (busPulse2 s)

/-- `flood8` with the first byte placed, the rest sent two at a time by clock pulses, and an odd remainder by one write
(R231). -/
def flood8Pulsed (v : Byte) (n : Nat) (s : State) : State :=
  if n = 0 then s
  else
    let t := pulses ((n - 1) / 2) (busWrite .dat v (streamBegin s))
    if (n - 1) % 2 = 1 then busWrite .dat v t else t

/-- `flood16` of a Color whose two bytes are equal, every pixel after the first by one clock pulse (R167). -/
def flood16Pulsed (k : Color) (n : Nat) (s : State) : State :=
  if n = 0 then s else pulses (n - 1) (px16 k (streamBegin s))

/-! ### Host accesses -/

/-- What sets `err_illegal` (R33): a descriptor no row of the table selects, or an XOR flood longer than `XBUF_BYTES`. -/
def recordsIllegal (w : Descriptor) : Prop :=
  (∀ m : Op, m.selects w = false) ∨ ∃ m n, decode (.opd w) = .ok (.fastXorFlood m n) ∧ 240 < n

/-- The access is, or ends in, the reset event (R290). -/
def isReset : HostAccess → Bool
  | .write _ _ => false
  | .read _ => false
  | .wire _ => false
  | .store _ _ => false
  | .reset => true
  | .writeThenReset _ _ => true

end Sys2Proof.Machine
end

