-- ==== Sys2Proof/WellFormed.lean ====
section
/-! DEFINITION. The operand ranges of spec/30_encoding R103: what a descriptor field can hold. Bytes, colours and
addresses are bit vectors of their own width and need no check. -/

namespace Sys2Proof

/-- `sint16(field)`: -32768 .. 32767 (R103, R317). -/
def coordOk (v : Int) : Bool := decide (-32768 ≤ v ∧ v ≤ 32767)

/-- 32-bit unsigned `length` (R103). -/
def lengthOk (n : Nat) : Bool := decide (n < 4294967296)

/-- 16-bit unsigned `count` (R103). -/
def countOk (n : Nat) : Bool := decide (n < 65536)

/-- Every operand is a value its descriptor field can hold (R103). -/
def Instr.wf : Instr → Bool
  | .writeCommand _ => true
  | .writeData _ => true
  | .readData => true
  | .clockPulse => true
  | .setColumnWindow x1 x2 => coordOk x1 && coordOk x2
  | .setRowWindow y1 y2 => coordOk y1 && coordOk y2
  | .setPoint x y => coordOk x && coordOk y
  | .setAddrWindow x1 y1 x2 y2 => coordOk x1 && coordOk y1 && coordOk x2 && coordOk y2
  | .pushColor _ => true
  | .pushColors _ count _ => countOk count
  | .flood _ length => lengthOk length
  | .maskingOn => true
  | .maskingOff => true
  | .flipMask => true
  | .overdrawOn => true
  | .overdrawOff => true
  | .setBackgroundColor _ => true
  | .setForegroundColor _ => true
  | .drawPixel x y _ => coordOk x && coordOk y
  | .drawLine x0 y0 x1 y1 _ => coordOk x0 && coordOk y0 && coordOk x1 && coordOk y1
  | .drawFastHLine x y w _ => coordOk x && coordOk y && coordOk w
  | .drawFastVLine x y h _ => coordOk x && coordOk y && coordOk h
  | .fillRect x y w h _ => coordOk x && coordOk y && coordOk w && coordOk h
  | .fillScreen _ => true
  | .readPixel x y => coordOk x && coordOk y
  | .fastFlood _ length => lengthOk length
  | .fastDrawPixel x y _ => coordOk x && coordOk y
  | .fastDrawLine x0 y0 x1 y1 _ => coordOk x0 && coordOk y0 && coordOk x1 && coordOk y1
  | .fastDrawFastHLine x y w _ => coordOk x && coordOk y && coordOk w
  | .fastDrawFastVLine x y h _ => coordOk x && coordOk y && coordOk h
  | .fastFillRect x y w h _ => coordOk x && coordOk y && coordOk w && coordOk h
  | .fastFillScreen _ => true
  | .fastXorFlood _ length => lengthOk length
  | .fastXorRect x y w h _ => coordOk x && coordOk y && coordOk w && coordOk h
  | .fastFillTriangle x0 y0 x1 y1 x2 y2 _ =>
    coordOk x0 && coordOk y0 && coordOk x1 && coordOk y1 && coordOk x2 && coordOk y2
  | .fastDrawTriangle x0 y0 x1 y1 x2 y2 _ =>
    coordOk x0 && coordOk y0 && coordOk x1 && coordOk y1 && coordOk x2 && coordOk y2
  | .caset => true
  | .paset => true
  | .ramwr => true
  | .ramrd => true
  | .ramrdCont => true

end Sys2Proof
end

