-- ==== Sys2Proof/Certificates/Slice0/Obligations.lean ====
section
/-! DEFINITION. The statements for the provers. Each docstring names the rules of spec/ it formalises. -/

open Sys2Proof Sys2Proof.Machine

/-! ### Encoding (spec/30) -/

/-- Words written out from R101, R104 and the worked examples of the operation rules decode to their operations; the five
wire words of R108 decode to theirs. That no other wire word is an instruction is the model's choice (log 21). -/
def Obligations.WrittenWordsDecode : Prop :=
  decode (.opd 0x4400F800FFFBFFFB000A000A00000000#128) = .ok (.fillRect (-5) (-5) 10 10 0xF800#16) ∧
  decode (.opd 0x0100002C000000000000000000000000#128) = .ok (.writeCommand 0x2C#8) ∧
  decode (.opd 0x12000000000A012C0000000000000000#128) = .ok (.setPoint 10 300) ∧
  decode (.opd 0x21010000000010000003000000000000#128) = .ok (.pushColors 0x1000#32 3 true) ∧
  decode (.opd 0x2200F80000012C000000000000000000#128) = .ok (.flood 0xF800#16 76800) ∧
  decode (.opd 0x3500001F000000000000000000000000#128) = .ok (.setBackgroundColor 0x001F#16) ∧
  decode (.opd 0x5900005A000000000004000000000004#128) = .ok (.fastFillTriangle 0 0 4 0 0 4 0x5A#8) ∧
  decode (.opd 0x00000000000000000000000000000000#128) = .error .unassignedOp ∧
  decode (.opd 0x30000000000000000000000000000001#128) = .error .unusedBitSet ∧
  decode (.wire 0b000101010#9) = .ok .caset ∧
  decode (.wire 0b000101011#9) = .ok .paset ∧
  decode (.wire 0b000101100#9) = .ok .ramwr ∧
  decode (.wire 0b000101110#9) = .ok .ramrd ∧
  decode (.wire 0b000111110#9) = .ok .ramrdCont ∧
  ∀ w : WireWord, w ≠ 0x02A#9 → w ≠ 0x02B#9 → w ≠ 0x02C#9 → w ≠ 0x02E#9 → w ≠ 0x03E#9 →
    decode (.wire w) = .error .unlistedWireWord

/-- Every instruction whose operands fit their fields comes back from its code (R101 to R104, R108). -/
def Obligations.DecodeEncodeRoundTrip : Prop := ∀ i : Instr, i.wf = true → decode (encode i) = .ok i

/-- One legal descriptor per operation and operand tuple: encoding what was decoded gives the code back, and a descriptor
of an assigned `op` that sets a bit outside its used fields is illegal (R102). -/
def Obligations.EncodeDecodeIdentity : Prop :=
  (∀ c i, decode c = .ok i → i.wf = true ∧ encode i = c) ∧
  ∀ (m : Op) (w : Descriptor), w.extractLsb' 120 8 = m.code → w &&& m.tableMask ≠ m.tableMatch →
    decode (.opd w) = .error .unusedBitSet

/-- A descriptor is decoded by the row of spec/opcode_table.json it selects, at most one row selects it, and one no row
selects is illegal (R105). -/
def Obligations.RowsSelectExactlyTheLegal : Prop :=
  ∀ w : Descriptor,
    (∀ m : Op, m.selects w = true → decode (.opd w) = .ok (m.build (Fields.ofWord w))) ∧
    (∀ m n : Op, m.selects w = true → n.selects w = true → m = n) ∧
    ((∀ m : Op, m.selects w = false) → ∃ e, decode (.opd w) = .error e)

/-! ### The host port (spec/10 R46, R47; spec/30 R110) -/

/-- One step serves the host's next access: a code that decodes runs its instruction, on the state from which only the
access has been taken; with no access pending the block stays as it is (R46, R47, R286; the queue is the model's, log 2).
A word of the opcode table placed as the next access is run by the very next step, on the state it was placed in
(log 2). -/
def Obligations.StepRunsIssuedCode : Prop :=
  (∀ s c i rest, s.hostQueue = accessOf c :: rest → decode c = .ok i → step s = exec i { s with hostQueue := rest }) ∧
  (∀ s, s.hostQueue = [] → step s = .next s) ∧
  ∀ s nbits w i, decodeTableWord nbits w = some i → step (State.withFetchWord s nbits w) = exec i s

/-- Issuing an illegal descriptor does nothing but set `err_illegal`: no frame, no bus cycle (R110; of the two treatments
the spec offers a model, the stated no-op, log 3). -/
def Obligations.IllegalDescriptorOnlyRecords : Prop :=
  ∀ (w : Descriptor) (s : State), (∀ m : Op, m.selects w = false) →
    serve (.write .opd w) s = .next { s with errIllegal := true }

/-- `err_illegal` is set by exactly the two causes R33 names, cleared by reset alone, and otherwise kept by every step. -/
def Obligations.ErrIllegalIsSticky : Prop :=
  ∀ s t a rest, s.hostQueue = a :: rest → step s = .next t →
    (isReset a = true → t.errIllegal = false) ∧
    (∀ w, a = .write .opd w → (recordsIllegal w → t.errIllegal = true) ∧ (¬recordsIllegal w → t.errIllegal = s.errIllegal)) ∧
    (isReset a = false → (∀ w, a ≠ .write .opd w) → t.errIllegal = s.errIllegal)

/-- The nine host registers (R46): a write to OPD issues, a write to any other does nothing; what each reads as, and that a
read changes nothing of the block. What is read goes to `hostData`, what the spec leaves `any` is a free value, and
`freeDraws` counts (the model's own, logs 10, 17). -/
def Obligations.HostRegisters : Prop :=
  (∀ r s, serve (.read r) s = .next { s with hostData := hostValue r s, freeDraws := s.freeDraws + 1 }) ∧
  (∀ r v s, r ≠ .opd → serve (.write r v) s = .next s) ∧
  (∀ w i s, decode (.opd w) = .ok i → serve (.write .opd w) s = exec i s) ∧
  ∀ s : State,
    hostValue .opd s = Config.freeDescriptor s.freeDraws ∧
    hostValue .result s = 0#112 ++ s.result ∧
    hostValue .bgcolor s = 0#112 ++ s.backgroundColor ∧
    hostValue .fgcolor s = 0#112 ++ s.foregroundColor ∧
    (s.winColSet = true →
      hostValue .winX1 s = 0#112 ++ s.winX1 ∧ hostValue .winX2 s = 0#112 ++ s.winX2) ∧
    (s.winRowSet = true →
      hostValue .winY1 s = 0#112 ++ s.winY1 ∧ hostValue .winY2 s = 0#112 ++ s.winY2) ∧
    (s.winColSet = false →
      hostValue .winX1 s = 0#112 ++ Config.freeWord s.freeDraws ∧ hostValue .winX2 s = 0#112 ++ Config.freeWord s.freeDraws) ∧
    (s.winRowSet = false →
      hostValue .winY1 s = 0#112 ++ Config.freeWord s.freeDraws ∧ hostValue .winY2 s = 0#112 ++ Config.freeWord s.freeDraws) ∧
    (hostValue .status s).getLsbD 0 = s.errIllegal ∧
    (hostValue .status s).getLsbD 1 = s.doMasking ∧
    (hostValue .status s).getLsbD 2 = s.doOverdraw ∧
    (hostValue .status s).getLsbD 3 = s.maskFlag ∧
    ((hostValue .status s).extractLsb' 4 2 =
      match s.primState with
      | .idle => 0#2
      | .windowSet => 1#2
      | .streaming => 2#2) ∧
    (hostValue .status s).getLsbD 6 = s.winColSet ∧
    (hostValue .status s).getLsbD 7 = s.winRowSet ∧
    (hostValue .status s).extractLsb' 8 120 = 0#120

/-! ### Reset (spec/10 R40, spec/70) -/

/-- Every value R40 states for reset. -/
def Obligations.ResetValues : Prop :=
  State.reset.primState = .idle ∧ State.reset.busDir = .write ∧ State.reset.busPhase = .idle ∧
  State.reset.wr = false ∧ State.reset.rd = false ∧ State.reset.cs = false ∧
  State.reset.doMasking = false ∧ State.reset.doOverdraw = false ∧ State.reset.maskFlag = false ∧
  State.reset.winColSet = false ∧ State.reset.winRowSet = false ∧
  (∀ j, State.reset.rowMemo.lookup j = none) ∧ (∀ i, State.reset.colMemo.lookup i = none) ∧
  State.reset.result = 0#16 ∧ State.reset.errIllegal = false ∧ State.reset.txlog = []

/-- The reset event gives every piece of the block's state its value of R40, emits no frame and does not touch the panel:
the panel keeps its pixels, its window and its open command, while the shadow is invalid and the overdraw memory empty
(R290, R291). The host's memory and the parameters are not the block's (R48). What R40 leaves `any` takes the value the
model names (log 8). -/
def Obligations.ResetEvent : Prop :=
  ∀ s : State, serve .reset s = .next
    { State.reset with
      panel := s.panel, pixMem := s.pixMem
      readDummyReads := s.readDummyReads, targetClockHz := s.targetClockHz, settleCycles := s.settleCycles
      hostQueue := s.hostQueue, hostData := s.hostData, freeDraws := s.freeDraws }

/-- The model's choice (log 13): reset during an operation, after `n` of its bus cycles. The block is reset, where what R40
leaves `any` takes the value the model names (log 8), and the panel has handled exactly the first `n` frames of the
operation, so pixels already written stay written (R290). -/
def Obligations.AbandonedOperation : Prop :=
  ∀ (w : Descriptor) (n : Nat) (s t : State), serve (.write .opd w) s = .next t →
    serve (.writeThenReset w n) s = .next
      { State.reset with
        panel := s.panel.onFrames s.readDummyReads ((t.txlog.drop s.txlog.length).take n), pixMem := s.pixMem
        readDummyReads := s.readDummyReads, targetClockHz := s.targetClockHz, settleCycles := s.settleCycles
        hostQueue := s.hostQueue, hostData := s.hostData, freeDraws := t.freeDraws }

/-! ### Invariants of every step -/

/-- At every operation boundary the lines are driven by the block and the bus rests (R35, R313). -/
def Obligations.AtRestIsKept : Prop := ∀ s t, AtRest s → step s = .next t → AtRest t

/-- Every memory keeps its canonical form: no step lists a pixel, a word, a row or a column that does not exist (R28,
R29, R60, R62; the form is the model's, log 6). -/
def Obligations.CanonicalIsKept : Prop := ∀ s t, Canonical s → step s = .next t → Canonical t

/-- The overdraw memory stays sound: what it remembers of a row or a column is what a known panel in the two-byte format
holds there (R201; that a panel in the one-byte format is left out is log 18). -/
def Obligations.MemoStaysSound : Prop := ∀ s t, MemoSound s → step s = .next t → MemoSound t

/-- While a valid bit is set the shadow stays the window the panel holds, whatever the host issues (R27, R135). -/
def Obligations.ShadowStaysRight : Prop := ∀ s t, ShadowAgrees s → step s = .next t → ShadowAgrees t

/-- All four invariants hold right after reset. -/
def Obligations.InvariantsAtReset : Prop :=
  AtRest State.reset ∧ Canonical State.reset ∧ MemoSound State.reset ∧ ShadowAgrees State.reset

/-- The panel has no step of its own: in every step that is not a reset the log grows by some frames, and the panel
becomes what those frames, handled in order, make of it (R71; R34: the log is never shortened). -/
def Obligations.PanelFollowsTheLog : Prop :=
  ∀ s t a rest, s.hostQueue = a :: rest → isReset a = false → step s = .next t →
    ∃ fs, t.txlog = s.txlog ++ fs ∧ t.panel = s.panel.onFrames s.readDummyReads fs

/-- No operation can fail to complete (R270, R276). -/
def Obligations.EveryInstructionCompletes : Prop := ∀ (i : Instr) (s : State), ∃ t, exec i s = .next t

/-- What an operation that does not XOR sends, and what it leaves in the block but for a value it returns, do not depend on
the panel: neither on its format, nor its window, nor its pixels (R80, R82; spec/20 section 3). -/
def Obligations.SentFramesIgnorePanel : Prop :=
  ∀ (i : Instr) (s : State) (v : PanelView) (t u : State), isXor i = false →
    exec i s = .next t → exec i { s with panel := v } = .next u →
      u.txlog.map Frame.sentPart = t.txlog.map Frame.sentPart ∧
      u = { t with panel := u.panel, txlog := u.txlog, result := u.result }

/-! ### Bus Transport (spec/40) -/

/-- A write cycle at frame level (R130) and at pin level: byte, then select line, then the clock raised and lowered; byte
and select line are the same from before the raise until after the lower (R131, R314). -/
def Obligations.WriteCycle : Prop :=
  ∀ (k : WriteKind) (b : Byte) (s : State),
    busWrite k b s =
      { s with
        cs := true, dout := b, dcx := decide (k = .dat), wr := false, busPhase := .idle
        txlog := s.txlog ++ [match k with | .cmd => Frame.cmd b | .dat => Frame.dat b]
        panel := s.panel.onWrite s.readDummyReads k b } ∧
    (busWriteStates k b s).map (fun t => (t.busPhase, t.dout, t.dcx, t.wr)) =
      [(s.busPhase, s.dout, s.dcx, s.wr), (.selecting, b, s.dcx, s.wr), (.selecting, b, decide (k = .dat), s.wr),
        (.clocking, b, decide (k = .dat), true), (.clocking, b, decide (k = .dat), false),
        (.settled, b, decide (k = .dat), false), (.idle, b, decide (k = .dat), false)] ∧
    (busWriteStates k b s).getLast? = some (busWrite k b s)

/-- A read cycle at frame level (R132) and at pin level (R133): the lines are released, the select line is at the data
level, the lines are sampled while the request is pending, the request ends, the lines are driven again. With the settle
time met the byte is the panel's (R76); where the spec says `any` it is a free value (log 10). -/
def Obligations.ReadCycle : Prop :=
  ∀ s : State,
    busRead s =
      { s with
        cs := true, dcx := true, rd := false, busDir := .write, busPhase := .idle
        txlog := s.txlog ++ [.rd (sampledByte s)], panel := s.panel.onRead, freeDraws := s.freeDraws + 1 } ∧
    (busReadStates s).map (fun t => (t.busPhase, t.busDir, t.dcx, t.rd)) =
      [(s.busPhase, s.busDir, s.dcx, s.rd), (.selecting, .read, s.dcx, s.rd), (.selecting, .read, true, s.rd),
        (.clocking, .read, true, true), (.settled, .read, true, true), (.settled, .read, true, false),
        (.settled, .write, true, false), (.idle, .write, true, false)] ∧
    (busReadStates s).getLast? = some (busRead s) ∧
    (settleMet s = true → sampledByte s = s.panel.readByte (Config.freeByte s.freeDraws))

/-- The clock pulse is exactly two data writes of the byte already on the lines (R134). So a flood sent with clock pulses is
the same flood: for the fast path without restriction, for the 16-bit path when the two bytes of the Color are equal
(R167, R231). -/
def Obligations.PulsedFloodsRefine : Prop :=
  (∀ s : State, busPulse2 s = busWrite .dat s.dout (busWrite .dat s.dout s)) ∧
  ∀ (n : Nat) (s : State),
    (∀ v, flood8Pulsed v n s = flood8 v n s) ∧ ∀ k, hi8 k = lo8 k → flood16Pulsed k n s = flood16 k n s

/-- `READ_SETTLE_CYCLES` is the least count of at least 1 whose cycles last 400 ns at the given clock (R140); 7 at
16 MHz. -/
def Obligations.SettleCycles : Prop :=
  (∀ hz, 1 ≤ readSettleCycles hz ∧ 400 * hz ≤ readSettleCycles hz * 1000000000 ∧
    ∀ c, 1 ≤ c → 400 * hz ≤ c * 1000000000 → readSettleCycles hz ≤ c) ∧
  readSettleCycles 16000000 = 7

/-- `writeCommand` (R135), and the five wire commands issued alone, which are `writeCommand` of their byte (the model's
choice, log 1). -/
def Obligations.WriteCommandTracks : Prop :=
  ∀ (b : Byte) (s : State),
    exec (.writeCommand b) s = .next
      { s with
        cs := false, busPhase := .idle, wr := false, dout := b, dcx := false
        txlog := s.txlog ++ [.cmd b], panel := s.panel.onWrite s.readDummyReads .cmd b
        primState := if b = 0x2C#8 ∨ b = 0x2E#8 ∨ b = 0x3E#8 then .streaming else .idle
        winColSet := if b = 0x2A#8 then false else s.winColSet
        winRowSet := if b = 0x2B#8 then false else s.winRowSet
        rowMemo := [], colMemo := [] } ∧
    exec .caset s = exec (.writeCommand 0x2A#8) s ∧ exec .paset s = exec (.writeCommand 0x2B#8) s ∧
    exec .ramwr s = exec (.writeCommand 0x2C#8) s ∧ exec .ramrd s = exec (.writeCommand 0x2E#8) s ∧
    exec .ramrdCont s = exec (.writeCommand 0x3E#8) s

/-- `writeData` (R136), `clockPulse` (R139) and `readData` (R138). The byte `readData` samples may be a free value, and
`freeDraws` counts it (the model's own, log 10). -/
def Obligations.RawDataOperations : Prop :=
  ∀ (b : Byte) (s : State),
    exec (.writeData b) s = .next { afterWrites [.dat b] b s with rowMemo := [], colMemo := [] } ∧
    exec .clockPulse s = .next { afterWrites [.dat s.dout, .dat s.dout] s.dout s with rowMemo := [], colMemo := [] } ∧
    exec .readData s = .next
      { s with
        cs := false, dcx := true, rd := false, busDir := .write, busPhase := .idle
        txlog := s.txlog ++ [.rd (sampledByte s)], panel := s.panel.onRead, freeDraws := s.freeDraws + 1
        result := 0#8 ++ sampledByte s }

/-! ### Addressing Window Controller (spec/41) -/

/-- The four window operations (R153 to R156): the frames sent, the shadow, and nothing else. -/
def Obligations.WindowOperations : Prop :=
  ∀ (x1 y1 x2 y2 : Int) (s : State),
    exec (.setColumnWindow x1 x2) s = .next
      { afterWrites (columnLog x1 x2) (lo8 (BitVec.ofInt 16 x2)) s with
        winX1 := BitVec.ofInt 16 x1, winX2 := BitVec.ofInt 16 x2, winColSet := true, primState := .windowSet } ∧
    exec (.setRowWindow y1 y2) s = .next
      { afterWrites (rowLog y1 y2) (lo8 (BitVec.ofInt 16 y2)) s with
        winY1 := BitVec.ofInt 16 y1, winY2 := BitVec.ofInt 16 y2, winRowSet := true, primState := .windowSet } ∧
    exec (.setAddrWindow x1 y1 x2 y2) s = .next
      { afterWrites (windowLog x1 y1 x2 y2) (lo8 (BitVec.ofInt 16 y2)) (withShadow x1 y1 x2 y2 s) with
        primState := .windowSet } ∧
    exec (.setPoint x1 y1) s = exec (.setAddrWindow x1 y1 x1 y1) s

/-- The four window operations reach a known panel: the window registers they program hold the values sent, high byte
first, the other half of the window is kept, and so are the pixels, the format and the cursor (R73, R107, R153 to R156). -/
def Obligations.PanelTakesTheWindow : Prop :=
  ∀ (x1 y1 x2 y2 : Int) (s : State) (p : Panel), s.panel = .known p →
    (∃ t q, exec (.setColumnWindow x1 x2) s = .next t ∧ t.panel = .known q ∧
      q.window = ((BitVec.ofInt 16 x1, BitVec.ofInt 16 x2), (p.pYs, p.pYe)) ∧ q.pixels = p.pixels) ∧
    (∃ t q, exec (.setRowWindow y1 y2) s = .next t ∧ t.panel = .known q ∧
      q.window = ((p.pXs, p.pXe), (BitVec.ofInt 16 y1, BitVec.ofInt 16 y2)) ∧ q.pixels = p.pixels) ∧
    (∃ t q, exec (.setPoint x1 y1) s = .next t ∧ t.panel = .known q ∧
      q.window = ((BitVec.ofInt 16 x1, BitVec.ofInt 16 x1), (BitVec.ofInt 16 y1, BitVec.ofInt 16 y1)) ∧
      q.pixels = p.pixels) ∧
    ∃ t q, exec (.setAddrWindow x1 y1 x2 y2) s = .next t ∧ t.panel = .known q ∧
      q.window = ((BitVec.ofInt 16 x1, BitVec.ofInt 16 x2), (BitVec.ofInt 16 y1, BitVec.ofInt 16 y2)) ∧
      q.pixels = p.pixels

/-- When the panel becomes unspecified, and that it stays so (R77, R78; log 4): at a data frame under no command that takes
data, at a read frame under any command but a read, and at the first pixel frame under a window that is reversed or
reaches outside the panel, which a dummy read is not (log 15); with a good window also where the cursor is on no cell
(log 14). What such a read returns is a free value (log 10). A command frame never does it; of all operations only the
five that send data or read frames without a command of their own can meet an unexpected frame; and an operation that
takes coordinates to clip never leaves a known panel unspecified, in either format. -/
def Obligations.PanelBecomesUnspecified : Prop :=
  (∀ (s : State) (p : Panel), s.panel = .known p →
    (∀ b, ∃ q, (s.panel.onFrame s.readDummyReads (.cmd b)) = .known q) ∧
    (∀ b, ∃ t, exec (.writeData b) s = .next t ∧
      (t.panel = .unspecified .protocolViolation ↔ p.pOpen = .none ∨ p.pOpen = .ramrd ∨ p.pOpen = .other) ∧
      (t.panel = .unspecified .windowOutOfRange ↔ p.pOpen = .ramwr ∧ ¬p.WindowInside) ∧
      (t.panel = .unspecified .cursorOutOfRange ↔ p.pOpen = .ramwr ∧ p.WindowInside ∧ ¬(p.pCx < 240 ∧ p.pCy < 320))) ∧
    ∃ t, exec .readData s = .next t ∧
      (t.panel = .unspecified .protocolViolation ↔ p.pOpen ≠ .ramrd) ∧
      (t.panel = .unspecified .windowOutOfRange ↔ p.pOpen = .ramrd ∧ p.pDummy = 0 ∧ ¬p.WindowInside) ∧
      (t.panel = .unspecified .cursorOutOfRange ↔
        p.pOpen = .ramrd ∧ p.pDummy = 0 ∧ p.WindowInside ∧ ¬(p.pCx < 240 ∧ p.pCy < 320)) ∧
      ∀ why, t.panel = .unspecified why → t.result = 0#8 ++ Config.freeByte s.freeDraws) ∧
  (∀ (i : Instr) (s t : State) (why : PanelRefusal), s.panel = .unspecified why → exec i s = .next t →
    t.panel = .unspecified why ∧ (i = .readData → t.result = 0#8 ++ Config.freeByte s.freeDraws)) ∧
  ∀ (i : Instr) (s t : State) (p : Panel), s.panel = .known p → exec i s = .next t →
    (t.panel = .unspecified .protocolViolation →
      (∃ b, i = .writeData b) ∨ i = .readData ∨ i = .clockPulse ∨ (∃ c, i = .pushColor c) ∨
        ∃ a n, i = .pushColors a n false) ∧
    (hasShape i = true → ∃ q, t.panel = .known q)

/-- A read stream (R76, R109, R138): after 0x2E, or after 0x3E which leaves the cursor where it stood (R72), `readData`
returns the dummies first and then the bytes of the pixels from the window's start, or from the cursor, row by row and
wrapping (R75; that reads wrap too is the model's choice where R241 says otherwise, log 23); no pixel changes. Nothing is said of a dummy, whose value is free (log 10). The settle time is met. -/
def Obligations.ReadStreamContinues : Prop :=
  ∀ (s : State) (p : Panel) (x1 y1 w h k n : Nat) (c : Byte), s.panel = .known p → p.HasWindow x1 y1 w h →
    settleMet s = true → (c = 0x2E#8 ∧ k = 0) ∨ (c = 0x3E#8 ∧ p.AtPixel x1 y1 w h k) →
    ∃ (t : State) (q : Panel) (ds bs : List Byte), ds.length = s.readDummyReads ∧ bs = p.streamBytes x1 y1 w h k n ∧
      execAll (.writeCommand c :: List.replicate (ds.length + bs.length) .readData) s = .next t ∧
      t.txlog = s.txlog ++ .cmd c :: (ds ++ bs).map .rd ∧
      (∀ b, bs.getLast? = some b → t.result = 0#8 ++ b) ∧
      t.panel = .known q ∧ q.Reading x1 y1 w h (k + n) ∧ q.gram = p.gram ∧ q.format = p.format

/-! ### Pixel Streaming Engine (spec/42) -/

/-- `pushColor` (R168): two data frames, no command frame. -/
def Obligations.PushColorFrames : Prop :=
  ∀ (color : Color) (s : State),
    exec (.pushColor color) s = .next
      { afterWrites (wordLog color) (lo8 color) s with primState := .streaming, rowMemo := [], colMemo := [] }

/-- `pushColors` (R169): the words of the host's memory in ascending order, addresses modulo 2^32, after 0x2C if `first`;
nothing at all for a zero count. The memory is not written. A word the host stores (R62) is the word read there from then
on; every other word, and everything else, is kept. A word nothing has stored is a free value, and `freeDraws` counts (the
model's own, logs 7, 10). -/
def Obligations.PushColorsFrames : Prop :=
  (∀ (addr : BitVec 32) (count : Nat) (first : Bool) (s : State),
    exec (.pushColors addr 0 first) s = .next s ∧
    exec (.pushColors addr (count + 1) first) s = .next
      { afterWrites (bufferLog s addr (count + 1) first) (lo8 (bufferWord s addr count)) s with
        primState := .streaming, rowMemo := [], colMemo := [], freeDraws := s.freeDraws + (count + 1) }) ∧
  ∀ (addr : BitVec 32) (v : Color) (s : State),
    ∃ t, serve (.store addr v) s = .next t ∧ t = { s with pixMem := t.pixMem } ∧
      ∀ (a : BitVec 32) (i : Nat),
        bufferWord t a i = if (a.toNat + i) % 4294967296 = addr.toNat then v else bufferWord s a i

/-- `flood` (R170, R167) and `fastFlood` (R233, R231): 0x2C and `length` pixels; nothing at all for a zero length. -/
def Obligations.FloodFrames : Prop :=
  ∀ (color : Color) (c8 : Byte) (length : Nat) (s : State),
    exec (.flood color 0) s = .next s ∧ exec (.fastFlood c8 0) s = .next s ∧
    exec (.flood color (length + 1)) s = .next
      { afterWrites (floodLog16 color (length + 1)) (lo8 color) s with
        primState := .streaming, rowMemo := [], colMemo := [] } ∧
    exec (.fastFlood c8 (length + 1)) s = .next
      { afterWrites (floodLog8 c8 (length + 1)) c8 s with primState := .streaming, rowMemo := [], colMemo := [] }

/-- Where a flood lands: row by row from the start of the panel's window, wrapping after its last pixel; every other cell
is as before (R72, R74, R75). The format matches the path (R80). -/
def Obligations.FloodFillsTheWindow : Prop :=
  ∀ (s : State) (p : Panel) (x1 y1 w h length : Nat), s.panel = .known p → p.HasWindow x1 y1 w h →
    (∀ color, p.format = .twoBytes → ∃ t, exec (.flood color length) s = .next t ∧
      Paints s t (fun px py => ∃ i, i < length ∧ px = pixelCol x1 w i ∧ py = pixelRow y1 w h i) color) ∧
    ∀ c8, p.format = .oneByte → ∃ t, exec (.fastFlood c8 length) s = .next t ∧
      Paints s t (fun px py => ∃ i, i < length ∧ px = pixelCol x1 w i ∧ py = pixelRow y1 w h i) (0#8 ++ c8)

/-- Where `pushColors` and `pushColor` put their words, in the two-byte format: with `first` from the start of the panel's
window (R72), without it, and one word at a time by `pushColor`, from the pixel the open stream has come to; pixel by pixel
along the rows, wrapping after the window's last pixel (R74, R75, R168, R169). The stream stays open behind the last word,
so the statement can be applied again. A stream of more words than the window holds overwrites its own. -/
def Obligations.PushColorsFillsTheWindow : Prop :=
  ∀ (s : State) (p : Panel) (x1 y1 w h k count : Nat) (addr : BitVec 32), s.panel = .known p → p.format = .twoBytes →
    (p.HasWindow x1 y1 w h → count ≤ w * h →
      ∃ t q, exec (.pushColors addr count true) s = .next t ∧ t.panel = .known q ∧
        p.Streamed q x1 y1 w h 0 count (bufferWord s addr) ∧ (0 < count → q.Writing x1 y1 w h count)) ∧
    (p.Writing x1 y1 w h k → count ≤ w * h →
      ∃ t q, exec (.pushColors addr count false) s = .next t ∧ t.panel = .known q ∧
        p.Streamed q x1 y1 w h k count (bufferWord s addr) ∧ q.Writing x1 y1 w h (k + count)) ∧
    (p.Writing x1 y1 w h k → ∀ color,
      ∃ t q, exec (.pushColor color) s = .next t ∧ t.panel = .known q ∧
        p.Streamed q x1 y1 w h k 1 (fun _ => color) ∧ q.Writing x1 y1 w h (k + 1))

/-! ### Compositing control (spec/43) -/

/-- The seven operations: each writes exactly the one register its rule names and nothing else (R180 to R187). -/
def Obligations.CompositingOperations : Prop :=
  ∀ (color : Color) (s : State),
    exec .maskingOn s = .next { s with doMasking := true } ∧
    exec .maskingOff s = .next { s with doMasking := false } ∧
    exec .flipMask s = .next { s with maskFlag := !s.maskFlag } ∧
    exec .overdrawOn s = .next { s with doOverdraw := true } ∧
    exec .overdrawOff s = .next { s with doOverdraw := false } ∧
    exec (.setBackgroundColor color) s = .next { s with backgroundColor := color } ∧
    exec (.setForegroundColor color) s = .next { s with foregroundColor := color }

/-- No other operation writes a compositing flag or a colour register (R25, R26). -/
def Obligations.OnlyTogglesWriteCompositing : Prop :=
  ∀ (i : Instr) (s t : State), exec i s = .next t →
    (i ≠ .maskingOn → i ≠ .maskingOff → t.doMasking = s.doMasking) ∧
    (i ≠ .overdrawOn → i ≠ .overdrawOff → t.doOverdraw = s.doOverdraw) ∧
    (i ≠ .flipMask → t.maskFlag = s.maskFlag) ∧
    ((∀ c, i ≠ .setBackgroundColor c) → t.backgroundColor = s.backgroundColor) ∧
    ((∀ c, i ≠ .setForegroundColor c) → t.foregroundColor = s.foregroundColor)

/-- The frame of every operation on the rest of the state: `result` (R32), `xbuf` (R28), `err_illegal` (R33), and what is
not the block's: the host's memory (R62), the parameters (R7), the pending accesses. -/
def Obligations.WhatNoOperationWrites : Prop :=
  ∀ (i : Instr) (s t : State), exec i s = .next t →
    (i ≠ .readData → (∀ x y, i ≠ .readPixel x y) → t.result = s.result) ∧
    (isXor i = false → t.xbuf = s.xbuf) ∧
    ((∀ m n, i ≠ .fastXorFlood m n) → t.errIllegal = s.errIllegal) ∧
    t.pixMem = s.pixMem ∧ t.readDummyReads = s.readDummyReads ∧ t.targetClockHz = s.targetClockHz ∧
    t.settleCycles = s.settleCycles ∧ t.hostQueue = s.hostQueue ∧ t.hostData = s.hostData

/-- The transitions of `prim_state`, operation by operation (R36). A wire command issued alone makes the transition of
`writeCommand` (the model's choice, log 1). -/
def Obligations.PrimStateTransitions : Prop :=
  ∀ (i : Instr) (s t : State), exec i s = .next t → t.primState = primAfter i s

/-! ### Rendering Primitives (spec/44) -/

/-- The masking stage (R195): which Color is sent; and that each of the six drawing operations does exactly what it does
with masking off and that Color as its operand, so masking changes nothing but the two colour bytes. -/
def Obligations.MaskingStage : Prop :=
  (∀ (s : State) (color : Color),
    eff s color =
      (if s.doMasking = false then color
       else if s.maskFlag = false then s.backgroundColor else s.foregroundColor)) ∧
  ∀ (i : Instr) (color : Color) (s : State), colourOf16 i = some color →
    ∃ t, exec i s = .next t ∧
      exec (withColour (eff s color) i) { s with doMasking := false } = .next { t with doMasking := false }

/-- The four functions of R198 are exactly the pixels of the request inside the panel, and what they return lies inside
the panel. -/
def Obligations.ClippingIsExact : Prop :=
  ∀ x y w h px py : Int,
    (inb px py = true ↔ 0 ≤ px ∧ px < 240 ∧ 0 ≤ py ∧ py < 320) ∧
    ((inb px py = true ∧ inRect x y w 1 px py) ↔
      ∃ xa ya n, clipH x y w = some (xa, ya, n) ∧ inRect xa ya n 1 px py) ∧
    ((inb px py = true ∧ inRect x y 1 h px py) ↔
      ∃ xa ya n, clipV x y h = some (xa, ya, n) ∧ inRect xa ya 1 n px py) ∧
    ((inb px py = true ∧ inRect x y w h px py) ↔
      ∃ xa ya wa ha, clipRect x y w h = some (xa, ya, wa, ha) ∧ inRect xa ya wa ha px py) ∧
    (∀ xa ya n, clipH x y w = some (xa, ya, n) → 0 < n ∧ xa + n ≤ 240 ∧ ya < 320) ∧
    (∀ xa ya n, clipV x y h = some (xa, ya, n) → 0 < n ∧ xa < 240 ∧ ya + n ≤ 320) ∧
    ∀ xa ya wa ha, clipRect x y w h = some (xa, ya, wa, ha) → 0 < wa ∧ 0 < ha ∧ xa + wa ≤ 240 ∧ ya + ha ≤ 320

/-- `drawPixel` (R196, R197): the 13 frames, the shadow and the overdraw memory of an in-bounds pixel; nothing but
`prim_state` for any other. -/
def Obligations.DrawPixelFrames : Prop :=
  ∀ (x y : Int) (color : Color) (s : State),
    exec (.drawPixel x y color) s = .next
      (if 0 ≤ x ∧ x < 240 ∧ 0 ≤ y ∧ y < 320 then
        { afterWrites (windowLog x y x y ++ floodLog16 (eff s color) 1) (lo8 (eff s color)) (withShadow x y x y s) with
          primState := .idle
          rowMemo := s.rowMemo.eraseRange y.toNat 1, colMemo := s.colMemo.eraseRange x.toNat 1 }
      else { s with primState := .idle, cs := false })

/-- `drawFastHLine` and `drawFastVLine` (R199, R200, R202, R203): clipped away, skipped because the same run is remembered,
or sent as one window and one flood and remembered. -/
def Obligations.FastLineFrames : Prop :=
  ∀ (x y n : Int) (color : Color) (s : State),
    exec (.drawFastHLine x y n color) s = .next
      (match clipH x y n with
        | none => { s with primState := .idle, cs := false }
        | some (xa, ya, k) =>
          if s.doOverdraw = true ∧ s.rowMemo.lookup ya = some ⟨xa, k, eff s color⟩ then
            { s with primState := .idle, cs := false }
          else
            { afterWrites (hrunLog xa ya k (eff s color)) (lo8 (eff s color))
                (withShadow xa ya ((xa : Int) + k - 1) ya s) with
              primState := .idle
              rowMemo := s.rowMemo.insert ya ⟨xa, k, eff s color⟩, colMemo := s.colMemo.eraseRange xa k }) ∧
    exec (.drawFastVLine x y n color) s = .next
      (match clipV x y n with
        | none => { s with primState := .idle, cs := false }
        | some (xa, ya, k) =>
          if s.doOverdraw = true ∧ s.colMemo.lookup xa = some ⟨ya, k, eff s color⟩ then
            { s with primState := .idle, cs := false }
          else
            { afterWrites (vrunLog xa ya k (eff s color)) (lo8 (eff s color))
                (withShadow xa ya xa ((ya : Int) + k - 1) s) with
              primState := .idle
              colMemo := s.colMemo.insert xa ⟨ya, k, eff s color⟩, rowMemo := s.rowMemo.eraseRange ya k })

/-- `fillRect` (R204): nothing; or at full width with overdraw avoidance off one window and one flood over all rows; or
one run for each scanline that is not skipped. The overdraw memory and the shadow are given as well. -/
def Obligations.FillRectFrames : Prop :=
  ∀ (x y w h : Int) (color : Color) (s : State), ∃ t, exec (.fillRect x y w h color) s = .next t ∧
    match clipRect x y w h with
    | none => t = { s with primState := .idle, cs := false }
    | some (xa, ya, wa, ha) =>
      if wa = 240 ∧ s.doOverdraw = false then
        Drawn s t (windowLog 0 ya 239 ((ya : Int) + ha - 1) ++ floodLog16 (eff s color) (240 * ha)) ∧
        shadowOf t = shadowOf (withShadow 0 ya 239 ((ya : Int) + ha - 1) s) ∧
        (∀ j, t.rowMemo.lookup j =
          if ya ≤ j ∧ j < ya + ha then some ⟨0, 240, eff s color⟩ else s.rowMemo.lookup j) ∧
        ∀ i, t.colMemo.lookup i = if i < 240 then none else s.colMemo.lookup i
      else
        let sentRows := (List.range' ya ha).filter fun j =>
          !(s.doOverdraw && decide (s.rowMemo.lookup j = some ⟨xa, wa, eff s color⟩))
        Drawn s t (sentRows.flatMap fun j => hrunLog xa j wa (eff s color)) ∧
        (shadowOf t =
          match sentRows.getLast? with
          | none => shadowOf s
          | some j => shadowOf (withShadow xa j ((xa : Int) + wa - 1) j s)) ∧
        (∀ j, t.rowMemo.lookup j =
          if ya ≤ j ∧ j < ya + ha then some ⟨xa, wa, eff s color⟩ else s.rowMemo.lookup j) ∧
        ∀ i, t.colMemo.lookup i =
          if sentRows ≠ [] ∧ xa ≤ i ∧ i < xa + wa then none else s.colMemo.lookup i

/-- `fillScreen c` is exactly `fillRect 0, 0, 240, 320, c` (R205), and `fastFillScreen` likewise (R239). -/
def Obligations.FillScreenIsFillRect : Prop :=
  ∀ (color : Color) (c8 : Byte) (s : State),
    exec (.fillScreen color) s = exec (.fillRect 0 0 240 320 color) s ∧
    exec (.fastFillScreen c8) s = exec (.fastFillRect 0 0 240 320 c8) s

/-- `drawLine` (R206, R209): an axis-aligned line is the fast line, frame for frame and in every effect; a sloped line
sends its points one by one in the order of `bres`, those outside the panel not at all. The order of the end points does
not matter. -/
def Obligations.DrawLineFrames : Prop :=
  ∀ (x0 y0 x1 y1 : Int) (color : Color) (s : State),
    (y0 = y1 →
      exec (.drawLine x0 y0 x1 y1 color) s = exec (.drawFastHLine (min x0 x1) y0 (|x1 - x0| + 1) color) s) ∧
    (y0 ≠ y1 → x0 = x1 →
      exec (.drawLine x0 y0 x1 y1 color) s = exec (.drawFastVLine x0 (min y0 y1) (|y1 - y0| + 1) color) s) ∧
    (y0 ≠ y1 → x0 ≠ x1 → ∃ t, exec (.drawLine x0 y0 x1 y1 color) s = .next t ∧
      Drawn s t ((bres x0 y0 x1 y1).flatMap fun p => pixelLog16 p.1 p.2 (eff s color)) ∧
      (∀ j : Nat, (∃ i : Nat, i < 240 ∧ j < 320 ∧ ((i : Int), (j : Int)) ∈ bres x0 y0 x1 y1) →
        t.rowMemo.lookup j = none) ∧
      (∀ j : Nat, (¬∃ i : Nat, i < 240 ∧ j < 320 ∧ ((i : Int), (j : Int)) ∈ bres x0 y0 x1 y1) →
        t.rowMemo.lookup j = s.rowMemo.lookup j) ∧
      (∀ i : Nat, (∃ j : Nat, i < 240 ∧ j < 320 ∧ ((i : Int), (j : Int)) ∈ bres x0 y0 x1 y1) →
        t.colMemo.lookup i = none) ∧
      (∀ i : Nat, (¬∃ j : Nat, i < 240 ∧ j < 320 ∧ ((i : Int), (j : Int)) ∈ bres x0 y0 x1 y1) →
        t.colMemo.lookup i = s.colMemo.lookup i) ∧
      shadowOf t =
        match ((bres x0 y0 x1 y1).filter fun p => inb p.1 p.2).getLast? with
        | none => shadowOf s
        | some p => shadowOf (withShadow p.1 p.2 p.1 p.2 s)) ∧
    exec (.drawLine x1 y1 x0 y0 color) s = exec (.drawLine x0 y0 x1 y1 color) s

/-- `bres` in closed form (R208): the driving coordinate ascends by one from end to end; after `n` steps the other has
made as many steps as the error term, started at half the driving extent, has gone below zero. The golden sequence of the
source is the last clause. -/
def Obligations.BresenhamWalk : Prop :=
  (∀ x0 y0 x1 y1 : Int, x0 < x1 → |y1 - y0| ≤ x1 - x0 → ∀ n : Nat,
    (bres x0 y0 x1 y1)[n]? =
      if n ≤ (x1 - x0).toNat then
        some (x0 + n,
          y0 + (if y0 < y1 then 1 else -1) * ((n * |y1 - y0| + (x1 - x0) - 1 - (x1 - x0) / 2) / (x1 - x0)))
      else none) ∧
  (∀ x0 y0 x1 y1 : Int, y0 < y1 → |x1 - x0| < y1 - y0 → ∀ n : Nat,
    (bres x0 y0 x1 y1)[n]? =
      if n ≤ (y1 - y0).toNat then
        some (x0 + (if x0 < x1 then 1 else -1) * ((n * |x1 - x0| + (y1 - y0) - 1 - (y1 - y0) / 2) / (y1 - y0)),
          y0 + n)
      else none) ∧
  (∀ x0 y0 x1 y1 : Int, x0 ≠ x1 → y0 ≠ y1 →
    bres x1 y1 x0 y0 = bres x0 y0 x1 y1 ∧ (x0, y0) ∈ bres x0 y0 x1 y1 ∧ (x1, y1) ∈ bres x0 y0 x1 y1 ∧
    ((bres x0 y0 x1 y1).length : Int) = max |x1 - x0| |y1 - y0| + 1) ∧
  bres 0 0 3 2 = [(0, 0), (1, 1), (2, 1), (3, 2)]

/-- An operation whose shape has no pixel inside the panel appends no frame and changes nothing but `prim_state`, and
`result` for `readPixel` (R210). -/
def Obligations.OutOfBoundsNoTransaction : Prop :=
  ∀ (i : Instr) (s : State), hasShape i = true →
    (∀ px py : Int, 0 ≤ px → px < 240 → 0 ≤ py → py < 320 → ¬touches i px py) →
    exec i s = .next
      { s with
        primState := .idle, cs := false
        result := match i with
          | .readPixel _ _ => 0#16
          | _ => s.result }

/-- Every drawing operation of the 16-bit path, on a known panel in its format, leaves the Color of the masking stage in
exactly the cells of its shape that lie inside the panel, and every other cell as it was (R195 to R206 with R72 to R75).
With overdraw avoidance on, the overdraw memory has to be sound (R201). -/
def Obligations.DrawingPaintsItsShape : Prop :=
  ∀ (i : Instr) (color : Color) (s : State) (p : Panel), colourOf16 i = some color →
    s.panel = .known p → p.format = .twoBytes → (s.doOverdraw = true → MemoSound s) →
    ∃ t, exec i s = .next t ∧ Paints s t (touches i) (eff s color)

/-- The skip never changes the picture of an operation: with a sound overdraw memory, a drawing operation leaves the same
pixels with overdraw avoidance on as with it off (R201). -/
def Obligations.OverdrawSamePicture : Prop :=
  ∀ (i : Instr) (color : Color) (s : State) (p : Panel), colourOf16 i = some color →
    s.panel = .known p → p.format = .twoBytes → MemoSound s →
    ∃ t u q r, exec i { s with doOverdraw := true } = .next t ∧ exec i { s with doOverdraw := false } = .next u ∧
      t.panel = .known q ∧ u.panel = .known r ∧ ∀ x y : Nat, x < 240 → y < 320 → q.cell x y = r.cell x y

/-- The maintenance of the overdraw memory (R30, R31): what a run and a pixel do to it, which operations clear it, and
that an operation that emits no frame leaves it alone. -/
def Obligations.MemoMaintenance : Prop :=
  (∀ (x y n : Nat) (k : Color) (s : State),
    (∀ j, (memoRow x y n k s).rowMemo.lookup j = if j = y then some ⟨x, n, k⟩ else s.rowMemo.lookup j) ∧
    (∀ i, (memoRow x y n k s).colMemo.lookup i = if x ≤ i ∧ i < x + n then none else s.colMemo.lookup i) ∧
    (∀ i, (memoCol x y n k s).colMemo.lookup i = if i = x then some ⟨y, n, k⟩ else s.colMemo.lookup i) ∧
    (∀ j, (memoCol x y n k s).rowMemo.lookup j = if y ≤ j ∧ j < y + n then none else s.rowMemo.lookup j) ∧
    (∀ j, (memoPixel x y s).rowMemo.lookup j = if j = y then none else s.rowMemo.lookup j) ∧
    ∀ i, (memoPixel x y s).colMemo.lookup i = if i = x then none else s.colMemo.lookup i) ∧
  ∀ (i : Instr) (s t : State), exec i s = .next t →
    (t.txlog = s.txlog → t.rowMemo = s.rowMemo ∧ t.colMemo = s.colMemo) ∧
    (t.txlog ≠ s.txlog →
      (isFast i = true ∨ (∃ b, i = .writeCommand b) ∨ (∃ b, i = .writeData b) ∨ i = .clockPulse ∨
        (∃ c, i = .pushColor c) ∨ (∃ a n f, i = .pushColors a n f) ∨ ∃ c n, i = .flood c n) →
      (∀ j, t.rowMemo.lookup j = none) ∧ ∀ j, t.colMemo.lookup j = none)

/-- `readPixel` (R207): out of bounds `result` is 0 and nothing is sent; in bounds the one-pixel window, 0x2E, the dummy
reads and two reads, high byte first, whose bytes are `result`. No pixel, no flag and no memory changes. -/
def Obligations.ReadPixelFrames : Prop :=
  ∀ (x y : Int) (s : State),
    (¬(0 ≤ x ∧ x < 240 ∧ 0 ≤ y ∧ y < 320) →
      exec (.readPixel x y) s = .next { s with primState := .idle, cs := false, result := 0#16 }) ∧
    (0 ≤ x ∧ x < 240 ∧ 0 ≤ y ∧ y < 320 →
      ∃ (ds : List Byte) (hi lo : Byte) (fs : List Frame), ds.length = s.readDummyReads ∧
        fs = windowLog x y x y ++ .cmd 0x2E#8 :: (ds.map .rd ++ [.rd hi, .rd lo]) ∧
        exec (.readPixel x y) s = .next
          { withShadow x y x y s with
            primState := .idle, cs := false, busPhase := .idle, busDir := .write, rd := false, wr := false
            dcx := true, dout := 0x2E#8, result := hi ++ lo
            txlog := s.txlog ++ fs, panel := s.panel.onFrames s.readDummyReads fs
            freeDraws := s.freeDraws + s.readDummyReads + 2 })

/-- Read-back (R207, R76): with the settle time met and a known panel in the two-byte format, `readPixel` returns what the
pixel holds and changes no pixel; so, with masking off, a `drawPixel` before it is read back exactly, for every 16-bit
value. -/
def Obligations.ReadBackAfterDraw : Prop :=
  ∀ (x y : Nat) (s : State) (p : Panel), x < 240 → y < 320 → s.panel = .known p → p.format = .twoBytes →
    settleMet s = true →
    (∃ t q, exec (.readPixel x y) s = .next t ∧ t.result = p.cell x y ∧ t.panel = .known q ∧ q.gram = p.gram) ∧
    ∀ color, s.doMasking = false →
      ∃ t u, exec (.drawPixel x y color) s = .next t ∧ exec (.readPixel x y) t = .next u ∧ u.result = color

/-! ### Fast 8-bit Path (spec/45) -/

/-- The eight painting operations of the fast path (R234 to R239, R244 to R246, R248): exactly the frames of their rules;
the shadow of the last window sent, or as it was; `memo_clear_all` if there was a frame, `prim_state` Idle, and nothing
else. -/
def Obligations.FastFrames : Prop :=
  ∀ (i : Instr) (c8 : Byte) (s : State), colourOf8 i = some c8 →
    ∃ t, exec i s = .next t ∧ Drawn s t (fastLog i) ∧ shadowOf t = shadowAfter (fastEmits i) s ∧
      (fastLog i = [] → t.rowMemo = s.rowMemo ∧ t.colMemo = s.colMemo ∧ shadowOf t = shadowOf s) ∧
      (fastLog i ≠ [] → t.rowMemo = [] ∧ t.colMemo = [] ∧ t.winColSet = true ∧ t.winRowSet = true)

/-- The painting operations of the fast path, on a known panel in the one-byte format, leave their byte in exactly the
cells of their shape that lie inside the panel, and every other cell as it was (R249 with R72 to R75). -/
def Obligations.FastPaintsItsShape : Prop :=
  ∀ (i : Instr) (c8 : Byte) (s : State) (p : Panel), colourOf8 i = some c8 →
    s.panel = .known p → p.format = .oneByte →
    ∃ t, exec i s = .next t ∧ Paints s t (touches i) (0#8 ++ c8)

/-- No operation of the fast path reads or writes the compositing flags and colours: with other values in them it does the
same, and leaves them (R232). -/
def Obligations.FastIgnoresCompositing : Prop :=
  ∀ (i : Instr) (s t : State) (b1 b2 b3 : Bool) (c1 c2 : Color), isFast i = true → exec i s = .next t →
    exec i { s with
        doMasking := b1, doOverdraw := b2, maskFlag := b3, backgroundColor := c1, foregroundColor := c2 } =
      .next { t with
        doMasking := b1, doOverdraw := b2, maskFlag := b3, backgroundColor := c1, foregroundColor := c2 }

/-- `fastXORFlood` (R241, R240): nothing for a zero length; above `XBUF_BYTES` nothing but `err_illegal`; else the read
phase, then the write phase with the bytes read, each XORed with the mask. -/
def Obligations.XorFloodFrames : Prop :=
  ∀ (m : Byte) (n : Nat) (s : State),
    exec (.fastXorFlood m 0) s = .next s ∧
    (240 < n → exec (.fastXorFlood m n) s = .next { s with errIllegal := true }) ∧
    (0 < n → n ≤ 240 → ∃ ds vs : List Byte, ds.length = s.readDummyReads ∧ vs.length = n ∧
      exec (.fastXorFlood m n) s = .next
        { afterFrames (xorLog m ds vs) s with
          primState := .streaming, busDir := .write, rd := false, rowMemo := [], colMemo := []
          xbuf := vs ++ s.xbuf.drop n, freeDraws := s.freeDraws + s.readDummyReads + n })

/-- `fastXORRect` (R242): one window and one XOR run for each scanline of the clipped rectangle, top to bottom. -/
def Obligations.XorRectFrames : Prop :=
  ∀ (x y w h : Int) (m : Byte) (s : State), ∃ t, exec (.fastXorRect x y w h m) s = .next t ∧
    match clipRect x y w h with
    | none => t = { s with primState := .idle, cs := false }
    | some (xa, ya, wa, ha) =>
      ∃ ds vs : Nat → List Byte, (∀ j, (ds j).length = s.readDummyReads ∧ (vs j).length = wa) ∧
        t = { withShadow xa ((ya : Int) + ha - 1) ((xa : Int) + wa - 1) ((ya : Int) + ha - 1)
                (afterFrames ((List.range' ya ha).flatMap fun j => xorRowLog m xa wa j (ds j) (vs j)) s) with
              primState := .idle, busDir := .write, rd := false, rowMemo := [], colMemo := []
              xbuf := vs (ya + ha - 1) ++ s.xbuf.drop wa
              freeDraws := s.freeDraws + ha * (s.readDummyReads + wa) }

/-- What an XOR run does to the pixels of the window (R243): on a known panel in the one-byte format with the settle time
met, the byte of each of the first `n` pixels is XORed with the mask, and every other cell is as it was. -/
def Obligations.XorFloodFlipsPixels : Prop :=
  ∀ (s : State) (p : Panel) (x1 y1 w h n : Nat) (m : Byte), s.panel = .known p → p.HasWindow x1 y1 w h →
    p.format = .oneByte → settleMet s = true → n ≤ 240 → n ≤ w * h →
    ∃ t q, exec (.fastXorFlood m n) s = .next t ∧ t.panel = .known q ∧
      (∀ i, i < n → q.cell (pixelCol x1 w i) (pixelRow y1 w h i) =
        0#8 ++ (lo8 (p.cell (pixelCol x1 w i) (pixelRow y1 w h i)) ^^^ m)) ∧
      ∀ x y : Nat, x < 240 → y < 320 → (∀ i, i < n → ¬(x = pixelCol x1 w i ∧ y = pixelRow y1 w h i)) →
        q.cell x y = p.cell x y

/-- The double-XOR property (R243): `fastXORRect` XORs every pixel byte of the rectangle inside the panel; applied twice
with the same operands it restores them bit for bit; no other cell changes either time. -/
def Obligations.XorRectTwiceRestores : Prop :=
  ∀ (s : State) (p : Panel) (x y w h : Int) (m : Byte), s.panel = .known p → p.format = .oneByte →
    settleMet s = true →
    ∃ t u q r, exec (.fastXorRect x y w h m) s = .next t ∧ exec (.fastXorRect x y w h m) t = .next u ∧
      t.panel = .known q ∧ u.panel = .known r ∧
      ∀ px py : Nat, px < 240 → py < 320 →
        (inRect x y w h px py →
          q.cell px py = 0#8 ++ (lo8 (p.cell px py) ^^^ m) ∧ lo8 (r.cell px py) = lo8 (p.cell px py)) ∧
        (¬inRect x y w h px py → q.cell px py = p.cell px py ∧ r.cell px py = p.cell px py)

/-- `tri_spans` (R247): one span for each row from the least to the greatest `y`, top to bottom, each of length at least
1; vertices out of order give the spans of the vertices after the compare-and-swap that puts the two in order; vertices
on one row give one span over all three; and for sorted vertices each span lies between the two edges, interpolated in
closed form with truncating division. The examples of R247 are the last clauses. -/
def Obligations.TriangleSpans : Prop :=
  (∀ x0 y0 x1 y1 x2 y2 : Int,
    (triSpans x0 y0 x1 y1 x2 y2).map (fun sp => sp.2.1) =
      (List.range (max y0 (max y1 y2) - min y0 (min y1 y2) + 1).toNat).map (fun n : Nat => min y0 (min y1 y2) + n) ∧
    ∀ sp ∈ triSpans x0 y0 x1 y1 x2 y2, 1 ≤ sp.2.2) ∧
  (∀ x0 y0 x1 y1 x2 y2 : Int,
    (y1 < y0 → triSpans x0 y0 x1 y1 x2 y2 = triSpans x1 y1 x0 y0 x2 y2) ∧
    (y0 ≤ y1 → y2 < y1 → triSpans x0 y0 x1 y1 x2 y2 = triSpans x0 y0 x2 y2 x1 y1) ∧
    (y0 = y1 → y1 = y2 → triSpans x0 y0 x1 y1 x2 y2 =
      [(min x0 (min x1 x2), y0, max x0 (max x1 x2) - min x0 (min x1 x2) + 1)])) ∧
  (∀ x0 y0 x1 y1 x2 y2 : Int, y0 ≤ y1 → y1 ≤ y2 → y0 < y2 → ∀ sp ∈ triSpans x0 y0 x1 y1 x2 y2,
    ((sp.2.1 < y1 ∨ (y1 = y2 ∧ sp.2.1 = y1)) →
      ∃ a b, a = x0 + ((x1 - x0) * (sp.2.1 - y0)).tdiv (y1 - y0) ∧ b = x0 + ((x2 - x0) * (sp.2.1 - y0)).tdiv (y2 - y0) ∧
        sp.1 = min a b ∧ sp.2.2 = max a b - min a b + 1) ∧
    (y1 ≤ sp.2.1 → y1 < y2 →
      ∃ a b, a = x1 + ((x2 - x1) * (sp.2.1 - y1)).tdiv (y2 - y1) ∧ b = x0 + ((x2 - x0) * (sp.2.1 - y0)).tdiv (y2 - y0) ∧
        sp.1 = min a b ∧ sp.2.2 = max a b - min a b + 1)) ∧
  triSpans 0 0 4 0 0 4 = [(0, 0, 5), (0, 1, 4), (0, 2, 3), (0, 3, 2), (0, 4, 1)] ∧
  triSpans 2 0 0 4 4 4 = [(2, 0, 1), (2, 1, 1), (1, 2, 3), (1, 3, 3), (0, 4, 5)] ∧
  triSpans 1 1 4 3 2 6 = [(1, 1, 1), (1, 2, 2), (1, 3, 4), (1, 4, 4), (1, 5, 3), (2, 6, 1)]
end

