-- ==== Sys2Proof/Laws/State.lean ====
section
/-! SUPPORT. What each update of the state does to each field, one lemma each, true by definition. -/

namespace Sys2Proof.Machine

/-! ### `selectChip`: chip-select goes high (R137) -/

@[simp] theorem selectChip_primState (s : State) : (selectChip s).primState = s.primState := rfl
@[simp] theorem selectChip_busDir (s : State) : (selectChip s).busDir = s.busDir := rfl
@[simp] theorem selectChip_busPhase (s : State) : (selectChip s).busPhase = s.busPhase := rfl
@[simp] theorem selectChip_dout (s : State) : (selectChip s).dout = s.dout := rfl
@[simp] theorem selectChip_dcx (s : State) : (selectChip s).dcx = s.dcx := rfl
@[simp] theorem selectChip_wr (s : State) : (selectChip s).wr = s.wr := rfl
@[simp] theorem selectChip_rd (s : State) : (selectChip s).rd = s.rd := rfl
@[simp] theorem selectChip_cs (s : State) : (selectChip s).cs = true := rfl
@[simp] theorem selectChip_doMasking (s : State) : (selectChip s).doMasking = s.doMasking := rfl
@[simp] theorem selectChip_doOverdraw (s : State) : (selectChip s).doOverdraw = s.doOverdraw := rfl
@[simp] theorem selectChip_maskFlag (s : State) : (selectChip s).maskFlag = s.maskFlag := rfl
@[simp] theorem selectChip_backgroundColor (s : State) : (selectChip s).backgroundColor = s.backgroundColor := rfl
@[simp] theorem selectChip_foregroundColor (s : State) : (selectChip s).foregroundColor = s.foregroundColor := rfl
@[simp] theorem selectChip_winX1 (s : State) : (selectChip s).winX1 = s.winX1 := rfl
@[simp] theorem selectChip_winX2 (s : State) : (selectChip s).winX2 = s.winX2 := rfl
@[simp] theorem selectChip_winY1 (s : State) : (selectChip s).winY1 = s.winY1 := rfl
@[simp] theorem selectChip_winY2 (s : State) : (selectChip s).winY2 = s.winY2 := rfl
@[simp] theorem selectChip_winColSet (s : State) : (selectChip s).winColSet = s.winColSet := rfl
@[simp] theorem selectChip_winRowSet (s : State) : (selectChip s).winRowSet = s.winRowSet := rfl
@[simp] theorem selectChip_xbuf (s : State) : (selectChip s).xbuf = s.xbuf := rfl
@[simp] theorem selectChip_rowMemo (s : State) : (selectChip s).rowMemo = s.rowMemo := rfl
@[simp] theorem selectChip_colMemo (s : State) : (selectChip s).colMemo = s.colMemo := rfl
@[simp] theorem selectChip_result (s : State) : (selectChip s).result = s.result := rfl
@[simp] theorem selectChip_errIllegal (s : State) : (selectChip s).errIllegal = s.errIllegal := rfl
@[simp] theorem selectChip_txlog (s : State) : (selectChip s).txlog = s.txlog := rfl
@[simp] theorem selectChip_panel (s : State) : (selectChip s).panel = s.panel := rfl
@[simp] theorem selectChip_pixMem (s : State) : (selectChip s).pixMem = s.pixMem := rfl
@[simp] theorem selectChip_readDummyReads (s : State) : (selectChip s).readDummyReads = s.readDummyReads := rfl
@[simp] theorem selectChip_targetClockHz (s : State) : (selectChip s).targetClockHz = s.targetClockHz := rfl
@[simp] theorem selectChip_settleCycles (s : State) : (selectChip s).settleCycles = s.settleCycles := rfl
@[simp] theorem selectChip_hostQueue (s : State) : (selectChip s).hostQueue = s.hostQueue := rfl
@[simp] theorem selectChip_hostData (s : State) : (selectChip s).hostData = s.hostData := rfl
@[simp] theorem selectChip_freeDraws (s : State) : (selectChip s).freeDraws = s.freeDraws := rfl

/-! ### `finish`: chip-select goes low (R137) -/

@[simp] theorem finish_primState (s : State) : (finish s).primState = s.primState := rfl
@[simp] theorem finish_busDir (s : State) : (finish s).busDir = s.busDir := rfl
@[simp] theorem finish_busPhase (s : State) : (finish s).busPhase = s.busPhase := rfl
@[simp] theorem finish_dout (s : State) : (finish s).dout = s.dout := rfl
@[simp] theorem finish_dcx (s : State) : (finish s).dcx = s.dcx := rfl
@[simp] theorem finish_wr (s : State) : (finish s).wr = s.wr := rfl
@[simp] theorem finish_rd (s : State) : (finish s).rd = s.rd := rfl
@[simp] theorem finish_cs (s : State) : (finish s).cs = false := rfl
@[simp] theorem finish_doMasking (s : State) : (finish s).doMasking = s.doMasking := rfl
@[simp] theorem finish_doOverdraw (s : State) : (finish s).doOverdraw = s.doOverdraw := rfl
@[simp] theorem finish_maskFlag (s : State) : (finish s).maskFlag = s.maskFlag := rfl
@[simp] theorem finish_backgroundColor (s : State) : (finish s).backgroundColor = s.backgroundColor := rfl
@[simp] theorem finish_foregroundColor (s : State) : (finish s).foregroundColor = s.foregroundColor := rfl
@[simp] theorem finish_winX1 (s : State) : (finish s).winX1 = s.winX1 := rfl
@[simp] theorem finish_winX2 (s : State) : (finish s).winX2 = s.winX2 := rfl
@[simp] theorem finish_winY1 (s : State) : (finish s).winY1 = s.winY1 := rfl
@[simp] theorem finish_winY2 (s : State) : (finish s).winY2 = s.winY2 := rfl
@[simp] theorem finish_winColSet (s : State) : (finish s).winColSet = s.winColSet := rfl
@[simp] theorem finish_winRowSet (s : State) : (finish s).winRowSet = s.winRowSet := rfl
@[simp] theorem finish_xbuf (s : State) : (finish s).xbuf = s.xbuf := rfl
@[simp] theorem finish_rowMemo (s : State) : (finish s).rowMemo = s.rowMemo := rfl
@[simp] theorem finish_colMemo (s : State) : (finish s).colMemo = s.colMemo := rfl
@[simp] theorem finish_result (s : State) : (finish s).result = s.result := rfl
@[simp] theorem finish_errIllegal (s : State) : (finish s).errIllegal = s.errIllegal := rfl
@[simp] theorem finish_txlog (s : State) : (finish s).txlog = s.txlog := rfl
@[simp] theorem finish_panel (s : State) : (finish s).panel = s.panel := rfl
@[simp] theorem finish_pixMem (s : State) : (finish s).pixMem = s.pixMem := rfl
@[simp] theorem finish_readDummyReads (s : State) : (finish s).readDummyReads = s.readDummyReads := rfl
@[simp] theorem finish_targetClockHz (s : State) : (finish s).targetClockHz = s.targetClockHz := rfl
@[simp] theorem finish_settleCycles (s : State) : (finish s).settleCycles = s.settleCycles := rfl
@[simp] theorem finish_hostQueue (s : State) : (finish s).hostQueue = s.hostQueue := rfl
@[simp] theorem finish_hostData (s : State) : (finish s).hostData = s.hostData := rfl
@[simp] theorem finish_freeDraws (s : State) : (finish s).freeDraws = s.freeDraws := rfl

/-! ### `setPrim`: `prim_state` is set (R36) -/

@[simp] theorem setPrim_primState (p : PrimState) (s : State) : (setPrim p s).primState = p := rfl
@[simp] theorem setPrim_busDir (p : PrimState) (s : State) : (setPrim p s).busDir = s.busDir := rfl
@[simp] theorem setPrim_busPhase (p : PrimState) (s : State) : (setPrim p s).busPhase = s.busPhase := rfl
@[simp] theorem setPrim_dout (p : PrimState) (s : State) : (setPrim p s).dout = s.dout := rfl
@[simp] theorem setPrim_dcx (p : PrimState) (s : State) : (setPrim p s).dcx = s.dcx := rfl
@[simp] theorem setPrim_wr (p : PrimState) (s : State) : (setPrim p s).wr = s.wr := rfl
@[simp] theorem setPrim_rd (p : PrimState) (s : State) : (setPrim p s).rd = s.rd := rfl
@[simp] theorem setPrim_cs (p : PrimState) (s : State) : (setPrim p s).cs = s.cs := rfl
@[simp] theorem setPrim_doMasking (p : PrimState) (s : State) : (setPrim p s).doMasking = s.doMasking := rfl
@[simp] theorem setPrim_doOverdraw (p : PrimState) (s : State) : (setPrim p s).doOverdraw = s.doOverdraw := rfl
@[simp] theorem setPrim_maskFlag (p : PrimState) (s : State) : (setPrim p s).maskFlag = s.maskFlag := rfl
@[simp] theorem setPrim_backgroundColor (p : PrimState) (s : State) : (setPrim p s).backgroundColor = s.backgroundColor :=
  rfl
@[simp] theorem setPrim_foregroundColor (p : PrimState) (s : State) : (setPrim p s).foregroundColor = s.foregroundColor :=
  rfl
@[simp] theorem setPrim_winX1 (p : PrimState) (s : State) : (setPrim p s).winX1 = s.winX1 := rfl
@[simp] theorem setPrim_winX2 (p : PrimState) (s : State) : (setPrim p s).winX2 = s.winX2 := rfl
@[simp] theorem setPrim_winY1 (p : PrimState) (s : State) : (setPrim p s).winY1 = s.winY1 := rfl
@[simp] theorem setPrim_winY2 (p : PrimState) (s : State) : (setPrim p s).winY2 = s.winY2 := rfl
@[simp] theorem setPrim_winColSet (p : PrimState) (s : State) : (setPrim p s).winColSet = s.winColSet := rfl
@[simp] theorem setPrim_winRowSet (p : PrimState) (s : State) : (setPrim p s).winRowSet = s.winRowSet := rfl
@[simp] theorem setPrim_xbuf (p : PrimState) (s : State) : (setPrim p s).xbuf = s.xbuf := rfl
@[simp] theorem setPrim_rowMemo (p : PrimState) (s : State) : (setPrim p s).rowMemo = s.rowMemo := rfl
@[simp] theorem setPrim_colMemo (p : PrimState) (s : State) : (setPrim p s).colMemo = s.colMemo := rfl
@[simp] theorem setPrim_result (p : PrimState) (s : State) : (setPrim p s).result = s.result := rfl
@[simp] theorem setPrim_errIllegal (p : PrimState) (s : State) : (setPrim p s).errIllegal = s.errIllegal := rfl
@[simp] theorem setPrim_txlog (p : PrimState) (s : State) : (setPrim p s).txlog = s.txlog := rfl
@[simp] theorem setPrim_panel (p : PrimState) (s : State) : (setPrim p s).panel = s.panel := rfl
@[simp] theorem setPrim_pixMem (p : PrimState) (s : State) : (setPrim p s).pixMem = s.pixMem := rfl
@[simp] theorem setPrim_readDummyReads (p : PrimState) (s : State) : (setPrim p s).readDummyReads = s.readDummyReads :=
  rfl
@[simp] theorem setPrim_targetClockHz (p : PrimState) (s : State) : (setPrim p s).targetClockHz = s.targetClockHz := rfl
@[simp] theorem setPrim_settleCycles (p : PrimState) (s : State) : (setPrim p s).settleCycles = s.settleCycles := rfl
@[simp] theorem setPrim_hostQueue (p : PrimState) (s : State) : (setPrim p s).hostQueue = s.hostQueue := rfl
@[simp] theorem setPrim_hostData (p : PrimState) (s : State) : (setPrim p s).hostData = s.hostData := rfl
@[simp] theorem setPrim_freeDraws (p : PrimState) (s : State) : (setPrim p s).freeDraws = s.freeDraws := rfl

/-! ### `memoClearAll`: `memo_clear_all` (R31) -/

@[simp] theorem memoClearAll_primState (s : State) : (memoClearAll s).primState = s.primState := rfl
@[simp] theorem memoClearAll_busDir (s : State) : (memoClearAll s).busDir = s.busDir := rfl
@[simp] theorem memoClearAll_busPhase (s : State) : (memoClearAll s).busPhase = s.busPhase := rfl
@[simp] theorem memoClearAll_dout (s : State) : (memoClearAll s).dout = s.dout := rfl
@[simp] theorem memoClearAll_dcx (s : State) : (memoClearAll s).dcx = s.dcx := rfl
@[simp] theorem memoClearAll_wr (s : State) : (memoClearAll s).wr = s.wr := rfl
@[simp] theorem memoClearAll_rd (s : State) : (memoClearAll s).rd = s.rd := rfl
@[simp] theorem memoClearAll_cs (s : State) : (memoClearAll s).cs = s.cs := rfl
@[simp] theorem memoClearAll_doMasking (s : State) : (memoClearAll s).doMasking = s.doMasking := rfl
@[simp] theorem memoClearAll_doOverdraw (s : State) : (memoClearAll s).doOverdraw = s.doOverdraw := rfl
@[simp] theorem memoClearAll_maskFlag (s : State) : (memoClearAll s).maskFlag = s.maskFlag := rfl
@[simp] theorem memoClearAll_backgroundColor (s : State) : (memoClearAll s).backgroundColor = s.backgroundColor := rfl
@[simp] theorem memoClearAll_foregroundColor (s : State) : (memoClearAll s).foregroundColor = s.foregroundColor := rfl
@[simp] theorem memoClearAll_winX1 (s : State) : (memoClearAll s).winX1 = s.winX1 := rfl
@[simp] theorem memoClearAll_winX2 (s : State) : (memoClearAll s).winX2 = s.winX2 := rfl
@[simp] theorem memoClearAll_winY1 (s : State) : (memoClearAll s).winY1 = s.winY1 := rfl
@[simp] theorem memoClearAll_winY2 (s : State) : (memoClearAll s).winY2 = s.winY2 := rfl
@[simp] theorem memoClearAll_winColSet (s : State) : (memoClearAll s).winColSet = s.winColSet := rfl
@[simp] theorem memoClearAll_winRowSet (s : State) : (memoClearAll s).winRowSet = s.winRowSet := rfl
@[simp] theorem memoClearAll_xbuf (s : State) : (memoClearAll s).xbuf = s.xbuf := rfl
@[simp] theorem memoClearAll_rowMemo (s : State) : (memoClearAll s).rowMemo = [] := rfl
@[simp] theorem memoClearAll_colMemo (s : State) : (memoClearAll s).colMemo = [] := rfl
@[simp] theorem memoClearAll_result (s : State) : (memoClearAll s).result = s.result := rfl
@[simp] theorem memoClearAll_errIllegal (s : State) : (memoClearAll s).errIllegal = s.errIllegal := rfl
@[simp] theorem memoClearAll_txlog (s : State) : (memoClearAll s).txlog = s.txlog := rfl
@[simp] theorem memoClearAll_panel (s : State) : (memoClearAll s).panel = s.panel := rfl
@[simp] theorem memoClearAll_pixMem (s : State) : (memoClearAll s).pixMem = s.pixMem := rfl
@[simp] theorem memoClearAll_readDummyReads (s : State) : (memoClearAll s).readDummyReads = s.readDummyReads := rfl
@[simp] theorem memoClearAll_targetClockHz (s : State) : (memoClearAll s).targetClockHz = s.targetClockHz := rfl
@[simp] theorem memoClearAll_settleCycles (s : State) : (memoClearAll s).settleCycles = s.settleCycles := rfl
@[simp] theorem memoClearAll_hostQueue (s : State) : (memoClearAll s).hostQueue = s.hostQueue := rfl
@[simp] theorem memoClearAll_hostData (s : State) : (memoClearAll s).hostData = s.hostData := rfl
@[simp] theorem memoClearAll_freeDraws (s : State) : (memoClearAll s).freeDraws = s.freeDraws := rfl

/-! ### `memoRow`: a horizontal run is remembered (R30) -/

@[simp] theorem memoRow_primState (x y n : Nat) (k : Color) (s : State) : (memoRow x y n k s).primState = s.primState :=
  rfl
@[simp] theorem memoRow_busDir (x y n : Nat) (k : Color) (s : State) : (memoRow x y n k s).busDir = s.busDir := rfl
@[simp] theorem memoRow_busPhase (x y n : Nat) (k : Color) (s : State) : (memoRow x y n k s).busPhase = s.busPhase :=
  rfl
@[simp] theorem memoRow_dout (x y n : Nat) (k : Color) (s : State) : (memoRow x y n k s).dout = s.dout := rfl
@[simp] theorem memoRow_dcx (x y n : Nat) (k : Color) (s : State) : (memoRow x y n k s).dcx = s.dcx := rfl
@[simp] theorem memoRow_wr (x y n : Nat) (k : Color) (s : State) : (memoRow x y n k s).wr = s.wr := rfl
@[simp] theorem memoRow_rd (x y n : Nat) (k : Color) (s : State) : (memoRow x y n k s).rd = s.rd := rfl
@[simp] theorem memoRow_cs (x y n : Nat) (k : Color) (s : State) : (memoRow x y n k s).cs = s.cs := rfl
@[simp] theorem memoRow_doMasking (x y n : Nat) (k : Color) (s : State) : (memoRow x y n k s).doMasking = s.doMasking :=
  rfl
@[simp] theorem memoRow_doOverdraw (x y n : Nat) (k : Color) (s : State) :
    (memoRow x y n k s).doOverdraw = s.doOverdraw := rfl
@[simp] theorem memoRow_maskFlag (x y n : Nat) (k : Color) (s : State) : (memoRow x y n k s).maskFlag = s.maskFlag :=
  rfl
@[simp] theorem memoRow_backgroundColor (x y n : Nat) (k : Color) (s : State) :
    (memoRow x y n k s).backgroundColor = s.backgroundColor := rfl
@[simp] theorem memoRow_foregroundColor (x y n : Nat) (k : Color) (s : State) :
    (memoRow x y n k s).foregroundColor = s.foregroundColor := rfl
@[simp] theorem memoRow_winX1 (x y n : Nat) (k : Color) (s : State) : (memoRow x y n k s).winX1 = s.winX1 := rfl
@[simp] theorem memoRow_winX2 (x y n : Nat) (k : Color) (s : State) : (memoRow x y n k s).winX2 = s.winX2 := rfl
@[simp] theorem memoRow_winY1 (x y n : Nat) (k : Color) (s : State) : (memoRow x y n k s).winY1 = s.winY1 := rfl
@[simp] theorem memoRow_winY2 (x y n : Nat) (k : Color) (s : State) : (memoRow x y n k s).winY2 = s.winY2 := rfl
@[simp] theorem memoRow_winColSet (x y n : Nat) (k : Color) (s : State) : (memoRow x y n k s).winColSet = s.winColSet :=
  rfl
@[simp] theorem memoRow_winRowSet (x y n : Nat) (k : Color) (s : State) : (memoRow x y n k s).winRowSet = s.winRowSet :=
  rfl
@[simp] theorem memoRow_xbuf (x y n : Nat) (k : Color) (s : State) : (memoRow x y n k s).xbuf = s.xbuf := rfl
@[simp] theorem memoRow_rowMemo (x y n : Nat) (k : Color) (s : State) :
    (memoRow x y n k s).rowMemo = s.rowMemo.insert y ⟨x, n, k⟩ := rfl
@[simp] theorem memoRow_colMemo (x y n : Nat) (k : Color) (s : State) :
    (memoRow x y n k s).colMemo = s.colMemo.eraseRange x n := rfl
@[simp] theorem memoRow_result (x y n : Nat) (k : Color) (s : State) : (memoRow x y n k s).result = s.result := rfl
@[simp] theorem memoRow_errIllegal (x y n : Nat) (k : Color) (s : State) :
    (memoRow x y n k s).errIllegal = s.errIllegal := rfl
@[simp] theorem memoRow_txlog (x y n : Nat) (k : Color) (s : State) : (memoRow x y n k s).txlog = s.txlog := rfl
@[simp] theorem memoRow_panel (x y n : Nat) (k : Color) (s : State) : (memoRow x y n k s).panel = s.panel := rfl
@[simp] theorem memoRow_pixMem (x y n : Nat) (k : Color) (s : State) : (memoRow x y n k s).pixMem = s.pixMem := rfl
@[simp] theorem memoRow_readDummyReads (x y n : Nat) (k : Color) (s : State) :
    (memoRow x y n k s).readDummyReads = s.readDummyReads := rfl
@[simp] theorem memoRow_targetClockHz (x y n : Nat) (k : Color) (s : State) :
    (memoRow x y n k s).targetClockHz = s.targetClockHz := rfl
@[simp] theorem memoRow_settleCycles (x y n : Nat) (k : Color) (s : State) :
    (memoRow x y n k s).settleCycles = s.settleCycles := rfl
@[simp] theorem memoRow_hostQueue (x y n : Nat) (k : Color) (s : State) : (memoRow x y n k s).hostQueue = s.hostQueue :=
  rfl
@[simp] theorem memoRow_hostData (x y n : Nat) (k : Color) (s : State) : (memoRow x y n k s).hostData = s.hostData :=
  rfl
@[simp] theorem memoRow_freeDraws (x y n : Nat) (k : Color) (s : State) : (memoRow x y n k s).freeDraws = s.freeDraws :=
  rfl

/-! ### `memoCol`: a vertical run is remembered (R30) -/

@[simp] theorem memoCol_primState (x y n : Nat) (k : Color) (s : State) : (memoCol x y n k s).primState = s.primState :=
  rfl
@[simp] theorem memoCol_busDir (x y n : Nat) (k : Color) (s : State) : (memoCol x y n k s).busDir = s.busDir := rfl
@[simp] theorem memoCol_busPhase (x y n : Nat) (k : Color) (s : State) : (memoCol x y n k s).busPhase = s.busPhase :=
  rfl
@[simp] theorem memoCol_dout (x y n : Nat) (k : Color) (s : State) : (memoCol x y n k s).dout = s.dout := rfl
@[simp] theorem memoCol_dcx (x y n : Nat) (k : Color) (s : State) : (memoCol x y n k s).dcx = s.dcx := rfl
@[simp] theorem memoCol_wr (x y n : Nat) (k : Color) (s : State) : (memoCol x y n k s).wr = s.wr := rfl
@[simp] theorem memoCol_rd (x y n : Nat) (k : Color) (s : State) : (memoCol x y n k s).rd = s.rd := rfl
@[simp] theorem memoCol_cs (x y n : Nat) (k : Color) (s : State) : (memoCol x y n k s).cs = s.cs := rfl
@[simp] theorem memoCol_doMasking (x y n : Nat) (k : Color) (s : State) : (memoCol x y n k s).doMasking = s.doMasking :=
  rfl
@[simp] theorem memoCol_doOverdraw (x y n : Nat) (k : Color) (s : State) :
    (memoCol x y n k s).doOverdraw = s.doOverdraw := rfl
@[simp] theorem memoCol_maskFlag (x y n : Nat) (k : Color) (s : State) : (memoCol x y n k s).maskFlag = s.maskFlag :=
  rfl
@[simp] theorem memoCol_backgroundColor (x y n : Nat) (k : Color) (s : State) :
    (memoCol x y n k s).backgroundColor = s.backgroundColor := rfl
@[simp] theorem memoCol_foregroundColor (x y n : Nat) (k : Color) (s : State) :
    (memoCol x y n k s).foregroundColor = s.foregroundColor := rfl
@[simp] theorem memoCol_winX1 (x y n : Nat) (k : Color) (s : State) : (memoCol x y n k s).winX1 = s.winX1 := rfl
@[simp] theorem memoCol_winX2 (x y n : Nat) (k : Color) (s : State) : (memoCol x y n k s).winX2 = s.winX2 := rfl
@[simp] theorem memoCol_winY1 (x y n : Nat) (k : Color) (s : State) : (memoCol x y n k s).winY1 = s.winY1 := rfl
@[simp] theorem memoCol_winY2 (x y n : Nat) (k : Color) (s : State) : (memoCol x y n k s).winY2 = s.winY2 := rfl
@[simp] theorem memoCol_winColSet (x y n : Nat) (k : Color) (s : State) : (memoCol x y n k s).winColSet = s.winColSet :=
  rfl
@[simp] theorem memoCol_winRowSet (x y n : Nat) (k : Color) (s : State) : (memoCol x y n k s).winRowSet = s.winRowSet :=
  rfl
@[simp] theorem memoCol_xbuf (x y n : Nat) (k : Color) (s : State) : (memoCol x y n k s).xbuf = s.xbuf := rfl
@[simp] theorem memoCol_rowMemo (x y n : Nat) (k : Color) (s : State) :
    (memoCol x y n k s).rowMemo = s.rowMemo.eraseRange y n := rfl
@[simp] theorem memoCol_colMemo (x y n : Nat) (k : Color) (s : State) :
    (memoCol x y n k s).colMemo = s.colMemo.insert x ⟨y, n, k⟩ := rfl
@[simp] theorem memoCol_result (x y n : Nat) (k : Color) (s : State) : (memoCol x y n k s).result = s.result := rfl
@[simp] theorem memoCol_errIllegal (x y n : Nat) (k : Color) (s : State) :
    (memoCol x y n k s).errIllegal = s.errIllegal := rfl
@[simp] theorem memoCol_txlog (x y n : Nat) (k : Color) (s : State) : (memoCol x y n k s).txlog = s.txlog := rfl
@[simp] theorem memoCol_panel (x y n : Nat) (k : Color) (s : State) : (memoCol x y n k s).panel = s.panel := rfl
@[simp] theorem memoCol_pixMem (x y n : Nat) (k : Color) (s : State) : (memoCol x y n k s).pixMem = s.pixMem := rfl
@[simp] theorem memoCol_readDummyReads (x y n : Nat) (k : Color) (s : State) :
    (memoCol x y n k s).readDummyReads = s.readDummyReads := rfl
@[simp] theorem memoCol_targetClockHz (x y n : Nat) (k : Color) (s : State) :
    (memoCol x y n k s).targetClockHz = s.targetClockHz := rfl
@[simp] theorem memoCol_settleCycles (x y n : Nat) (k : Color) (s : State) :
    (memoCol x y n k s).settleCycles = s.settleCycles := rfl
@[simp] theorem memoCol_hostQueue (x y n : Nat) (k : Color) (s : State) : (memoCol x y n k s).hostQueue = s.hostQueue :=
  rfl
@[simp] theorem memoCol_hostData (x y n : Nat) (k : Color) (s : State) : (memoCol x y n k s).hostData = s.hostData :=
  rfl
@[simp] theorem memoCol_freeDraws (x y n : Nat) (k : Color) (s : State) : (memoCol x y n k s).freeDraws = s.freeDraws :=
  rfl

/-! ### `memoPixel`: a single pixel drops its row and column (R30) -/

@[simp] theorem memoPixel_primState (x y : Nat) (s : State) : (memoPixel x y s).primState = s.primState := rfl
@[simp] theorem memoPixel_busDir (x y : Nat) (s : State) : (memoPixel x y s).busDir = s.busDir := rfl
@[simp] theorem memoPixel_busPhase (x y : Nat) (s : State) : (memoPixel x y s).busPhase = s.busPhase := rfl
@[simp] theorem memoPixel_dout (x y : Nat) (s : State) : (memoPixel x y s).dout = s.dout := rfl
@[simp] theorem memoPixel_dcx (x y : Nat) (s : State) : (memoPixel x y s).dcx = s.dcx := rfl
@[simp] theorem memoPixel_wr (x y : Nat) (s : State) : (memoPixel x y s).wr = s.wr := rfl
@[simp] theorem memoPixel_rd (x y : Nat) (s : State) : (memoPixel x y s).rd = s.rd := rfl
@[simp] theorem memoPixel_cs (x y : Nat) (s : State) : (memoPixel x y s).cs = s.cs := rfl
@[simp] theorem memoPixel_doMasking (x y : Nat) (s : State) : (memoPixel x y s).doMasking = s.doMasking := rfl
@[simp] theorem memoPixel_doOverdraw (x y : Nat) (s : State) : (memoPixel x y s).doOverdraw = s.doOverdraw := rfl
@[simp] theorem memoPixel_maskFlag (x y : Nat) (s : State) : (memoPixel x y s).maskFlag = s.maskFlag := rfl
@[simp] theorem memoPixel_backgroundColor (x y : Nat) (s : State) :
    (memoPixel x y s).backgroundColor = s.backgroundColor := rfl
@[simp] theorem memoPixel_foregroundColor (x y : Nat) (s : State) :
    (memoPixel x y s).foregroundColor = s.foregroundColor := rfl
@[simp] theorem memoPixel_winX1 (x y : Nat) (s : State) : (memoPixel x y s).winX1 = s.winX1 := rfl
@[simp] theorem memoPixel_winX2 (x y : Nat) (s : State) : (memoPixel x y s).winX2 = s.winX2 := rfl
@[simp] theorem memoPixel_winY1 (x y : Nat) (s : State) : (memoPixel x y s).winY1 = s.winY1 := rfl
@[simp] theorem memoPixel_winY2 (x y : Nat) (s : State) : (memoPixel x y s).winY2 = s.winY2 := rfl
@[simp] theorem memoPixel_winColSet (x y : Nat) (s : State) : (memoPixel x y s).winColSet = s.winColSet := rfl
@[simp] theorem memoPixel_winRowSet (x y : Nat) (s : State) : (memoPixel x y s).winRowSet = s.winRowSet := rfl
@[simp] theorem memoPixel_xbuf (x y : Nat) (s : State) : (memoPixel x y s).xbuf = s.xbuf := rfl
@[simp] theorem memoPixel_rowMemo (x y : Nat) (s : State) : (memoPixel x y s).rowMemo = s.rowMemo.eraseRange y 1 := rfl
@[simp] theorem memoPixel_colMemo (x y : Nat) (s : State) : (memoPixel x y s).colMemo = s.colMemo.eraseRange x 1 := rfl
@[simp] theorem memoPixel_result (x y : Nat) (s : State) : (memoPixel x y s).result = s.result := rfl
@[simp] theorem memoPixel_errIllegal (x y : Nat) (s : State) : (memoPixel x y s).errIllegal = s.errIllegal := rfl
@[simp] theorem memoPixel_txlog (x y : Nat) (s : State) : (memoPixel x y s).txlog = s.txlog := rfl
@[simp] theorem memoPixel_panel (x y : Nat) (s : State) : (memoPixel x y s).panel = s.panel := rfl
@[simp] theorem memoPixel_pixMem (x y : Nat) (s : State) : (memoPixel x y s).pixMem = s.pixMem := rfl
@[simp] theorem memoPixel_readDummyReads (x y : Nat) (s : State) : (memoPixel x y s).readDummyReads = s.readDummyReads :=
  rfl
@[simp] theorem memoPixel_targetClockHz (x y : Nat) (s : State) : (memoPixel x y s).targetClockHz = s.targetClockHz :=
  rfl
@[simp] theorem memoPixel_settleCycles (x y : Nat) (s : State) : (memoPixel x y s).settleCycles = s.settleCycles := rfl
@[simp] theorem memoPixel_hostQueue (x y : Nat) (s : State) : (memoPixel x y s).hostQueue = s.hostQueue := rfl
@[simp] theorem memoPixel_hostData (x y : Nat) (s : State) : (memoPixel x y s).hostData = s.hostData := rfl
@[simp] theorem memoPixel_freeDraws (x y : Nat) (s : State) : (memoPixel x y s).freeDraws = s.freeDraws := rfl

/-! ### `fillXbuf`: the read phase fills `xbuf` (R28) -/

@[simp] theorem fillXbuf_primState (bs : List Byte) (s : State) : (fillXbuf bs s).primState = s.primState := rfl
@[simp] theorem fillXbuf_busDir (bs : List Byte) (s : State) : (fillXbuf bs s).busDir = s.busDir := rfl
@[simp] theorem fillXbuf_busPhase (bs : List Byte) (s : State) : (fillXbuf bs s).busPhase = s.busPhase := rfl
@[simp] theorem fillXbuf_dout (bs : List Byte) (s : State) : (fillXbuf bs s).dout = s.dout := rfl
@[simp] theorem fillXbuf_dcx (bs : List Byte) (s : State) : (fillXbuf bs s).dcx = s.dcx := rfl
@[simp] theorem fillXbuf_wr (bs : List Byte) (s : State) : (fillXbuf bs s).wr = s.wr := rfl
@[simp] theorem fillXbuf_rd (bs : List Byte) (s : State) : (fillXbuf bs s).rd = s.rd := rfl
@[simp] theorem fillXbuf_cs (bs : List Byte) (s : State) : (fillXbuf bs s).cs = s.cs := rfl
@[simp] theorem fillXbuf_doMasking (bs : List Byte) (s : State) : (fillXbuf bs s).doMasking = s.doMasking := rfl
@[simp] theorem fillXbuf_doOverdraw (bs : List Byte) (s : State) : (fillXbuf bs s).doOverdraw = s.doOverdraw := rfl
@[simp] theorem fillXbuf_maskFlag (bs : List Byte) (s : State) : (fillXbuf bs s).maskFlag = s.maskFlag := rfl
@[simp] theorem fillXbuf_backgroundColor (bs : List Byte) (s : State) :
    (fillXbuf bs s).backgroundColor = s.backgroundColor := rfl
@[simp] theorem fillXbuf_foregroundColor (bs : List Byte) (s : State) :
    (fillXbuf bs s).foregroundColor = s.foregroundColor := rfl
@[simp] theorem fillXbuf_winX1 (bs : List Byte) (s : State) : (fillXbuf bs s).winX1 = s.winX1 := rfl
@[simp] theorem fillXbuf_winX2 (bs : List Byte) (s : State) : (fillXbuf bs s).winX2 = s.winX2 := rfl
@[simp] theorem fillXbuf_winY1 (bs : List Byte) (s : State) : (fillXbuf bs s).winY1 = s.winY1 := rfl
@[simp] theorem fillXbuf_winY2 (bs : List Byte) (s : State) : (fillXbuf bs s).winY2 = s.winY2 := rfl
@[simp] theorem fillXbuf_winColSet (bs : List Byte) (s : State) : (fillXbuf bs s).winColSet = s.winColSet := rfl
@[simp] theorem fillXbuf_winRowSet (bs : List Byte) (s : State) : (fillXbuf bs s).winRowSet = s.winRowSet := rfl
@[simp] theorem fillXbuf_xbuf (bs : List Byte) (s : State) : (fillXbuf bs s).xbuf = bs ++ s.xbuf.drop bs.length := rfl
@[simp] theorem fillXbuf_rowMemo (bs : List Byte) (s : State) : (fillXbuf bs s).rowMemo = s.rowMemo := rfl
@[simp] theorem fillXbuf_colMemo (bs : List Byte) (s : State) : (fillXbuf bs s).colMemo = s.colMemo := rfl
@[simp] theorem fillXbuf_result (bs : List Byte) (s : State) : (fillXbuf bs s).result = s.result := rfl
@[simp] theorem fillXbuf_errIllegal (bs : List Byte) (s : State) : (fillXbuf bs s).errIllegal = s.errIllegal := rfl
@[simp] theorem fillXbuf_txlog (bs : List Byte) (s : State) : (fillXbuf bs s).txlog = s.txlog := rfl
@[simp] theorem fillXbuf_panel (bs : List Byte) (s : State) : (fillXbuf bs s).panel = s.panel := rfl
@[simp] theorem fillXbuf_pixMem (bs : List Byte) (s : State) : (fillXbuf bs s).pixMem = s.pixMem := rfl
@[simp] theorem fillXbuf_readDummyReads (bs : List Byte) (s : State) :
    (fillXbuf bs s).readDummyReads = s.readDummyReads := rfl
@[simp] theorem fillXbuf_targetClockHz (bs : List Byte) (s : State) : (fillXbuf bs s).targetClockHz = s.targetClockHz :=
  rfl
@[simp] theorem fillXbuf_settleCycles (bs : List Byte) (s : State) : (fillXbuf bs s).settleCycles = s.settleCycles :=
  rfl
@[simp] theorem fillXbuf_hostQueue (bs : List Byte) (s : State) : (fillXbuf bs s).hostQueue = s.hostQueue := rfl
@[simp] theorem fillXbuf_hostData (bs : List Byte) (s : State) : (fillXbuf bs s).hostData = s.hostData := rfl
@[simp] theorem fillXbuf_freeDraws (bs : List Byte) (s : State) : (fillXbuf bs s).freeDraws = s.freeDraws := rfl

/-! ### `countDraw`: a free value is offered (log 10) -/

@[simp] theorem countDraw_primState (s : State) : (countDraw s).primState = s.primState := rfl
@[simp] theorem countDraw_busDir (s : State) : (countDraw s).busDir = s.busDir := rfl
@[simp] theorem countDraw_busPhase (s : State) : (countDraw s).busPhase = s.busPhase := rfl
@[simp] theorem countDraw_dout (s : State) : (countDraw s).dout = s.dout := rfl
@[simp] theorem countDraw_dcx (s : State) : (countDraw s).dcx = s.dcx := rfl
@[simp] theorem countDraw_wr (s : State) : (countDraw s).wr = s.wr := rfl
@[simp] theorem countDraw_rd (s : State) : (countDraw s).rd = s.rd := rfl
@[simp] theorem countDraw_cs (s : State) : (countDraw s).cs = s.cs := rfl
@[simp] theorem countDraw_doMasking (s : State) : (countDraw s).doMasking = s.doMasking := rfl
@[simp] theorem countDraw_doOverdraw (s : State) : (countDraw s).doOverdraw = s.doOverdraw := rfl
@[simp] theorem countDraw_maskFlag (s : State) : (countDraw s).maskFlag = s.maskFlag := rfl
@[simp] theorem countDraw_backgroundColor (s : State) : (countDraw s).backgroundColor = s.backgroundColor := rfl
@[simp] theorem countDraw_foregroundColor (s : State) : (countDraw s).foregroundColor = s.foregroundColor := rfl
@[simp] theorem countDraw_winX1 (s : State) : (countDraw s).winX1 = s.winX1 := rfl
@[simp] theorem countDraw_winX2 (s : State) : (countDraw s).winX2 = s.winX2 := rfl
@[simp] theorem countDraw_winY1 (s : State) : (countDraw s).winY1 = s.winY1 := rfl
@[simp] theorem countDraw_winY2 (s : State) : (countDraw s).winY2 = s.winY2 := rfl
@[simp] theorem countDraw_winColSet (s : State) : (countDraw s).winColSet = s.winColSet := rfl
@[simp] theorem countDraw_winRowSet (s : State) : (countDraw s).winRowSet = s.winRowSet := rfl
@[simp] theorem countDraw_xbuf (s : State) : (countDraw s).xbuf = s.xbuf := rfl
@[simp] theorem countDraw_rowMemo (s : State) : (countDraw s).rowMemo = s.rowMemo := rfl
@[simp] theorem countDraw_colMemo (s : State) : (countDraw s).colMemo = s.colMemo := rfl
@[simp] theorem countDraw_result (s : State) : (countDraw s).result = s.result := rfl
@[simp] theorem countDraw_errIllegal (s : State) : (countDraw s).errIllegal = s.errIllegal := rfl
@[simp] theorem countDraw_txlog (s : State) : (countDraw s).txlog = s.txlog := rfl
@[simp] theorem countDraw_panel (s : State) : (countDraw s).panel = s.panel := rfl
@[simp] theorem countDraw_pixMem (s : State) : (countDraw s).pixMem = s.pixMem := rfl
@[simp] theorem countDraw_readDummyReads (s : State) : (countDraw s).readDummyReads = s.readDummyReads := rfl
@[simp] theorem countDraw_targetClockHz (s : State) : (countDraw s).targetClockHz = s.targetClockHz := rfl
@[simp] theorem countDraw_settleCycles (s : State) : (countDraw s).settleCycles = s.settleCycles := rfl
@[simp] theorem countDraw_hostQueue (s : State) : (countDraw s).hostQueue = s.hostQueue := rfl
@[simp] theorem countDraw_hostData (s : State) : (countDraw s).hostData = s.hostData := rfl
@[simp] theorem countDraw_freeDraws (s : State) : (countDraw s).freeDraws = s.freeDraws + 1 := rfl

/-! ### `recordIllegal`: `err_illegal` is set (R33) -/

@[simp] theorem recordIllegal_primState (s : State) : (recordIllegal s).primState = s.primState := rfl
@[simp] theorem recordIllegal_busDir (s : State) : (recordIllegal s).busDir = s.busDir := rfl
@[simp] theorem recordIllegal_busPhase (s : State) : (recordIllegal s).busPhase = s.busPhase := rfl
@[simp] theorem recordIllegal_dout (s : State) : (recordIllegal s).dout = s.dout := rfl
@[simp] theorem recordIllegal_dcx (s : State) : (recordIllegal s).dcx = s.dcx := rfl
@[simp] theorem recordIllegal_wr (s : State) : (recordIllegal s).wr = s.wr := rfl
@[simp] theorem recordIllegal_rd (s : State) : (recordIllegal s).rd = s.rd := rfl
@[simp] theorem recordIllegal_cs (s : State) : (recordIllegal s).cs = s.cs := rfl
@[simp] theorem recordIllegal_doMasking (s : State) : (recordIllegal s).doMasking = s.doMasking := rfl
@[simp] theorem recordIllegal_doOverdraw (s : State) : (recordIllegal s).doOverdraw = s.doOverdraw := rfl
@[simp] theorem recordIllegal_maskFlag (s : State) : (recordIllegal s).maskFlag = s.maskFlag := rfl
@[simp] theorem recordIllegal_backgroundColor (s : State) : (recordIllegal s).backgroundColor = s.backgroundColor := rfl
@[simp] theorem recordIllegal_foregroundColor (s : State) : (recordIllegal s).foregroundColor = s.foregroundColor := rfl
@[simp] theorem recordIllegal_winX1 (s : State) : (recordIllegal s).winX1 = s.winX1 := rfl
@[simp] theorem recordIllegal_winX2 (s : State) : (recordIllegal s).winX2 = s.winX2 := rfl
@[simp] theorem recordIllegal_winY1 (s : State) : (recordIllegal s).winY1 = s.winY1 := rfl
@[simp] theorem recordIllegal_winY2 (s : State) : (recordIllegal s).winY2 = s.winY2 := rfl
@[simp] theorem recordIllegal_winColSet (s : State) : (recordIllegal s).winColSet = s.winColSet := rfl
@[simp] theorem recordIllegal_winRowSet (s : State) : (recordIllegal s).winRowSet = s.winRowSet := rfl
@[simp] theorem recordIllegal_xbuf (s : State) : (recordIllegal s).xbuf = s.xbuf := rfl
@[simp] theorem recordIllegal_rowMemo (s : State) : (recordIllegal s).rowMemo = s.rowMemo := rfl
@[simp] theorem recordIllegal_colMemo (s : State) : (recordIllegal s).colMemo = s.colMemo := rfl
@[simp] theorem recordIllegal_result (s : State) : (recordIllegal s).result = s.result := rfl
@[simp] theorem recordIllegal_errIllegal (s : State) : (recordIllegal s).errIllegal = true := rfl
@[simp] theorem recordIllegal_txlog (s : State) : (recordIllegal s).txlog = s.txlog := rfl
@[simp] theorem recordIllegal_panel (s : State) : (recordIllegal s).panel = s.panel := rfl
@[simp] theorem recordIllegal_pixMem (s : State) : (recordIllegal s).pixMem = s.pixMem := rfl
@[simp] theorem recordIllegal_readDummyReads (s : State) : (recordIllegal s).readDummyReads = s.readDummyReads := rfl
@[simp] theorem recordIllegal_targetClockHz (s : State) : (recordIllegal s).targetClockHz = s.targetClockHz := rfl
@[simp] theorem recordIllegal_settleCycles (s : State) : (recordIllegal s).settleCycles = s.settleCycles := rfl
@[simp] theorem recordIllegal_hostQueue (s : State) : (recordIllegal s).hostQueue = s.hostQueue := rfl
@[simp] theorem recordIllegal_hostData (s : State) : (recordIllegal s).hostData = s.hostData := rfl
@[simp] theorem recordIllegal_freeDraws (s : State) : (recordIllegal s).freeDraws = s.freeDraws := rfl

/-! ### `storeWord`: the host stores a word (R62) -/

@[simp] theorem storeWord_primState (addr : BitVec 32) (v : Color) (s : State) :
    (storeWord addr v s).primState = s.primState := rfl
@[simp] theorem storeWord_busDir (addr : BitVec 32) (v : Color) (s : State) : (storeWord addr v s).busDir = s.busDir :=
  rfl
@[simp] theorem storeWord_busPhase (addr : BitVec 32) (v : Color) (s : State) :
    (storeWord addr v s).busPhase = s.busPhase := rfl
@[simp] theorem storeWord_dout (addr : BitVec 32) (v : Color) (s : State) : (storeWord addr v s).dout = s.dout := rfl
@[simp] theorem storeWord_dcx (addr : BitVec 32) (v : Color) (s : State) : (storeWord addr v s).dcx = s.dcx := rfl
@[simp] theorem storeWord_wr (addr : BitVec 32) (v : Color) (s : State) : (storeWord addr v s).wr = s.wr := rfl
@[simp] theorem storeWord_rd (addr : BitVec 32) (v : Color) (s : State) : (storeWord addr v s).rd = s.rd := rfl
@[simp] theorem storeWord_cs (addr : BitVec 32) (v : Color) (s : State) : (storeWord addr v s).cs = s.cs := rfl
@[simp] theorem storeWord_doMasking (addr : BitVec 32) (v : Color) (s : State) :
    (storeWord addr v s).doMasking = s.doMasking := rfl
@[simp] theorem storeWord_doOverdraw (addr : BitVec 32) (v : Color) (s : State) :
    (storeWord addr v s).doOverdraw = s.doOverdraw := rfl
@[simp] theorem storeWord_maskFlag (addr : BitVec 32) (v : Color) (s : State) :
    (storeWord addr v s).maskFlag = s.maskFlag := rfl
@[simp] theorem storeWord_backgroundColor (addr : BitVec 32) (v : Color) (s : State) :
    (storeWord addr v s).backgroundColor = s.backgroundColor := rfl
@[simp] theorem storeWord_foregroundColor (addr : BitVec 32) (v : Color) (s : State) :
    (storeWord addr v s).foregroundColor = s.foregroundColor := rfl
@[simp] theorem storeWord_winX1 (addr : BitVec 32) (v : Color) (s : State) : (storeWord addr v s).winX1 = s.winX1 := rfl
@[simp] theorem storeWord_winX2 (addr : BitVec 32) (v : Color) (s : State) : (storeWord addr v s).winX2 = s.winX2 := rfl
@[simp] theorem storeWord_winY1 (addr : BitVec 32) (v : Color) (s : State) : (storeWord addr v s).winY1 = s.winY1 := rfl
@[simp] theorem storeWord_winY2 (addr : BitVec 32) (v : Color) (s : State) : (storeWord addr v s).winY2 = s.winY2 := rfl
@[simp] theorem storeWord_winColSet (addr : BitVec 32) (v : Color) (s : State) :
    (storeWord addr v s).winColSet = s.winColSet := rfl
@[simp] theorem storeWord_winRowSet (addr : BitVec 32) (v : Color) (s : State) :
    (storeWord addr v s).winRowSet = s.winRowSet := rfl
@[simp] theorem storeWord_xbuf (addr : BitVec 32) (v : Color) (s : State) : (storeWord addr v s).xbuf = s.xbuf := rfl
@[simp] theorem storeWord_rowMemo (addr : BitVec 32) (v : Color) (s : State) : (storeWord addr v s).rowMemo = s.rowMemo :=
  rfl
@[simp] theorem storeWord_colMemo (addr : BitVec 32) (v : Color) (s : State) : (storeWord addr v s).colMemo = s.colMemo :=
  rfl
@[simp] theorem storeWord_result (addr : BitVec 32) (v : Color) (s : State) : (storeWord addr v s).result = s.result :=
  rfl
@[simp] theorem storeWord_errIllegal (addr : BitVec 32) (v : Color) (s : State) :
    (storeWord addr v s).errIllegal = s.errIllegal := rfl
@[simp] theorem storeWord_txlog (addr : BitVec 32) (v : Color) (s : State) : (storeWord addr v s).txlog = s.txlog := rfl
@[simp] theorem storeWord_panel (addr : BitVec 32) (v : Color) (s : State) : (storeWord addr v s).panel = s.panel := rfl
@[simp] theorem storeWord_pixMem (addr : BitVec 32) (v : Color) (s : State) :
    (storeWord addr v s).pixMem = s.pixMem.insert addr.toNat v := rfl
@[simp] theorem storeWord_readDummyReads (addr : BitVec 32) (v : Color) (s : State) :
    (storeWord addr v s).readDummyReads = s.readDummyReads := rfl
@[simp] theorem storeWord_targetClockHz (addr : BitVec 32) (v : Color) (s : State) :
    (storeWord addr v s).targetClockHz = s.targetClockHz := rfl
@[simp] theorem storeWord_settleCycles (addr : BitVec 32) (v : Color) (s : State) :
    (storeWord addr v s).settleCycles = s.settleCycles := rfl
@[simp] theorem storeWord_hostQueue (addr : BitVec 32) (v : Color) (s : State) :
    (storeWord addr v s).hostQueue = s.hostQueue := rfl
@[simp] theorem storeWord_hostData (addr : BitVec 32) (v : Color) (s : State) :
    (storeWord addr v s).hostData = s.hostData := rfl
@[simp] theorem storeWord_freeDraws (addr : BitVec 32) (v : Color) (s : State) :
    (storeWord addr v s).freeDraws = s.freeDraws := rfl

/-! ### `withShadow`: the shadow is set (R27) -/

@[simp] theorem withShadow_primState (x1 y1 x2 y2 : Int) (s : State) :
    (withShadow x1 y1 x2 y2 s).primState = s.primState := rfl
@[simp] theorem withShadow_busDir (x1 y1 x2 y2 : Int) (s : State) : (withShadow x1 y1 x2 y2 s).busDir = s.busDir := rfl
@[simp] theorem withShadow_busPhase (x1 y1 x2 y2 : Int) (s : State) : (withShadow x1 y1 x2 y2 s).busPhase = s.busPhase :=
  rfl
@[simp] theorem withShadow_dout (x1 y1 x2 y2 : Int) (s : State) : (withShadow x1 y1 x2 y2 s).dout = s.dout := rfl
@[simp] theorem withShadow_dcx (x1 y1 x2 y2 : Int) (s : State) : (withShadow x1 y1 x2 y2 s).dcx = s.dcx := rfl
@[simp] theorem withShadow_wr (x1 y1 x2 y2 : Int) (s : State) : (withShadow x1 y1 x2 y2 s).wr = s.wr := rfl
@[simp] theorem withShadow_rd (x1 y1 x2 y2 : Int) (s : State) : (withShadow x1 y1 x2 y2 s).rd = s.rd := rfl
@[simp] theorem withShadow_cs (x1 y1 x2 y2 : Int) (s : State) : (withShadow x1 y1 x2 y2 s).cs = s.cs := rfl
@[simp] theorem withShadow_doMasking (x1 y1 x2 y2 : Int) (s : State) :
    (withShadow x1 y1 x2 y2 s).doMasking = s.doMasking := rfl
@[simp] theorem withShadow_doOverdraw (x1 y1 x2 y2 : Int) (s : State) :
    (withShadow x1 y1 x2 y2 s).doOverdraw = s.doOverdraw := rfl
@[simp] theorem withShadow_maskFlag (x1 y1 x2 y2 : Int) (s : State) : (withShadow x1 y1 x2 y2 s).maskFlag = s.maskFlag :=
  rfl
@[simp] theorem withShadow_backgroundColor (x1 y1 x2 y2 : Int) (s : State) :
    (withShadow x1 y1 x2 y2 s).backgroundColor = s.backgroundColor := rfl
@[simp] theorem withShadow_foregroundColor (x1 y1 x2 y2 : Int) (s : State) :
    (withShadow x1 y1 x2 y2 s).foregroundColor = s.foregroundColor := rfl
@[simp] theorem withShadow_winX1 (x1 y1 x2 y2 : Int) (s : State) :
    (withShadow x1 y1 x2 y2 s).winX1 = BitVec.ofInt 16 x1 := rfl
@[simp] theorem withShadow_winX2 (x1 y1 x2 y2 : Int) (s : State) :
    (withShadow x1 y1 x2 y2 s).winX2 = BitVec.ofInt 16 x2 := rfl
@[simp] theorem withShadow_winY1 (x1 y1 x2 y2 : Int) (s : State) :
    (withShadow x1 y1 x2 y2 s).winY1 = BitVec.ofInt 16 y1 := rfl
@[simp] theorem withShadow_winY2 (x1 y1 x2 y2 : Int) (s : State) :
    (withShadow x1 y1 x2 y2 s).winY2 = BitVec.ofInt 16 y2 := rfl
@[simp] theorem withShadow_winColSet (x1 y1 x2 y2 : Int) (s : State) : (withShadow x1 y1 x2 y2 s).winColSet = true :=
  rfl
@[simp] theorem withShadow_winRowSet (x1 y1 x2 y2 : Int) (s : State) : (withShadow x1 y1 x2 y2 s).winRowSet = true :=
  rfl
@[simp] theorem withShadow_xbuf (x1 y1 x2 y2 : Int) (s : State) : (withShadow x1 y1 x2 y2 s).xbuf = s.xbuf := rfl
@[simp] theorem withShadow_rowMemo (x1 y1 x2 y2 : Int) (s : State) : (withShadow x1 y1 x2 y2 s).rowMemo = s.rowMemo :=
  rfl
@[simp] theorem withShadow_colMemo (x1 y1 x2 y2 : Int) (s : State) : (withShadow x1 y1 x2 y2 s).colMemo = s.colMemo :=
  rfl
@[simp] theorem withShadow_result (x1 y1 x2 y2 : Int) (s : State) : (withShadow x1 y1 x2 y2 s).result = s.result := rfl
@[simp] theorem withShadow_errIllegal (x1 y1 x2 y2 : Int) (s : State) :
    (withShadow x1 y1 x2 y2 s).errIllegal = s.errIllegal := rfl
@[simp] theorem withShadow_txlog (x1 y1 x2 y2 : Int) (s : State) : (withShadow x1 y1 x2 y2 s).txlog = s.txlog := rfl
@[simp] theorem withShadow_panel (x1 y1 x2 y2 : Int) (s : State) : (withShadow x1 y1 x2 y2 s).panel = s.panel := rfl
@[simp] theorem withShadow_pixMem (x1 y1 x2 y2 : Int) (s : State) : (withShadow x1 y1 x2 y2 s).pixMem = s.pixMem := rfl
@[simp] theorem withShadow_readDummyReads (x1 y1 x2 y2 : Int) (s : State) :
    (withShadow x1 y1 x2 y2 s).readDummyReads = s.readDummyReads := rfl
@[simp] theorem withShadow_targetClockHz (x1 y1 x2 y2 : Int) (s : State) :
    (withShadow x1 y1 x2 y2 s).targetClockHz = s.targetClockHz := rfl
@[simp] theorem withShadow_settleCycles (x1 y1 x2 y2 : Int) (s : State) :
    (withShadow x1 y1 x2 y2 s).settleCycles = s.settleCycles := rfl
@[simp] theorem withShadow_hostQueue (x1 y1 x2 y2 : Int) (s : State) :
    (withShadow x1 y1 x2 y2 s).hostQueue = s.hostQueue := rfl
@[simp] theorem withShadow_hostData (x1 y1 x2 y2 : Int) (s : State) : (withShadow x1 y1 x2 y2 s).hostData = s.hostData :=
  rfl
@[simp] theorem withShadow_freeDraws (x1 y1 x2 y2 : Int) (s : State) :
    (withShadow x1 y1 x2 y2 s).freeDraws = s.freeDraws := rfl

/-! ### `afterWrites`: an operation has sent write frames (R130, R137) -/

@[simp] theorem afterWrites_primState (fs : List Frame) (d : Byte) (s : State) :
    (afterWrites fs d s).primState = s.primState := rfl
@[simp] theorem afterWrites_busDir (fs : List Frame) (d : Byte) (s : State) : (afterWrites fs d s).busDir = s.busDir :=
  rfl
@[simp] theorem afterWrites_busPhase (fs : List Frame) (d : Byte) (s : State) : (afterWrites fs d s).busPhase = .idle :=
  rfl
@[simp] theorem afterWrites_dout (fs : List Frame) (d : Byte) (s : State) : (afterWrites fs d s).dout = d := rfl
@[simp] theorem afterWrites_dcx (fs : List Frame) (d : Byte) (s : State) : (afterWrites fs d s).dcx = true := rfl
@[simp] theorem afterWrites_wr (fs : List Frame) (d : Byte) (s : State) : (afterWrites fs d s).wr = false := rfl
@[simp] theorem afterWrites_rd (fs : List Frame) (d : Byte) (s : State) : (afterWrites fs d s).rd = s.rd := rfl
@[simp] theorem afterWrites_cs (fs : List Frame) (d : Byte) (s : State) : (afterWrites fs d s).cs = false := rfl
@[simp] theorem afterWrites_doMasking (fs : List Frame) (d : Byte) (s : State) :
    (afterWrites fs d s).doMasking = s.doMasking := rfl
@[simp] theorem afterWrites_doOverdraw (fs : List Frame) (d : Byte) (s : State) :
    (afterWrites fs d s).doOverdraw = s.doOverdraw := rfl
@[simp] theorem afterWrites_maskFlag (fs : List Frame) (d : Byte) (s : State) :
    (afterWrites fs d s).maskFlag = s.maskFlag := rfl
@[simp] theorem afterWrites_backgroundColor (fs : List Frame) (d : Byte) (s : State) :
    (afterWrites fs d s).backgroundColor = s.backgroundColor := rfl
@[simp] theorem afterWrites_foregroundColor (fs : List Frame) (d : Byte) (s : State) :
    (afterWrites fs d s).foregroundColor = s.foregroundColor := rfl
@[simp] theorem afterWrites_winX1 (fs : List Frame) (d : Byte) (s : State) : (afterWrites fs d s).winX1 = s.winX1 := rfl
@[simp] theorem afterWrites_winX2 (fs : List Frame) (d : Byte) (s : State) : (afterWrites fs d s).winX2 = s.winX2 := rfl
@[simp] theorem afterWrites_winY1 (fs : List Frame) (d : Byte) (s : State) : (afterWrites fs d s).winY1 = s.winY1 := rfl
@[simp] theorem afterWrites_winY2 (fs : List Frame) (d : Byte) (s : State) : (afterWrites fs d s).winY2 = s.winY2 := rfl
@[simp] theorem afterWrites_winColSet (fs : List Frame) (d : Byte) (s : State) :
    (afterWrites fs d s).winColSet = s.winColSet := rfl
@[simp] theorem afterWrites_winRowSet (fs : List Frame) (d : Byte) (s : State) :
    (afterWrites fs d s).winRowSet = s.winRowSet := rfl
@[simp] theorem afterWrites_xbuf (fs : List Frame) (d : Byte) (s : State) : (afterWrites fs d s).xbuf = s.xbuf := rfl
@[simp] theorem afterWrites_rowMemo (fs : List Frame) (d : Byte) (s : State) : (afterWrites fs d s).rowMemo = s.rowMemo :=
  rfl
@[simp] theorem afterWrites_colMemo (fs : List Frame) (d : Byte) (s : State) : (afterWrites fs d s).colMemo = s.colMemo :=
  rfl
@[simp] theorem afterWrites_result (fs : List Frame) (d : Byte) (s : State) : (afterWrites fs d s).result = s.result :=
  rfl
@[simp] theorem afterWrites_errIllegal (fs : List Frame) (d : Byte) (s : State) :
    (afterWrites fs d s).errIllegal = s.errIllegal := rfl
@[simp] theorem afterWrites_txlog (fs : List Frame) (d : Byte) (s : State) : (afterWrites fs d s).txlog = s.txlog ++ fs :=
  rfl
@[simp] theorem afterWrites_panel (fs : List Frame) (d : Byte) (s : State) :
    (afterWrites fs d s).panel = s.panel.onFrames s.readDummyReads fs := rfl
@[simp] theorem afterWrites_pixMem (fs : List Frame) (d : Byte) (s : State) : (afterWrites fs d s).pixMem = s.pixMem :=
  rfl
@[simp] theorem afterWrites_readDummyReads (fs : List Frame) (d : Byte) (s : State) :
    (afterWrites fs d s).readDummyReads = s.readDummyReads := rfl
@[simp] theorem afterWrites_targetClockHz (fs : List Frame) (d : Byte) (s : State) :
    (afterWrites fs d s).targetClockHz = s.targetClockHz := rfl
@[simp] theorem afterWrites_settleCycles (fs : List Frame) (d : Byte) (s : State) :
    (afterWrites fs d s).settleCycles = s.settleCycles := rfl
@[simp] theorem afterWrites_hostQueue (fs : List Frame) (d : Byte) (s : State) :
    (afterWrites fs d s).hostQueue = s.hostQueue := rfl
@[simp] theorem afterWrites_hostData (fs : List Frame) (d : Byte) (s : State) :
    (afterWrites fs d s).hostData = s.hostData := rfl
@[simp] theorem afterWrites_freeDraws (fs : List Frame) (d : Byte) (s : State) :
    (afterWrites fs d s).freeDraws = s.freeDraws := rfl

end Sys2Proof.Machine
end

