-- ==== Sys2Proof/Laws/Store.lean ====
section
/-! SUPPORT. The laws of tables: read after write, a write leaves every other key alone, every operation keeps the
canonical form, and tables in it that read alike are equal. -/

namespace Sys2Proof.Machine

variable {α : Type}

@[simp] theorem Table.lookup_nil (k : Nat) : Table.lookup ([] : Table α) k = none := rfl

theorem Table.lookup_cons (a : Nat) (v : α) (t : Table α) (k : Nat) :
    Table.lookup ((a, v) :: t) k = if k = a then some v else Table.lookup t k := rfl

theorem Table.lookup_insert (t : Table α) (k j : Nat) (v : α) :
    Table.lookup (Table.insert t k v) j = if j = k then some v else Table.lookup t j := by
  induction t with
  | nil => simp [Table.insert, Table.lookup_cons]
  | cons e t ih =>
    obtain ⟨a, w⟩ := e
    simp only [Table.insert]
    split
    · simp only [Table.lookup_cons]
    · split
      · subst k
        simp only [Table.lookup_cons]
        split <;> rfl
      · simp only [Table.lookup_cons, ih]
        grind

@[simp] theorem Table.lookup_insert_self (t : Table α) (k : Nat) (v : α) :
    Table.lookup (Table.insert t k v) k = some v := by simp [Table.lookup_insert]

theorem Table.lookup_insert_of_ne (t : Table α) {k j : Nat} (v : α) (h : j ≠ k) :
    Table.lookup (Table.insert t k v) j = Table.lookup t j := by simp [Table.lookup_insert, h]

theorem Table.lookup_eraseRange (t : Table α) (lo n j : Nat) :
    Table.lookup (Table.eraseRange t lo n) j = if lo ≤ j ∧ j < lo + n then none else Table.lookup t j := by
  induction t with
  | nil => simp [Table.eraseRange]
  | cons e t ih =>
    obtain ⟨a, w⟩ := e
    simp only [Table.eraseRange, List.filter_cons] at ih ⊢
    split
    · simp only [Table.lookup_cons, ih]
      grind
    · rw [ih, Table.lookup_cons]
      grind

/-! ### The canonical form -/

@[simp] theorem Table.wf_nil : Table.wf ([] : Table α) = true := rfl

@[simp] theorem Table.wf_cons (a : Nat) (v : α) (t : Table α) :
    Table.wf ((a, v) :: t) = (Table.above a t && Table.wf t) := rfl

theorem Table.above_iff (k : Nat) (t : Table α) : Table.above k t = true ↔ ∀ e ∈ t, k < e.1 := by
  simp [Table.above]

theorem Table.below_iff (n : Nat) (t : Table α) : Table.below n t = true ↔ ∀ e ∈ t, e.1 < n := by
  simp [Table.below]

theorem Table.mem_insert {t : Table α} {k : Nat} {v : α} {e : Nat × α} (h : e ∈ Table.insert t k v) :
    e = (k, v) ∨ e ∈ t := by
  induction t with
  | nil => simpa [Table.insert] using h
  | cons f t ih =>
    obtain ⟨a, w⟩ := f
    simp only [Table.insert] at h
    split at h
    · simpa using h
    · split at h
      · rcases List.mem_cons.1 h with h | h
        · exact .inl h
        · exact .inr (List.mem_cons_of_mem _ h)
      · rcases List.mem_cons.1 h with h | h
        · exact .inr (h ▸ List.mem_cons_self)
        · rcases ih h with h | h
          · exact .inl h
          · exact .inr (List.mem_cons_of_mem _ h)

theorem Table.wf_insert {t : Table α} (k : Nat) (v : α) (h : Table.wf t = true) :
    Table.wf (Table.insert t k v) = true := by
  induction t with
  | nil => simp [Table.insert, Table.above]
  | cons f t ih =>
    obtain ⟨a, w⟩ := f
    simp only [Table.wf_cons, Bool.and_eq_true] at h
    simp only [Table.insert]
    split
    · rename_i hk
      simp only [Table.wf_cons, Bool.and_eq_true, Table.above_iff] at h ⊢
      refine ⟨?_, h⟩
      intro e he
      rcases List.mem_cons.1 he with rfl | he
      · exact hk
      · exact lt_trans hk (h.1 e he)
    · split
      · rename_i _ hk
        subst hk
        simpa using h
      · rename_i h1 h2
        simp only [Table.wf_cons, Bool.and_eq_true, Table.above_iff] at h ⊢
        refine ⟨?_, ih h.2⟩
        intro e he
        rcases Table.mem_insert he with rfl | he
        · exact lt_of_le_of_ne (not_lt.1 h1) (Ne.symm h2)
        · exact h.1 e he

theorem Table.wf_eraseRange {t : Table α} (lo n : Nat) (h : Table.wf t = true) :
    Table.wf (Table.eraseRange t lo n) = true := by
  induction t with
  | nil => rfl
  | cons f t ih =>
    obtain ⟨a, w⟩ := f
    simp only [Table.wf_cons, Bool.and_eq_true] at h
    simp only [Table.eraseRange, List.filter_cons] at ih ⊢
    split
    · simp only [Table.wf_cons, Bool.and_eq_true, Table.above_iff] at h ⊢
      exact ⟨fun e he => h.1 e (List.mem_filter.1 he).1, ih h.2⟩
    · exact ih h.2

theorem Table.below_insert {t : Table α} {n k : Nat} (v : α) (h : Table.below n t = true) (hk : k < n) :
    Table.below n (Table.insert t k v) = true := by
  rw [Table.below_iff] at h ⊢
  intro e he
  rcases Table.mem_insert he with rfl | he
  · exact hk
  · exact h e he

theorem Table.below_eraseRange {t : Table α} {n : Nat} (lo m : Nat) (h : Table.below n t = true) :
    Table.below n (Table.eraseRange t lo m) = true := by
  rw [Table.below_iff] at h ⊢
  exact fun e he => h e (List.mem_filter.1 he).1

theorem Table.lookup_eq_none_of_above {t : Table α} {k j : Nat} (h : Table.above k t = true) (hj : j ≤ k) :
    Table.lookup t j = none := by
  induction t with
  | nil => rfl
  | cons f t ih =>
    obtain ⟨a, w⟩ := f
    rw [Table.above_iff] at h ih
    have ha : k < a := h (a, w) List.mem_cons_self
    rw [Table.lookup_cons, if_neg (by omega)]
    exact ih fun e he => h e (List.mem_cons_of_mem _ he)

theorem Table.lookup_isSome_lt {t : Table α} {n j : Nat} {v : α} (h : Table.below n t = true)
    (hj : Table.lookup t j = some v) : j < n := by
  induction t with
  | nil => simp at hj
  | cons f t ih =>
    obtain ⟨a, w⟩ := f
    rw [Table.below_iff] at h ih
    rw [Table.lookup_cons] at hj
    split at hj
    · rename_i he
      exact he ▸ h (a, w) List.mem_cons_self
    · exact ih (fun e he => h e (List.mem_cons_of_mem _ he)) hj

/-- Tables in canonical form that read alike are equal data. -/
theorem Table.ext_of_wf {t u : Table α} (ht : Table.wf t = true) (hu : Table.wf u = true)
    (h : ∀ k, Table.lookup t k = Table.lookup u k) : t = u := by
  induction t generalizing u with
  | nil =>
    cases u with
    | nil => rfl
    | cons f u => obtain ⟨a, w⟩ := f; simpa [Table.lookup_cons] using h a
  | cons e t ih =>
    obtain ⟨a, v⟩ := e
    cases u with
    | nil => simpa [Table.lookup_cons] using h a
    | cons f u =>
      obtain ⟨b, w⟩ := f
      simp only [Table.wf_cons, Bool.and_eq_true] at ht hu
      have hab : a = b := by
        by_contra hne
        rcases Nat.lt_or_gt_of_ne hne with hlt | hgt
        · have := h a
          rw [Table.lookup_cons, if_pos rfl, Table.lookup_cons, if_neg hne,
            Table.lookup_eq_none_of_above hu.1 (le_of_lt hlt)] at this
          simp at this
        · have := h b
          rw [Table.lookup_cons, if_neg (Ne.symm hne), Table.lookup_cons, if_pos rfl,
            Table.lookup_eq_none_of_above ht.1 (le_of_lt hgt)] at this
          simp at this
      subst hab
      have hvw : v = w := by simpa [Table.lookup_cons] using h a
      subst hvw
      rw [ih ht.2 hu.2]
      intro k
      by_cases hk : k = a
      · subst hk
        rw [Table.lookup_eq_none_of_above ht.1 le_rfl, Table.lookup_eq_none_of_above hu.1 le_rfl]
      · simpa [Table.lookup_cons, hk] using h k

theorem Memory.wf_insert {t : Table α} {n k : Nat} (v : α) (h : Memory.wf n t = true) (hk : k < n) :
    Memory.wf n (Table.insert t k v) = true := by
  simp only [Memory.wf, Bool.and_eq_true] at h ⊢
  exact ⟨Table.wf_insert k v h.1, Table.below_insert v h.2 hk⟩

theorem Memory.wf_eraseRange {t : Table α} {n : Nat} (lo m : Nat) (h : Memory.wf n t = true) :
    Memory.wf n (Table.eraseRange t lo m) = true := by
  simp only [Memory.wf, Bool.and_eq_true] at h ⊢
  exact ⟨Table.wf_eraseRange lo m h.1, Table.below_eraseRange lo m h.2⟩

@[simp] theorem Memory.wf_nil (n : Nat) : Memory.wf n ([] : Table α) = true := rfl

end Sys2Proof.Machine
end

