-- ==== Sys2Proof/Laws/Ops.lean ====
section
/-! SUPPORT. What each shared operation does, said once: every sequence of write cycles is one record update (`sent`), every
sequence of read cycles another (`received`). Later proofs cite these and do not unfold the bus cycles. -/

namespace Sys2Proof.Machine

/-- The frames of a list of write cycles. -/
def framesOf (fs : List (WriteKind × Byte)) : List Frame := fs.map (fun f => writeFrame f.1 f.2)

/-- The state after write cycles that appended `fs` and left byte `d` and select level `c` on the pins. -/
def sent (fs : List Frame) (d : Byte) (c : Bool) (s : State) : State :=
  { s with
    cs := true, busPhase := .idle, wr := false, dout := d, dcx := c
    txlog := s.txlog ++ fs, panel := s.panel.onFrames s.readDummyReads fs }

/-- The state after `n` read cycles that appended `fs`. -/
def received (fs : List Frame) (n : Nat) (s : State) : State :=
  { s with
    cs := true, busPhase := .idle, busDir := .write, rd := false, dcx := true
    txlog := s.txlog ++ fs, panel := s.panel.onFrames s.readDummyReads fs, freeDraws := s.freeDraws + n }

/-! ### The fields after cycles -/

@[simp] theorem sent_primState (fs : List Frame) (d : Byte) (c : Bool) (s : State) :
    (sent fs d c s).primState = s.primState := rfl
@[simp] theorem sent_busDir (fs : List Frame) (d : Byte) (c : Bool) (s : State) : (sent fs d c s).busDir = s.busDir :=
  rfl
@[simp] theorem sent_busPhase (fs : List Frame) (d : Byte) (c : Bool) (s : State) : (sent fs d c s).busPhase = .idle :=
  rfl
@[simp] theorem sent_dout (fs : List Frame) (d : Byte) (c : Bool) (s : State) : (sent fs d c s).dout = d := rfl
@[simp] theorem sent_dcx (fs : List Frame) (d : Byte) (c : Bool) (s : State) : (sent fs d c s).dcx = c := rfl
@[simp] theorem sent_wr (fs : List Frame) (d : Byte) (c : Bool) (s : State) : (sent fs d c s).wr = false := rfl
@[simp] theorem sent_rd (fs : List Frame) (d : Byte) (c : Bool) (s : State) : (sent fs d c s).rd = s.rd := rfl
@[simp] theorem sent_cs (fs : List Frame) (d : Byte) (c : Bool) (s : State) : (sent fs d c s).cs = true := rfl
@[simp] theorem sent_doMasking (fs : List Frame) (d : Byte) (c : Bool) (s : State) :
    (sent fs d c s).doMasking = s.doMasking := rfl
@[simp] theorem sent_doOverdraw (fs : List Frame) (d : Byte) (c : Bool) (s : State) :
    (sent fs d c s).doOverdraw = s.doOverdraw := rfl
@[simp] theorem sent_maskFlag (fs : List Frame) (d : Byte) (c : Bool) (s : State) :
    (sent fs d c s).maskFlag = s.maskFlag := rfl
@[simp] theorem sent_backgroundColor (fs : List Frame) (d : Byte) (c : Bool) (s : State) :
    (sent fs d c s).backgroundColor = s.backgroundColor := rfl
@[simp] theorem sent_foregroundColor (fs : List Frame) (d : Byte) (c : Bool) (s : State) :
    (sent fs d c s).foregroundColor = s.foregroundColor := rfl
@[simp] theorem sent_winX1 (fs : List Frame) (d : Byte) (c : Bool) (s : State) : (sent fs d c s).winX1 = s.winX1 := rfl
@[simp] theorem sent_winX2 (fs : List Frame) (d : Byte) (c : Bool) (s : State) : (sent fs d c s).winX2 = s.winX2 := rfl
@[simp] theorem sent_winY1 (fs : List Frame) (d : Byte) (c : Bool) (s : State) : (sent fs d c s).winY1 = s.winY1 := rfl
@[simp] theorem sent_winY2 (fs : List Frame) (d : Byte) (c : Bool) (s : State) : (sent fs d c s).winY2 = s.winY2 := rfl
@[simp] theorem sent_winColSet (fs : List Frame) (d : Byte) (c : Bool) (s : State) :
    (sent fs d c s).winColSet = s.winColSet := rfl
@[simp] theorem sent_winRowSet (fs : List Frame) (d : Byte) (c : Bool) (s : State) :
    (sent fs d c s).winRowSet = s.winRowSet := rfl
@[simp] theorem sent_xbuf (fs : List Frame) (d : Byte) (c : Bool) (s : State) : (sent fs d c s).xbuf = s.xbuf := rfl
@[simp] theorem sent_rowMemo (fs : List Frame) (d : Byte) (c : Bool) (s : State) : (sent fs d c s).rowMemo = s.rowMemo :=
  rfl
@[simp] theorem sent_colMemo (fs : List Frame) (d : Byte) (c : Bool) (s : State) : (sent fs d c s).colMemo = s.colMemo :=
  rfl
@[simp] theorem sent_result (fs : List Frame) (d : Byte) (c : Bool) (s : State) : (sent fs d c s).result = s.result :=
  rfl
@[simp] theorem sent_errIllegal (fs : List Frame) (d : Byte) (c : Bool) (s : State) :
    (sent fs d c s).errIllegal = s.errIllegal := rfl
@[simp] theorem sent_txlog (fs : List Frame) (d : Byte) (c : Bool) (s : State) : (sent fs d c s).txlog = s.txlog ++ fs :=
  rfl
@[simp] theorem sent_panel (fs : List Frame) (d : Byte) (c : Bool) (s : State) :
    (sent fs d c s).panel = s.panel.onFrames s.readDummyReads fs := rfl
@[simp] theorem sent_pixMem (fs : List Frame) (d : Byte) (c : Bool) (s : State) : (sent fs d c s).pixMem = s.pixMem :=
  rfl
@[simp] theorem sent_readDummyReads (fs : List Frame) (d : Byte) (c : Bool) (s : State) :
    (sent fs d c s).readDummyReads = s.readDummyReads := rfl
@[simp] theorem sent_targetClockHz (fs : List Frame) (d : Byte) (c : Bool) (s : State) :
    (sent fs d c s).targetClockHz = s.targetClockHz := rfl
@[simp] theorem sent_settleCycles (fs : List Frame) (d : Byte) (c : Bool) (s : State) :
    (sent fs d c s).settleCycles = s.settleCycles := rfl
@[simp] theorem sent_hostQueue (fs : List Frame) (d : Byte) (c : Bool) (s : State) :
    (sent fs d c s).hostQueue = s.hostQueue := rfl
@[simp] theorem sent_hostData (fs : List Frame) (d : Byte) (c : Bool) (s : State) :
    (sent fs d c s).hostData = s.hostData := rfl
@[simp] theorem sent_freeDraws (fs : List Frame) (d : Byte) (c : Bool) (s : State) :
    (sent fs d c s).freeDraws = s.freeDraws := rfl

@[simp] theorem received_primState (fs : List Frame) (n : Nat) (s : State) : (received fs n s).primState = s.primState :=
  rfl
@[simp] theorem received_busDir (fs : List Frame) (n : Nat) (s : State) : (received fs n s).busDir = .write := rfl
@[simp] theorem received_busPhase (fs : List Frame) (n : Nat) (s : State) : (received fs n s).busPhase = .idle := rfl
@[simp] theorem received_dout (fs : List Frame) (n : Nat) (s : State) : (received fs n s).dout = s.dout := rfl
@[simp] theorem received_dcx (fs : List Frame) (n : Nat) (s : State) : (received fs n s).dcx = true := rfl
@[simp] theorem received_wr (fs : List Frame) (n : Nat) (s : State) : (received fs n s).wr = s.wr := rfl
@[simp] theorem received_rd (fs : List Frame) (n : Nat) (s : State) : (received fs n s).rd = false := rfl
@[simp] theorem received_cs (fs : List Frame) (n : Nat) (s : State) : (received fs n s).cs = true := rfl
@[simp] theorem received_doMasking (fs : List Frame) (n : Nat) (s : State) : (received fs n s).doMasking = s.doMasking :=
  rfl
@[simp] theorem received_doOverdraw (fs : List Frame) (n : Nat) (s : State) :
    (received fs n s).doOverdraw = s.doOverdraw := rfl
@[simp] theorem received_maskFlag (fs : List Frame) (n : Nat) (s : State) : (received fs n s).maskFlag = s.maskFlag :=
  rfl
@[simp] theorem received_backgroundColor (fs : List Frame) (n : Nat) (s : State) :
    (received fs n s).backgroundColor = s.backgroundColor := rfl
@[simp] theorem received_foregroundColor (fs : List Frame) (n : Nat) (s : State) :
    (received fs n s).foregroundColor = s.foregroundColor := rfl
@[simp] theorem received_winX1 (fs : List Frame) (n : Nat) (s : State) : (received fs n s).winX1 = s.winX1 := rfl
@[simp] theorem received_winX2 (fs : List Frame) (n : Nat) (s : State) : (received fs n s).winX2 = s.winX2 := rfl
@[simp] theorem received_winY1 (fs : List Frame) (n : Nat) (s : State) : (received fs n s).winY1 = s.winY1 := rfl
@[simp] theorem received_winY2 (fs : List Frame) (n : Nat) (s : State) : (received fs n s).winY2 = s.winY2 := rfl
@[simp] theorem received_winColSet (fs : List Frame) (n : Nat) (s : State) : (received fs n s).winColSet = s.winColSet :=
  rfl
@[simp] theorem received_winRowSet (fs : List Frame) (n : Nat) (s : State) : (received fs n s).winRowSet = s.winRowSet :=
  rfl
@[simp] theorem received_xbuf (fs : List Frame) (n : Nat) (s : State) : (received fs n s).xbuf = s.xbuf := rfl
@[simp] theorem received_rowMemo (fs : List Frame) (n : Nat) (s : State) : (received fs n s).rowMemo = s.rowMemo := rfl
@[simp] theorem received_colMemo (fs : List Frame) (n : Nat) (s : State) : (received fs n s).colMemo = s.colMemo := rfl
@[simp] theorem received_result (fs : List Frame) (n : Nat) (s : State) : (received fs n s).result = s.result := rfl
@[simp] theorem received_errIllegal (fs : List Frame) (n : Nat) (s : State) :
    (received fs n s).errIllegal = s.errIllegal := rfl
@[simp] theorem received_txlog (fs : List Frame) (n : Nat) (s : State) : (received fs n s).txlog = s.txlog ++ fs := rfl
@[simp] theorem received_panel (fs : List Frame) (n : Nat) (s : State) :
    (received fs n s).panel = s.panel.onFrames s.readDummyReads fs := rfl
@[simp] theorem received_pixMem (fs : List Frame) (n : Nat) (s : State) : (received fs n s).pixMem = s.pixMem := rfl
@[simp] theorem received_readDummyReads (fs : List Frame) (n : Nat) (s : State) :
    (received fs n s).readDummyReads = s.readDummyReads := rfl
@[simp] theorem received_targetClockHz (fs : List Frame) (n : Nat) (s : State) :
    (received fs n s).targetClockHz = s.targetClockHz := rfl
@[simp] theorem received_settleCycles (fs : List Frame) (n : Nat) (s : State) :
    (received fs n s).settleCycles = s.settleCycles := rfl
@[simp] theorem received_hostQueue (fs : List Frame) (n : Nat) (s : State) : (received fs n s).hostQueue = s.hostQueue :=
  rfl
@[simp] theorem received_hostData (fs : List Frame) (n : Nat) (s : State) : (received fs n s).hostData = s.hostData :=
  rfl
@[simp] theorem received_freeDraws (fs : List Frame) (n : Nat) (s : State) :
    (received fs n s).freeDraws = s.freeDraws + n := rfl

@[simp] theorem framesOf_nil : framesOf [] = [] := rfl
@[simp] theorem framesOf_cons (f : WriteKind × Byte) (fs : List (WriteKind × Byte)) :
    framesOf (f :: fs) = writeFrame f.1 f.2 :: framesOf fs := rfl
@[simp] theorem framesOf_append (fs gs : List (WriteKind × Byte)) :
    framesOf (fs ++ gs) = framesOf fs ++ framesOf gs := by simp [framesOf]
@[simp] theorem writeFrame_cmd (b : Byte) : writeFrame .cmd b = .cmd b := rfl
@[simp] theorem writeFrame_dat (b : Byte) : writeFrame .dat b = .dat b := rfl

@[simp] theorem PanelView.onFrames_nil (d : Nat) (v : PanelView) : v.onFrames d [] = v := rfl
@[simp] theorem PanelView.onFrames_cons (d : Nat) (v : PanelView) (f : Frame) (fs : List Frame) :
    v.onFrames d (f :: fs) = (v.onFrame d f).onFrames d fs := rfl
theorem PanelView.onFrames_append (d : Nat) (v : PanelView) (fs gs : List Frame) :
    v.onFrames d (fs ++ gs) = (v.onFrames d fs).onFrames d gs := by simp [PanelView.onFrames]

theorem PanelView.onFrame_writeFrame (d : Nat) (v : PanelView) (k : WriteKind) (b : Byte) :
    v.onFrame d (writeFrame k b) = v.onWrite d k b := by cases k <;> rfl

/-! ### Write cycles -/

theorem busWrite_eq_sent (k : WriteKind) (b : Byte) (s : State) :
    busWrite k b s = sent [writeFrame k b] b (decide (k = .dat)) s := by cases k <;> rfl

theorem sent_sent (fs gs : List Frame) (d d' : Byte) (c c' : Bool) (s : State) :
    sent gs d' c' (sent fs d c s) = sent (fs ++ gs) d' c' s := by
  simp [sent, PanelView.onFrames_append]

@[simp] theorem emitAll_nil (s : State) : emitAll [] s = s := rfl
@[simp] theorem emitAll_cons (f : WriteKind × Byte) (fs : List (WriteKind × Byte)) (s : State) :
    emitAll (f :: fs) s = emitAll fs (busWrite f.1 f.2 s) := rfl
theorem emitAll_append (fs gs : List (WriteKind × Byte)) (s : State) :
    emitAll (fs ++ gs) s = emitAll gs (emitAll fs s) := by simp [emitAll]

/-- A non-empty list of write cycles is one record update. -/
theorem emitAll_eq_sent (fs : List (WriteKind × Byte)) (h : fs ≠ []) (s : State) :
    emitAll fs s = sent (framesOf fs) (fs.getLast h).2 (decide ((fs.getLast h).1 = .dat)) s := by
  induction fs generalizing s with
  | nil => exact absurd rfl h
  | cons f fs ih =>
    cases fs with
    | nil =>
      rw [emitAll_cons, emitAll_nil, busWrite_eq_sent]
      rfl
    | cons g fs =>
      rw [emitAll_cons, ih (by simp), busWrite_eq_sent, sent_sent]
      rfl

/-- The same, for lists whose last cycle is a data cycle carrying `d`. -/
theorem emitAll_concat_dat (fs : List (WriteKind × Byte)) (d : Byte) (s : State) :
    emitAll (fs ++ [(.dat, d)]) s = sent (framesOf fs ++ [.dat d]) d true s := by
  rw [emitAll_eq_sent _ (by simp)]
  simp

/-! ### Read cycles -/

theorem busRead_eq_received (s : State) : busRead s = received [.rd (sampledByte s)] 1 s := rfl

theorem received_received (fs gs : List Frame) (n m : Nat) (s : State) :
    received gs m (received fs n s) = received (fs ++ gs) (n + m) s := by
  simp [received, PanelView.onFrames_append, Nat.add_assoc]

@[simp] theorem busReads_zero (s : State) : busReads 0 s = ([], s) := rfl
theorem busReads_succ (n : Nat) (s : State) :
    busReads (n + 1) s = (sampledByte s :: (busReads n (busRead s)).1, (busReads n (busRead s)).2) := rfl

theorem busReads_length (n : Nat) (s : State) : (busReads n s).1.length = n := by
  induction n generalizing s with
  | zero => rfl
  | succ n ih => simp [busReads_succ, ih]

/-- `n ≥ 1` read cycles are one record update, and the bytes returned are the bytes of the frames. -/
theorem busReads_eq_received (n : Nat) (s : State) :
    (busReads (n + 1) s).2 = received ((busReads (n + 1) s).1.map .rd) (n + 1) s := by
  induction n generalizing s with
  | zero => simp [busReads_succ, busRead_eq_received]
  | succ n ih =>
    rw [busReads_succ, ih, busRead_eq_received, received_received]
    simp [Nat.add_comm]

/-! ### The clock pulse -/

/-- The clock pulse is two data cycles that send `dout` again (R134). -/
theorem busPulse2_eq_sent (s : State) : busPulse2 s = sent [.dat s.dout, .dat s.dout] s.dout true s := by
  simp only [busPulse2, pulseOnce, writeStep6, writeStep5, writeStep4, writeStep3, writeStep2, selectChip, sent,
    PanelView.onFrames, List.foldl, PanelView.onFrame, writeFrame_dat, List.append_assoc, List.cons_append,
    List.nil_append]
  simp

/-! ### Windows -/

/-- The ten frames of `win_set` (R150 to R152). -/
def windowSetFrames (x1 y1 x2 y2 : Int) : List Frame :=
  framesOf (windowFrames Config.cmdCaset (windowWord x1) (windowWord x2)) ++
    framesOf (windowFrames Config.cmdPaset (windowWord y1) (windowWord y2))

theorem winCols_eq (x1 x2 : Int) (s : State) :
    winCols x1 x2 s =
      { sent (framesOf (windowFrames Config.cmdCaset (windowWord x1) (windowWord x2))) (lo8 (windowWord x2)) true s with
        winX1 := windowWord x1, winX2 := windowWord x2, winColSet := true, primState := .windowSet } := by
  simp only [winCols, windowFrames]
  rw [emitAll_eq_sent _ (by simp)]
  simp only [dropStream, setPrim]
  split <;> rfl

theorem winRows_eq (y1 y2 : Int) (s : State) :
    winRows y1 y2 s =
      { sent (framesOf (windowFrames Config.cmdPaset (windowWord y1) (windowWord y2))) (lo8 (windowWord y2)) true s with
        winY1 := windowWord y1, winY2 := windowWord y2, winRowSet := true, primState := .windowSet } := by
  simp only [winRows, windowFrames]
  rw [emitAll_eq_sent _ (by simp)]
  simp only [dropStream, setPrim]
  split <;> rfl

/-- What `win_set` does, in one record update (R152). -/
theorem winSet_eq (x1 y1 x2 y2 : Int) (s : State) :
    winSet x1 y1 x2 y2 s =
      { sent (windowSetFrames x1 y1 x2 y2) (lo8 (windowWord y2)) true s with
        winX1 := windowWord x1, winX2 := windowWord x2, winY1 := windowWord y1, winY2 := windowWord y2
        winColSet := true, winRowSet := true, primState := .windowSet } := by
  rw [winSet, winRows_eq, winCols_eq]
  simp [sent, windowSetFrames, PanelView.onFrames_append]

/-! ### Streams -/

theorem streamBegin_eq (s : State) :
    streamBegin s = { sent [.cmd Config.cmdRamwr] Config.cmdRamwr false s with primState := .streaming } := by
  rw [streamBegin, busWrite_eq_sent]
  rfl

theorem px16_eq (k : Color) (s : State) : px16 k s = sent [.dat (hi8 k), .dat (lo8 k)] (lo8 k) true s := by
  rw [px16, px16Frames, emitAll_eq_sent _ (by simp)]
  rfl

/-- The pixel frames of `n` pixels of colour `k` (R166, R167). -/
def pixelFrames16 (k : Color) (n : Nat) : List Frame := (List.replicate n [Frame.dat (hi8 k), .dat (lo8 k)]).flatten

theorem framesOf_replicate_px16 (k : Color) (n : Nat) :
    framesOf (List.replicate n (px16Frames k)).flatten = pixelFrames16 k n := by
  induction n with
  | zero => rfl
  | succ n ih => simp [List.replicate_succ, pixelFrames16, px16Frames] at ih ⊢; exact ih

theorem flood16_zero (k : Color) (s : State) : flood16 k 0 s = s := rfl

/-- What `flood16` of at least one pixel does, in one record update (R167). -/
theorem flood16_succ (k : Color) (n : Nat) (s : State) :
    flood16 k (n + 1) s =
      { sent (.cmd Config.cmdRamwr :: pixelFrames16 k (n + 1)) (lo8 k) true s with primState := .streaming } := by
  have h : (List.replicate (n + 1) (px16Frames k)).flatten =
      (List.replicate n (px16Frames k)).flatten ++ [(.dat, hi8 k)] ++ [(.dat, lo8 k)] := by
    rw [List.replicate_succ', List.flatten_concat]
    simp [px16Frames]
  rw [flood16, if_neg (by omega), h, emitAll_concat_dat, streamBegin_eq]
  have h2 : framesOf ((List.replicate n (px16Frames k)).flatten ++ [(.dat, hi8 k)]) ++ [.dat (lo8 k)] =
      pixelFrames16 k (n + 1) := by
    rw [← framesOf_replicate_px16, h]
    simp
  rw [h2]
  simp [sent]

/-- What `flood8` of at least one pixel does, in one record update (R231). -/
theorem flood8_succ (v : Byte) (n : Nat) (s : State) :
    flood8 v (n + 1) s =
      { sent (.cmd Config.cmdRamwr :: List.replicate (n + 1) (.dat v)) v true s with primState := .streaming } := by
  have h : List.replicate (n + 1) ((WriteKind.dat, v)) = List.replicate n (.dat, v) ++ [(.dat, v)] :=
    List.replicate_succ'
  rw [flood8, if_neg (by omega), h, emitAll_concat_dat, streamBegin_eq]
  have h2 : framesOf (List.replicate n (WriteKind.dat, v)) ++ [.dat v] = List.replicate (n + 1) (.dat v) := by
    rw [List.replicate_succ']
    simp [framesOf]
  rw [h2]
  simp [sent]

theorem flood8_zero (v : Byte) (s : State) : flood8 v 0 s = s := rfl

/-! ### The end of an operation of the 16-bit path -/

@[simp] theorem endIdle_primState (s : State) : (endIdle s).primState = .idle := rfl
@[simp] theorem endIdle_cs (s : State) : (endIdle s).cs = false := rfl
@[simp] theorem endIdle_busDir (s : State) : (endIdle s).busDir = s.busDir := rfl
@[simp] theorem endIdle_busPhase (s : State) : (endIdle s).busPhase = s.busPhase := rfl
@[simp] theorem endIdle_dout (s : State) : (endIdle s).dout = s.dout := rfl
@[simp] theorem endIdle_dcx (s : State) : (endIdle s).dcx = s.dcx := rfl
@[simp] theorem endIdle_wr (s : State) : (endIdle s).wr = s.wr := rfl
@[simp] theorem endIdle_rd (s : State) : (endIdle s).rd = s.rd := rfl
@[simp] theorem endIdle_doMasking (s : State) : (endIdle s).doMasking = s.doMasking := rfl
@[simp] theorem endIdle_doOverdraw (s : State) : (endIdle s).doOverdraw = s.doOverdraw := rfl
@[simp] theorem endIdle_maskFlag (s : State) : (endIdle s).maskFlag = s.maskFlag := rfl
@[simp] theorem endIdle_backgroundColor (s : State) : (endIdle s).backgroundColor = s.backgroundColor := rfl
@[simp] theorem endIdle_foregroundColor (s : State) : (endIdle s).foregroundColor = s.foregroundColor := rfl
@[simp] theorem endIdle_winX1 (s : State) : (endIdle s).winX1 = s.winX1 := rfl
@[simp] theorem endIdle_winX2 (s : State) : (endIdle s).winX2 = s.winX2 := rfl
@[simp] theorem endIdle_winY1 (s : State) : (endIdle s).winY1 = s.winY1 := rfl
@[simp] theorem endIdle_winY2 (s : State) : (endIdle s).winY2 = s.winY2 := rfl
@[simp] theorem endIdle_winColSet (s : State) : (endIdle s).winColSet = s.winColSet := rfl
@[simp] theorem endIdle_winRowSet (s : State) : (endIdle s).winRowSet = s.winRowSet := rfl
@[simp] theorem endIdle_xbuf (s : State) : (endIdle s).xbuf = s.xbuf := rfl
@[simp] theorem endIdle_rowMemo (s : State) : (endIdle s).rowMemo = s.rowMemo := rfl
@[simp] theorem endIdle_colMemo (s : State) : (endIdle s).colMemo = s.colMemo := rfl
@[simp] theorem endIdle_result (s : State) : (endIdle s).result = s.result := rfl
@[simp] theorem endIdle_errIllegal (s : State) : (endIdle s).errIllegal = s.errIllegal := rfl
@[simp] theorem endIdle_txlog (s : State) : (endIdle s).txlog = s.txlog := rfl
@[simp] theorem endIdle_panel (s : State) : (endIdle s).panel = s.panel := rfl
@[simp] theorem endIdle_pixMem (s : State) : (endIdle s).pixMem = s.pixMem := rfl
@[simp] theorem endIdle_readDummyReads (s : State) : (endIdle s).readDummyReads = s.readDummyReads := rfl
@[simp] theorem endIdle_targetClockHz (s : State) : (endIdle s).targetClockHz = s.targetClockHz := rfl
@[simp] theorem endIdle_settleCycles (s : State) : (endIdle s).settleCycles = s.settleCycles := rfl
@[simp] theorem endIdle_hostQueue (s : State) : (endIdle s).hostQueue = s.hostQueue := rfl
@[simp] theorem endIdle_hostData (s : State) : (endIdle s).hostData = s.hostData := rfl
@[simp] theorem endIdle_freeDraws (s : State) : (endIdle s).freeDraws = s.freeDraws := rfl

end Sys2Proof.Machine
end

