-- ==== Sys2Proof/Laws/Panel.lean ====
section
/-! SUPPORT. What the reference panel does on the frames the block sends: window programming (R72, R73), pixel streams in
both formats with the cursor in closed form (R74, R75), and read streams (R76). -/

namespace Sys2Proof.Machine

@[simp] theorem hi8_append_lo8 (c : Color) : hi8 c ++ lo8 c = c := by
  simp only [hi8, lo8]
  rw [BitVec.extractLsb'_append_extractLsb'_eq_extractLsb' (by rfl)]
  exact BitVec.extractLsb'_eq_self

@[simp] theorem lo8_zero_append (b : Byte) : lo8 (0#8 ++ b) = b := by
  simp only [lo8]
  exact BitVec.extractLsb'_append_eq_right

/-! ### Windows -/

/-- The panel after a complete window programming (R73). -/
def Panel.withWindow (p : Panel) (xs xe ys ye : Color) : Panel :=
  { p with
    pXs := xs, pXe := xe, pYs := ys, pYe := ye
    pOpen := .paset, pK := 4, pHalf := .none
    pPar0 := hi8 ys, pPar1 := lo8 ys, pPar2 := hi8 ye, pPar3 := lo8 ye }

theorem onFrames_columnWindow (d : Nat) (p : Panel) (u1 u2 : Color) :
    (PanelView.known p).onFrames d (framesOf (windowFrames Config.cmdCaset u1 u2)) =
      .known { p with
        pXs := u1, pXe := u2, pOpen := .caset, pK := 4, pHalf := .none
        pPar0 := hi8 u1, pPar1 := lo8 u1, pPar2 := hi8 u2, pPar3 := lo8 u2 } := by
  simp [windowFrames, PanelView.onFrame, PanelView.onWrite, Panel.onCommand, Panel.onData, Panel.onColumnParam,
    Panel.pushParam]

theorem onFrames_rowWindow (d : Nat) (p : Panel) (u1 u2 : Color) :
    (PanelView.known p).onFrames d (framesOf (windowFrames Config.cmdPaset u1 u2)) =
      .known { p with
        pYs := u1, pYe := u2, pOpen := .paset, pK := 4, pHalf := .none
        pPar0 := hi8 u1, pPar1 := lo8 u1, pPar2 := hi8 u2, pPar3 := lo8 u2 } := by
  simp [windowFrames, PanelView.onFrame, PanelView.onWrite, Panel.onCommand, Panel.onData, Panel.onRowParam,
    Panel.pushParam, Config.cmdCaset, Config.cmdPaset]

/-- A window programming reaches a known panel: its window registers hold the values sent (R73). -/
theorem onFrames_windowSet (d : Nat) (p : Panel) (x1 y1 x2 y2 : Int) :
    (PanelView.known p).onFrames d (windowSetFrames x1 y1 x2 y2) =
      .known (p.withWindow (windowWord x1) (windowWord x2) (windowWord y1) (windowWord y2)) := by
  rw [windowSetFrames, PanelView.onFrames_append, onFrames_columnWindow, onFrames_rowWindow]
  rfl

/-- The panel after RAMWR (R72). -/
def Panel.openWrite (p : Panel) : Panel :=
  { p with pK := 0, pHalf := .none, pOpen := .ramwr, pCx := p.pXs.toNat, pCy := p.pYs.toNat }

/-- The panel after RAMRD (R72). -/
def Panel.openRead (d : Nat) (p : Panel) : Panel :=
  { p with pK := 0, pHalf := .none, pOpen := .ramrd, pCx := p.pXs.toNat, pCy := p.pYs.toNat, pDummy := d }

theorem onFrame_ramwr (d : Nat) (p : Panel) :
    (PanelView.known p).onFrame d (.cmd Config.cmdRamwr) = .known p.openWrite := rfl

theorem onFrame_ramrd (d : Nat) (p : Panel) :
    (PanelView.known p).onFrame d (.cmd Config.cmdRamrd) = .known (p.openRead d) := rfl

/-! ### The cursor in closed form (R75) -/

/-- One pixel of value `v` is written at the cursor, and the cursor advances (R74, R75). -/
def Panel.put (v : Color) (p : Panel) : Panel := (p.storePixel v).advance

theorem Panel.HasWindow.windowInRange {p : Panel} {x1 y1 w h : Nat} (hw : p.HasWindow x1 y1 w h) :
    p.windowInRange = true := by
  obtain ⟨h1, h2, h3, h4, h5, h6, h7, h8⟩ := hw
  simp only [Panel.windowInRange, decide_eq_true_eq]
  omega

theorem Panel.AtPixel.cursorInRange {p : Panel} {x1 y1 w h i : Nat} (hw : p.HasWindow x1 y1 w h)
    (ha : p.AtPixel x1 y1 w h i) : p.cursorInRange = true := by
  obtain ⟨h1, h2, h3, h4, h5, h6, h7, h8⟩ := hw
  have hx := Nat.mod_lt i h5
  have hy := Nat.mod_lt (i / w) h6
  simp only [Panel.cursorInRange, decide_eq_true_eq, ha.cx, ha.cy]
  omega

theorem Panel.pixelRefusal_eq_none {p : Panel} {x1 y1 w h i : Nat} (hw : p.HasWindow x1 y1 w h)
    (ha : p.AtPixel x1 y1 w h i) : p.pixelRefusal = none := by
  simp [Panel.pixelRefusal, hw.windowInRange, ha.cursorInRange hw]

@[simp] theorem Panel.advance_gram (p : Panel) : p.advance.gram = p.gram := by
  rw [Panel.advance]; split <;> rfl
@[simp] theorem Panel.advance_pXs (p : Panel) : p.advance.pXs = p.pXs := by rw [Panel.advance]; split <;> rfl
@[simp] theorem Panel.advance_pXe (p : Panel) : p.advance.pXe = p.pXe := by rw [Panel.advance]; split <;> rfl
@[simp] theorem Panel.advance_pYs (p : Panel) : p.advance.pYs = p.pYs := by rw [Panel.advance]; split <;> rfl
@[simp] theorem Panel.advance_pYe (p : Panel) : p.advance.pYe = p.pYe := by rw [Panel.advance]; split <;> rfl
@[simp] theorem Panel.advance_pOpen (p : Panel) : p.advance.pOpen = p.pOpen := by rw [Panel.advance]; split <;> rfl
@[simp] theorem Panel.advance_pHalf (p : Panel) : p.advance.pHalf = p.pHalf := by rw [Panel.advance]; split <;> rfl
@[simp] theorem Panel.advance_pDummy (p : Panel) : p.advance.pDummy = p.pDummy := by
  rw [Panel.advance]; split <;> rfl
@[simp] theorem Panel.advance_pK (p : Panel) : p.advance.pK = p.pK := by rw [Panel.advance]; split <;> rfl
@[simp] theorem Panel.advance_format (p : Panel) : p.advance.format = p.format := by
  rw [Panel.advance]; split <;> rfl

theorem Panel.HasWindow.advance {p : Panel} {x1 y1 w h : Nat} (hw : p.HasWindow x1 y1 w h) :
    p.advance.HasWindow x1 y1 w h := by
  obtain ⟨h1, h2, h3, h4, h5, h6, h7, h8⟩ := hw
  constructor <;> simpa

/-- The cursor goes from pixel `i` to pixel `i + 1` of the window, and from its last pixel to its first (R75). -/
theorem Panel.AtPixel.advance {p : Panel} {x1 y1 w h i : Nat} (hw : p.HasWindow x1 y1 w h)
    (ha : p.AtPixel x1 y1 w h i) : p.advance.AtPixel x1 y1 w h (i + 1) := by
  obtain ⟨h1, h2, h3, h4, h5, h6, h7, h8⟩ := hw
  obtain ⟨hcx, hcy⟩ := ha
  have hr := Nat.mod_lt i h5
  have hs := Nat.mod_lt (i / w) h6
  have hi : w * (i / w) + i % w = i := Nat.div_add_mod i w
  by_cases hlast : i % w + 1 = w
  · have e : i + 1 = w * (i / w + 1) := by rw [Nat.mul_add]; omega
    have ediv : (i + 1) / w = i / w + 1 := by rw [e, Nat.mul_div_cancel_left _ h5]
    have emod : (i + 1) % w = 0 := by rw [e, Nat.mul_mod_right]
    have hj : h * (i / w / h) + i / w % h = i / w := Nat.div_add_mod (i / w) h
    by_cases hbot : i / w % h + 1 = h
    · have e2 : i / w + 1 = h * (i / w / h + 1) := by rw [Nat.mul_add]; omega
      have em : (i / w + 1) % h = 0 := by rw [e2, Nat.mul_mod_right]
      refine ⟨?_, ?_⟩
      · rw [Panel.advance, if_pos (by omega), emod]; simpa using h1
      · rw [Panel.advance, if_pos (by omega), ediv, em]
        dsimp only
        rw [if_pos (by omega)]
        simpa using h3
    · have em : (i / w + 1) % h = i / w % h + 1 := by
        rw [Nat.add_mod, Nat.mod_eq_of_lt (a := 1) (by omega), Nat.mod_eq_of_lt (by omega)]
      refine ⟨?_, ?_⟩
      · rw [Panel.advance, if_pos (by omega), emod]; simpa using h1
      · rw [Panel.advance, if_pos (by omega), ediv, em]
        dsimp only
        rw [if_neg (by omega)]
        omega
  · have ediv : (i + 1) / w = i / w := by
      have : (w * (i / w) + (i % w + 1)) / w = i / w + (i % w + 1) / w := Nat.mul_add_div h5 _ _
      rw [Nat.div_eq_of_lt (a := i % w + 1) (by omega)] at this
      rw [← Nat.add_assoc, hi] at this
      simpa using this
    have emod : (i + 1) % w = i % w + 1 := by
      have : (w * (i / w) + (i % w + 1)) % w = (i % w + 1) % w := Nat.mul_add_mod _ _ _
      rw [Nat.mod_eq_of_lt (a := i % w + 1) (by omega), ← Nat.add_assoc, hi] at this
      exact this
    refine ⟨?_, ?_⟩
    · rw [Panel.advance, if_neg (by omega), emod]; dsimp only; omega
    · rw [Panel.advance, if_neg (by omega), ediv]; exact hcy

/-! ### Pixel writes -/

theorem Panel.Writing.put {p : Panel} {x1 y1 w h i : Nat} (v : Color) (hp : p.Writing x1 y1 w h i) :
    (p.put v).Writing x1 y1 w h (i + 1) := by
  obtain ⟨ho, hh, hw, ha⟩ := hp
  have hw' : (p.storePixel v).HasWindow x1 y1 w h := ⟨hw.xs, hw.xe, hw.ys, hw.ye, hw.wpos, hw.hpos, hw.xin, hw.yin⟩
  have ha' : (p.storePixel v).AtPixel x1 y1 w h i := ⟨ha.cx, ha.cy⟩
  exact ⟨by simpa [Panel.put, Panel.storePixel] using ho, by simpa [Panel.put, Panel.storePixel] using hh, hw'.advance,
    ha'.advance hw'⟩

@[simp] theorem Panel.put_format (v : Color) (p : Panel) : (p.put v).format = p.format := by simp [Panel.put, Panel.storePixel]

theorem Panel.put_gram (v : Color) (p : Panel) : (p.put v).gram = p.gram.insert (cellKey p.pCx p.pCy) v := by
  simp [Panel.put, Panel.storePixel]

theorem Panel.onData_ramwr {p : Panel} (ho : p.pOpen = .ramwr) (hr : p.pixelRefusal = none) (b : Byte) :
    p.onData b = .known (p.onPixelByte b) := by
  simp [Panel.onData, ho, hr]

theorem Panel.onPixelByte_high {p : Panel} (hf : p.format = .twoBytes) (hh : p.pHalf = .none) (b : Byte) :
    p.onPixelByte b = { p with pHalf := .byte b } := by
  simp [Panel.onPixelByte, hf, hh]

theorem Panel.onPixelByte_low {p : Panel} (hf : p.format = .twoBytes) (hh : p.pHalf = .none) (b c : Byte) :
    ({ p with pHalf := .byte b } : Panel).onPixelByte c = p.put (b ++ c) := by
  cases p
  dsimp only at hf hh
  subst hf hh
  rfl

/-- The two frames of a 16-bit pixel write one pixel (R74). -/
theorem onFrames_px16 (d : Nat) {p : Panel} {x1 y1 w h i : Nat} (hf : p.format = .twoBytes)
    (hp : p.Writing x1 y1 w h i) (k : Color) :
    (PanelView.known p).onFrames d [.dat (hi8 k), .dat (lo8 k)] = .known (p.put k) := by
  have hr := Panel.pixelRefusal_eq_none hp.window hp.at_
  show (p.onData (hi8 k)).onFrame d (.dat (lo8 k)) = _
  rw [Panel.onData_ramwr hp.opened hr, Panel.onPixelByte_high hf hp.half]
  show ({ p with pHalf := .byte (hi8 k) } : Panel).onData (lo8 k) = _
  rw [Panel.onData_ramwr (p := { p with pHalf := .byte (hi8 k) }) hp.opened hr, Panel.onPixelByte_low hf hp.half,
    hi8_append_lo8]

/-- The one frame of a fast pixel writes one pixel (R74). -/
theorem onFrame_px8 (d : Nat) {p : Panel} {x1 y1 w h i : Nat} (hf : p.format = .oneByte)
    (hp : p.Writing x1 y1 w h i) (b : Byte) :
    (PanelView.known p).onFrame d (.dat b) = .known (p.put (0#8 ++ b)) := by
  have hr := Panel.pixelRefusal_eq_none hp.window hp.at_
  simp [PanelView.onFrame, PanelView.onWrite, Panel.onData, hp.opened, hr, Panel.onPixelByte, hf, Panel.put]

/-- Pixels written one after the other. -/
def Panel.putAll (vs : List Color) (p : Panel) : Panel := vs.foldl (fun p v => p.put v) p

@[simp] theorem Panel.putAll_nil (p : Panel) : p.putAll [] = p := rfl
@[simp] theorem Panel.putAll_cons (v : Color) (vs : List Color) (p : Panel) :
    p.putAll (v :: vs) = (p.put v).putAll vs := rfl
theorem Panel.putAll_concat (v : Color) (vs : List Color) (p : Panel) :
    p.putAll (vs ++ [v]) = (p.putAll vs).put v := by simp [Panel.putAll]

@[simp] theorem Panel.putAll_format (vs : List Color) (p : Panel) : (p.putAll vs).format = p.format := by
  induction vs generalizing p with
  | nil => rfl
  | cons v vs ih => simp [ih]

theorem Panel.Writing.putAll {p : Panel} {x1 y1 w h i : Nat} (vs : List Color) (hp : p.Writing x1 y1 w h i) :
    (p.putAll vs).Writing x1 y1 w h (i + vs.length) := by
  induction vs generalizing p i with
  | nil => exact hp
  | cons v vs ih =>
    have := ih (hp.put v)
    simpa [Nat.add_assoc, Nat.add_comm 1] using this

/-- A list of 16-bit pixels writes them one after the other. -/
theorem onFrames_pixels16 (d : Nat) {p : Panel} {x1 y1 w h i : Nat} (hf : p.format = .twoBytes)
    (hp : p.Writing x1 y1 w h i) (ks : List Color) :
    (PanelView.known p).onFrames d (ks.flatMap fun k => [.dat (hi8 k), .dat (lo8 k)]) = .known (p.putAll ks) := by
  induction ks generalizing p i with
  | nil => rfl
  | cons k ks ih =>
    rw [List.flatMap_cons, PanelView.onFrames_append, onFrames_px16 d hf hp, ih (by simpa) (hp.put k)]
    rfl

/-- A list of fast pixels writes them one after the other. -/
theorem onFrames_pixels8 (d : Nat) {p : Panel} {x1 y1 w h i : Nat} (hf : p.format = .oneByte)
    (hp : p.Writing x1 y1 w h i) (bs : List Byte) :
    (PanelView.known p).onFrames d (bs.map .dat) = .known (p.putAll (bs.map (0#8 ++ ·))) := by
  induction bs generalizing p i with
  | nil => rfl
  | cons b bs ih =>
    rw [List.map_cons, PanelView.onFrames_cons, onFrame_px8 d hf hp, ih (by simpa) (hp.put _)]
    rfl

theorem cellKey_inj {x y x' y' : Nat} (hx : x < 240) (hx' : x' < 240) :
    cellKey x y = cellKey x' y' ↔ x = x' ∧ y = y' := by
  simp only [cellKey]
  omega

/-- The last pixel written is what its cell holds; every other cell is as before it. -/
theorem Panel.lookup_put {p : Panel} {x1 y1 w h i : Nat} (v : Color) (hp : p.Writing x1 y1 w h i) {x y : Nat}
    (hx : x < 240) :
    (p.put v).gram.lookup (cellKey x y) =
      if x = pixelCol x1 w i ∧ y = pixelRow y1 w h i then some v else p.gram.lookup (cellKey x y) := by
  have hc := hp.at_.cursorInRange hp.window
  simp only [Panel.cursorInRange, decide_eq_true_eq] at hc
  have he := cellKey_inj (y := y) (y' := p.pCy) hx hc.1
  rw [hp.at_.cx, hp.at_.cy] at he
  rw [Panel.put_gram, Table.lookup_insert, hp.at_.cx, hp.at_.cy]
  simp only [he, pixelCol, pixelRow]
  congr

/-- Equal pixels: a cell some pixel of the stream lands on holds the colour. -/
theorem Panel.lookup_putAll_replicate_hit {p : Panel} {x1 y1 w h i : Nat} (v : Color) (n : Nat)
    (hp : p.Writing x1 y1 w h i) {x y : Nat} (hx : x < 240)
    (hj : ∃ j, i ≤ j ∧ j < i + n ∧ x = pixelCol x1 w j ∧ y = pixelRow y1 w h j) :
    (p.putAll (List.replicate n v)).gram.lookup (cellKey x y) = some v := by
  induction n with
  | zero => obtain ⟨j, h1, h2, -⟩ := hj; omega
  | succ n ih =>
    have hp' := hp.putAll (List.replicate n v)
    rw [List.length_replicate] at hp'
    rw [List.replicate_succ', Panel.putAll_concat, Panel.lookup_put v hp' hx]
    split
    · rfl
    · rename_i hne
      obtain ⟨j, h1, h2, h3⟩ := hj
      refine ih ⟨j, h1, ?_, h3⟩
      have : j ≠ i + n := fun e => hne (e ▸ h3)
      omega

/-- Pixels: a cell no pixel of the stream lands on holds what it held. -/
theorem Panel.lookup_putAll_miss {p : Panel} {x1 y1 w h i : Nat} (vs : List Color)
    (hp : p.Writing x1 y1 w h i) {x y : Nat} (hx : x < 240)
    (hj : ∀ j, i ≤ j → j < i + vs.length → ¬(x = pixelCol x1 w j ∧ y = pixelRow y1 w h j)) :
    (p.putAll vs).gram.lookup (cellKey x y) = p.gram.lookup (cellKey x y) := by
  induction vs generalizing p i with
  | nil => rfl
  | cons v vs ih =>
    rw [Panel.putAll_cons, ih (hp.put v), Panel.lookup_put v hp hx, if_neg (hj i (le_refl i) (by simp))]
    intro j h1 h2
    exact hj j (by omega) (by simp only [List.length_cons]; omega)

/-- A stream that fills its window exactly lands on the window's cells and on no other. -/
theorem exists_pixel_iff {x1 y1 w h x y : Nat} (hw : 0 < w) :
    (∃ j, 0 ≤ j ∧ j < 0 + w * h ∧ x = pixelCol x1 w j ∧ y = pixelRow y1 w h j) ↔
      (x1 ≤ x ∧ x < x1 + w ∧ y1 ≤ y ∧ y < y1 + h) := by
  simp only [pixelCol, pixelRow, Nat.zero_add, Nat.zero_le, true_and]
  constructor
  · rintro ⟨j, hj, rfl, rfl⟩
    have hr := Nat.mod_lt j hw
    have hd : j / w < h := Nat.div_lt_of_lt_mul hj
    rw [Nat.mod_eq_of_lt hd]
    generalize j / w = q at hd
    generalize j % w = r at hr
    omega
  · rintro ⟨a, b, c, e⟩
    have hlt : w * (y - y1) + (x - x1) < w * h := by
      have h1 : w * (y - y1) + w ≤ w * h := by
        calc w * (y - y1) + w = w * (y - y1 + 1) := by ring
          _ ≤ w * h := Nat.mul_le_mul_left _ (by omega)
      omega
    refine ⟨w * (y - y1) + (x - x1), hlt, ?_, ?_⟩
    · rw [Nat.mul_add_mod, Nat.mod_eq_of_lt (by omega)]
      omega
    · rw [Nat.mul_add_div hw, Nat.div_eq_of_lt (a := x - x1) (by omega), Nat.add_zero,
        Nat.mod_eq_of_lt (by omega)]
      omega

/-! ### A programmed window -/

theorem windowWord_toNat (n : Nat) (h : n < 65536) : (windowWord (n : Int)).toNat = n := by
  simp [windowWord]
  omega

/-- After `win_set` of a rectangle inside the panel and RAMWR, the panel writes from the rectangle's first pixel. -/
theorem Panel.writing_of_window (p : Panel) {x1 y1 w h : Nat} {x2 y2 : Int} (hx2 : x2 = (x1 : Int) + w - 1)
    (hy2 : y2 = (y1 : Int) + h - 1) (hw : 0 < w) (hh : 0 < h) (hxin : x1 + w ≤ 240) (hyin : y1 + h ≤ 320) :
    (p.withWindow (windowWord x1) (windowWord x2) (windowWord y1) (windowWord y2)).openWrite.Writing x1 y1 w h 0 := by
  have e1 : x2 = ((x1 + w - 1 : Nat) : Int) := by omega
  have e2 : y2 = ((y1 + h - 1 : Nat) : Int) := by omega
  have a1 := windowWord_toNat x1 (by omega)
  have a2 := windowWord_toNat (x1 + w - 1) (by omega)
  have a3 := windowWord_toNat y1 (by omega)
  have a4 := windowWord_toNat (y1 + h - 1) (by omega)
  rw [← e1] at a2
  rw [← e2] at a4
  refine ⟨rfl, rfl, ⟨a1, ?_, a3, ?_, hw, hh, hxin, hyin⟩, ⟨?_, ?_⟩⟩
  · show (windowWord x2).toNat + 1 = _
    omega
  · show (windowWord y2).toNat + 1 = _
    omega
  · show (windowWord x1).toNat = _
    simpa using a1
  · show (windowWord y1).toNat = _
    simpa using a3

end Sys2Proof.Machine
end

