-- ==== Sys2Proof/Laws/Decode.lean ====
section
/-! SUPPORT. Laws of the two encodings: fields and descriptor, operands and fields, the decoder on joined fields, and the
opcode table's selection test as a test of fields. -/

namespace Sys2Proof

theorem extract_high {v w start len : Nat} (hi : BitVec v) (lo : BitVec w) (h : w ≤ start) :
  BitVec.extractLsb' start len (hi ++ lo) = BitVec.extractLsb' (start - w) len hi := BitVec.extractLsb'_append_eq_of_le h
theorem extract_low {v w : Nat} (hi : BitVec v) (lo : BitVec w) :
  BitVec.extractLsb' 0 w (hi ++ lo) = lo := by
  rw [BitVec.extractLsb'_append_eq_of_add_le (by omega)]; exact BitVec.extractLsb'_eq_self
theorem extract_self {w : Nat} (x : BitVec w) : BitVec.extractLsb' 0 w x = x := BitVec.extractLsb'_eq_self

/-- Cutting a joined descriptor gives its fields back (R101). -/
theorem Fields.ofWord_toWord (f : Fields) : Fields.ofWord f.toWord = f := by
  obtain ⟨op, rsv, flag, c, a0, a1, a2, a3, a4, a5⟩ := f
  simp only [Fields.ofWord, Fields.toWord, Fields.mk.injEq]
  refine ⟨?_, ?_, ?_, ?_, ?_, ?_, ?_, ?_, ?_, ?_⟩
  · iterate 9 refine (extract_high _ _ (by decide)).trans ?_
    exact extract_self op
  · iterate 8 refine (extract_high _ _ (by decide)).trans ?_
    exact extract_low _ _
  · iterate 7 refine (extract_high _ _ (by decide)).trans ?_
    exact extract_low _ _
  · iterate 6 refine (extract_high _ _ (by decide)).trans ?_
    exact extract_low _ _
  · iterate 5 refine (extract_high _ _ (by decide)).trans ?_
    exact extract_low _ _
  · iterate 4 refine (extract_high _ _ (by decide)).trans ?_
    exact extract_low _ _
  · iterate 3 refine (extract_high _ _ (by decide)).trans ?_
    exact extract_low _ _
  · iterate 2 refine (extract_high _ _ (by decide)).trans ?_
    exact extract_low _ _
  · refine (extract_high _ _ (by decide)).trans ?_
    exact extract_low _ _
  · exact extract_low _ _

/-- Joining the cut fields gives the descriptor back (R101). -/
theorem Fields.toWord_ofWord (w : Descriptor) : (Fields.ofWord w).toWord = w := by
  simp only [Fields.ofWord, Fields.toWord]
  repeat rw [BitVec.extractLsb'_append_extractLsb'_eq_extractLsb' (by rfl)]
  exact BitVec.extractLsb'_eq_self

theorem Op.ofCode_code (m : Op) : Op.ofCode m.code = some m := by cases m <;> decide
theorem Op.code_of_ofCode {b : BitVec 8} {m : Op} (h : Op.ofCode b = some m) : m.code = b := by
  have := List.find?_some h
  simpa using this
theorem sint16_coordField {v : Int} (h : coordOk v = true) : sint16 (coordField v) = v := by
  simp only [coordOk, decide_eq_true_eq] at h
  simp only [sint16, coordField, BitVec.toInt_ofInt]
  rw [Int.bmod_def]; omega
theorem coordField_sint16 (f : BitVec 16) : coordField (sint16 f) = f := by simp [coordField, sint16]
theorem coordOk_sint16 (f : BitVec 16) : coordOk (sint16 f) = true := by
  have h1 := BitVec.toInt_lt (x := f)
  have h2 := BitVec.le_toInt (x := f)
  simp at h1 h2
  exact decide_eq_true ⟨h2, by simp only [sint16]; omega⟩
theorem uint32_fields {n : Nat} (h : lengthOk n = true) : uint32 (highField n) (lowField n) = n := by
  simp only [lengthOk, decide_eq_true_eq] at h
  simp only [uint32, uint16, highField, lowField, BitVec.toNat_ofNat]; omega
theorem highField_uint32 (a b : BitVec 16) : highField (uint32 a b) = a := by
  apply BitVec.eq_of_toNat_eq
  simp only [uint32, uint16, highField, BitVec.toNat_ofNat]; omega
theorem lowField_uint32 (a b : BitVec 16) : lowField (uint32 a b) = b := by
  apply BitVec.eq_of_toNat_eq
  simp only [uint32, uint16, lowField, BitVec.toNat_ofNat]; omega
theorem lengthOk_uint32 (a b : BitVec 16) : lengthOk (uint32 a b) = true := by
  exact decide_eq_true (by simp only [uint32, uint16]; omega)
theorem uint16_lowField {n : Nat} (h : countOk n = true) : uint16 (lowField n) = n := by
  simp only [countOk, decide_eq_true_eq] at h
  simp only [uint16, lowField, BitVec.toNat_ofNat]; omega
theorem lowField_uint16 (a : BitVec 16) : lowField (uint16 a) = a := by simp [lowField, uint16]
theorem countOk_uint16 (a : BitVec 16) : countOk (uint16 a) = true := by
  exact decide_eq_true (by simp only [uint16]; omega)
theorem byteField_lo8 {c : BitVec 16} (h : hi8 c = 0#8) : byteField (lo8 c) = c := by
  rw [byteField, ← h]; exact Machine.hi8_append_lo8 c
theorem hi8_byteField (b : Byte) : hi8 (byteField b) = 0#8 := by
  refine (extract_high _ _ (by decide)).trans ?_; exact extract_self _
theorem lo8_byteField (b : Byte) : lo8 (byteField b) = b := Machine.lo8_zero_append b
theorem addr_halves (a : BitVec 32) : a.extractLsb' 16 16 ++ a.extractLsb' 0 16 = a := by
  rw [BitVec.extractLsb'_append_extractLsb'_eq_extractLsb' (by rfl)]; exact BitVec.extractLsb'_eq_self
theorem flag_ofBool (b : Bool) : (BitVec.ofBool b == 1#1) = b := by cases b <;> decide
theorem ofBool_flag (f : BitVec 1) : BitVec.ofBool (f == 1#1) = f := by
  revert f; decide

/-- Decoding a joined descriptor looks at its fields (R105). -/
theorem decodeOpd_toWord (m : Op) (f : Fields) (h : f.op = m.code) :
    decodeOpd f.toWord = if f.unusedClear m.usage then .ok (m.build f) else .error .unusedBitSet := by
  simp only [decodeOpd, Fields.ofWord_toWord, h, Op.ofCode_code]

theorem decodeOpd_fields (m : Op) (c a0 a1 a2 a3 a4 a5 : BitVec 16) (g : BitVec 1) :
    decodeOpd (Op.fields m c a0 a1 a2 a3 a4 a5 g).toWord =
      if (Op.fields m c a0 a1 a2 a3 a4 a5 g).unusedClear m.usage then .ok (m.build (Op.fields m c a0 a1 a2 a3 a4 a5 g))
      else .error .unusedBitSet := decodeOpd_toWord _ _ rfl
theorem append_and {v w : Nat} (a c : BitVec v) (b d : BitVec w) : (a ++ b) &&& (c ++ d) = (a &&& c) ++ (b &&& d) := by
  apply BitVec.eq_of_getLsbD_eq
  intro i hi
  simp only [BitVec.getLsbD_and, BitVec.getLsbD_append]
  split <;> rfl
/-- Bitwise and, field by field. -/
def Fields.and (f g : Fields) : Fields := ⟨f.op &&& g.op, f.rsv &&& g.rsv, f.flag &&& g.flag, f.c &&& g.c, f.a0 &&& g.a0, f.a1 &&& g.a1, f.a2 &&& g.a2, f.a3 &&& g.a3, f.a4 &&& g.a4, f.a5 &&& g.a5⟩
theorem Fields.toWord_and (f g : Fields) : f.toWord &&& g.toWord = (f.and g).toWord := by
  obtain ⟨op, rsv, flag, c, a0, a1, a2, a3, a4, a5⟩ := f
  obtain ⟨op', rsv', flag', c', a0', a1', a2', a3', a4', a5'⟩ := g
  simp only [Fields.toWord, Fields.and]
  rw [← append_and op op', ← append_and _ _ flag flag', ← append_and _ _ c c', ← append_and _ _ a0 a0', ← append_and _ _ a1 a1',
    ← append_and _ _ a2 a2', ← append_and _ _ a3 a3', ← append_and _ _ a4 a4', ← append_and _ _ a5 a5']
theorem Fields.toWord_inj {f g : Fields} : f.toWord = g.toWord ↔ f = g :=
  ⟨fun h => by rw [← Fields.ofWord_toWord f, h, Fields.ofWord_toWord], fun h => h ▸ rfl⟩
theorem hi8_zero_iff (c : BitVec 16) : c &&& 0xFF00#16 = 0#16 ↔ hi8 c = 0#8 := by
  constructor
  · intro h
    have := congrArg hi8 h
    simp only [hi8] at this ⊢
    rw [BitVec.extractLsb'_and] at this
    have e : BitVec.extractLsb' 8 8 0xFF00#16 = BitVec.allOnes 8 := by decide
    rw [e, BitVec.and_allOnes] at this
    exact this
  · intro h
    have : c = 0#8 ++ lo8 c := by rw [← h, Machine.hi8_append_lo8]
    rw [this]
    have e : (0xFF00#16 : BitVec 16) = 0xFF#8 ++ 0x00#8 := by decide
    rw [e]
    exact (append_and _ _ _ _).trans (by simp)
theorem selects_toWord (m : Op) (f : Fields) : m.selects f.toWord = (f.op == m.code && f.unusedClear m.usage) := by
  obtain ⟨op, rsv, flag, c, a0, a1, a2, a3, a4, a5⟩ := f
  rw [Bool.eq_iff_iff]
  have ha : ∀ {n : Nat} (x : BitVec n), x &&& BitVec.allOnes n = x := fun x => BitVec.and_allOnes
  have hz : ∀ {n : Nat} (x : BitVec n), x &&& 0#n = 0#n := fun x => BitVec.and_zero
  cases m <;> simp only [Op.selects, beq_iff_eq, Op.tableMask, Op.tableMatch]
  case writeCommand =>
    have e1 : 0x01000000000000000000000000000000#128 = Fields.toWord ⟨0x01#8, 0#7, 0#1, 0#16, 0#16, 0#16, 0#16, 0#16, 0#16, 0#16⟩ := by decide
    have e2 : 0xFFFFFF00FFFFFFFFFFFFFFFFFFFFFFFF#128 =
      Fields.toWord ⟨BitVec.allOnes 8, BitVec.allOnes 7, BitVec.allOnes 1, 0xFF00#16, BitVec.allOnes 16, BitVec.allOnes 16, BitVec.allOnes 16, BitVec.allOnes 16, BitVec.allOnes 16, BitVec.allOnes 16⟩ := by decide
    rw [e1, e2, Fields.toWord_and, Fields.toWord_inj]
    simp only [Fields.and, ha, Fields.mk.injEq, hi8_zero_iff]
    simp [Fields.unusedClear, Op.usage, Op.code, and_assoc]
  case writeData =>
    have e1 : 0x02000000000000000000000000000000#128 = Fields.toWord ⟨0x02#8, 0#7, 0#1, 0#16, 0#16, 0#16, 0#16, 0#16, 0#16, 0#16⟩ := by decide
    have e2 : 0xFFFFFF00FFFFFFFFFFFFFFFFFFFFFFFF#128 =
      Fields.toWord ⟨BitVec.allOnes 8, BitVec.allOnes 7, BitVec.allOnes 1, 0xFF00#16, BitVec.allOnes 16, BitVec.allOnes 16, BitVec.allOnes 16, BitVec.allOnes 16, BitVec.allOnes 16, BitVec.allOnes 16⟩ := by decide
    rw [e1, e2, Fields.toWord_and, Fields.toWord_inj]
    simp only [Fields.and, ha, Fields.mk.injEq, hi8_zero_iff]
    simp [Fields.unusedClear, Op.usage, Op.code, and_assoc]
  case readData =>
    have e1 : 0x03000000000000000000000000000000#128 = Fields.toWord ⟨0x03#8, 0#7, 0#1, 0#16, 0#16, 0#16, 0#16, 0#16, 0#16, 0#16⟩ := by decide
    have e2 : 0xFFFFFFFFFFFFFFFFFFFFFFFFFFFFFFFF#128 =
      Fields.toWord ⟨BitVec.allOnes 8, BitVec.allOnes 7, BitVec.allOnes 1, BitVec.allOnes 16, BitVec.allOnes 16, BitVec.allOnes 16, BitVec.allOnes 16, BitVec.allOnes 16, BitVec.allOnes 16, BitVec.allOnes 16⟩ := by decide
    rw [e1, e2, Fields.toWord_and, Fields.toWord_inj]
    simp only [Fields.and, ha, Fields.mk.injEq]
    simp [Fields.unusedClear, Op.usage, Op.code, and_assoc]
  case clockPulse =>
    have e1 : 0x04000000000000000000000000000000#128 = Fields.toWord ⟨0x04#8, 0#7, 0#1, 0#16, 0#16, 0#16, 0#16, 0#16, 0#16, 0#16⟩ := by decide
    have e2 : 0xFFFFFFFFFFFFFFFFFFFFFFFFFFFFFFFF#128 =
      Fields.toWord ⟨BitVec.allOnes 8, BitVec.allOnes 7, BitVec.allOnes 1, BitVec.allOnes 16, BitVec.allOnes 16, BitVec.allOnes 16, BitVec.allOnes 16, BitVec.allOnes 16, BitVec.allOnes 16, BitVec.allOnes 16⟩ := by decide
    rw [e1, e2, Fields.toWord_and, Fields.toWord_inj]
    simp only [Fields.and, ha, Fields.mk.injEq]
    simp [Fields.unusedClear, Op.usage, Op.code, and_assoc]
  case setColumnWindow =>
    have e1 : 0x10000000000000000000000000000000#128 = Fields.toWord ⟨0x10#8, 0#7, 0#1, 0#16, 0#16, 0#16, 0#16, 0#16, 0#16, 0#16⟩ := by decide
    have e2 : 0xFFFFFFFF00000000FFFFFFFFFFFFFFFF#128 =
      Fields.toWord ⟨BitVec.allOnes 8, BitVec.allOnes 7, BitVec.allOnes 1, BitVec.allOnes 16, 0#16, 0#16, BitVec.allOnes 16, BitVec.allOnes 16, BitVec.allOnes 16, BitVec.allOnes 16⟩ := by decide
    rw [e1, e2, Fields.toWord_and, Fields.toWord_inj]
    simp only [Fields.and, ha, hz, Fields.mk.injEq]
    simp [Fields.unusedClear, Op.usage, Op.code, and_assoc]
  case setRowWindow =>
    have e1 : 0x11000000000000000000000000000000#128 = Fields.toWord ⟨0x11#8, 0#7, 0#1, 0#16, 0#16, 0#16, 0#16, 0#16, 0#16, 0#16⟩ := by decide
    have e2 : 0xFFFFFFFF00000000FFFFFFFFFFFFFFFF#128 =
      Fields.toWord ⟨BitVec.allOnes 8, BitVec.allOnes 7, BitVec.allOnes 1, BitVec.allOnes 16, 0#16, 0#16, BitVec.allOnes 16, BitVec.allOnes 16, BitVec.allOnes 16, BitVec.allOnes 16⟩ := by decide
    rw [e1, e2, Fields.toWord_and, Fields.toWord_inj]
    simp only [Fields.and, ha, hz, Fields.mk.injEq]
    simp [Fields.unusedClear, Op.usage, Op.code, and_assoc]
  case setPoint =>
    have e1 : 0x12000000000000000000000000000000#128 = Fields.toWord ⟨0x12#8, 0#7, 0#1, 0#16, 0#16, 0#16, 0#16, 0#16, 0#16, 0#16⟩ := by decide
    have e2 : 0xFFFFFFFF00000000FFFFFFFFFFFFFFFF#128 =
      Fields.toWord ⟨BitVec.allOnes 8, BitVec.allOnes 7, BitVec.allOnes 1, BitVec.allOnes 16, 0#16, 0#16, BitVec.allOnes 16, BitVec.allOnes 16, BitVec.allOnes 16, BitVec.allOnes 16⟩ := by decide
    rw [e1, e2, Fields.toWord_and, Fields.toWord_inj]
    simp only [Fields.and, ha, hz, Fields.mk.injEq]
    simp [Fields.unusedClear, Op.usage, Op.code, and_assoc]
  case setAddrWindow =>
    have e1 : 0x13000000000000000000000000000000#128 = Fields.toWord ⟨0x13#8, 0#7, 0#1, 0#16, 0#16, 0#16, 0#16, 0#16, 0#16, 0#16⟩ := by decide
    have e2 : 0xFFFFFFFF0000000000000000FFFFFFFF#128 =
      Fields.toWord ⟨BitVec.allOnes 8, BitVec.allOnes 7, BitVec.allOnes 1, BitVec.allOnes 16, 0#16, 0#16, 0#16, 0#16, BitVec.allOnes 16, BitVec.allOnes 16⟩ := by decide
    rw [e1, e2, Fields.toWord_and, Fields.toWord_inj]
    simp only [Fields.and, ha, hz, Fields.mk.injEq]
    simp [Fields.unusedClear, Op.usage, Op.code, and_assoc]
  case pushColor =>
    have e1 : 0x20000000000000000000000000000000#128 = Fields.toWord ⟨0x20#8, 0#7, 0#1, 0#16, 0#16, 0#16, 0#16, 0#16, 0#16, 0#16⟩ := by decide
    have e2 : 0xFFFF0000FFFFFFFFFFFFFFFFFFFFFFFF#128 =
      Fields.toWord ⟨BitVec.allOnes 8, BitVec.allOnes 7, BitVec.allOnes 1, 0#16, BitVec.allOnes 16, BitVec.allOnes 16, BitVec.allOnes 16, BitVec.allOnes 16, BitVec.allOnes 16, BitVec.allOnes 16⟩ := by decide
    rw [e1, e2, Fields.toWord_and, Fields.toWord_inj]
    simp only [Fields.and, ha, hz, Fields.mk.injEq]
    simp [Fields.unusedClear, Op.usage, Op.code, and_assoc]
  case pushColors =>
    have e1 : 0x21000000000000000000000000000000#128 = Fields.toWord ⟨0x21#8, 0#7, 0#1, 0#16, 0#16, 0#16, 0#16, 0#16, 0#16, 0#16⟩ := by decide
    have e2 : 0xFFFEFFFF000000000000FFFFFFFFFFFF#128 =
      Fields.toWord ⟨BitVec.allOnes 8, BitVec.allOnes 7, 0#1, BitVec.allOnes 16, 0#16, 0#16, 0#16, BitVec.allOnes 16, BitVec.allOnes 16, BitVec.allOnes 16⟩ := by decide
    rw [e1, e2, Fields.toWord_and, Fields.toWord_inj]
    simp only [Fields.and, ha, hz, Fields.mk.injEq]
    simp [Fields.unusedClear, Op.usage, Op.code, and_assoc]
  case flood =>
    have e1 : 0x22000000000000000000000000000000#128 = Fields.toWord ⟨0x22#8, 0#7, 0#1, 0#16, 0#16, 0#16, 0#16, 0#16, 0#16, 0#16⟩ := by decide
    have e2 : 0xFFFF000000000000FFFFFFFFFFFFFFFF#128 =
      Fields.toWord ⟨BitVec.allOnes 8, BitVec.allOnes 7, BitVec.allOnes 1, 0#16, 0#16, 0#16, BitVec.allOnes 16, BitVec.allOnes 16, BitVec.allOnes 16, BitVec.allOnes 16⟩ := by decide
    rw [e1, e2, Fields.toWord_and, Fields.toWord_inj]
    simp only [Fields.and, ha, hz, Fields.mk.injEq]
    simp [Fields.unusedClear, Op.usage, Op.code, and_assoc]
  case maskingOn =>
    have e1 : 0x30000000000000000000000000000000#128 = Fields.toWord ⟨0x30#8, 0#7, 0#1, 0#16, 0#16, 0#16, 0#16, 0#16, 0#16, 0#16⟩ := by decide
    have e2 : 0xFFFFFFFFFFFFFFFFFFFFFFFFFFFFFFFF#128 =
      Fields.toWord ⟨BitVec.allOnes 8, BitVec.allOnes 7, BitVec.allOnes 1, BitVec.allOnes 16, BitVec.allOnes 16, BitVec.allOnes 16, BitVec.allOnes 16, BitVec.allOnes 16, BitVec.allOnes 16, BitVec.allOnes 16⟩ := by decide
    rw [e1, e2, Fields.toWord_and, Fields.toWord_inj]
    simp only [Fields.and, ha, Fields.mk.injEq]
    simp [Fields.unusedClear, Op.usage, Op.code, and_assoc]
  case maskingOff =>
    have e1 : 0x31000000000000000000000000000000#128 = Fields.toWord ⟨0x31#8, 0#7, 0#1, 0#16, 0#16, 0#16, 0#16, 0#16, 0#16, 0#16⟩ := by decide
    have e2 : 0xFFFFFFFFFFFFFFFFFFFFFFFFFFFFFFFF#128 =
      Fields.toWord ⟨BitVec.allOnes 8, BitVec.allOnes 7, BitVec.allOnes 1, BitVec.allOnes 16, BitVec.allOnes 16, BitVec.allOnes 16, BitVec.allOnes 16, BitVec.allOnes 16, BitVec.allOnes 16, BitVec.allOnes 16⟩ := by decide
    rw [e1, e2, Fields.toWord_and, Fields.toWord_inj]
    simp only [Fields.and, ha, Fields.mk.injEq]
    simp [Fields.unusedClear, Op.usage, Op.code, and_assoc]
  case flipMask =>
    have e1 : 0x32000000000000000000000000000000#128 = Fields.toWord ⟨0x32#8, 0#7, 0#1, 0#16, 0#16, 0#16, 0#16, 0#16, 0#16, 0#16⟩ := by decide
    have e2 : 0xFFFFFFFFFFFFFFFFFFFFFFFFFFFFFFFF#128 =
      Fields.toWord ⟨BitVec.allOnes 8, BitVec.allOnes 7, BitVec.allOnes 1, BitVec.allOnes 16, BitVec.allOnes 16, BitVec.allOnes 16, BitVec.allOnes 16, BitVec.allOnes 16, BitVec.allOnes 16, BitVec.allOnes 16⟩ := by decide
    rw [e1, e2, Fields.toWord_and, Fields.toWord_inj]
    simp only [Fields.and, ha, Fields.mk.injEq]
    simp [Fields.unusedClear, Op.usage, Op.code, and_assoc]
  case overdrawOn =>
    have e1 : 0x33000000000000000000000000000000#128 = Fields.toWord ⟨0x33#8, 0#7, 0#1, 0#16, 0#16, 0#16, 0#16, 0#16, 0#16, 0#16⟩ := by decide
    have e2 : 0xFFFFFFFFFFFFFFFFFFFFFFFFFFFFFFFF#128 =
      Fields.toWord ⟨BitVec.allOnes 8, BitVec.allOnes 7, BitVec.allOnes 1, BitVec.allOnes 16, BitVec.allOnes 16, BitVec.allOnes 16, BitVec.allOnes 16, BitVec.allOnes 16, BitVec.allOnes 16, BitVec.allOnes 16⟩ := by decide
    rw [e1, e2, Fields.toWord_and, Fields.toWord_inj]
    simp only [Fields.and, ha, Fields.mk.injEq]
    simp [Fields.unusedClear, Op.usage, Op.code, and_assoc]
  case overdrawOff =>
    have e1 : 0x34000000000000000000000000000000#128 = Fields.toWord ⟨0x34#8, 0#7, 0#1, 0#16, 0#16, 0#16, 0#16, 0#16, 0#16, 0#16⟩ := by decide
    have e2 : 0xFFFFFFFFFFFFFFFFFFFFFFFFFFFFFFFF#128 =
      Fields.toWord ⟨BitVec.allOnes 8, BitVec.allOnes 7, BitVec.allOnes 1, BitVec.allOnes 16, BitVec.allOnes 16, BitVec.allOnes 16, BitVec.allOnes 16, BitVec.allOnes 16, BitVec.allOnes 16, BitVec.allOnes 16⟩ := by decide
    rw [e1, e2, Fields.toWord_and, Fields.toWord_inj]
    simp only [Fields.and, ha, Fields.mk.injEq]
    simp [Fields.unusedClear, Op.usage, Op.code, and_assoc]
  case setBackgroundColor =>
    have e1 : 0x35000000000000000000000000000000#128 = Fields.toWord ⟨0x35#8, 0#7, 0#1, 0#16, 0#16, 0#16, 0#16, 0#16, 0#16, 0#16⟩ := by decide
    have e2 : 0xFFFF0000FFFFFFFFFFFFFFFFFFFFFFFF#128 =
      Fields.toWord ⟨BitVec.allOnes 8, BitVec.allOnes 7, BitVec.allOnes 1, 0#16, BitVec.allOnes 16, BitVec.allOnes 16, BitVec.allOnes 16, BitVec.allOnes 16, BitVec.allOnes 16, BitVec.allOnes 16⟩ := by decide
    rw [e1, e2, Fields.toWord_and, Fields.toWord_inj]
    simp only [Fields.and, ha, hz, Fields.mk.injEq]
    simp [Fields.unusedClear, Op.usage, Op.code, and_assoc]
  case setForegroundColor =>
    have e1 : 0x36000000000000000000000000000000#128 = Fields.toWord ⟨0x36#8, 0#7, 0#1, 0#16, 0#16, 0#16, 0#16, 0#16, 0#16, 0#16⟩ := by decide
    have e2 : 0xFFFF0000FFFFFFFFFFFFFFFFFFFFFFFF#128 =
      Fields.toWord ⟨BitVec.allOnes 8, BitVec.allOnes 7, BitVec.allOnes 1, 0#16, BitVec.allOnes 16, BitVec.allOnes 16, BitVec.allOnes 16, BitVec.allOnes 16, BitVec.allOnes 16, BitVec.allOnes 16⟩ := by decide
    rw [e1, e2, Fields.toWord_and, Fields.toWord_inj]
    simp only [Fields.and, ha, hz, Fields.mk.injEq]
    simp [Fields.unusedClear, Op.usage, Op.code, and_assoc]
  case drawPixel =>
    have e1 : 0x40000000000000000000000000000000#128 = Fields.toWord ⟨0x40#8, 0#7, 0#1, 0#16, 0#16, 0#16, 0#16, 0#16, 0#16, 0#16⟩ := by decide
    have e2 : 0xFFFF000000000000FFFFFFFFFFFFFFFF#128 =
      Fields.toWord ⟨BitVec.allOnes 8, BitVec.allOnes 7, BitVec.allOnes 1, 0#16, 0#16, 0#16, BitVec.allOnes 16, BitVec.allOnes 16, BitVec.allOnes 16, BitVec.allOnes 16⟩ := by decide
    rw [e1, e2, Fields.toWord_and, Fields.toWord_inj]
    simp only [Fields.and, ha, hz, Fields.mk.injEq]
    simp [Fields.unusedClear, Op.usage, Op.code, and_assoc]
  case drawLine =>
    have e1 : 0x41000000000000000000000000000000#128 = Fields.toWord ⟨0x41#8, 0#7, 0#1, 0#16, 0#16, 0#16, 0#16, 0#16, 0#16, 0#16⟩ := by decide
    have e2 : 0xFFFF00000000000000000000FFFFFFFF#128 =
      Fields.toWord ⟨BitVec.allOnes 8, BitVec.allOnes 7, BitVec.allOnes 1, 0#16, 0#16, 0#16, 0#16, 0#16, BitVec.allOnes 16, BitVec.allOnes 16⟩ := by decide
    rw [e1, e2, Fields.toWord_and, Fields.toWord_inj]
    simp only [Fields.and, ha, hz, Fields.mk.injEq]
    simp [Fields.unusedClear, Op.usage, Op.code, and_assoc]
  case drawFastHLine =>
    have e1 : 0x42000000000000000000000000000000#128 = Fields.toWord ⟨0x42#8, 0#7, 0#1, 0#16, 0#16, 0#16, 0#16, 0#16, 0#16, 0#16⟩ := by decide
    have e2 : 0xFFFF0000000000000000FFFFFFFFFFFF#128 =
      Fields.toWord ⟨BitVec.allOnes 8, BitVec.allOnes 7, BitVec.allOnes 1, 0#16, 0#16, 0#16, 0#16, BitVec.allOnes 16, BitVec.allOnes 16, BitVec.allOnes 16⟩ := by decide
    rw [e1, e2, Fields.toWord_and, Fields.toWord_inj]
    simp only [Fields.and, ha, hz, Fields.mk.injEq]
    simp [Fields.unusedClear, Op.usage, Op.code, and_assoc]
  case drawFastVLine =>
    have e1 : 0x43000000000000000000000000000000#128 = Fields.toWord ⟨0x43#8, 0#7, 0#1, 0#16, 0#16, 0#16, 0#16, 0#16, 0#16, 0#16⟩ := by decide
    have e2 : 0xFFFF0000000000000000FFFFFFFFFFFF#128 =
      Fields.toWord ⟨BitVec.allOnes 8, BitVec.allOnes 7, BitVec.allOnes 1, 0#16, 0#16, 0#16, 0#16, BitVec.allOnes 16, BitVec.allOnes 16, BitVec.allOnes 16⟩ := by decide
    rw [e1, e2, Fields.toWord_and, Fields.toWord_inj]
    simp only [Fields.and, ha, hz, Fields.mk.injEq]
    simp [Fields.unusedClear, Op.usage, Op.code, and_assoc]
  case fillRect =>
    have e1 : 0x44000000000000000000000000000000#128 = Fields.toWord ⟨0x44#8, 0#7, 0#1, 0#16, 0#16, 0#16, 0#16, 0#16, 0#16, 0#16⟩ := by decide
    have e2 : 0xFFFF00000000000000000000FFFFFFFF#128 =
      Fields.toWord ⟨BitVec.allOnes 8, BitVec.allOnes 7, BitVec.allOnes 1, 0#16, 0#16, 0#16, 0#16, 0#16, BitVec.allOnes 16, BitVec.allOnes 16⟩ := by decide
    rw [e1, e2, Fields.toWord_and, Fields.toWord_inj]
    simp only [Fields.and, ha, hz, Fields.mk.injEq]
    simp [Fields.unusedClear, Op.usage, Op.code, and_assoc]
  case fillScreen =>
    have e1 : 0x45000000000000000000000000000000#128 = Fields.toWord ⟨0x45#8, 0#7, 0#1, 0#16, 0#16, 0#16, 0#16, 0#16, 0#16, 0#16⟩ := by decide
    have e2 : 0xFFFF0000FFFFFFFFFFFFFFFFFFFFFFFF#128 =
      Fields.toWord ⟨BitVec.allOnes 8, BitVec.allOnes 7, BitVec.allOnes 1, 0#16, BitVec.allOnes 16, BitVec.allOnes 16, BitVec.allOnes 16, BitVec.allOnes 16, BitVec.allOnes 16, BitVec.allOnes 16⟩ := by decide
    rw [e1, e2, Fields.toWord_and, Fields.toWord_inj]
    simp only [Fields.and, ha, hz, Fields.mk.injEq]
    simp [Fields.unusedClear, Op.usage, Op.code, and_assoc]
  case readPixel =>
    have e1 : 0x46000000000000000000000000000000#128 = Fields.toWord ⟨0x46#8, 0#7, 0#1, 0#16, 0#16, 0#16, 0#16, 0#16, 0#16, 0#16⟩ := by decide
    have e2 : 0xFFFFFFFF00000000FFFFFFFFFFFFFFFF#128 =
      Fields.toWord ⟨BitVec.allOnes 8, BitVec.allOnes 7, BitVec.allOnes 1, BitVec.allOnes 16, 0#16, 0#16, BitVec.allOnes 16, BitVec.allOnes 16, BitVec.allOnes 16, BitVec.allOnes 16⟩ := by decide
    rw [e1, e2, Fields.toWord_and, Fields.toWord_inj]
    simp only [Fields.and, ha, hz, Fields.mk.injEq]
    simp [Fields.unusedClear, Op.usage, Op.code, and_assoc]
  case fastFlood =>
    have e1 : 0x50000000000000000000000000000000#128 = Fields.toWord ⟨0x50#8, 0#7, 0#1, 0#16, 0#16, 0#16, 0#16, 0#16, 0#16, 0#16⟩ := by decide
    have e2 : 0xFFFFFF0000000000FFFFFFFFFFFFFFFF#128 =
      Fields.toWord ⟨BitVec.allOnes 8, BitVec.allOnes 7, BitVec.allOnes 1, 0xFF00#16, 0#16, 0#16, BitVec.allOnes 16, BitVec.allOnes 16, BitVec.allOnes 16, BitVec.allOnes 16⟩ := by decide
    rw [e1, e2, Fields.toWord_and, Fields.toWord_inj]
    simp only [Fields.and, ha, hz, Fields.mk.injEq, hi8_zero_iff]
    simp [Fields.unusedClear, Op.usage, Op.code, and_assoc]
  case fastDrawPixel =>
    have e1 : 0x51000000000000000000000000000000#128 = Fields.toWord ⟨0x51#8, 0#7, 0#1, 0#16, 0#16, 0#16, 0#16, 0#16, 0#16, 0#16⟩ := by decide
    have e2 : 0xFFFFFF0000000000FFFFFFFFFFFFFFFF#128 =
      Fields.toWord ⟨BitVec.allOnes 8, BitVec.allOnes 7, BitVec.allOnes 1, 0xFF00#16, 0#16, 0#16, BitVec.allOnes 16, BitVec.allOnes 16, BitVec.allOnes 16, BitVec.allOnes 16⟩ := by decide
    rw [e1, e2, Fields.toWord_and, Fields.toWord_inj]
    simp only [Fields.and, ha, hz, Fields.mk.injEq, hi8_zero_iff]
    simp [Fields.unusedClear, Op.usage, Op.code, and_assoc]
  case fastDrawLine =>
    have e1 : 0x52000000000000000000000000000000#128 = Fields.toWord ⟨0x52#8, 0#7, 0#1, 0#16, 0#16, 0#16, 0#16, 0#16, 0#16, 0#16⟩ := by decide
    have e2 : 0xFFFFFF000000000000000000FFFFFFFF#128 =
      Fields.toWord ⟨BitVec.allOnes 8, BitVec.allOnes 7, BitVec.allOnes 1, 0xFF00#16, 0#16, 0#16, 0#16, 0#16, BitVec.allOnes 16, BitVec.allOnes 16⟩ := by decide
    rw [e1, e2, Fields.toWord_and, Fields.toWord_inj]
    simp only [Fields.and, ha, hz, Fields.mk.injEq, hi8_zero_iff]
    simp [Fields.unusedClear, Op.usage, Op.code, and_assoc]
  case fastDrawFastHLine =>
    have e1 : 0x53000000000000000000000000000000#128 = Fields.toWord ⟨0x53#8, 0#7, 0#1, 0#16, 0#16, 0#16, 0#16, 0#16, 0#16, 0#16⟩ := by decide
    have e2 : 0xFFFFFF00000000000000FFFFFFFFFFFF#128 =
      Fields.toWord ⟨BitVec.allOnes 8, BitVec.allOnes 7, BitVec.allOnes 1, 0xFF00#16, 0#16, 0#16, 0#16, BitVec.allOnes 16, BitVec.allOnes 16, BitVec.allOnes 16⟩ := by decide
    rw [e1, e2, Fields.toWord_and, Fields.toWord_inj]
    simp only [Fields.and, ha, hz, Fields.mk.injEq, hi8_zero_iff]
    simp [Fields.unusedClear, Op.usage, Op.code, and_assoc]
  case fastDrawFastVLine =>
    have e1 : 0x54000000000000000000000000000000#128 = Fields.toWord ⟨0x54#8, 0#7, 0#1, 0#16, 0#16, 0#16, 0#16, 0#16, 0#16, 0#16⟩ := by decide
    have e2 : 0xFFFFFF00000000000000FFFFFFFFFFFF#128 =
      Fields.toWord ⟨BitVec.allOnes 8, BitVec.allOnes 7, BitVec.allOnes 1, 0xFF00#16, 0#16, 0#16, 0#16, BitVec.allOnes 16, BitVec.allOnes 16, BitVec.allOnes 16⟩ := by decide
    rw [e1, e2, Fields.toWord_and, Fields.toWord_inj]
    simp only [Fields.and, ha, hz, Fields.mk.injEq, hi8_zero_iff]
    simp [Fields.unusedClear, Op.usage, Op.code, and_assoc]
  case fastFillRect =>
    have e1 : 0x55000000000000000000000000000000#128 = Fields.toWord ⟨0x55#8, 0#7, 0#1, 0#16, 0#16, 0#16, 0#16, 0#16, 0#16, 0#16⟩ := by decide
    have e2 : 0xFFFFFF000000000000000000FFFFFFFF#128 =
      Fields.toWord ⟨BitVec.allOnes 8, BitVec.allOnes 7, BitVec.allOnes 1, 0xFF00#16, 0#16, 0#16, 0#16, 0#16, BitVec.allOnes 16, BitVec.allOnes 16⟩ := by decide
    rw [e1, e2, Fields.toWord_and, Fields.toWord_inj]
    simp only [Fields.and, ha, hz, Fields.mk.injEq, hi8_zero_iff]
    simp [Fields.unusedClear, Op.usage, Op.code, and_assoc]
  case fastFillScreen =>
    have e1 : 0x56000000000000000000000000000000#128 = Fields.toWord ⟨0x56#8, 0#7, 0#1, 0#16, 0#16, 0#16, 0#16, 0#16, 0#16, 0#16⟩ := by decide
    have e2 : 0xFFFFFF00FFFFFFFFFFFFFFFFFFFFFFFF#128 =
      Fields.toWord ⟨BitVec.allOnes 8, BitVec.allOnes 7, BitVec.allOnes 1, 0xFF00#16, BitVec.allOnes 16, BitVec.allOnes 16, BitVec.allOnes 16, BitVec.allOnes 16, BitVec.allOnes 16, BitVec.allOnes 16⟩ := by decide
    rw [e1, e2, Fields.toWord_and, Fields.toWord_inj]
    simp only [Fields.and, ha, Fields.mk.injEq, hi8_zero_iff]
    simp [Fields.unusedClear, Op.usage, Op.code, and_assoc]
  case fastXorFlood =>
    have e1 : 0x57000000000000000000000000000000#128 = Fields.toWord ⟨0x57#8, 0#7, 0#1, 0#16, 0#16, 0#16, 0#16, 0#16, 0#16, 0#16⟩ := by decide
    have e2 : 0xFFFFFF0000000000FFFFFFFFFFFFFFFF#128 =
      Fields.toWord ⟨BitVec.allOnes 8, BitVec.allOnes 7, BitVec.allOnes 1, 0xFF00#16, 0#16, 0#16, BitVec.allOnes 16, BitVec.allOnes 16, BitVec.allOnes 16, BitVec.allOnes 16⟩ := by decide
    rw [e1, e2, Fields.toWord_and, Fields.toWord_inj]
    simp only [Fields.and, ha, hz, Fields.mk.injEq, hi8_zero_iff]
    simp [Fields.unusedClear, Op.usage, Op.code, and_assoc]
  case fastXorRect =>
    have e1 : 0x58000000000000000000000000000000#128 = Fields.toWord ⟨0x58#8, 0#7, 0#1, 0#16, 0#16, 0#16, 0#16, 0#16, 0#16, 0#16⟩ := by decide
    have e2 : 0xFFFFFF000000000000000000FFFFFFFF#128 =
      Fields.toWord ⟨BitVec.allOnes 8, BitVec.allOnes 7, BitVec.allOnes 1, 0xFF00#16, 0#16, 0#16, 0#16, 0#16, BitVec.allOnes 16, BitVec.allOnes 16⟩ := by decide
    rw [e1, e2, Fields.toWord_and, Fields.toWord_inj]
    simp only [Fields.and, ha, hz, Fields.mk.injEq, hi8_zero_iff]
    simp [Fields.unusedClear, Op.usage, Op.code, and_assoc]
  case fastFillTriangle =>
    have e1 : 0x59000000000000000000000000000000#128 = Fields.toWord ⟨0x59#8, 0#7, 0#1, 0#16, 0#16, 0#16, 0#16, 0#16, 0#16, 0#16⟩ := by decide
    have e2 : 0xFFFFFF00000000000000000000000000#128 =
      Fields.toWord ⟨BitVec.allOnes 8, BitVec.allOnes 7, BitVec.allOnes 1, 0xFF00#16, 0#16, 0#16, 0#16, 0#16, 0#16, 0#16⟩ := by decide
    rw [e1, e2, Fields.toWord_and, Fields.toWord_inj]
    simp only [Fields.and, ha, hz, Fields.mk.injEq, hi8_zero_iff]
    simp [Fields.unusedClear, Op.usage, Op.code, and_assoc]
  case fastDrawTriangle =>
    have e1 : 0x5A000000000000000000000000000000#128 = Fields.toWord ⟨0x5A#8, 0#7, 0#1, 0#16, 0#16, 0#16, 0#16, 0#16, 0#16, 0#16⟩ := by decide
    have e2 : 0xFFFFFF00000000000000000000000000#128 =
      Fields.toWord ⟨BitVec.allOnes 8, BitVec.allOnes 7, BitVec.allOnes 1, 0xFF00#16, 0#16, 0#16, 0#16, 0#16, 0#16, 0#16⟩ := by decide
    rw [e1, e2, Fields.toWord_and, Fields.toWord_inj]
    simp only [Fields.and, ha, hz, Fields.mk.injEq, hi8_zero_iff]
    simp [Fields.unusedClear, Op.usage, Op.code, and_assoc]

/-- A row's `match` and `mask` test exactly its `op` and its unused bits (R105). -/
theorem selects_ofWord (m : Op) (w : Descriptor) : m.selects w = ((Fields.ofWord w).op == m.code && (Fields.ofWord w).unusedClear m.usage) := by
  rw [← selects_toWord, Fields.toWord_ofWord]
theorem selects_decode {m : Op} {w : Descriptor} (h : m.selects w = true) : decode (.opd w) = .ok (m.build (Fields.ofWord w)) := by
  rw [selects_ofWord, Bool.and_eq_true, beq_iff_eq] at h
  simp [decode, decodeOpd, h.1, Op.ofCode_code, h.2]
theorem not_selects_decode {w : Descriptor} (h : ∀ m : Op, m.selects w = false) : ∃ e, decode (.opd w) = .error e := by
  simp only [decode, decodeOpd]
  split
  · exact ⟨_, rfl⟩
  · rename_i m hm
    have hc := Op.code_of_ofCode hm
    have := h m
    rw [selects_ofWord, hc] at this
    simp at this
    simp [this]

end Sys2Proof
end

