-- ==== Sys2Proof/Laws/Frames.lean ====
section
/-! SUPPORT. What every piece of every operation keeps, said once (`Carries`): later proofs about all operations cite it and
unfold no operation. -/

namespace Sys2Proof.Machine

/-- `t` differs from `s` only in what a piece of an operation may write, and whatever bus cycles lie between them appended
their frames to the log and were handled by the panel. `x` = the piece does not touch `xbuf`. -/
structure Carries (x : Bool) (s t : State) : Prop where
  doMasking : t.doMasking = s.doMasking
  doOverdraw : t.doOverdraw = s.doOverdraw
  maskFlag : t.maskFlag = s.maskFlag
  backgroundColor : t.backgroundColor = s.backgroundColor
  foregroundColor : t.foregroundColor = s.foregroundColor
  xbuf : x = true → t.xbuf = s.xbuf
  result : t.result = s.result
  errIllegal : t.errIllegal = s.errIllegal
  pixMem : t.pixMem = s.pixMem
  readDummyReads : t.readDummyReads = s.readDummyReads
  targetClockHz : t.targetClockHz = s.targetClockHz
  settleCycles : t.settleCycles = s.settleCycles
  hostQueue : t.hostQueue = s.hostQueue
  hostData : t.hostData = s.hostData
  busDir : s.busDir = .write → t.busDir = .write
  busPhase : s.busPhase = .idle → t.busPhase = .idle
  wr : s.wr = false → t.wr = false
  rd : s.rd = false → t.rd = false
  sent : ∃ fs, t.txlog = s.txlog ++ fs ∧ t.panel = s.panel.onFrames s.readDummyReads fs

theorem Carries.refl (x : Bool) (s : State) : Carries x s s :=
  ⟨rfl, rfl, rfl, rfl, rfl, fun _ => rfl, rfl, rfl, rfl, rfl, rfl, rfl, rfl, rfl, id, id, id, id, [], by simp, rfl⟩

theorem Carries.trans {x : Bool} {s t u : State} (h : Carries x s t) (k : Carries x t u) : Carries x s u := by
  refine ⟨k.doMasking.trans h.doMasking, k.doOverdraw.trans h.doOverdraw, k.maskFlag.trans h.maskFlag,
    k.backgroundColor.trans h.backgroundColor, k.foregroundColor.trans h.foregroundColor,
    fun e => (k.xbuf e).trans (h.xbuf e), k.result.trans h.result, k.errIllegal.trans h.errIllegal,
    k.pixMem.trans h.pixMem, k.readDummyReads.trans h.readDummyReads, k.targetClockHz.trans h.targetClockHz,
    k.settleCycles.trans h.settleCycles, k.hostQueue.trans h.hostQueue, k.hostData.trans h.hostData,
    fun e => k.busDir (h.busDir e), fun e => k.busPhase (h.busPhase e), fun e => k.wr (h.wr e), fun e => k.rd (h.rd e), ?_⟩
  obtain ⟨fs, h1, h2⟩ := h.sent
  obtain ⟨gs, k1, k2⟩ := k.sent
  exact ⟨fs ++ gs, by rw [k1, h1, List.append_assoc], by rw [k2, h2, h.readDummyReads, PanelView.onFrames_append]⟩

theorem Carries.weaken {s t : State} (h : Carries true s t) (x : Bool) : Carries x s t :=
  { h with xbuf := fun _ => h.xbuf rfl }

/-- The pieces that write only registers an operation may write. -/
theorem carries_of_eq {x : Bool} {s t : State}
    (h : t = { s with
      primState := t.primState, cs := t.cs, dout := t.dout, dcx := t.dcx, freeDraws := t.freeDraws
      winX1 := t.winX1, winX2 := t.winX2, winY1 := t.winY1, winY2 := t.winY2
      winColSet := t.winColSet, winRowSet := t.winRowSet, rowMemo := t.rowMemo, colMemo := t.colMemo }) :
    Carries x s t := by
  rw [h]
  exact ⟨rfl, rfl, rfl, rfl, rfl, fun _ => rfl, rfl, rfl, rfl, rfl, rfl, rfl, rfl, rfl, id, id, id, id, [], by simp, rfl⟩

theorem carries_sent {x : Bool} (fs : List Frame) (d : Byte) (c : Bool) (s : State) : Carries x s (sent fs d c s) :=
  ⟨rfl, rfl, rfl, rfl, rfl, fun _ => rfl, rfl, rfl, rfl, rfl, rfl, rfl, rfl, rfl, id, fun _ => rfl, fun _ => rfl, id, fs,
    rfl, rfl⟩

theorem carries_received {x : Bool} (fs : List Frame) (n : Nat) (s : State) : Carries x s (received fs n s) :=
  ⟨rfl, rfl, rfl, rfl, rfl, fun _ => rfl, rfl, rfl, rfl, rfl, rfl, rfl, rfl, rfl, fun _ => rfl, fun _ => rfl, id,
    fun _ => rfl, fs, rfl, rfl⟩

theorem carries_setPrim {x : Bool} (p : PrimState) (s : State) : Carries x s (setPrim p s) := carries_of_eq rfl
theorem carries_finish {x : Bool} (s : State) : Carries x s (finish s) := carries_of_eq rfl
theorem carries_memoClearAll {x : Bool} (s : State) : Carries x s (memoClearAll s) := carries_of_eq rfl
theorem carries_memoRow {x : Bool} (a b n : Nat) (k : Color) (s : State) : Carries x s (memoRow a b n k s) :=
  carries_of_eq rfl
theorem carries_memoCol {x : Bool} (a b n : Nat) (k : Color) (s : State) : Carries x s (memoCol a b n k s) :=
  carries_of_eq rfl
theorem carries_memoPixel {x : Bool} (a b : Nat) (s : State) : Carries x s (memoPixel a b s) := carries_of_eq rfl
theorem carries_countDraw {x : Bool} (s : State) : Carries x s (countDraw s) := carries_of_eq rfl
theorem carries_fillXbuf (bs : List Byte) (s : State) : Carries false s (fillXbuf bs s) :=
  ⟨rfl, rfl, rfl, rfl, rfl, fun e => absurd e (by decide), rfl, rfl, rfl, rfl, rfl, rfl, rfl, rfl, id, id, id, id, [],
    by simp, rfl⟩

theorem carries_busWrite {x : Bool} (k : WriteKind) (b : Byte) (s : State) : Carries x s (busWrite k b s) :=
  busWrite_eq_sent k b s ▸ carries_sent _ _ _ s
theorem carries_busRead {x : Bool} (s : State) : Carries x s (busRead s) := carries_received _ _ s
theorem carries_busPulse2 {x : Bool} (s : State) : Carries x s (busPulse2 s) := busPulse2_eq_sent s ▸ carries_sent _ _ _ s

theorem carries_emitAll {x : Bool} (fs : List (WriteKind × Byte)) (s : State) : Carries x s (emitAll fs s) := by
  induction fs generalizing s with
  | nil => exact .refl x s
  | cons f fs ih => exact (carries_busWrite f.1 f.2 s).trans (ih _)

theorem carries_busReads {x : Bool} (n : Nat) (s : State) : Carries x s (busReads n s).2 := by
  induction n generalizing s with
  | zero => exact .refl x s
  | succ n ih => exact (carries_busRead s).trans (ih _)

/-- Pieces done one after the other over a list. -/
theorem carries_foldl {α : Type} {x : Bool} (f : State → α → State) (h : ∀ s a, Carries x s (f s a)) (l : List α)
    (s : State) : Carries x s (l.foldl f s) := by
  induction l generalizing s with
  | nil => exact .refl x s
  | cons a l ih => exact (h s a).trans (ih _)

theorem carries_winSet {x : Bool} (x1 y1 x2 y2 : Int) (s : State) : Carries x s (winSet x1 y1 x2 y2 s) := by
  rw [winSet_eq]
  exact (carries_sent _ _ _ s).trans (carries_of_eq rfl)

theorem carries_winCols {x : Bool} (x1 x2 : Int) (s : State) : Carries x s (winCols x1 x2 s) := by
  rw [winCols_eq]
  exact (carries_sent _ _ _ s).trans (carries_of_eq rfl)

theorem carries_winRows {x : Bool} (y1 y2 : Int) (s : State) : Carries x s (winRows y1 y2 s) := by
  rw [winRows_eq]
  exact (carries_sent _ _ _ s).trans (carries_of_eq rfl)

theorem carries_streamBegin {x : Bool} (s : State) : Carries x s (streamBegin s) :=
  (carries_busWrite _ _ s).trans (carries_setPrim _ _)

theorem carries_px16 {x : Bool} (k : Color) (s : State) : Carries x s (px16 k s) := carries_emitAll _ _

theorem carries_flood16 {x : Bool} (k : Color) (n : Nat) (s : State) : Carries x s (flood16 k n s) := by
  rw [flood16]
  split
  · exact .refl x s
  · exact (carries_streamBegin s).trans (carries_emitAll _ _)

theorem carries_flood8 {x : Bool} (v : Byte) (n : Nat) (s : State) : Carries x s (flood8 v n s) := by
  rw [flood8]
  split
  · exact .refl x s
  · exact (carries_streamBegin s).trans (carries_emitAll _ _)

theorem carries_readBegin {x : Bool} (s : State) : Carries x s (readBegin s) :=
  ((carries_busWrite _ _ s).trans (carries_setPrim _ _)).trans (carries_busReads _ _)

theorem carries_xorRun (m : Byte) (n : Nat) (s : State) : Carries false s (xorRun m n s) :=
  (((carries_readBegin s).trans (carries_busReads n _)).trans (carries_fillXbuf _ _)).trans
    ((carries_streamBegin _).trans (carries_emitAll _ _))

theorem carries_pushWords {x : Bool} (n : Nat) (addr : BitVec 32) (s : State) : Carries x s (pushWords n addr s) := by
  induction n generalizing addr s with
  | zero => exact .refl x s
  | succ n ih => exact ((carries_countDraw s).trans (carries_px16 _ _)).trans (ih _ _)

theorem carries_rawCommand {x : Bool} (b : Byte) (s : State) : Carries x s (rawCommand b s) := by
  refine (carries_busWrite .cmd b s).trans (carries_of_eq ?_)
  dsimp only [rawCommand]
  split <;> split <;> rfl

theorem carries_pixel16 {x : Bool} (a b : Int) (k : Color) (s : State) : Carries x s (pixel16 a b k s) := by
  rw [pixel16]
  split
  · exact (((carries_winSet _ _ _ _ s).trans (carries_streamBegin _)).trans (carries_px16 _ _)).trans
      (carries_memoPixel _ _ _)
  · exact .refl x s

theorem carries_hrun {x : Bool} (a b n : Nat) (k : Color) (s : State) : Carries x s (hrun a b n k s) := by
  rw [hrun]
  split
  · exact .refl x s
  · exact ((carries_winSet _ _ _ _ s).trans (carries_flood16 _ _ _)).trans (carries_memoRow _ _ _ _ _)

theorem carries_vrun {x : Bool} (a b n : Nat) (k : Color) (s : State) : Carries x s (vrun a b n k s) := by
  rw [vrun]
  split
  · exact .refl x s
  · exact ((carries_winSet _ _ _ _ s).trans (carries_flood16 _ _ _)).trans (carries_memoCol _ _ _ _ _)

theorem carries_hline16 {x : Bool} (a b w : Int) (k : Color) (s : State) : Carries x s (hline16 a b w k s) := by
  rw [hline16]
  split
  · exact .refl x s
  · exact carries_hrun _ _ _ _ s

theorem carries_vline16 {x : Bool} (a b h : Int) (k : Color) (s : State) : Carries x s (vline16 a b h k s) := by
  rw [vline16]
  split
  · exact .refl x s
  · exact carries_vrun _ _ _ _ s

theorem carries_stroke16 {x : Bool} (k : Color) (s : State) (z : Stroke) : Carries x s (stroke16 k s z) := by
  cases z with
  | h a b w => exact carries_hline16 a b w k s
  | v a b h => exact carries_vline16 a b h k s
  | px a b => exact carries_pixel16 a b k s

theorem carries_fillFullWidth {x : Bool} (y h : Nat) (k : Color) (s : State) : Carries x s (fillFullWidth y h k s) := by
  refine ((carries_winSet 0 y 239 ((y : Int) + h - 1) s).trans (carries_flood16 k (240 * h) _)).trans ?_
  exact (carries_foldl _ (fun t j => carries_of_eq rfl) _ _).trans (carries_of_eq rfl)

theorem carries_fillRect16 {x : Bool} (a b w h : Int) (k : Color) (s : State) :
    Carries x s (fillRect16 a b w h k s) := by
  rw [fillRect16]
  split
  · exact .refl x s
  · split
    · exact carries_fillFullWidth _ _ _ s
    · exact carries_foldl _ (fun t j => carries_hrun _ _ _ _ t) _ s

theorem carries_fpixel {x : Bool} (a b : Int) (v : Byte) (s : State) : Carries x s (fpixel a b v s) := by
  rw [fpixel]
  split
  · exact ((carries_winSet _ _ _ _ s).trans (carries_streamBegin _)).trans (carries_busWrite _ _ _)
  · exact .refl x s

theorem carries_fh {x : Bool} (a b w : Int) (v : Byte) (s : State) : Carries x s (fh a b w v s) := by
  rw [fh]
  split
  · exact .refl x s
  · exact (carries_winSet _ _ _ _ s).trans (carries_flood8 _ _ _)

theorem carries_fv {x : Bool} (a b h : Int) (v : Byte) (s : State) : Carries x s (fv a b h v s) := by
  rw [fv]
  split
  · exact .refl x s
  · exact (carries_winSet _ _ _ _ s).trans (carries_flood8 _ _ _)

theorem carries_stroke8 {x : Bool} (v : Byte) (s : State) (z : Stroke) : Carries x s (stroke8 v s z) := by
  cases z with
  | h a b w => exact carries_fh a b w v s
  | v a b h => exact carries_fv a b h v s
  | px a b => exact carries_fpixel a b v s

theorem carries_fillRect8 {x : Bool} (a b w h : Int) (v : Byte) (s : State) : Carries x s (fillRect8 a b w h v s) := by
  rw [fillRect8]
  split
  · exact .refl x s
  · split
    · exact (carries_winSet _ _ _ _ s).trans (carries_flood8 _ _ _)
    · exact carries_foldl _ (fun t j => (carries_winSet _ _ _ _ t).trans (carries_flood8 _ _ _)) _ s

theorem carries_xorRect8 (a b w h : Int) (m : Byte) (s : State) : Carries false s (xorRect8 a b w h m s) := by
  rw [xorRect8]
  split
  · exact .refl false s
  · exact carries_foldl _ (fun t j => (carries_winSet _ _ _ _ t).trans (carries_xorRun _ _ _)) _ s

theorem carries_fastEnd {x : Bool} (s t : State) : Carries x t (fastEnd s t) := by
  rw [fastEnd]
  split <;> exact carries_of_eq rfl

/-! ### Whole operations -/

/-- `s` with the registers of the compositing state, `result` and `err_illegal` of `t`: what is left to compare when an
operation has taken `s` to `t` and may have written those. -/
def withRegistersOf (t s : State) : State :=
  { s with
    doMasking := t.doMasking, doOverdraw := t.doOverdraw, maskFlag := t.maskFlag
    backgroundColor := t.backgroundColor, foregroundColor := t.foregroundColor
    result := t.result, errIllegal := t.errIllegal }

theorem Carries.withRegisters {x : Bool} {s t u : State} (h : Carries x s t) (hu : u = withRegistersOf u t) :
    Carries x (withRegistersOf u s) u := by
  rw [hu]
  exact ⟨rfl, rfl, rfl, rfl, rfl, h.xbuf, rfl, rfl, h.pixMem, h.readDummyReads, h.targetClockHz, h.settleCycles,
    h.hostQueue, h.hostData, h.busDir, h.busPhase, h.wr, h.rd, h.sent⟩

theorem Carries.registers {x : Bool} {s t : State} (h : Carries x s t) : Carries x (withRegistersOf t s) t :=
  h.withRegisters rfl

/-- The operations that write a register of the compositing state, `result` or `err_illegal`. -/
def writesRegister : Instr → Bool
  | .readData => true
  | .maskingOn => true
  | .maskingOff => true
  | .flipMask => true
  | .overdrawOn => true
  | .overdrawOff => true
  | .setBackgroundColor _ => true
  | .setForegroundColor _ => true
  | .readPixel _ _ => true
  | .fastXorFlood _ _ => true
  | _ => false

/-- Every other operation carries everything. -/
theorem carries_exec_plain (i : Instr) (s t : State) (hp : writesRegister i = false) (h : exec i s = .next t) :
    Carries (!isXor i) s t := by
  cases i <;> simp only [exec] at h
  case writeCommand b => cases h; exact (carries_rawCommand b s)
  case writeData b =>
    cases h
    exact (((carries_busWrite .dat b s).trans (carries_memoClearAll _)).trans (carries_finish _))
  case clockPulse =>
    cases h
    exact (((carries_busPulse2 s).trans (carries_memoClearAll _)).trans (carries_finish _))
  case setColumnWindow a b => cases h; exact ((carries_winCols a b s).trans (carries_finish _))
  case setRowWindow a b => cases h; exact ((carries_winRows a b s).trans (carries_finish _))
  case setPoint a b => cases h; exact ((carries_winSet a b a b s).trans (carries_finish _))
  case setAddrWindow a b c d => cases h; exact ((carries_winSet a b c d s).trans (carries_finish _))
  case pushColor k =>
    cases h
    exact ((((carries_px16 k s).trans (carries_setPrim _ _)).trans (carries_memoClearAll _)).trans
      (carries_finish _))
  case pushColors addr n f =>
    cases h
    rw [pushColors]
    split
    · exact Carries.refl _ s
    · refine ((Carries.trans ?_ (carries_pushWords n addr _)).trans (carries_setPrim _ _)).trans
        ((carries_memoClearAll _).trans (carries_finish _))
      cases f
      · exact .refl _ s
      · exact carries_streamBegin s
  case flood k n =>
    cases h
    rw [floodOp]
    split
    · exact Carries.refl _ s
    · exact (((carries_flood16 k n s).trans (carries_memoClearAll _)).trans (carries_finish _))
  case drawPixel a b k =>
    cases h
    exact ((carries_pixel16 a b _ s).trans ((carries_setPrim .idle _).trans (carries_finish _)))
  case drawLine a b c d k =>
    cases h
    exact ((carries_foldl _ (carries_stroke16 _) _ s).trans
      ((carries_setPrim .idle _).trans (carries_finish _)))
  case drawFastHLine a b w k =>
    cases h
    exact ((carries_hline16 a b w _ s).trans ((carries_setPrim .idle _).trans (carries_finish _)))
  case drawFastVLine a b w k =>
    cases h
    exact ((carries_vline16 a b w _ s).trans ((carries_setPrim .idle _).trans (carries_finish _)))
  case fillRect a b c d k =>
    cases h
    exact ((carries_fillRect16 a b c d _ s).trans ((carries_setPrim .idle _).trans (carries_finish _)))
  case fillScreen k =>
    cases h
    exact ((carries_fillRect16 0 0 240 320 _ s).trans ((carries_setPrim .idle _).trans (carries_finish _)))
  case fastFlood v n =>
    cases h
    rw [fastFloodOp]
    split
    · exact Carries.refl _ s
    · exact (((carries_flood8 v n s).trans (carries_memoClearAll _)).trans (carries_finish _))
  case fastDrawPixel a b v => cases h; exact ((carries_fpixel a b v s).trans (carries_fastEnd s _))
  case fastDrawLine a b c d v =>
    cases h
    exact ((carries_foldl _ (carries_stroke8 v) _ s).trans (carries_fastEnd s _))
  case fastDrawFastHLine a b w v => cases h; exact ((carries_fh a b w v s).trans (carries_fastEnd s _))
  case fastDrawFastVLine a b w v => cases h; exact ((carries_fv a b w v s).trans (carries_fastEnd s _))
  case fastFillRect a b c d v => cases h; exact ((carries_fillRect8 a b c d v s).trans (carries_fastEnd s _))
  case fastFillScreen v =>
    cases h
    exact ((carries_fillRect8 0 0 240 320 v s).trans (carries_fastEnd s _))
  case fastXorRect a b c d m => cases h; exact ((carries_xorRect8 a b c d m s).trans (carries_fastEnd s _))
  case fastFillTriangle a b c d e f v =>
    cases h
    exact ((carries_foldl _ (fun t sp => carries_fh _ _ _ v t) _ s).trans (carries_fastEnd s _))
  case fastDrawTriangle a b c d e f v =>
    cases h
    exact ((carries_foldl _ (carries_stroke8 v) _ s).trans (carries_fastEnd s _))
  case caset => cases h; exact (carries_rawCommand _ s)
  case paset => cases h; exact (carries_rawCommand _ s)
  case ramwr => cases h; exact (carries_rawCommand _ s)
  case ramrd => cases h; exact (carries_rawCommand _ s)
  case ramrdCont => cases h; exact (carries_rawCommand _ s)
  case readData => cases hp
  case maskingOn => cases hp
  case maskingOff => cases hp
  case flipMask => cases hp
  case overdrawOn => cases hp
  case overdrawOff => cases hp
  case setBackgroundColor => cases hp
  case setForegroundColor => cases hp
  case readPixel => cases hp
  case fastXorFlood => cases hp

/-- `fastXORFlood` that is performed, or has zero length. -/
theorem carries_fastXorFlood (m : Byte) (n : Nat) (s : State) (hn : n ≤ 240) :
    Carries false s (fastXorFloodOp m n s) := by
  rw [fastXorFloodOp]
  split
  · exact .refl _ s
  · rw [if_neg (by simp only [Config.xbufBytes]; omega)]
    exact ((carries_xorRun m n s).trans (carries_memoClearAll _)).trans (carries_finish _)

theorem fastXorFlood_long (m : Byte) (n : Nat) (s : State) (hn : 240 < n) :
    fastXorFloodOp m n s = recordIllegal s := by
  rw [fastXorFloodOp, if_neg (by omega), if_pos (show Config.xbufBytes < n from hn)]

/-- Every operation, but for the registers of the compositing state, `result` and `err_illegal`. -/
theorem carries_exec (i : Instr) (s t : State) (h : exec i s = .next t) :
    Carries (!isXor i) (withRegistersOf t s) t := by
  by_cases hp : writesRegister i = false
  · exact (carries_exec_plain i s t hp h).registers
  cases i <;> simp only [writesRegister, not_true_eq_false] at hp <;> simp only [exec] at h
  case readData => cases h; exact ((carries_busRead s).trans (carries_finish _)).withRegisters rfl
  case maskingOn => cases h; exact Carries.refl _ _
  case maskingOff => cases h; exact Carries.refl _ _
  case flipMask => cases h; exact Carries.refl _ _
  case overdrawOn => cases h; exact Carries.refl _ _
  case overdrawOff => cases h; exact Carries.refl _ _
  case setBackgroundColor => cases h; exact Carries.refl _ _
  case setForegroundColor => cases h; exact Carries.refl _ _
  case readPixel a b =>
    rw [execReadPixel] at h
    split at h
    · cases h
      exact ((((carries_winSet a b a b s).trans (carries_readBegin _)).trans ((carries_busRead _).trans
        (carries_busRead _))).trans ((carries_setPrim .idle _).trans (carries_finish _))).withRegisters rfl
    · cases h
      exact ((carries_setPrim .idle s).trans (carries_finish _)).withRegisters rfl
  case fastXorFlood m n =>
    cases h
    rcases Nat.lt_or_ge 240 n with hn | hn
    · rw [fastXorFlood_long m n s hn]
      exact Carries.refl _ _
    · exact (carries_fastXorFlood m n s hn).registers

end Sys2Proof.Machine
end

