-- ==== Sys2Proof/Laws/Shapes.lean ====
section
/-! SUPPORT. Shapes: clipping against the rectangle asked for, the line walker in closed form, the rows and the spans of a
triangle. -/

namespace Sys2Proof.Machine

/-! ### Clipping (R198) -/

theorem clipH_spec (x y w : Int) :
    match clipH x y w with
    | none => ∀ px py : Int, inb px py = true → ¬inRect x y w 1 px py
    | some (xa, ya, n) => 0 < n ∧ xa + n ≤ 240 ∧ ya < 320 ∧ (ya : Int) = y ∧
      ∀ px py : Int, (inb px py = true ∧ inRect x y w 1 px py) ↔ inRect xa ya n 1 px py := by
  simp only [clipH]
  split
  · rename_i h
    split at h
    · intro px py; simp only [inb, inRect, decide_eq_true_eq]; omega
    · split at h
      · intro px py; simp only [inb, inRect, decide_eq_true_eq]; omega
      · cases h
  · rename_i h
    split at h
    · cases h
    · split at h
      · cases h
      · cases h
        refine ⟨by omega, by omega, by omega, by omega, ?_⟩
        intro px py; simp only [inb, inRect, decide_eq_true_eq]; omega

theorem clipV_spec (x y h : Int) :
    match clipV x y h with
    | none => ∀ px py : Int, inb px py = true → ¬inRect x y 1 h px py
    | some (xa, ya, n) => 0 < n ∧ xa < 240 ∧ ya + n ≤ 320 ∧ (xa : Int) = x ∧
      ∀ px py : Int, (inb px py = true ∧ inRect x y 1 h px py) ↔ inRect xa ya 1 n px py := by
  simp only [clipV]
  split
  · rename_i h
    split at h
    · intro px py; simp only [inb, inRect, decide_eq_true_eq]; omega
    · split at h
      · intro px py; simp only [inb, inRect, decide_eq_true_eq]; omega
      · cases h
  · rename_i h
    split at h
    · cases h
    · split at h
      · cases h
      · cases h
        refine ⟨by omega, by omega, by omega, by omega, ?_⟩
        intro px py; simp only [inb, inRect, decide_eq_true_eq]; omega

theorem clipRect_spec (x y w h : Int) :
    match clipRect x y w h with
    | none => ∀ px py : Int, inb px py = true → ¬inRect x y w h px py
    | some (xa, ya, wa, ha) => 0 < wa ∧ 0 < ha ∧ xa + wa ≤ 240 ∧ ya + ha ≤ 320 ∧
      ∀ px py : Int, (inb px py = true ∧ inRect x y w h px py) ↔ inRect xa ya wa ha px py := by
  simp only [clipRect]
  split
  · rename_i h
    split at h
    · intro px py; simp only [inb, inRect, decide_eq_true_eq]; omega
    · split at h
      · intro px py; simp only [inb, inRect, decide_eq_true_eq]; omega
      · cases h
  · rename_i h
    split at h
    · cases h
    · split at h
      · cases h
      · cases h
        refine ⟨by omega, by omega, by omega, by omega, ?_⟩
        intro px py; simp only [inb, inRect, decide_eq_true_eq]; omega

/-! ### Lines (R208) -/

/-- A point from its driving and its other coordinate (R208). -/
def bresPoint (steep : Bool) (x y : Int) : Int × Int := if steep then (y, x) else (x, y)

theorem bresWalk_length (steep : Bool) (dx dy ystep : Int) (n : Nat) (x y err : Int) :
    (bresWalk steep dx dy ystep n x y err).length = n := by
  induction n generalizing x y err with
  | zero => rfl
  | succ n ih =>
    simp only [bresWalk, List.length_cons]
    split <;> rw [ih]

/-- The walk in closed form: the error term counts the steps of the other coordinate (R208). -/
theorem bresWalk_getElem? (steep : Bool) (dx dy ystep : Int) (n : Nat) (x y err : Int) (hd : 0 < dx) (h0 : 0 ≤ dy)
    (h1 : dy ≤ dx) (he0 : 0 ≤ err) (he1 : err < dx) (k : Nat) :
    (bresWalk steep dx dy ystep n x y err)[k]? =
      if k < n then some (bresPoint steep (x + k) (y + ystep * ((k * dy + dx - 1 - err) / dx))) else none := by
  induction n generalizing x y err k with
  | zero => simp [bresWalk]
  | succ n ih =>
    cases k with
    | zero =>
      have hz : ((0 : Nat) * dy + dx - 1 - err) / dx = 0 := Int.ediv_eq_zero_of_lt (by simp; omega) (by simp; omega)
      rw [hz]
      simp only [bresWalk, bresPoint]
      cases steep <;> simp
    | succ k =>
      have hdiv : ∀ A : Int, (A - dx) / dx = A / dx - 1 := by
        intro A
        have := Int.add_mul_ediv_right A (-1) (c := dx) (by omega)
        have e : A - dx = A + -1 * dx := by ring
        rw [e, this]; ring
      simp only [bresWalk, List.getElem?_cons_succ, Nat.add_lt_add_iff_right]
      split
      · rename_i hlt
        rw [ih _ _ _ (by omega) (by omega)]
        have : (k * dy + dx - 1 - (err - dy + dx)) / dx = (((k + 1 : Nat) : Int) * dy + dx - 1 - err) / dx - 1 := by
          rw [← hdiv]; congr 1; push_cast; ring
        rw [this]
        congr 3
        · push_cast; ring
        · ring
      · rename_i hlt
        rw [ih _ _ _ (by omega) (by omega)]
        have : (k * dy + dx - 1 - (err - dy)) = (((k + 1 : Nat) : Int) * dy + dx - 1 - err) := by push_cast; ring
        rw [this]
        congr 3
        push_cast; ring
theorem absInt_eq (v : Int) : absInt v = |v| := by simp [absInt]

theorem bres_flat {x0 y0 x1 y1 : Int} (hx : x0 < x1) (hy : |y1 - y0| ≤ x1 - x0) :
    bres x0 y0 x1 y1 =
      bresWalk false (x1 - x0) |y1 - y0| (if y0 < y1 then 1 else -1) (x1 - x0 + 1).toNat x0 y0 ((x1 - x0) / 2) := by
  rw [bres, if_neg, bresOrdered, if_neg (by omega), bresAscending, absInt_eq]
  rw [absInt_eq, absInt_eq, abs_of_pos (by omega : 0 < x1 - x0)]; omega
theorem bres_steep {x0 y0 x1 y1 : Int} (hy : y0 < y1) (hx : |x1 - x0| < y1 - y0) :
    bres x0 y0 x1 y1 =
      bresWalk true (y1 - y0) |x1 - x0| (if x0 < x1 then 1 else -1) (y1 - y0 + 1).toNat y0 x0 ((y1 - y0) / 2) := by
  rw [bres, if_pos, bresOrdered, if_neg (by omega), bresAscending, absInt_eq]
  rw [absInt_eq, absInt_eq, abs_of_pos (by omega : 0 < y1 - y0)]; omega
theorem bres_swap (x0 y0 x1 y1 : Int) (hx : x0 ≠ x1) (hy : y0 ≠ y1) : bres x1 y1 x0 y0 = bres x0 y0 x1 y1 := by
  simp only [bres, absInt_eq, abs_sub_comm x0 x1, abs_sub_comm y0 y1]
  split
  · rename_i h
    simp only [bresOrdered]
    rcases lt_or_gt_of_ne hy with h1 | h1
    · rw [if_pos h1, if_neg (by omega)]
    · rw [if_neg (by omega), if_pos h1]
  · rename_i h
    simp only [bresOrdered]
    rcases lt_or_gt_of_ne hx with h1 | h1
    · rw [if_pos h1, if_neg (by omega)]
    · rw [if_neg (by omega), if_pos h1]

/-! ### Triangles (R247) -/

theorem triRows_rows (xa dxa dya xb dxb dyb : Int) (n : Nat) (y sa sb : Int) :
    (triRows xa dxa dya xb dxb dyb n y sa sb).map (fun sp => sp.2.1) = (List.range n).map (fun k : Nat => y + (k : Int)) := by
  induction n generalizing y sa sb with
  | zero => rfl
  | succ n ih =>
    rw [triRows, List.map_cons, ih, List.range_succ_eq_map]
    simp only [List.map_cons, List.map_map]
    congr 1
    · simp
    · apply List.map_congr_left; intro k _; simp only [Function.comp]; push_cast; ring

theorem triRows_mem {xa dxa dya xb dxb dyb : Int} {n : Nat} {y sa sb : Int} {sp : Int × Int × Int}
    (h : sp ∈ triRows xa dxa dya xb dxb dyb n y sa sb) :
    ∃ k : Nat, k < n ∧ sp.2.1 = y + k ∧
      sp.1 = min (xa + (sa + k * dxa).tdiv dya) (xb + (sb + k * dxb).tdiv dyb) ∧
      sp.2.2 = max (xa + (sa + k * dxa).tdiv dya) (xb + (sb + k * dxb).tdiv dyb) -
        min (xa + (sa + k * dxa).tdiv dya) (xb + (sb + k * dxb).tdiv dyb) + 1 := by
  induction n generalizing y sa sb with
  | zero => simp [triRows] at h
  | succ n ih =>
    rw [triRows, List.mem_cons] at h
    rcases h with rfl | h
    · exact ⟨0, by omega, by simp, by simp, by simp⟩
    · obtain ⟨k, hk, h1, h2, h3⟩ := ih h
      have ea : sa + dxa + k * dxa = sa + ((k + 1 : Nat) : Int) * dxa := by push_cast; ring
      have eb : sb + dxb + k * dxb = sb + ((k + 1 : Nat) : Int) * dxb := by push_cast; ring
      rw [ea, eb] at h2 h3
      exact ⟨k + 1, by omega, by rw [h1]; push_cast; ring, h2, h3⟩

theorem range_split (y0 : Int) (a b : Nat) :
    (List.range (a + b)).map (fun k : Nat => y0 + (k : Int)) =
      (List.range a).map (fun k : Nat => y0 + (k : Int)) ++ (List.range b).map (fun k : Nat => (y0 + a) + (k : Int)) := by
  rw [List.range_add, List.map_append, List.map_map]
  congr 1
  apply List.map_congr_left; intro k _; simp only [Function.comp]; push_cast; ring

theorem triSorted_rows {y0 y1 y2 : Int} (x0 x1 x2 : Int) (h0 : y0 ≤ y1) (h1 : y1 ≤ y2) :
    (triSorted x0 y0 x1 y1 x2 y2).map (fun sp => sp.2.1) =
      (List.range (y2 - y0 + 1).toNat).map (fun k : Nat => y0 + (k : Int)) := by
  rw [triSorted]
  split
  · rename_i h
    have : (y2 - y0 + 1).toNat = 1 := by omega
    rw [this]; simp
  · rename_i h
    dsimp only
    rw [List.map_append, triRows_rows, triRows_rows]
    have : (y2 - y0 + 1).toNat = ((if y1 = y2 then y1 else y1 - 1) - y0 + 1).toNat + (y2 - ((if y1 = y2 then y1 else y1 - 1) + 1) + 1).toNat := by
      split <;> omega
    rw [this, range_split]
    congr 1
    apply List.map_congr_left; intro k _
    split <;> omega

theorem triSorted_len {x0 y0 x1 y1 x2 y2 : Int} : ∀ sp ∈ triSorted x0 y0 x1 y1 x2 y2, 1 ≤ sp.2.2 := by
  intro sp h
  rw [triSorted] at h
  split at h
  · simp at h; subst h; dsimp only; omega
  · rcases List.mem_append.1 h with h | h <;>
    · obtain ⟨k, -, -, -, h3⟩ := triRows_mem h
      rw [h3]; omega

theorem triSpans_sorted (x0 y0 x1 y1 x2 y2 : Int) :
    ∃ a b c : Int × Int, triSpans x0 y0 x1 y1 x2 y2 = triSorted a.1 a.2 b.1 b.2 c.1 c.2 ∧ a.2 ≤ b.2 ∧ b.2 ≤ c.2 ∧
      a.2 = min y0 (min y1 y2) ∧ c.2 = max y0 (max y1 y2) := by
  have hs : ∀ p q : Int × Int, (sortByY p q).1.2 = min p.2 q.2 ∧ (sortByY p q).2.2 = max p.2 q.2 := by
    intro p q; simp only [sortByY]; split <;> dsimp only <;> omega
  refine ⟨_, _, _, rfl, ?_⟩
  simp only [(hs _ _).1, (hs _ _).2]
  omega
theorem triSpans_of_sorted {x0 y0 x1 y1 x2 y2 : Int} (h0 : y0 ≤ y1) (h1 : y1 ≤ y2) :
    triSpans x0 y0 x1 y1 x2 y2 = triSorted x0 y0 x1 y1 x2 y2 := by
  have hs : ∀ p q : Int × Int, p.2 ≤ q.2 → sortByY p q = (p, q) := by
    intro p q h; rw [sortByY, if_neg (by omega)]
  simp only [triSpans, hs (x0, y0) (x1, y1) h0, hs (x1, y1) (x2, y2) h1]

end Sys2Proof.Machine
end

