-- ==== Sys2Proof/Laws/Paint.lean ====
section
/-! SUPPORT. The pixels the drawing pieces leave (`Paints`): floods of a window, runs, pixels, rectangles and the strokes of
lines, on the 16-bit path and on the fast path. -/

namespace Sys2Proof.Machine

/-! ### What is known of a panel stays so only backwards -/

theorem PanelView.onFrame_unspecified (d : Nat) (why : PanelRefusal) (f : Frame) :
    (PanelView.unspecified why).onFrame d f = .unspecified why := by cases f <;> rfl

theorem PanelView.onFrames_unspecified (d : Nat) (why : PanelRefusal) (fs : List Frame) :
    (PanelView.unspecified why).onFrames d fs = .unspecified why := by
  induction fs with
  | nil => rfl
  | cons f fs ih => rw [PanelView.onFrames_cons, PanelView.onFrame_unspecified, ih]

theorem Panel.onCommand_format (d : Nat) (b : Byte) (p : Panel) : (p.onCommand d b).format = p.format := by
  rw [Panel.onCommand]
  repeat' split
  all_goals rfl

theorem Panel.pushParam_keeps (b : Byte) (p : Panel) :
    (p.pushParam b).format = p.format ∧ (p.pushParam b).gram = p.gram := by
  rw [Panel.pushParam]
  split <;> exact ⟨rfl, rfl⟩

theorem Panel.onPixelByte_format (b : Byte) (p : Panel) : (p.onPixelByte b).format = p.format := by
  rw [Panel.onPixelByte]
  split
  · split
    · simp [Panel.storePixel]
    · rfl
  · simp [Panel.storePixel]

theorem Panel.onData_format {b : Byte} {p q : Panel} (h : p.onData b = .known q) : q.format = p.format := by
  simp only [Panel.onData] at h
  split at h
  · cases h
    simp only [Panel.onColumnParam]
    split <;> exact (p.pushParam_keeps b).1
  · cases h
    simp only [Panel.onRowParam]
    split <;> exact (p.pushParam_keeps b).1
  · split at h
    · cases h
    · cases h
      exact p.onPixelByte_format b
  all_goals cases h

theorem Panel.afterPixelByte_keeps (p : Panel) :
    p.afterPixelByte.format = p.format ∧ p.afterPixelByte.gram = p.gram := by
  rw [Panel.afterPixelByte]
  split
  · split
    · exact ⟨rfl, rfl⟩
    · simp
  · simp

theorem Panel.onRead_keeps {p q : Panel} (h : p.onRead = .known q) : q.format = p.format ∧ q.gram = p.gram := by
  simp only [Panel.onRead] at h
  split at h
  · cases h
  · split at h
    · cases h
      exact ⟨rfl, rfl⟩
    · split at h
      · cases h
      · cases h
        exact p.afterPixelByte_keeps

theorem PanelView.known_of_onFrame {d : Nat} {v : PanelView} {f : Frame} {q : Panel} (h : v.onFrame d f = .known q) :
    ∃ p, v = .known p ∧ q.format = p.format := by
  cases v with
  | unspecified why => rw [PanelView.onFrame_unspecified] at h; cases h
  | known p =>
    refine ⟨p, rfl, ?_⟩
    cases f with
    | cmd b => cases h; exact p.onCommand_format d b
    | dat b => exact Panel.onData_format h
    | rd v => exact (Panel.onRead_keeps h).1

theorem PanelView.known_of_onFrames {d : Nat} {v : PanelView} {fs : List Frame} {q : Panel}
    (h : v.onFrames d fs = .known q) : ∃ p, v = .known p ∧ q.format = p.format := by
  induction fs generalizing v with
  | nil => exact ⟨q, h, rfl⟩
  | cons f fs ih =>
    obtain ⟨r, hr, hf⟩ := ih h
    obtain ⟨p, hp, hg⟩ := PanelView.known_of_onFrame hr
    exact ⟨p, hp, hf.trans hg⟩

/-- A panel known after a piece of an operation was known before it, in the same format. -/
theorem Carries.known {x : Bool} {s t : State} (h : Carries x s t) {q : Panel} (hq : t.panel = .known q) :
    ∃ p, s.panel = .known p ∧ q.format = p.format := by
  obtain ⟨fs, -, h2⟩ := h.sent
  exact PanelView.known_of_onFrames (h2 ▸ hq)

/-! ### `Paints` -/

theorem Paints.nothing {s t : State} {p : Panel} (v : Color) (hs : s.panel = .known p) (ht : t.panel = s.panel) :
    Paints s t (fun _ _ => False) v :=
  ⟨p, p, hs, ht.trans hs, rfl, fun _ _ _ _ => ⟨False.elim, fun _ => rfl⟩⟩

theorem Paints.congr {s t : State} {R R' : Int → Int → Prop} {v : Color} (h : Paints s t R v)
    (hR : ∀ x y : Nat, x < 240 → y < 320 → (R x y ↔ R' x y)) : Paints s t R' v := by
  obtain ⟨p, q, hp, hq, hf, hc⟩ := h
  refine ⟨p, q, hp, hq, hf, fun x y hx hy => ?_⟩
  rw [← hR x y hx hy]
  exact hc x y hx hy

theorem Paints.trans {s t u : State} {R R' : Int → Int → Prop} {v : Color} (h : Paints s t R v) (k : Paints t u R' v) :
    Paints s u (fun x y => R x y ∨ R' x y) v := by
  obtain ⟨p, q, hp, hq, hf, hc⟩ := h
  obtain ⟨q', r, hq', hr, hf', hc'⟩ := k
  rw [hq] at hq'
  cases hq'
  refine ⟨p, r, hp, hr, hf'.trans hf, fun x y hx hy => ⟨?_, ?_⟩⟩
  · intro hR
    by_cases h' : R' x y
    · exact (hc' x y hx hy).1 h'
    · rw [(hc' x y hx hy).2 h']
      exact (hc x y hx hy).1 (hR.resolve_right h')
  · intro hR
    rw [(hc' x y hx hy).2 fun h' => hR (.inr h'), (hc x y hx hy).2 fun h' => hR (.inl h')]

theorem Paints.of_panel {s t u : State} {R : Int → Int → Prop} {v : Color} (h : Paints s t R v)
    (hu : u.panel = t.panel) : Paints s u R v := by
  obtain ⟨p, q, hp, hq, hf, hc⟩ := h
  exact ⟨p, q, hp, hu.trans hq, hf, hc⟩

theorem Paints.from_panel {s s' t : State} {R : Int → Int → Prop} {v : Color} (h : Paints s t R v)
    (hs : s'.panel = s.panel) : Paints s' t R v := by
  obtain ⟨p, q, hp, hq, hf, hc⟩ := h
  exact ⟨p, q, hs.trans hp, hq, hf, hc⟩

theorem Paints.known {s t : State} {R : Int → Int → Prop} {v : Color} (h : Paints s t R v) {p : Panel}
    (hp : s.panel = .known p) : ∃ q, t.panel = .known q ∧ q.format = p.format := by
  obtain ⟨p', q, hp', hq, hf, -⟩ := h
  rw [hp] at hp'
  cases hp'
  exact ⟨q, hq, hf⟩

/-! ### Floods of the panel's window -/

theorem pixelFrames16_eq (k : Color) (n : Nat) :
    pixelFrames16 k n = (List.replicate n k).flatMap fun k => [.dat (hi8 k), .dat (lo8 k)] := by
  simp [pixelFrames16, List.flatMap]

theorem flood16_panel (k : Color) (n : Nat) (s : State) :
    (flood16 k n s).panel = if n = 0 then s.panel else
      s.panel.onFrames s.readDummyReads (.cmd Config.cmdRamwr :: pixelFrames16 k n) := by
  cases n with
  | zero => rfl
  | succ n => rw [flood16_succ]; rfl

theorem flood8_panel (v : Byte) (n : Nat) (s : State) :
    (flood8 v n s).panel = if n = 0 then s.panel else
      s.panel.onFrames s.readDummyReads (.cmd Config.cmdRamwr :: List.replicate n (.dat v)) := by
  cases n with
  | zero => rfl
  | succ n => rw [flood8_succ]; rfl

/-- RAMWR puts the cursor on the window's first pixel (R72). -/
theorem Panel.HasWindow.openWrite {p : Panel} {x1 y1 w h : Nat} (hw : p.HasWindow x1 y1 w h) :
    p.openWrite.Writing x1 y1 w h 0 :=
  ⟨rfl, rfl, ⟨hw.xs, hw.xe, hw.ys, hw.ye, hw.wpos, hw.hpos, hw.xin, hw.yin⟩,
    ⟨by show p.pXs.toNat = _; simpa using hw.xs, by show p.pYs.toNat = _; simpa using hw.ys⟩⟩

/-- Where `n` equal pixels land in a window (R74, R75). -/
def landing (x1 y1 w h n : Nat) (px py : Int) : Prop :=
  ∃ i, i < n ∧ px = pixelCol x1 w i ∧ py = pixelRow y1 w h i

theorem paints_stream {s t : State} {p : Panel} {x1 y1 w h n : Nat} {v : Color} (hp : s.panel = .known p)
    (hw : p.HasWindow x1 y1 w h) (ht : t.panel = .known (p.openWrite.putAll (List.replicate n v))) :
    Paints s t (landing x1 y1 w h n) v := by
  have hr := hw.openWrite
  refine ⟨p, _, hp, ht, by simp [Panel.openWrite], fun x y hx hy => ⟨?_, ?_⟩⟩
  · rintro ⟨i, h1, h2, h3⟩
    have := Panel.lookup_putAll_replicate_hit v n hr (x := x) (y := y) hx
      ⟨i, by omega, by omega, by exact_mod_cast h2, by exact_mod_cast h3⟩
    simp only [Panel.cell, this, Option.getD_some]
  · intro hn
    have := Panel.lookup_putAll_miss (List.replicate n v) hr (x := x) (y := y) hx (by
      intro j _ h2 h3
      rw [List.length_replicate] at h2
      exact hn ⟨j, by omega, by exact_mod_cast h3.1, by exact_mod_cast h3.2⟩)
    simp only [Panel.cell, this]
    rfl

theorem flood16_paints {s : State} {p : Panel} {x1 y1 w h : Nat} (k : Color) (n : Nat) (hp : s.panel = .known p)
    (hf : p.format = .twoBytes) (hw : p.HasWindow x1 y1 w h) :
    Paints s (flood16 k n s) (landing x1 y1 w h n) k := by
  cases n with
  | zero =>
    exact (Paints.nothing k hp rfl).congr fun x y _ _ =>
      ⟨False.elim, fun ⟨i, h1, _⟩ => absurd h1 (by omega)⟩
  | succ n =>
    refine paints_stream hp hw ?_
    rw [flood16_panel, if_neg (by omega), hp, PanelView.onFrames_cons, onFrame_ramwr, pixelFrames16_eq]
    exact onFrames_pixels16 _ (by exact hf) hw.openWrite _

theorem flood8_paints {s : State} {p : Panel} {x1 y1 w h : Nat} (v : Byte) (n : Nat) (hp : s.panel = .known p)
    (hf : p.format = .oneByte) (hw : p.HasWindow x1 y1 w h) :
    Paints s (flood8 v n s) (landing x1 y1 w h n) (0#8 ++ v) := by
  cases n with
  | zero =>
    exact (Paints.nothing _ hp rfl).congr fun x y _ _ =>
      ⟨False.elim, fun ⟨i, h1, _⟩ => absurd h1 (by omega)⟩
  | succ n =>
    refine paints_stream hp hw ?_
    rw [flood8_panel, if_neg (by omega), hp, PanelView.onFrames_cons, onFrame_ramwr]
    have e1 : List.replicate (n + 1) (Frame.dat v) = (List.replicate (n + 1) v).map .dat := by simp
    have e2 : List.replicate (n + 1) (0#8 ++ v) = (List.replicate (n + 1) v).map (0#8 ++ ·) := by simp
    rw [e1, e2]
    exact onFrames_pixels8 _ (by exact hf) hw.openWrite _

/-- A stream as long as its window lands on the window's rectangle. -/
theorem landing_full {x1 y1 w h : Nat} (hw : 0 < w) (x y : Nat) :
    landing x1 y1 w h (w * h) x y ↔ inRect x1 y1 w h x y := by
  have := exists_pixel_iff (x1 := x1) (y1 := y1) (h := h) (x := x) (y := y) hw
  simp only [Nat.zero_le, Nat.zero_add, true_and] at this
  simp only [landing, inRect]
  constructor
  · rintro ⟨i, h1, h2, h3⟩
    have := this.1 ⟨i, h1, by exact_mod_cast h2, by exact_mod_cast h3⟩
    omega
  · intro h1
    obtain ⟨i, h2, h3, h4⟩ := this.2 (by omega)
    exact ⟨i, h2, by exact_mod_cast h3, by exact_mod_cast h4⟩

/-! ### A window programmed and filled -/

/-- The window the block programs for a rectangle inside the panel is the panel's window (R73, R152). -/
theorem winSet_known {s : State} {p : Panel} (x1 y1 x2 y2 : Int) (hp : s.panel = .known p) :
    (winSet x1 y1 x2 y2 s).panel =
      .known (p.withWindow (windowWord x1) (windowWord x2) (windowWord y1) (windowWord y2)) := by
  rw [winSet_eq]
  show s.panel.onFrames _ _ = _
  rw [hp, onFrames_windowSet]

theorem Panel.hasWindow_withWindow (p : Panel) {x1 y1 w h : Nat} {x2 y2 : Int} (hx2 : x2 = (x1 : Int) + w - 1)
    (hy2 : y2 = (y1 : Int) + h - 1) (hw : 0 < w) (hh : 0 < h) (hxin : x1 + w ≤ 240) (hyin : y1 + h ≤ 320) :
    (p.withWindow (windowWord x1) (windowWord x2) (windowWord y1) (windowWord y2)).HasWindow x1 y1 w h := by
  have r := p.writing_of_window hx2 hy2 hw hh hxin hyin
  exact ⟨r.window.xs, r.window.xe, r.window.ys, r.window.ye, hw, hh, hxin, hyin⟩

theorem winSet_paints_nothing {s : State} {p : Panel} (x1 y1 x2 y2 : Int) (v : Color) (hp : s.panel = .known p) :
    Paints s (winSet x1 y1 x2 y2 s) (fun _ _ => False) v :=
  ⟨p, _, hp, winSet_known x1 y1 x2 y2 hp, rfl, fun _ _ _ _ => ⟨False.elim, fun _ => rfl⟩⟩

/-- One window and one flood of its size paint its rectangle: 16-bit path. -/
theorem rect16_paints {s : State} {p : Panel} {x1 y1 w h : Nat} {x2 y2 : Int} (k : Color) (hp : s.panel = .known p)
    (hf : p.format = .twoBytes) (hx2 : x2 = (x1 : Int) + w - 1) (hy2 : y2 = (y1 : Int) + h - 1) (hw : 0 < w)
    (hh : 0 < h) (hxin : x1 + w ≤ 240) (hyin : y1 + h ≤ 320) :
    Paints s (flood16 k (w * h) (winSet x1 y1 x2 y2 s)) (inRect x1 y1 w h) k := by
  have h1 := winSet_paints_nothing x1 y1 x2 y2 k hp
  have h2 := flood16_paints k (w * h) (winSet_known x1 y1 x2 y2 hp) (by exact hf)
    (p.hasWindow_withWindow hx2 hy2 hw hh hxin hyin)
  exact (h1.trans h2).congr fun x y _ _ => by rw [false_or, landing_full hw]

/-- One window and one flood of its size paint its rectangle: fast path. -/
theorem rect8_paints {s : State} {p : Panel} {x1 y1 w h : Nat} {x2 y2 : Int} (v : Byte) (hp : s.panel = .known p)
    (hf : p.format = .oneByte) (hx2 : x2 = (x1 : Int) + w - 1) (hy2 : y2 = (y1 : Int) + h - 1) (hw : 0 < w)
    (hh : 0 < h) (hxin : x1 + w ≤ 240) (hyin : y1 + h ≤ 320) :
    Paints s (flood8 v (w * h) (winSet x1 y1 x2 y2 s)) (inRect x1 y1 w h) (0#8 ++ v) := by
  have h1 := winSet_paints_nothing x1 y1 x2 y2 (0#8 ++ v) hp
  have h2 := flood8_paints v (w * h) (winSet_known x1 y1 x2 y2 hp) (by exact hf)
    (p.hasWindow_withWindow hx2 hy2 hw hh hxin hyin)
  exact (h1.trans h2).congr fun x y _ _ => by rw [false_or, landing_full hw]

end Sys2Proof.Machine
end

