-- ==== Sys2Proof/Laws/Memo.lean ====
section
/-! SUPPORT. The overdraw memory stays sound (`MemoSound`), piece by piece, and what each piece of the 16-bit path paints
when a skip is sound. -/

namespace Sys2Proof.Machine

/-! ### Soundness across a piece -/

/-- A piece that keeps the pixels and the memory keeps soundness. -/
theorem MemoSound.of_same {s t : State} (h : MemoSound s) (hr : t.rowMemo = s.rowMemo) (hc : t.colMemo = s.colMemo)
    (hp : ∀ q, t.panel = .known q → ∃ p, s.panel = .known p ∧ q.format = p.format ∧ q.gram = p.gram) : MemoSound t := by
  obtain ⟨⟨h1, h2⟩, h3⟩ := h
  refine ⟨⟨by rwa [hr], by rwa [hc]⟩, fun q hq hf => ?_⟩
  obtain ⟨p, hp, hfq, hg⟩ := hp q hq
  have hcell : ∀ x y, q.cell x y = p.cell x y := fun x y => by simp only [Panel.cell, hg]
  rw [hr, hc]
  simp only [hcell]
  exact h3 p hp (hfq ▸ hf)

/-- An empty memory is sound. -/
theorem MemoSound.of_nil {s : State} (hr : s.rowMemo = []) (hc : s.colMemo = []) : MemoSound s := by
  refine ⟨⟨?_, ?_⟩, ?_⟩
  · intro y r h; rw [hr] at h; cases h
  · intro y r h; rw [hc] at h; cases h
  · intro p _ _
    refine ⟨?_, ?_⟩
    · intro y r h; rw [hr] at h; cases h
    · intro y r h; rw [hc] at h; cases h

/-- A piece that paints keeps soundness if what it remembers afterwards is either what it painted or an old run it did not
touch. -/
theorem MemoSound.of_paints {s t : State} {R : Int → Int → Prop} {k : Color} (h : MemoSound s)
    (hk : ∀ q, t.panel = .known q → ∃ p, s.panel = .known p ∧ q.format = p.format)
    (hp : ∀ p, s.panel = .known p → p.format = .twoBytes → Paints s t R k) (hrange : MemoInRange t)
    (hrow : ∀ (y : Nat) r, t.rowMemo.lookup y = some r →
      (r.colour = k ∧ ∀ i, i < r.len → R ((r.start + i : Nat) : Int) y) ∨
      (s.rowMemo.lookup y = some r ∧ ∀ i, i < r.len → ¬R ((r.start + i : Nat) : Int) y))
    (hcol : ∀ (x : Nat) r, t.colMemo.lookup x = some r →
      (r.colour = k ∧ ∀ i, i < r.len → R x ((r.start + i : Nat) : Int)) ∨
      (s.colMemo.lookup x = some r ∧ ∀ i, i < r.len → ¬R x ((r.start + i : Nat) : Int))) : MemoSound t := by
  refine ⟨hrange, fun q hq hf => ?_⟩
  obtain ⟨p, hsp, hfq⟩ := hk q hq
  have hf' : p.format = .twoBytes := hfq ▸ hf
  obtain ⟨p', q', hp1, hq1, -, hcell⟩ := hp p hsp hf'
  rw [hsp] at hp1
  rw [hq] at hq1
  cases hp1
  cases hq1
  obtain ⟨hs1, hs2⟩ := h.2 p hsp hf'
  refine ⟨fun y r hr i hi => ?_, fun x r hr i hi => ?_⟩
  · obtain ⟨hy, -, hx⟩ := hrange.1 y r hr
    rcases hrow y r hr with ⟨hc, hR⟩ | ⟨ho, hR⟩
    · rw [hc]
      exact (hcell (r.start + i) y (by omega) hy).1 (hR i hi)
    · rw [(hcell (r.start + i) y (by omega) hy).2 (hR i hi)]
      exact hs1 y r ho i hi
  · obtain ⟨hx, -, hy⟩ := hrange.2 x r hr
    rcases hcol x r hr with ⟨hc, hR⟩ | ⟨ho, hR⟩
    · rw [hc]
      exact (hcell x (r.start + i) hx (by omega)).1 (hR i hi)
    · rw [(hcell x (r.start + i) hx (by omega)).2 (hR i hi)]
      exact hs2 x r ho i hi

/-! ### The pieces of the 16-bit path -/

/-- What a piece of the 16-bit path does: it keeps the overdraw memory sound, and, where a skip is sound, it paints. -/
structure Draws16 (s t : State) (R : Int → Int → Prop) (k : Color) : Prop where
  carries : Carries true s t
  sound : MemoSound s → MemoSound t
  paints : ∀ p, s.panel = .known p → p.format = .twoBytes → (s.doOverdraw = true → MemoSound s) → Paints s t R k

theorem Draws16.nothing (s : State) (k : Color) : Draws16 s s (fun _ _ => False) k :=
  ⟨.refl _ s, id, fun _ hp _ _ => .nothing k hp rfl⟩

theorem Draws16.congr {s t : State} {R R' : Int → Int → Prop} {k : Color} (h : Draws16 s t R k)
    (hR : ∀ x y : Nat, x < 240 → y < 320 → (R x y ↔ R' x y)) : Draws16 s t R' k :=
  ⟨h.carries, h.sound, fun p hp hf ho => (h.paints p hp hf ho).congr hR⟩

theorem Draws16.trans {s t u : State} {R R' : Int → Int → Prop} {k : Color} (h : Draws16 s t R k)
    (h' : Draws16 t u R' k) : Draws16 s u (fun x y => R x y ∨ R' x y) k := by
  refine ⟨h.carries.trans h'.carries, fun hs => h'.sound (h.sound hs), fun p hp hf ho => ?_⟩
  have h1 := h.paints p hp hf ho
  obtain ⟨q, hq, hfq⟩ := h1.known hp
  exact h1.trans (h'.paints q hq (hfq.trans hf) fun hd => h.sound (ho (h.carries.doOverdraw ▸ hd)))

/-- Pieces done one after the other over a list paint the union of their shapes. -/
theorem Draws16.foldl {α : Type} {f : State → α → State} {R : α → Int → Int → Prop} {k : Color} (l : List α)
    (h : ∀ s, ∀ a ∈ l, Draws16 s (f s a) (R a) k) (s : State) :
    Draws16 s (l.foldl f s) (fun x y => ∃ a ∈ l, R a x y) k := by
  induction l generalizing s with
  | nil => exact (Draws16.nothing s k).congr fun x y _ _ => by simp
  | cons a l ih =>
    refine ((h s a List.mem_cons_self).trans (ih (fun s b hb => h s b (List.mem_cons_of_mem a hb)) (f s a))).congr ?_
    intro x y _ _
    simp

theorem flood16_one (k : Color) (s : State) : px16 k (streamBegin s) = flood16 k 1 s := rfl
theorem flood8_one (v : Byte) (s : State) : px8 v (streamBegin s) = flood8 v 1 s := rfl

theorem carries_rect16 {x : Bool} (x1 y1 x2 y2 : Int) (k : Color) (n : Nat) (s : State) :
    Carries x s (flood16 k n (winSet x1 y1 x2 y2 s)) := (carries_winSet x1 y1 x2 y2 s).trans (carries_flood16 k n _)

@[simp] theorem winSet_rowMemo (x1 y1 x2 y2 : Int) (s : State) : (winSet x1 y1 x2 y2 s).rowMemo = s.rowMemo := by
  rw [winSet_eq]; rfl
@[simp] theorem winSet_colMemo (x1 y1 x2 y2 : Int) (s : State) : (winSet x1 y1 x2 y2 s).colMemo = s.colMemo := by
  rw [winSet_eq]; rfl
@[simp] theorem flood16_rowMemo (k : Color) (n : Nat) (s : State) : (flood16 k n s).rowMemo = s.rowMemo := by
  cases n with
  | zero => rfl
  | succ n => rw [flood16_succ]; rfl
@[simp] theorem flood16_colMemo (k : Color) (n : Nat) (s : State) : (flood16 k n s).colMemo = s.colMemo := by
  cases n with
  | zero => rfl
  | succ n => rw [flood16_succ]; rfl

theorem draws_hrun (x y n : Nat) (k : Color) (s : State) (hn : 0 < n) (hx : x + n ≤ 240) (hy : y < 320) :
    Draws16 s (hrun x y n k s) (inRect x y n 1) k := by
  by_cases hskip : s.doOverdraw = true ∧ s.rowMemo.lookup y = some ⟨x, n, k⟩
  · rw [hrun, if_pos hskip]
    refine ⟨.refl _ s, id, fun p hp hf ho => ⟨p, p, hp, hp, rfl, fun a b _ _ => ⟨?_, fun _ => rfl⟩⟩⟩
    rintro ⟨h1, h2, h3, h4⟩
    have := ((ho hskip.1).2 p hp hf).1 y _ hskip.2 (a - x) (by dsimp only; omega)
    dsimp only at this
    rw [show x + (a - x) = a by omega, show y = b by omega] at this
    exact this
  · have hp : ∀ p, s.panel = .known p → p.format = .twoBytes → Paints s (hrun x y n k s) (inRect x y n 1) k := by
      intro p hp hf
      have := rect16_paints (x1 := x) (y1 := y) (w := n) (h := 1) (x2 := (x : Int) + n - 1) (y2 := y) k hp hf rfl
        (by omega) hn (by omega) hx (by omega)
      rw [hrun, if_neg hskip]
      simp only [Nat.mul_one] at this
      exact Paints.of_panel this rfl
    have hcar := carries_hrun (x := true) x y n k s
    refine ⟨hcar, fun hs => ?_, fun p h1 h2 _ => hp p h1 h2⟩
    have er : (hrun x y n k s).rowMemo = s.rowMemo.insert y ⟨x, n, k⟩ := by rw [hrun, if_neg hskip]; simp
    have ec : (hrun x y n k s).colMemo = s.colMemo.eraseRange x n := by rw [hrun, if_neg hskip]; simp
    refine hs.of_paints (fun q hq => hcar.known hq) hp ⟨?_, ?_⟩ ?_ ?_
    · intro j r hr
      rw [er, Table.lookup_insert] at hr
      split at hr
      · cases hr
        dsimp only
        omega
      · exact hs.1.1 j r hr
    · intro i r hr
      rw [ec, Table.lookup_eraseRange] at hr
      split at hr
      · cases hr
      · exact hs.1.2 i r hr
    · intro j r hr
      rw [er, Table.lookup_insert] at hr
      split at hr
      · cases hr
        refine .inl ⟨rfl, fun i hi => ?_⟩
        dsimp only at hi ⊢
        simp only [inRect]
        omega
      · refine .inr ⟨hr, fun i hi => ?_⟩
        simp only [inRect]
        omega
    · intro i r hr
      rw [ec, Table.lookup_eraseRange] at hr
      split at hr
      · cases hr
      · refine .inr ⟨hr, fun j hj => ?_⟩
        simp only [inRect]
        omega

theorem draws_vrun (x y n : Nat) (k : Color) (s : State) (hn : 0 < n) (hx : x < 240) (hy : y + n ≤ 320) :
    Draws16 s (vrun x y n k s) (inRect x y 1 n) k := by
  by_cases hskip : s.doOverdraw = true ∧ s.colMemo.lookup x = some ⟨y, n, k⟩
  · rw [vrun, if_pos hskip]
    refine ⟨.refl _ s, id, fun p hp hf ho => ⟨p, p, hp, hp, rfl, fun a b _ _ => ⟨?_, fun _ => rfl⟩⟩⟩
    rintro ⟨h1, h2, h3, h4⟩
    have := ((ho hskip.1).2 p hp hf).2 x _ hskip.2 (b - y) (by dsimp only; omega)
    dsimp only at this
    rw [show y + (b - y) = b by omega, show x = a by omega] at this
    exact this
  · have hp : ∀ p, s.panel = .known p → p.format = .twoBytes → Paints s (vrun x y n k s) (inRect x y 1 n) k := by
      intro p hp hf
      have := rect16_paints (x1 := x) (y1 := y) (w := 1) (h := n) (x2 := x) (y2 := (y : Int) + n - 1) k hp hf
        (by omega) rfl (by omega) hn (by omega) hy
      rw [vrun, if_neg hskip]
      simp only [Nat.one_mul] at this
      exact Paints.of_panel this rfl
    have hcar := carries_vrun (x := true) x y n k s
    refine ⟨hcar, fun hs => ?_, fun p h1 h2 _ => hp p h1 h2⟩
    have ec : (vrun x y n k s).colMemo = s.colMemo.insert x ⟨y, n, k⟩ := by rw [vrun, if_neg hskip]; simp
    have er : (vrun x y n k s).rowMemo = s.rowMemo.eraseRange y n := by rw [vrun, if_neg hskip]; simp
    refine hs.of_paints (fun q hq => hcar.known hq) hp ⟨?_, ?_⟩ ?_ ?_
    · intro j r hr
      rw [er, Table.lookup_eraseRange] at hr
      split at hr
      · cases hr
      · exact hs.1.1 j r hr
    · intro i r hr
      rw [ec, Table.lookup_insert] at hr
      split at hr
      · cases hr
        dsimp only
        omega
      · exact hs.1.2 i r hr
    · intro j r hr
      rw [er, Table.lookup_eraseRange] at hr
      split at hr
      · cases hr
      · refine .inr ⟨hr, fun i hi => ?_⟩
        simp only [inRect]
        omega
    · intro i r hr
      rw [ec, Table.lookup_insert] at hr
      split at hr
      · cases hr
        refine .inl ⟨rfl, fun j hj => ?_⟩
        dsimp only at hj ⊢
        simp only [inRect]
        omega
      · refine .inr ⟨hr, fun j hj => ?_⟩
        simp only [inRect]
        omega

theorem draws_pixel16 (x y : Int) (k : Color) (s : State) :
    Draws16 s (pixel16 x y k s) (fun px py => px = x ∧ py = y) k := by
  by_cases hb : inb x y = true
  · have hb' := hb
    simp only [inb, decide_eq_true_eq] at hb'
    obtain ⟨a, rfl⟩ : ∃ a : Nat, x = a := ⟨x.toNat, by omega⟩
    obtain ⟨b, rfl⟩ : ∃ b : Nat, y = b := ⟨y.toNat, by omega⟩
    have hp : ∀ p, s.panel = .known p → p.format = .twoBytes →
        Paints s (pixel16 a b k s) (fun px py => px = a ∧ py = b) k := by
      intro p hp hf
      have := rect16_paints (x1 := a) (y1 := b) (w := 1) (h := 1) (x2 := a) (y2 := b) k hp hf (by omega) (by omega)
        (by omega) (by omega) (by omega) (by omega)
      rw [pixel16, if_pos hb, flood16_one]
      refine Paints.congr (Paints.of_panel (u := memoPixel a b (flood16 k 1 (winSet a b a b s))) this rfl)
        fun x y _ _ => ?_
      simp only [inRect]
      omega
    have hcar := carries_pixel16 (x := true) a b k s
    refine ⟨hcar, fun hs => ?_, fun p h1 h2 _ => hp p h1 h2⟩
    have er : (pixel16 a b k s).rowMemo = s.rowMemo.eraseRange b 1 := by
      rw [pixel16, if_pos hb, flood16_one]; simp
    have ec : (pixel16 a b k s).colMemo = s.colMemo.eraseRange a 1 := by
      rw [pixel16, if_pos hb, flood16_one]; simp
    refine hs.of_paints (fun q hq => hcar.known hq) hp ⟨?_, ?_⟩ ?_ ?_
    · intro j r hr
      rw [er, Table.lookup_eraseRange] at hr
      split at hr
      · cases hr
      · exact hs.1.1 j r hr
    · intro j r hr
      rw [ec, Table.lookup_eraseRange] at hr
      split at hr
      · cases hr
      · exact hs.1.2 j r hr
    · intro j r hr
      rw [er, Table.lookup_eraseRange] at hr
      split at hr
      · cases hr
      · exact .inr ⟨hr, fun i hi => by omega⟩
    · intro j r hr
      rw [ec, Table.lookup_eraseRange] at hr
      split at hr
      · cases hr
      · exact .inr ⟨hr, fun i hi => by omega⟩
  · rw [pixel16, if_neg hb]
    refine (Draws16.nothing s k).congr fun a b ha hb' => ?_
    simp only [inb, decide_eq_true_eq] at hb
    constructor
    · exact False.elim
    · rintro ⟨h1, h2⟩
      omega

theorem draws_hline16 (x y w : Int) (k : Color) (s : State) : Draws16 s (hline16 x y w k s) (inRect x y w 1) k := by
  have h := clipH_spec x y w
  rw [hline16]
  split <;> rename_i e <;> rw [e] at h
  · exact (Draws16.nothing s k).congr fun a b ha hb =>
      ⟨False.elim, fun hr => h a b (by simp only [inb, decide_eq_true_eq]; omega) hr⟩
  · obtain ⟨h1, h2, h3, -, h4⟩ := h
    refine (draws_hrun _ _ _ k s h1 h2 h3).congr fun a b ha hb => ?_
    rw [← h4]
    exact ⟨And.right, fun hr => ⟨by simp only [inb, decide_eq_true_eq]; omega, hr⟩⟩

theorem draws_vline16 (x y n : Int) (k : Color) (s : State) : Draws16 s (vline16 x y n k s) (inRect x y 1 n) k := by
  have h := clipV_spec x y n
  rw [vline16]
  split <;> rename_i e <;> rw [e] at h
  · exact (Draws16.nothing s k).congr fun a b ha hb =>
      ⟨False.elim, fun hr => h a b (by simp only [inb, decide_eq_true_eq]; omega) hr⟩
  · obtain ⟨h1, h2, h3, -, h4⟩ := h
    refine (draws_vrun _ _ _ k s h1 h2 h3).congr fun a b ha hb => ?_
    rw [← h4]
    exact ⟨And.right, fun hr => ⟨by simp only [inb, decide_eq_true_eq]; omega, hr⟩⟩

/-- The pixels of a stroke (R209). -/
def strokeShape : Stroke → Int → Int → Prop
  | .h x y w => inRect x y w 1
  | .v x y h => inRect x y 1 h
  | .px x y => fun px py => px = x ∧ py = y

theorem draws_stroke16 (k : Color) (s : State) (z : Stroke) : Draws16 s (stroke16 k s z) (strokeShape z) k := by
  cases z with
  | h x y w => exact draws_hline16 x y w k s
  | v x y h => exact draws_vline16 x y h k s
  | px x y => exact draws_pixel16 x y k s

/-- The strokes of a line cover exactly its points (R209). -/
theorem lineStrokes_shape (x0 y0 x1 y1 px py : Int) :
    (∃ z ∈ lineStrokes x0 y0 x1 y1, strokeShape z px py) ↔ onLine x0 y0 x1 y1 px py := by
  simp only [lineStrokes, onLine, absInt_eq]
  split
  · simp only [List.mem_singleton, exists_eq_left, strokeShape, inRect]
    rcases abs_cases (x1 - x0) with ⟨h, _⟩ | ⟨h, _⟩ <;> rw [h] <;> omega
  · split
    · simp only [List.mem_singleton, exists_eq_left, strokeShape, inRect]
      rcases abs_cases (y1 - y0) with ⟨h, _⟩ | ⟨h, _⟩ <;> rw [h] <;> omega
    · constructor
      · rintro ⟨z, hz, hs⟩
        obtain ⟨p, hp, rfl⟩ := List.mem_map.1 hz
        obtain ⟨h1, h2⟩ := hs
        rw [h1, h2]
        exact hp
      · intro h
        exact ⟨_, List.mem_map.2 ⟨_, h, rfl⟩, rfl, rfl⟩

theorem foldl_rowMemo_lookup (l : List Nat) (r : Run) (s : State) (j : Nat) :
    (l.foldl (fun t j => { t with rowMemo := t.rowMemo.insert j r }) s).rowMemo.lookup j =
      if j ∈ l then some r else s.rowMemo.lookup j := by
  induction l generalizing s with
  | nil => simp
  | cons a l ih =>
    rw [List.foldl_cons, ih]
    simp only [Table.lookup_insert, List.mem_cons]
    by_cases h : j ∈ l <;> by_cases h' : j = a <;> simp [h, h']

theorem foldl_rowMemo_eq (l : List Nat) (r : Run) (s : State) :
    l.foldl (fun t j => { t with rowMemo := t.rowMemo.insert j r }) s =
      { s with rowMemo := (l.foldl (fun t j => { t with rowMemo := t.rowMemo.insert j r }) s).rowMemo } := by
  induction l generalizing s with
  | nil => rfl
  | cons a l ih =>
    rw [List.foldl_cons, ih]

/-- The full-width branch of `fillRect`, in one record update (R204). -/
theorem fillFullWidth_eq (y h : Nat) (k : Color) (s : State) :
    ∃ rows : Table Run, fillFullWidth y h k s =
        { flood16 k (240 * h) (winSet 0 y 239 ((y : Int) + h - 1) s) with
          rowMemo := rows, colMemo := s.colMemo.eraseRange 0 240 } ∧
      ∀ j, rows.lookup j = if y ≤ j ∧ j < y + h then some ⟨0, 240, k⟩ else s.rowMemo.lookup j := by
  refine ⟨(fillFullWidth y h k s).rowMemo, ?_, ?_⟩
  · rw [fillFullWidth]
    dsimp only
    rw [foldl_rowMemo_eq]
    simp
  · intro j
    rw [fillFullWidth]
    dsimp only
    rw [foldl_rowMemo_lookup]
    simp only [List.mem_range'_1, flood16_rowMemo, winSet_rowMemo]

theorem draws_fillFullWidth (y h : Nat) (k : Color) (s : State) (hh : 0 < h) (hy : y + h ≤ 320) :
    Draws16 s (fillFullWidth y h k s) (inRect 0 y 240 h) k := by
  obtain ⟨rows, heq, hrows⟩ := fillFullWidth_eq y h k s
  have hp : ∀ p, s.panel = .known p → p.format = .twoBytes → Paints s (fillFullWidth y h k s) (inRect 0 y 240 h) k := by
    intro p hp hf
    have := rect16_paints (x1 := 0) (y1 := y) (w := 240) (h := h) (x2 := 239) (y2 := (y : Int) + h - 1) k hp hf
      (by omega) rfl (by omega) hh (by omega) hy
    rw [heq]
    exact Paints.of_panel this rfl
  have hcar := carries_fillFullWidth (x := true) y h k s
  refine ⟨hcar, fun hs => ?_, fun p h1 h2 _ => hp p h1 h2⟩
  have er : (fillFullWidth y h k s).rowMemo = rows := by rw [heq]
  have ec : (fillFullWidth y h k s).colMemo = s.colMemo.eraseRange 0 240 := by rw [heq]
  refine hs.of_paints (fun q hq => hcar.known hq) hp ⟨?_, ?_⟩ ?_ ?_
  · intro j r hr
    rw [er, hrows] at hr
    split at hr
    · cases hr
      dsimp only
      omega
    · exact hs.1.1 j r hr
  · intro i r hr
    rw [ec, Table.lookup_eraseRange] at hr
    split at hr
    · cases hr
    · exact hs.1.2 i r hr
  · intro j r hr
    rw [er, hrows] at hr
    split at hr
    · cases hr
      refine .inl ⟨rfl, fun i hi => ?_⟩
      dsimp only at hi ⊢
      simp only [inRect]
      omega
    · refine .inr ⟨hr, fun i hi => ?_⟩
      simp only [inRect]
      omega
  · intro i r hr
    rw [ec, Table.lookup_eraseRange] at hr
    split at hr
    · cases hr
    · have := (hs.1.2 i r hr).1
      omega

theorem draws_fillRect16 (x y w h : Int) (k : Color) (s : State) :
    Draws16 s (fillRect16 x y w h k s) (inRect x y w h) k := by
  have hc := clipRect_spec x y w h
  rw [fillRect16]
  split <;> rename_i e <;> rw [e] at hc
  · exact (Draws16.nothing s k).congr fun a b ha hb =>
      ⟨False.elim, fun hr => hc a b (by simp only [inb, decide_eq_true_eq]; omega) hr⟩
  · rename_i xa ya wa ha
    obtain ⟨h1, h2, h3, h4, h5⟩ := hc
    have hall : ∀ a b : Nat, a < 240 → b < 320 → (inRect xa ya wa ha a b ↔ inRect x y w h a b) := by
      intro a b ha hb
      rw [← h5]
      exact ⟨And.right, fun hr => ⟨by simp only [inb, decide_eq_true_eq]; omega, hr⟩⟩
    split
    · rename_i hfull
      obtain rfl : xa = 0 := by omega
      obtain rfl : wa = 240 := hfull.1
      exact (draws_fillFullWidth ya ha k s h2 h4).congr hall
    · refine (Draws16.foldl (f := fun t j => hrun xa j wa k t) (R := fun j => inRect xa j wa 1) _
        (fun t j hj => ?_) s).congr fun a b ha' hb => ?_
      · rw [List.mem_range'_1] at hj
        exact draws_hrun xa j wa k t h1 h3 (by omega)
      · rw [← hall a b ha' hb]
        simp only [inRect, List.mem_range'_1]
        constructor
        · rintro ⟨j, hj, hr⟩
          omega
        · intro hr
          exact ⟨b, by omega, by omega⟩

/-! ### Pieces that write no pixel -/

/-- `t`'s panel, if known, holds the pixels of `s`'s. -/
def KeepsPixels (s t : State) : Prop :=
  ∀ q, t.panel = .known q → ∃ p, s.panel = .known p ∧ q.format = p.format ∧ q.gram = p.gram

theorem KeepsPixels.refl (s : State) : KeepsPixels s s := fun q hq => ⟨q, hq, rfl, rfl⟩

theorem KeepsPixels.of_panel {s t : State} (h : t.panel = s.panel) : KeepsPixels s t := fun q hq => ⟨q, h ▸ hq, rfl, rfl⟩

theorem KeepsPixels.trans {s t u : State} (h : KeepsPixels s t) (k : KeepsPixels t u) : KeepsPixels s u := by
  intro q hq
  obtain ⟨p, hp, hf, hg⟩ := k q hq
  obtain ⟨o, ho, hf', hg'⟩ := h p hp
  exact ⟨o, ho, hf.trans hf', hg.trans hg'⟩

theorem keepsPixels_winSet (x1 y1 x2 y2 : Int) (s : State) : KeepsPixels s (winSet x1 y1 x2 y2 s) := by
  intro q hq
  obtain ⟨p, hp, -⟩ := (carries_winSet (x := true) x1 y1 x2 y2 s).known hq
  rw [winSet_known x1 y1 x2 y2 hp] at hq
  cases hq
  exact ⟨p, hp, rfl, rfl⟩

theorem keepsPixels_winCols (x1 x2 : Int) (s : State) : KeepsPixels s (winCols x1 x2 s) := by
  intro q hq
  obtain ⟨p, hp, -⟩ := (carries_winCols (x := true) x1 x2 s).known hq
  rw [winCols_eq] at hq
  have hq : s.panel.onFrames s.readDummyReads _ = _ := hq
  rw [hp, onFrames_columnWindow] at hq
  cases hq
  exact ⟨p, hp, rfl, rfl⟩

theorem keepsPixels_winRows (y1 y2 : Int) (s : State) : KeepsPixels s (winRows y1 y2 s) := by
  intro q hq
  obtain ⟨p, hp, -⟩ := (carries_winRows (x := true) y1 y2 s).known hq
  rw [winRows_eq] at hq
  have hq : s.panel.onFrames s.readDummyReads _ = _ := hq
  rw [hp, onFrames_rowWindow] at hq
  cases hq
  exact ⟨p, hp, rfl, rfl⟩

theorem Panel.onCommand_gram (d : Nat) (b : Byte) (p : Panel) : (p.onCommand d b).gram = p.gram := by
  rw [Panel.onCommand]
  repeat' split
  all_goals rfl

theorem keepsPixels_command (b : Byte) (s : State) : KeepsPixels s (busWrite .cmd b s) := by
  intro q hq
  have hq : s.panel.onWrite s.readDummyReads .cmd b = .known q := hq
  cases hs : s.panel with
  | unspecified why => rw [hs] at hq; cases hq
  | known p =>
    rw [hs] at hq
    cases hq
    exact ⟨p, rfl, p.onCommand_format _ b, p.onCommand_gram _ b⟩

theorem keepsPixels_busRead (s : State) : KeepsPixels s (busRead s) := by
  intro q hq
  have hq : s.panel.onRead = .known q := hq
  cases hs : s.panel with
  | unspecified why => rw [hs] at hq; cases hq
  | known p =>
    rw [hs] at hq
    exact ⟨p, rfl, Panel.onRead_keeps hq⟩

theorem keepsPixels_busReads (n : Nat) (s : State) : KeepsPixels s (busReads n s).2 := by
  induction n generalizing s with
  | zero => exact .refl s
  | succ n ih => exact (keepsPixels_busRead s).trans (ih _)

theorem keepsPixels_readBegin (s : State) : KeepsPixels s (readBegin s) :=
  ((keepsPixels_command _ s).trans (.of_panel rfl)).trans (keepsPixels_busReads _ _)

theorem keepsPixels_readPixelAt (x y : Int) (s : State) : KeepsPixels s (readPixelAt x y s) :=
  (((keepsPixels_winSet x y x y s).trans (keepsPixels_readBegin _)).trans
    ((keepsPixels_busRead _).trans (keepsPixels_busRead _))).trans (.of_panel rfl)

end Sys2Proof.Machine
end

