-- ==== Sys2Proof/Laws/Sent.lean ====
section
/-! SUPPORT. The frames the drawing pieces send (`Wrote`), and each piece of the 16-bit path in one record update. -/

namespace Sys2Proof.Machine


theorem windowSetFrames_eq (x1 y1 x2 y2 : Int) : windowSetFrames x1 y1 x2 y2 = windowLog x1 y1 x2 y2 := rfl

theorem floodLog16_eq (k : Color) (n : Nat) : .cmd Config.cmdRamwr :: pixelFrames16 k n = floodLog16 k n := rfl

/-- A piece took `s` to `t` and sent exactly the write frames `fs`, the last of them (if any) a data frame: the pins are what
that frame left; the window shadow, the overdraw memory, `prim_state` and chip-select are not spoken of. -/
def Wrote (fs : List Frame) (s t : State) : Prop :=
  ((fs = [] ∧ t.dout = s.dout ∧ t.dcx = s.dcx ∧ t.busPhase = s.busPhase ∧ t.wr = s.wr) ∨
   (∃ b, fs.getLast? = some (.dat b) ∧ t.dout = b ∧ t.dcx = true ∧ t.busPhase = .idle ∧ t.wr = false)) ∧
  t = { s with
    cs := t.cs, primState := t.primState, dout := t.dout, dcx := t.dcx, busPhase := t.busPhase, wr := t.wr
    txlog := s.txlog ++ fs, panel := s.panel.onFrames s.readDummyReads fs
    winX1 := t.winX1, winX2 := t.winX2, winColSet := t.winColSet
    winY1 := t.winY1, winY2 := t.winY2, winRowSet := t.winRowSet
    rowMemo := t.rowMemo, colMemo := t.colMemo }

theorem Wrote.nil (s : State) : Wrote [] s s := ⟨.inl ⟨rfl, rfl, rfl, rfl, rfl⟩, by simp⟩

theorem Wrote.of_eq {fs} {s t u : State} (h : Wrote fs s t) (hu : u = { t with
    cs := u.cs, primState := u.primState
    winX1 := u.winX1, winX2 := u.winX2, winColSet := u.winColSet
    winY1 := u.winY1, winY2 := u.winY2, winRowSet := u.winRowSet
    rowMemo := u.rowMemo, colMemo := u.colMemo }) : Wrote fs s u := by
  obtain ⟨h1, h2⟩ := h
  rw [hu]
  refine ⟨h1, ?_⟩
  dsimp only
  rw [h2]

theorem Wrote.trans {fs gs} {s t u : State} (h : Wrote fs s t) (k : Wrote gs t u) : Wrote (fs ++ gs) s u := by
  obtain ⟨h1, h2⟩ := h
  obtain ⟨k1, k2⟩ := k
  have hr : t.readDummyReads = s.readDummyReads := by rw [h2]
  have hp : t.panel = s.panel.onFrames s.readDummyReads fs := by rw [h2]
  have hl : t.txlog = s.txlog ++ fs := by rw [h2]
  refine ⟨?_, ?_⟩
  · rcases k1 with ⟨rfl, a, b, c, d⟩ | ⟨b, hb, k⟩
    · rw [a, b, c, d, List.append_nil]
      rcases h1 with h1 | h1
      · exact .inl h1
      · exact .inr h1
    · refine .inr ⟨b, ?_, k⟩
      rw [List.getLast?_append, hb]; rfl
  · conv => lhs; rw [k2]
    rw [hr, hp, hl, ← PanelView.onFrames_append, List.append_assoc]
    conv => lhs; rw [h2]

theorem Wrote.sent (fs : List Frame) (b : Byte) (s : State) (h : fs.getLast? = some (.dat b)) : Wrote fs s (sent fs b true s) :=
  ⟨.inr ⟨b, h, rfl, rfl, rfl, rfl⟩, rfl⟩

theorem Wrote.foldl {α : Type} {f : State → α → State} {g : α → List Frame} (h : ∀ s a, Wrote (g a) s (f s a)) (l : List α) (s : State) :
    Wrote (l.flatMap g) s (l.foldl f s) := by
  induction l generalizing s with
  | nil => exact .nil s
  | cons a l ih => exact (h s a).trans (ih _)

/-- The end of the operation turns a piece into the whole (R36, R137). -/
theorem Wrote.drawn {fs} {s t : State} (h : Wrote fs s t) : Drawn s (endIdle t) fs := by
  obtain ⟨h1, h2⟩ := h
  rw [Drawn]
  rcases h1 with ⟨rfl, a, b, c, d⟩ | ⟨b, hb, b1, b2, b3, b4⟩
  · simp only [afterFrames, List.getLast?_nil]
    conv => lhs; rw [h2]
    simp [endIdle, setPrim, finish, a, b, c, d]
  · simp only [afterFrames, hb, afterWrites]
    conv => lhs; rw [h2]
    simp [endIdle, setPrim, finish, b1, b2, b3, b4]

theorem floodLog16_last (k : Color) (n : Nat) : (floodLog16 k (n+1)).getLast? = some (.dat (lo8 k)) := by
  rw [floodLog16, List.replicate_succ', List.flatten_concat, ← List.cons_append, List.getLast?_append]
  rfl
theorem floodLog8_last (k : Byte) (n : Nat) : (floodLog8 k (n+1)).getLast? = some (.dat k) := by
  rw [floodLog8, List.replicate_succ', ← List.cons_append, List.getLast?_concat]

theorem winSet_flood16 (x1 y1 x2 y2 : Int) (k : Color) (n : Nat) (hn : 0 < n) (s : State) :
    flood16 k n (winSet x1 y1 x2 y2 s) =
      { sent (windowLog x1 y1 x2 y2 ++ floodLog16 k n) (lo8 k) true (withShadow x1 y1 x2 y2 s) with primState := .streaming } := by
  obtain ⟨n, rfl⟩ : ∃ m, n = m + 1 := ⟨n - 1, by omega⟩
  rw [flood16_succ, winSet_eq, windowSetFrames_eq, floodLog16_eq]
  simp [sent, withShadow, PanelView.onFrames_append, windowWord]

theorem winSet_flood8 (x1 y1 x2 y2 : Int) (k : Byte) (n : Nat) (hn : 0 < n) (s : State) :
    flood8 k n (winSet x1 y1 x2 y2 s) =
      { sent (windowLog x1 y1 x2 y2 ++ floodLog8 k n) k true (withShadow x1 y1 x2 y2 s) with primState := .streaming } := by
  obtain ⟨n, rfl⟩ : ∃ m, n = m + 1 := ⟨n - 1, by omega⟩
  rw [flood8_succ, winSet_eq, windowSetFrames_eq]
  simp [sent, withShadow, PanelView.onFrames_append, windowWord, floodLog8, Config.cmdRamwr]

theorem wrote_rect16 (x1 y1 x2 y2 : Int) (k : Color) (n : Nat) (hn : 0 < n) (s : State) :
    Wrote (windowLog x1 y1 x2 y2 ++ floodLog16 k n) s (flood16 k n (winSet x1 y1 x2 y2 s)) := by
  rw [winSet_flood16 _ _ _ _ _ _ hn]
  obtain ⟨n, rfl⟩ : ∃ m, n = m + 1 := ⟨n - 1, by omega⟩
  refine (Wrote.sent _ (lo8 k) s ?_).of_eq rfl
  rw [List.getLast?_append, floodLog16_last]; rfl

theorem wrote_rect8 (x1 y1 x2 y2 : Int) (k : Byte) (n : Nat) (hn : 0 < n) (s : State) :
    Wrote (windowLog x1 y1 x2 y2 ++ floodLog8 k n) s (flood8 k n (winSet x1 y1 x2 y2 s)) := by
  rw [winSet_flood8 _ _ _ _ _ _ hn]
  obtain ⟨n, rfl⟩ : ∃ m, n = m + 1 := ⟨n - 1, by omega⟩
  refine (Wrote.sent _ k s ?_).of_eq rfl
  rw [List.getLast?_append, floodLog8_last]; rfl

theorem inb_iff (x y : Int) : inb x y = true ↔ 0 ≤ x ∧ x < 240 ∧ 0 ≤ y ∧ y < 320 := by simp [inb]
theorem inb_iff' (x y : Int) : inb x y = false ↔ ¬ (0 ≤ x ∧ x < 240 ∧ 0 ≤ y ∧ y < 320) := by
  rw [← inb_iff]; simp

theorem pixel16_eq (x y : Int) (k : Color) (s : State) : pixel16 x y k s =
  if inb x y then { sent (windowLog x y x y ++ floodLog16 k 1) (lo8 k) true (withShadow x y x y s) with
     primState := .streaming, rowMemo := s.rowMemo.eraseRange y.toNat 1, colMemo := s.colMemo.eraseRange x.toNat 1 } else s := by
  rw [pixel16]; split
  · rw [flood16_one, winSet_flood16 _ _ _ _ _ _ (by omega)]; rfl
  · rfl
theorem hrun_eq (x y n : Nat) (k : Color) (s : State) (hn : 0 < n) : hrun x y n k s =
  if s.doOverdraw = true ∧ s.rowMemo.lookup y = some ⟨x, n, k⟩ then s else
  { sent (hrunLog x y n k) (lo8 k) true (withShadow x y ((x:Int)+n-1) y s) with
     primState := .streaming, rowMemo := s.rowMemo.insert y ⟨x, n, k⟩, colMemo := s.colMemo.eraseRange x n } := by
  rw [hrun]; split
  · rfl
  · rw [winSet_flood16 _ _ _ _ _ _ hn]; rfl
theorem vrun_eq (x y n : Nat) (k : Color) (s : State) (hn : 0 < n) : vrun x y n k s =
  if s.doOverdraw = true ∧ s.colMemo.lookup x = some ⟨y, n, k⟩ then s else
  { sent (vrunLog x y n k) (lo8 k) true (withShadow x y x ((y:Int)+n-1) s) with
     primState := .streaming, colMemo := s.colMemo.insert x ⟨y, n, k⟩, rowMemo := s.rowMemo.eraseRange y n } := by
  rw [vrun]; split
  · rfl
  · rw [winSet_flood16 _ _ _ _ _ _ hn]; rfl

/-! ### The pieces, frame by frame -/

theorem wrote_pixel16 (x y : Int) (k : Color) (s : State) : Wrote (pixelLog16 x y k) s (pixel16 x y k s) := by
  rw [pixel16, pixelLog16]
  split
  · rw [flood16_one]; exact (wrote_rect16 _ _ _ _ k 1 (by omega) s).of_eq rfl
  · exact .nil s

/-! ### The fast path: every piece is a list of emissions -/

/-- Emissions that paint `v`, one after the other. -/
def emitEach (v : Byte) (es : List Emission) (s : State) : State :=
  es.foldl (fun t e => flood8 v e.n (winSet e.x1 e.y1 e.x2 e.y2 t)) s

theorem foldl_emitEach {α : Type} (v : Byte) (g : α → List Emission) (l : List α) (s : State) :
    l.foldl (fun t a => emitEach v (g a) t) s = emitEach v (l.flatMap g) s := by
  induction l generalizing s with
  | nil => rfl
  | cons a l ih => rw [List.foldl_cons, ih, List.flatMap_cons, emitEach, emitEach, emitEach, List.foldl_append]

theorem fpixel_eq (x y : Int) (v : Byte) (s : State) : fpixel x y v s = emitEach v (pixelEmits x y) s := by
  rw [fpixel, pixelEmits]
  split
  · rw [flood8_one]; rfl
  · rfl

theorem fh_eq (x y w : Int) (v : Byte) (s : State) : fh x y w v s = emitEach v (fhEmits x y w) s := by
  rw [fh, fhEmits]
  rcases clipH x y w with _ | ⟨xa, ya, n⟩ <;> rfl

theorem fv_eq (x y h : Int) (v : Byte) (s : State) : fv x y h v s = emitEach v (fvEmits x y h) s := by
  rw [fv, fvEmits]
  rcases clipV x y h with _ | ⟨xa, ya, n⟩ <;> rfl

theorem stroke8_eq (v : Byte) (s : State) (z : Stroke) : stroke8 v s z = emitEach v (strokeEmits z) s := by
  cases z with
  | h x y w => exact fh_eq x y w v s
  | v x y h => exact fv_eq x y h v s
  | px x y => exact fpixel_eq x y v s

theorem fillRect8_eq (x y w h : Int) (v : Byte) (s : State) :
    fillRect8 x y w h v s = emitEach v (rectEmits x y w h) s := by
  rw [fillRect8, rectEmits]
  rcases clipRect x y w h with _ | ⟨xa, ya, wa, ha⟩ <;> dsimp only
  · rfl
  · split
    · rfl
    · rw [emitEach, List.foldl_map]

/-- Every emission has a pixel. -/
theorem fhEmits_pos (x y w : Int) : ∀ e ∈ fhEmits x y w, 0 < e.n := by
  have h := clipH_spec x y w
  rw [fhEmits]
  rcases e : clipH x y w with _ | ⟨xa, ya, n⟩ <;> rw [e] at h
  · exact fun _ hm => absurd hm List.not_mem_nil
  · exact fun _ hm => List.mem_singleton.1 hm ▸ h.1

theorem fvEmits_pos (x y h : Int) : ∀ e ∈ fvEmits x y h, 0 < e.n := by
  have hc := clipV_spec x y h
  rw [fvEmits]
  rcases e : clipV x y h with _ | ⟨xa, ya, n⟩ <;> rw [e] at hc
  · exact fun _ hm => absurd hm List.not_mem_nil
  · exact fun _ hm => List.mem_singleton.1 hm ▸ hc.1

theorem pixelEmits_pos (x y : Int) : ∀ e ∈ pixelEmits x y, 0 < e.n := by
  rw [pixelEmits]
  split
  · exact fun _ hm => List.mem_singleton.1 hm ▸ Nat.one_pos
  · exact fun _ hm => absurd hm List.not_mem_nil

theorem strokeEmits_pos (z : Stroke) : ∀ e ∈ strokeEmits z, 0 < e.n := by
  cases z with
  | h x y w => exact fhEmits_pos x y w
  | v x y h => exact fvEmits_pos x y h
  | px x y => exact pixelEmits_pos x y

theorem rectEmits_pos (x y w h : Int) : ∀ e ∈ rectEmits x y w h, 0 < e.n := by
  have hc := clipRect_spec x y w h
  rw [rectEmits]
  rcases e : clipRect x y w h with _ | ⟨xa, ya, wa, ha⟩ <;> rw [e] at hc <;> dsimp only
  · exact fun _ hm => absurd hm List.not_mem_nil
  · intro e hm
    have h1 := hc.1
    have h2 := hc.2.1
    split at hm
    · rw [List.mem_singleton.1 hm]
      show 0 < 240 * ha
      omega
    · obtain ⟨j, -, rfl⟩ := List.mem_map.1 hm
      exact h1

theorem fastEmits_pos (i : Instr) : ∀ e ∈ fastEmits i, 0 < e.n := by
  have hflat : ∀ {α : Type} (g : α → List Emission) (l : List α), (∀ a, ∀ e ∈ g a, 0 < e.n) → ∀ e ∈ l.flatMap g, 0 < e.n := by
    intro α g l h e hm
    obtain ⟨a, -, ha⟩ := List.mem_flatMap.1 hm
    exact h a e ha
  cases i <;> try exact fun _ hm => absurd hm List.not_mem_nil
  case fastDrawPixel => exact pixelEmits_pos _ _
  case fastDrawLine => exact hflat _ _ strokeEmits_pos
  case fastDrawFastHLine => exact fhEmits_pos _ _ _
  case fastDrawFastVLine => exact fvEmits_pos _ _ _
  case fastFillRect => exact rectEmits_pos _ _ _ _
  case fastFillScreen => exact rectEmits_pos 0 0 240 320
  case fastFillTriangle => exact hflat _ _ fun _ => fhEmits_pos _ _ _
  case fastDrawTriangle => exact hflat _ _ strokeEmits_pos

theorem wrote_emitEach (v : Byte) {es : List Emission} (h : ∀ e ∈ es, 0 < e.n) (s : State) :
    Wrote (es.flatMap (Emission.log v)) s (emitEach v es s) := by
  induction es generalizing s with
  | nil => exact .nil s
  | cons e es ih =>
    exact (wrote_rect8 _ _ _ _ v _ (h e List.mem_cons_self) s).trans (ih (fun e he => h e (List.mem_cons_of_mem _ he)) _)

/-- What emissions leave of the overdraw memory and of the window shadow. -/
structure EmitsKeep (es : List Emission) (s t : State) : Prop where
  rowMemo : t.rowMemo = s.rowMemo
  colMemo : t.colMemo = s.colMemo
  shadow : shadowOf t = shadowAfter es s

theorem emitsKeep_emitEach (v : Byte) {es : List Emission} (h : ∀ e ∈ es, 0 < e.n) (s : State) :
    EmitsKeep es s (emitEach v es s) := by
  induction es using List.reverseRecOn with
  | nil => exact ⟨rfl, rfl, rfl⟩
  | append_singleton es e ih =>
    obtain ⟨h1, h2, -⟩ := ih fun e he => h e (List.mem_append_left _ he)
    have he : emitEach v (es ++ [e]) s = flood8 v e.n (winSet e.x1 e.y1 e.x2 e.y2 (emitEach v es s)) := by
      rw [emitEach, List.foldl_append]; rfl
    rw [he, winSet_flood8 _ _ _ _ _ _ (h e (List.mem_append_right _ List.mem_cons_self))]
    exact ⟨h1, h2, by simp only [shadowAfter, List.getLast?_concat]; rfl⟩

/-! ### The end of an operation of the fast path (R245) -/
theorem emitted_of_wrote {fs} {s t : State} (h : Wrote fs s t) : emitted s t = decide (fs ≠ []) := by
  rw [emitted, h.2]
  cases fs <;> simp

/-- The eight painting operations of the fast path are their emissions and `fast_end`. -/
theorem fast_exec (i : Instr) (c : Byte) (s : State) (h : colourOf8 i = some c) :
    exec i s = .next (fastEnd s (emitEach c (fastEmits i) s)) := by
  have hs : ∀ l : List Stroke, l.foldl (stroke8 c) s = emitEach c (l.flatMap strokeEmits) s := by
    intro l
    rw [← foldl_emitEach]
    congr
    funext t z
    exact stroke8_eq c t z
  cases i <;> simp [colourOf8] at h <;> subst h
  case fastDrawPixel => exact congrArg (Host.Outcome.next ∘ fastEnd s) (fpixel_eq ..)
  case fastDrawLine => exact congrArg (Host.Outcome.next ∘ fastEnd s) (hs _)
  case fastDrawFastHLine => exact congrArg (Host.Outcome.next ∘ fastEnd s) (fh_eq ..)
  case fastDrawFastVLine => exact congrArg (Host.Outcome.next ∘ fastEnd s) (fv_eq ..)
  case fastFillRect => exact congrArg (Host.Outcome.next ∘ fastEnd s) (fillRect8_eq ..)
  case fastFillScreen => exact congrArg (Host.Outcome.next ∘ fastEnd s) (fillRect8_eq ..)
  case fastFillTriangle =>
    refine congrArg (Host.Outcome.next ∘ fastEnd s) ?_
    rw [fastEmits, ← foldl_emitEach]
    congr
    funext t sp
    exact fh_eq ..
  case fastDrawTriangle => exact congrArg (Host.Outcome.next ∘ fastEnd s) (hs _)

theorem fastLog_eq {i : Instr} {c : Byte} (h : colourOf8 i = some c) :
    fastLog i = (fastEmits i).flatMap (Emission.log c) := by
  rw [fastLog, h]

end Sys2Proof.Machine
end

