-- ==== Sys2Proof/Laws/Paint8.lean ====
section
/-! SUPPORT. What each piece of the fast path paints on a panel in the one-byte format (R249). -/

namespace Sys2Proof.Machine

/-- What a piece of the fast path does on a known panel in the one-byte format: it paints its byte. -/
structure Draws8 (s t : State) (R : Int → Int → Prop) (v : Byte) : Prop where
  paints : ∀ p, s.panel = .known p → p.format = .oneByte → Paints s t R (0#8 ++ v)
theorem Draws8.nothing (s : State) (k : Byte) : Draws8 s s (fun _ _ => False) k :=
  ⟨fun _ hp _ => .nothing _ hp rfl⟩
theorem Draws8.congr {s t : State} {R R' : Int → Int → Prop} {k} (h : Draws8 s t R k)
    (hR : ∀ x y : Nat, x < 240 → y < 320 → (R x y ↔ R' x y)) : Draws8 s t R' k :=
  ⟨fun p hp hf => (h.paints p hp hf).congr hR⟩
theorem Draws8.trans {s t u : State} {R R' : Int → Int → Prop} {k} (h : Draws8 s t R k)
    (h' : Draws8 t u R' k) : Draws8 s u (fun x y => R x y ∨ R' x y) k := by
  refine ⟨fun p hp hf => ?_⟩
  have h1 := h.paints p hp hf
  obtain ⟨q, hq, hfq⟩ := h1.known hp
  exact h1.trans (h'.paints q hq (hfq.trans hf))
theorem Draws8.foldl {α : Type} {f : State → α → State} {R : α → Int → Int → Prop} {k} (l : List α)
    (h : ∀ s, ∀ a ∈ l, Draws8 s (f s a) (R a) k) (s : State) :
    Draws8 s (l.foldl f s) (fun x y => ∃ a ∈ l, R a x y) k := by
  induction l generalizing s with
  | nil => exact (Draws8.nothing s k).congr fun x y _ _ => by simp
  | cons a l ih =>
    refine ((h s a List.mem_cons_self).trans (ih (fun s b hb => h s b (List.mem_cons_of_mem a hb)) (f s a))).congr ?_
    intro x y _ _
    simp
theorem draws_fpixel (x y : Int) (v : Byte) (s : State) :
    Draws8 s (fpixel x y v s) (fun px py => px = x ∧ py = y) v := by
  by_cases hb : inb x y = true
  · have hb' := (inb_iff x y).1 hb
    obtain ⟨a, rfl⟩ : ∃ a : Nat, x = a := ⟨x.toNat, by omega⟩
    obtain ⟨b, rfl⟩ : ∃ b : Nat, y = b := ⟨y.toNat, by omega⟩
    refine ⟨fun p hp hf => ?_⟩
    rw [fpixel, if_pos hb, flood8_one]
    refine (rect8_paints (x1 := a) (y1 := b) (w := 1) (h := 1) v hp hf (by omega) (by omega) (by omega) (by omega) (by omega) (by omega)).congr fun x y _ _ => ?_
    simp only [inRect]
    omega
  · rw [fpixel, if_neg hb]
    refine (Draws8.nothing s v).congr fun a b ha hb' => ?_
    rw [inb_iff] at hb
    constructor
    · exact False.elim
    · rintro ⟨h1, h2⟩
      omega
theorem draws_fh (x y w : Int) (v : Byte) (s : State) : Draws8 s (fh x y w v s) (inRect x y w 1) v := by
  have h := clipH_spec x y w
  rw [fh]
  split <;> rename_i e <;> rw [e] at h
  · exact (Draws8.nothing s v).congr fun a b ha hb =>
      ⟨False.elim, fun hr => h a b (by rw [inb_iff]; omega) hr⟩
  · obtain ⟨h1, h2, h3, -, h4⟩ := h
    refine ⟨fun p hp hf => ?_⟩
    rename_i xa ya n
    have := rect8_paints (y1 := ya) (y2 := ya) (h := 1) v hp hf rfl (by omega) h1 (by omega) h2 (by omega)
    rw [Nat.mul_one] at this
    refine this.congr fun a b ha hb => ?_
    rw [Nat.cast_one, ← h4]
    exact ⟨And.right, fun hr => ⟨by rw [inb_iff]; omega, hr⟩⟩
theorem draws_fv (x y w : Int) (v : Byte) (s : State) : Draws8 s (fv x y w v s) (inRect x y 1 w) v := by
  have h := clipV_spec x y w
  rw [fv]
  split <;> rename_i e <;> rw [e] at h
  · exact (Draws8.nothing s v).congr fun a b ha hb =>
      ⟨False.elim, fun hr => h a b (by rw [inb_iff]; omega) hr⟩
  · obtain ⟨h1, h2, h3, -, h4⟩ := h
    refine ⟨fun p hp hf => ?_⟩
    rename_i xa ya n
    have := rect8_paints (x1 := xa) (x2 := xa) (w := 1) v hp hf (by omega) rfl (by omega) h1 (by omega) h3
    rw [Nat.one_mul] at this
    refine this.congr fun a b ha hb => ?_
    rw [Nat.cast_one, ← h4]
    exact ⟨And.right, fun hr => ⟨by rw [inb_iff]; omega, hr⟩⟩
theorem draws_stroke8 (k : Byte) (s : State) (z : Stroke) : Draws8 s (stroke8 k s z) (strokeShape z) k := by
  cases z with
  | h x y w => exact draws_fh x y w k s
  | v x y h => exact draws_fv x y h k s
  | px x y => exact draws_fpixel x y k s
theorem draws_fillRect8 (x y w h : Int) (k : Byte) (s : State) :
    Draws8 s (fillRect8 x y w h k s) (inRect x y w h) k := by
  have hc := clipRect_spec x y w h
  rw [fillRect8]
  split <;> rename_i e <;> rw [e] at hc
  · exact (Draws8.nothing s k).congr fun a b ha hb =>
      ⟨False.elim, fun hr => hc a b (by rw [inb_iff]; omega) hr⟩
  · rename_i xa ya wa ha
    obtain ⟨h1, h2, h3, h4, h5⟩ := hc
    have hall : ∀ a b : Nat, a < 240 → b < 320 → (inRect xa ya wa ha a b ↔ inRect x y w h a b) := by
      intro a b ha hb
      rw [← h5]
      exact ⟨And.right, fun hr => ⟨by rw [inb_iff]; omega, hr⟩⟩
    split
    · rename_i hfull
      obtain rfl : xa = 0 := by omega
      obtain rfl : wa = 240 := hfull
      refine ⟨fun p hp hf => ?_⟩
      exact (rect8_paints k hp hf (by omega) rfl h1 h2 h3 h4).congr hall
    · refine (Draws8.foldl (f := fun t (j : Nat) => flood8 k wa (winSet xa j ((xa : Int) + wa - 1) j t)) (R := fun j => inRect xa j wa 1) _
        (fun t j hj => ?_) s).congr fun a b ha' hb => ?_
      · rw [List.mem_range'_1] at hj
        refine ⟨fun p hp hf => ?_⟩
        have := rect8_paints (x1 := xa) (y1 := j) (y2 := j) (w := wa) (h := 1) k hp hf rfl (by omega) h1 (by omega) h3 (by omega)
        rw [Nat.mul_one] at this
        exact this
      · rw [← hall a b ha' hb]
        simp only [inRect, List.mem_range'_1]
        constructor
        · rintro ⟨j, hj, hr⟩
          omega
        · intro hr
          exact ⟨b, by omega, by omega⟩

end Sys2Proof.Machine
end

