-- ==== Sys2Proof/Laws/Reads.lean ====
section
/-! SUPPORT. The streams in one record update: `pushColors`, the read streams, the XOR run; and what they do on a known
panel. -/

namespace Sys2Proof.Machine

/-- The loop of `pushColors` in one record update (R169). -/
theorem pushWords_eq (n : Nat) (addr : BitVec 32) (s : State) :
    pushWords (n+1) addr s = { sent ((List.range (n+1)).flatMap fun i => wordLog (bufferWord s addr i)) (lo8 (bufferWord s addr n)) true s with
       freeDraws := s.freeDraws + (n+1) } := by
  induction n generalizing addr s with
  | zero =>
    have h0 : pixMemWord addr s = bufferWord s addr 0 := by
      have : (addr.toNat + 0) % 4294967296 = addr.toNat := by have := addr.isLt; omega
      simp only [pixMemWord, bufferWord]; rw [this, Nat.add_zero]
    rw [pushWords, pushWords, px16_eq, h0]
    rfl
  | succ n ih =>
    rw [pushWords, ih, px16_eq]
    have hw : ∀ i, bufferWord (sent [.dat (hi8 (pixMemWord addr s)), .dat (lo8 (pixMemWord addr s))] (lo8 (pixMemWord addr s)) true (countDraw s)) (addr + 1#32) i = bufferWord s addr (i+1) := by
      intro i
      have e : ((addr + 1#32).toNat + i) % 4294967296 = (addr.toNat + (i+1)) % 4294967296 := by
        rw [BitVec.toNat_add]; simp; omega
      simp only [bufferWord, sent, countDraw, e, Nat.add_assoc, Nat.add_comm 1 i]
    have h0 : pixMemWord addr s = bufferWord s addr 0 := by
      have : (addr.toNat + 0) % 4294967296 = addr.toNat := by have := addr.isLt; omega
      simp only [pixMemWord, bufferWord]; rw [this, Nat.add_zero]
    simp only [hw]
    rw [h0, List.range_succ_eq_map (n := n+1), List.flatMap_cons, List.flatMap_map]
    simp [sent, countDraw, wordLog]
    omega

theorem busReads_add (a b : Nat) (s : State) :
    busReads (a + b) s = ((busReads a s).1 ++ (busReads b (busReads a s).2).1, (busReads b (busReads a s).2).2) := by
  induction a generalizing s with
  | zero => simp
  | succ a ih =>
    rw [show a + 1 + b = (a + b) + 1 by omega, busReads_succ, ih, busReads_succ]; rfl

/-- RAMRD is sent, and no byte read yet (R207, R240). -/
def readCmd (s : State) : State := setPrim .streaming (busWrite .cmd Config.cmdRamrd s)

/-- The dummy reads and at least one read after them are one record update; the bytes are those of the frames. -/
theorem readBegin_reads (n : Nat) (s : State) : ∃ ds vs : List Byte, ds.length = s.readDummyReads ∧ vs.length = n + 1 ∧
    (busReads (n+1) (readBegin s)).1 = vs ∧
    (busReads (n+1) (readBegin s)).2 = received (ds.map .rd ++ vs.map .rd) (s.readDummyReads + (n+1)) (readCmd s) := by
  refine ⟨_, _, busReads_length _ (readCmd s), busReads_length _ _, rfl, ?_⟩
  have h := busReads_add s.readDummyReads (n+1) (readCmd s)
  have h2 := busReads_eq_received (s.readDummyReads + n) (readCmd s)
  rw [show s.readDummyReads + n + 1 = s.readDummyReads + (n+1) by omega, h] at h2
  show (busReads (n+1) (busReads s.readDummyReads (readCmd s)).2).2 = _
  simp only at h2
  rw [h2, List.map_append]; rfl

theorem readCmd_eq (s : State) : readCmd s = { sent [.cmd 0x2E#8] 0x2E#8 false s with primState := .streaming } := by
  rw [readCmd, busWrite_eq_sent]; rfl

/-- An XOR run of at least one pixel in one record update (R240). -/
theorem xorRun_eq (m : Byte) (n : Nat) (s : State) : ∃ ds vs : List Byte, ds.length = s.readDummyReads ∧ vs.length = n + 1 ∧
    (busReads (n+1) (readBegin s)).1 = vs ∧
    ∃ b, (xorLog m ds vs).getLast? = some (.dat b) ∧
    xorRun m (n+1) s = { sent (xorLog m ds vs) b true s with
      primState := .streaming, busDir := .write, rd := false,
      xbuf := vs ++ s.xbuf.drop (n+1), freeDraws := s.freeDraws + (s.readDummyReads + (n+1)) } := by
  obtain ⟨ds, vs, h1, h2, h3, h4⟩ := readBegin_reads n s
  refine ⟨ds, vs, h1, h2, h3, ?_⟩
  simp only [xorRun, h3, h4]
  have hx : ∀ t : State, (fillXbuf vs t).xbuf.take (n+1) = vs := by
    intro t; simp [fillXbuf, ← h2]
  rw [hx]
  obtain ⟨ws, w, rfl⟩ : ∃ ws w, vs = ws ++ [w] := ⟨vs.dropLast, vs.getLast (by intro h; rw [h] at h2; cases h2), (List.dropLast_append_getLast _).symm⟩
  refine ⟨w ^^^ m, by simp [xorLog, List.getLast?_append, List.getLast?_cons], ?_⟩
  rw [List.map_append, List.map_singleton, emitAll_concat_dat, streamBegin_eq, readCmd_eq]
  have hfr : framesOf (List.map (fun b => (WriteKind.dat, b ^^^ m)) ws) = ws.map (fun v => .dat (v ^^^ m)) := by simp [framesOf]
  rw [hfr]
  have hd : ∀ t : State, (fillXbuf (ws ++ [w]) t).xbuf = (ws ++ [w]) ++ t.xbuf.drop (n+1) := by intro t; rw [← h2]; rfl
  have hl : [Frame.cmd 0x2E#8] ++ ((ds.map Frame.rd ++ (ws ++ [w]).map .rd) ++ ([.cmd Config.cmdRamwr] ++ (ws.map (fun v => .dat (v ^^^ m)) ++ [.dat (w ^^^ m)]))) = xorLog m ds (ws ++ [w]) := by
    simp [xorLog, Config.cmdRamwr]
  rw [← hl]
  simp only [sent, received, fillXbuf, PanelView.onFrames_append, List.append_assoc]
  simp [← h2]

/-! ### On a known panel -/

/-- Two pixels of a window land on one cell exactly if their numbers are equal modulo its size (R75). -/
theorem pixel_eq_iff {x1 y1 w h i j : Nat} :
    (pixelCol x1 w i = pixelCol x1 w j ∧ pixelRow y1 w h i = pixelRow y1 w h j) ↔ i % (w * h) = j % (w * h) := by
  simp only [pixelCol, pixelRow, Nat.add_left_cancel_iff]
  rw [Nat.mod_mul, Nat.mod_mul]
  refine ⟨fun ⟨a, b⟩ => by rw [a, b], fun e => ?_⟩
  rcases Nat.eq_zero_or_pos w with rfl | hw
  · simpa using e
  · have hi := Nat.mod_lt i hw
    have hj := Nat.mod_lt j hw
    have h1 : (i % w + w * (i / w % h)) % w = (j % w + w * (j / w % h)) % w := by rw [e]
    rw [Nat.add_mul_mod_self_left, Nat.add_mul_mod_self_left, Nat.mod_mod, Nat.mod_mod] at h1
    rw [h1] at e
    exact ⟨h1, Nat.eq_of_mul_eq_mul_left hw (Nat.add_left_cancel e)⟩

theorem Panel.HasWindow.pixelCol_lt {p : Panel} {x1 y1 w h : Nat} (hw : p.HasWindow x1 y1 w h) (i : Nat) :
    pixelCol x1 w i < 240 := by
  have := Nat.mod_lt i hw.wpos
  have := hw.xin
  simp only [pixelCol]
  omega

/-- A stream no longer than its window: each pixel of it is what its cell holds afterwards. -/
theorem Panel.lookup_putAll_hit {p : Panel} {x1 y1 w h k : Nat} (vs : List Color) (hp : p.Writing x1 y1 w h k)
    (hn : vs.length ≤ w * h) (i : Nat) (hi : i < vs.length) :
    (p.putAll vs).gram.lookup (cellKey (pixelCol x1 w (k + i)) (pixelRow y1 w h (k + i))) = some vs[i] := by
  induction vs using List.reverseRecOn generalizing i with
  | nil => simp at hi
  | append_singleton vs v ih =>
    have hwr := hp.putAll vs
    rw [List.length_append, List.length_singleton] at hn hi
    rw [Panel.putAll_concat, Panel.lookup_put _ hwr (hp.window.pixelCol_lt _)]
    by_cases he : i = vs.length
    · subst he
      rw [if_pos ⟨rfl, rfl⟩]; simp
    · rw [if_neg, ih (by omega) i (by omega), List.getElem_append_left (by omega)]
      rw [pixel_eq_iff]
      intro hm
      have := (Nat.ModEq.add_left_cancel' k hm : i ≡ vs.length [MOD w * h])
      exact he (Nat.ModEq.eq_of_lt_of_lt this (by omega) (by omega))

/-- What a stream of pixels leaves, from any pixel of the window on (R74, R75). -/
theorem Panel.streamed_putAll {p : Panel} {x1 y1 w h k n : Nat} (v : Nat → Color) (hp : p.Writing x1 y1 w h k)
    (hn : n ≤ w * h) :
    p.Streamed (p.putAll ((List.range n).map v)) x1 y1 w h k n v ∧
      (p.putAll ((List.range n).map v)).Writing x1 y1 w h (k + n) := by
  refine ⟨⟨by simp, fun i hi => ?_, fun x y hx hy hno => ?_⟩, ?_⟩
  · have := Panel.lookup_putAll_hit ((List.range n).map v) hp (by simpa using hn) i (by simpa using hi)
    rw [Panel.cell, this]
    simp
  · have := Panel.lookup_putAll_miss ((List.range n).map v) hp (x := x) (y := y) hx fun j h1 h2 => by
      rw [List.length_map, List.length_range] at h2
      have := hno (j - k) (by omega)
      rwa [show k + (j - k) = j by omega] at this
    rw [Panel.cell, this]; rfl
  · simpa using hp.putAll ((List.range n).map v)

/-! ### Read streams -/

/-- Dummy reads on a known panel use up the dummies and nothing else (R76). -/
theorem busReads_dummies (n : Nat) {s : State} {p : Panel} (hs : s.panel = .known p) (ho : p.pOpen = .ramrd) (hd : p.pDummy = n) :
    (busReads n s).2.panel = .known { p with pDummy := 0 } := by
  induction n generalizing s p with
  | zero => rw [busReads_zero, hs, ← hd]
  | succ n ih =>
    rw [busReads_succ]
    have h1 : (busRead s).panel = .known { p with pDummy := n } := by
      show s.panel.onRead = _
      rw [hs]
      simp [PanelView.onRead, Panel.onRead, ho, hd]
    simpa using ih h1 ho rfl

theorem Panel.Reading.of_openRead {p : Panel} {x1 y1 w h : Nat} (d : Nat) (hw : p.HasWindow x1 y1 w h) :
    ({ p.openRead d with pDummy := 0 } : Panel).Reading x1 y1 w h 0 :=
  ⟨rfl, rfl, rfl, ⟨hw.xs, hw.xe, hw.ys, hw.ye, hw.wpos, hw.hpos, hw.xin, hw.yin⟩,
    ⟨by show p.pXs.toNat = _; simpa using hw.xs, by show p.pYs.toNat = _; simpa using hw.ys⟩⟩

theorem readBegin_known {s : State} {p : Panel} (hs : s.panel = .known p) :
    (readBegin s).panel = .known { p.openRead s.readDummyReads with pDummy := 0 } := by
  refine busReads_dummies _ (p := p.openRead s.readDummyReads) ?_ rfl rfl
  show s.panel.onFrame s.readDummyReads (.cmd Config.cmdRamrd) = _
  rw [hs, onFrame_ramrd]

theorem settleMet_busRead (s : State) : settleMet (busRead s) = settleMet s := rfl
theorem settleMet_readBegin (s : State) : settleMet (readBegin s) = settleMet s := by
  have c := carries_readBegin (x := true) s
  simp only [settleMet, c.targetClockHz, c.settleCycles]

theorem Panel.Reading.onRead8 {p : Panel} {x1 y1 w h i : Nat} (hr : p.Reading x1 y1 w h i) (hf : p.format = .oneByte) (free : Byte) :
    p.readByte free = lo8 (p.cell (pixelCol x1 w i) (pixelRow y1 w h i)) ∧ p.onRead = .known p.advance ∧ p.advance.Reading x1 y1 w h (i+1) := by
  obtain ⟨ho, hd, hh, hw, ha⟩ := hr
  have hn := Panel.pixelRefusal_eq_none hw ha
  refine ⟨?_, ?_, ⟨by simpa, by simpa, by simpa, hw.advance, ha.advance hw⟩⟩
  · simp [Panel.readByte, ho, hd, hn, Panel.pixelByte, hf, ha.cx, ha.cy, pixelCol, pixelRow]
  · simp [Panel.onRead, ho, hd, hn, Panel.afterPixelByte, hf]

theorem Panel.cell_gram {p q : Panel} (h : q.gram = p.gram) (x y : Nat) : q.cell x y = p.cell x y := by rw [Panel.cell, Panel.cell, h]

/-- Reads of pixels in the one-byte format return the low bytes of the cells, in the order of the cursor (R76). -/
theorem busReads_pixels8 (n : Nat) {s : State} {p : Panel} {x1 y1 w h i : Nat} (hs : s.panel = .known p) (hr : p.Reading x1 y1 w h i) (hf : p.format = .oneByte)
    (hset : settleMet s = true) :
    (busReads n s).1 = (List.range' i n).map (fun j => lo8 (p.cell (pixelCol x1 w j) (pixelRow y1 w h j))) ∧
    ∃ q, (busReads n s).2.panel = .known q ∧ q.Reading x1 y1 w h (i+n) ∧ q.gram = p.gram ∧ q.format = .oneByte := by
  induction n generalizing s p i with
  | zero => exact ⟨rfl, p, hs, hr, rfl, hf⟩
  | succ n ih =>
    obtain ⟨h1, h2, h3⟩ := hr.onRead8 hf (Config.freeByte s.freeDraws)
    have hp : (busRead s).panel = .known p.advance := by
      show s.panel.onRead = _
      rw [hs]; exact h2
    obtain ⟨k1, q, k2, k3, k4, k5⟩ := ih hp h3 (by simpa) hset
    rw [busReads_succ]
    refine ⟨?_, q, k2, by rwa [show i + (n+1) = i + 1 + n by omega], by simpa using k4, k5⟩
    simp only
    rw [k1, List.range'_succ, List.map_cons]
    congr 1
    · rw [← h1, sampledByte, hset, if_pos rfl, hs]; rfl
    · refine List.map_congr_left fun j _ => ?_
      rw [Panel.cell_gram (p.advance_gram)]

/-- The second read of a pixel in the two-byte format (R76). -/
theorem Panel.onRead_second {P : Panel} (h1 : P.pOpen = .ramrd) (h2 : P.pDummy = 0) (hn : P.pixelRefusal = none) (hf : P.format = .twoBytes) (hh : P.pHalf = .second) (free : Byte) :
    P.readByte free = lo8 (P.cell P.pCx P.pCy) ∧ P.onRead = .known ({ P with pHalf := .none } : Panel).advance := by
  constructor
  · simp [Panel.readByte, h1, h2, hn, Panel.pixelByte, hf, hh]
  · simp [Panel.onRead, h1, h2, hn, Panel.afterPixelByte, hf, hh]

/-- The reads of one pixel, in either format: the bytes of its cell, and the panel is at the next pixel (R75, R76). -/
theorem busReads_pixel {s : State} {p : Panel} {x1 y1 w h i : Nat} (hs : s.panel = .known p)
    (hr : p.Reading x1 y1 w h i) (hset : settleMet s = true) :
    let bs := cellBytes p.format (p.cell (pixelCol x1 w i) (pixelRow y1 w h i))
    (busReads bs.length s).1 = bs ∧
    ∃ q, (busReads bs.length s).2.panel = .known q ∧ q.Reading x1 y1 w h (i + 1) ∧ q.gram = p.gram ∧
      q.format = p.format := by
  obtain ⟨ho, hd, hh, hw, ha⟩ := hr
  have hn := Panel.pixelRefusal_eq_none hw ha
  have hcx : p.pCx = pixelCol x1 w i := ha.cx
  have hcy : p.pCy = pixelRow y1 w h i := ha.cy
  have hsamp : ∀ t : State, settleMet t = true → sampledByte t = t.panel.readByte (Config.freeByte t.freeDraws) :=
    fun t ht => by rw [sampledByte, ht, if_pos rfl]
  have hpan : ∀ t : State, (busRead t).panel = t.panel.onRead := fun _ => rfl
  have hset' : settleMet (busRead s) = true := hset
  cases hf : p.format with
  | oneByte =>
    obtain ⟨r1, r2, r3⟩ := (⟨ho, hd, hh, hw, ha⟩ : p.Reading x1 y1 w h i).onRead8 hf (Config.freeByte s.freeDraws)
    refine ⟨?_, p.advance, ?_, r3, by simp, by simpa using hf⟩
    · show [sampledByte s] = _
      rw [hsamp s hset, hs]
      exact congrArg (fun b => [b]) r1
    · show (busRead s).panel = _
      rw [hpan, hs]
      exact r2
  | twoBytes =>
    have h1 : (busRead s).panel = .known { p with pHalf := .second } := by
      rw [hpan, hs]
      simp [PanelView.onRead, Panel.onRead, ho, hd, hn, Panel.afterPixelByte, hf, hh]
    obtain ⟨k1, k2⟩ := Panel.onRead_second (P := { p with pHalf := .second }) ho hd hn hf rfl
      (Config.freeByte (busRead s).freeDraws)
    have hw' : ({ p with pHalf := .none } : Panel).HasWindow x1 y1 w h :=
      ⟨hw.xs, hw.xe, hw.ys, hw.ye, hw.wpos, hw.hpos, hw.xin, hw.yin⟩
    have ha' : ({ p with pHalf := .none } : Panel).AtPixel x1 y1 w h i := ⟨ha.cx, ha.cy⟩
    refine ⟨?_, ({ p with pHalf := .none } : Panel).advance, ?_,
      ⟨by simpa using ho, by simpa using hd, by simp, hw'.advance, ha'.advance hw'⟩, by simp, by simpa using hf⟩
    · show [sampledByte s, sampledByte (busRead s)] = _
      rw [hsamp s hset, hsamp _ hset', hs, h1]
      refine congrArg₂ (fun a b => [a, b]) ?_ ?_
      · simp [PanelView.readByte, Panel.readByte, ho, hd, hn, Panel.pixelByte, hf, hh, hcx, hcy]
      · rw [← hcx, ← hcy]; exact k1
    · show (busRead (busRead s)).panel = _
      rw [hpan, h1]
      exact k2

theorem Panel.streamBytes_succ (p : Panel) (x1 y1 w h i n : Nat) :
    p.streamBytes x1 y1 w h i (n + 1) =
      cellBytes p.format (p.cell (pixelCol x1 w i) (pixelRow y1 w h i)) ++ p.streamBytes x1 y1 w h (i + 1) n := by
  simp [Panel.streamBytes, List.range_succ_eq_map, List.flatMap_map, Nat.add_assoc, Nat.add_comm 1]

/-- A read stream depends on the pixels and their format alone. -/
theorem Panel.streamBytes_congr {p q : Panel} (hg : q.gram = p.gram) (hf : q.format = p.format) (x1 y1 w h i n : Nat) :
    q.streamBytes x1 y1 w h i n = p.streamBytes x1 y1 w h i n := by
  rw [Panel.streamBytes, Panel.streamBytes, hf]
  simp only [Panel.cell_gram hg]

/-- The reads of `n` pixels, in either format (R75, R76). -/
theorem busReads_pixels (n : Nat) {s : State} {p : Panel} {x1 y1 w h i : Nat} (hs : s.panel = .known p)
    (hr : p.Reading x1 y1 w h i) (hset : settleMet s = true) :
    (busReads (p.streamBytes x1 y1 w h i n).length s).1 = p.streamBytes x1 y1 w h i n ∧
    ∃ q, (busReads (p.streamBytes x1 y1 w h i n).length s).2.panel = .known q ∧ q.Reading x1 y1 w h (i + n) ∧
      q.gram = p.gram ∧ q.format = p.format := by
  induction n generalizing s p i with
  | zero => exact ⟨rfl, p, hs, hr, rfl, rfl⟩
  | succ n ih =>
    obtain ⟨a1, o, a2, a3, a4, a5⟩ := busReads_pixel hs hr hset
    have hset' : settleMet (busReads (cellBytes p.format (p.cell (pixelCol x1 w i) (pixelRow y1 w h i))).length s).2 =
        true := by
      have c := carries_busReads (x := true)
        (cellBytes p.format (p.cell (pixelCol x1 w i) (pixelRow y1 w h i))).length s
      simpa only [settleMet, c.targetClockHz, c.settleCycles] using hset
    obtain ⟨b1, q, b2, b3, b4, b5⟩ := ih a2 a3 hset'
    rw [Panel.streamBytes_congr a4 a5] at b1 b2
    rw [Panel.streamBytes_succ, List.length_append, busReads_add]
    exact ⟨by rw [a1, b1], q, b2, by rwa [show i + (n + 1) = i + 1 + n by omega], b4.trans a4, b5.trans a5⟩

/-- Chip-select and `result` do not enter a read cycle. -/
theorem busReads_of_finish (n : Nat) (r : Color) (s : State) :
    (busReads n (finish { s with result := r })).1 = (busReads n s).1 ∧
      (busReads n (finish { s with result := r })).2.panel = (busReads n s).2.panel := by
  cases n with
  | zero => exact ⟨rfl, rfl⟩
  | succ n =>
    have h : ∀ (m : Nat) (t : State), (busReads m { t with result := r }).1 = (busReads m t).1 ∧
        (busReads m { t with result := r }).2.panel = (busReads m t).2.panel := by
      intro m
      induction m with
      | zero => exact fun _ => ⟨rfl, rfl⟩
      | succ m ih =>
        intro t
        have := ih (busRead t)
        exact ⟨congrArg (sampledByte t :: ·) this.1, this.2⟩
    have := h n (busRead s)
    exact ⟨congrArg (sampledByte s :: ·) this.1, this.2⟩

theorem execAll_cons {i : Instr} {rest : List Instr} {s t : State} (h : exec i s = .next t) :
    execAll (i :: rest) s = execAll rest t := by
  rw [execAll, h]

/-- `readData` again and again is a run of read cycles (R138). -/
theorem execAll_readData (n : Nat) (s : State) :
    ∃ t, execAll (List.replicate n .readData) s = .next t ∧ t.txlog = s.txlog ++ (busReads n s).1.map .rd ∧
      t.panel = (busReads n s).2.panel ∧
      t.result = ((busReads n s).1.getLast?.map fun b => (0#8 ++ b : Color)).getD s.result := by
  induction n generalizing s with
  | zero => exact ⟨s, rfl, by simp, rfl, rfl⟩
  | succ n ih =>
    obtain ⟨t, h1, h2, h3, h4⟩ := ih (finish { busRead s with result := 0#8 ++ sampledByte s })
    obtain ⟨e1, e2⟩ := busReads_of_finish n (0#8 ++ sampledByte s) (busRead s)
    rw [e1] at h2 h4
    rw [e2] at h3
    have hx : exec .readData s = .next (finish { busRead s with result := 0#8 ++ sampledByte s }) := rfl
    have hl : (finish { busRead s with result := 0#8 ++ sampledByte s }).txlog = s.txlog ++ [.rd (sampledByte s)] := rfl
    refine ⟨t, by rw [List.replicate_succ, execAll_cons hx, h1], ?_, by rw [h3, busReads_succ], ?_⟩
    · rw [h2, hl, busReads_succ, List.map_cons, List.append_assoc]
      rfl
    · rw [h4, busReads_succ]
      rcases hb : (busReads n (busRead s)).1.getLast? with _ | b
      · rw [List.getLast?_eq_none_iff] at hb
        simp [hb]
      · simp [List.getLast?_cons, hb]

/-- What an XOR run does to the pixels of the window (R243). -/
theorem xorRun_pixels {s : State} {p : Panel} {x1 y1 w h n : Nat} {m : Byte} (hs : s.panel = .known p) (hw : p.HasWindow x1 y1 w h)
    (hf : p.format = .oneByte) (hset : settleMet s = true) (hn : n + 1 ≤ w * h) :
    ∃ q, (xorRun m (n+1) s).panel = .known q ∧ q.format = .oneByte ∧
      (∀ i, i < n + 1 → q.cell (pixelCol x1 w i) (pixelRow y1 w h i) =
        0#8 ++ (lo8 (p.cell (pixelCol x1 w i) (pixelRow y1 w h i)) ^^^ m)) ∧
      ∀ x y : Nat, x < 240 → (∀ i, i < n + 1 → ¬(x = pixelCol x1 w i ∧ y = pixelRow y1 w h i)) →
        q.cell x y = p.cell x y := by
  have hb := readBegin_known hs
  have hrd := Panel.Reading.of_openRead s.readDummyReads hw
  obtain ⟨k1, q, k2, k3, k4, k5⟩ := busReads_pixels8 (n+1) hb hrd hf ((settleMet_readBegin s).trans hset)
  replace k4 : q.gram = p.gram := k4
  have hcell : ∀ x y, ({ p.openRead s.readDummyReads with pDummy := 0 } : Panel).cell x y = p.cell x y := fun _ _ => rfl
  simp only [hcell] at k1
  have hpan : (xorRun m (n+1) s).panel = .known (q.openWrite.putAll (((List.range (n+1)).map (fun j => lo8 (p.cell (pixelCol x1 w j) (pixelRow y1 w h j)) ^^^ m)).map (0#8 ++ ·))) := by
    simp only [xorRun, k1]
    have htk : ∀ t : State, (fillXbuf ((List.range' 0 (n+1)).map (fun j => lo8 (p.cell (pixelCol x1 w j) (pixelRow y1 w h j)))) t).xbuf.take (n+1) = ((List.range' 0 (n+1)).map (fun j => lo8 (p.cell (pixelCol x1 w j) (pixelRow y1 w h j)))) := by
      intro t; simp only [fillXbuf]; rw [List.take_append_of_le_length (by simp)]; rw [List.take_of_length_le (by simp)]
    rw [htk, List.map_map, List.range_eq_range']
    have hem : ∀ (l : List (WriteKind × Byte)) (t : State), (emitAll l t).panel = t.panel.onFrames t.readDummyReads (framesOf l) := by
      intro l
      induction l with
      | nil => intro t; rfl
      | cons f l ih => intro t; rw [emitAll_cons, ih, busWrite_eq_sent]; simp
    rw [hem]
    have hsb : ∀ t : State, t.panel = .known q → (streamBegin t).panel = .known q.openWrite := by
      intro t ht
      show t.panel.onFrame t.readDummyReads (.cmd Config.cmdRamwr) = _
      rw [ht, onFrame_ramwr]
    rw [hsb _ (by show (busReads (n+1) (readBegin s)).2.panel = _; exact k2)]
    rw [← onFrames_pixels8 _ (by exact k5) k3.window.openWrite]
    congr 1
    simp [framesOf, List.map_map]
  have hwr := k3.window.openWrite
  refine ⟨_, hpan, by simp [Panel.openWrite, k5], ?_, ?_⟩
  · intro i hi
    have := Panel.lookup_putAll_hit (((List.range (n+1)).map (fun j => lo8 (p.cell (pixelCol x1 w j) (pixelRow y1 w h j)) ^^^ m)).map (0#8 ++ ·)) hwr (by simpa using hn) i (by simpa using hi)
    rw [Nat.zero_add] at this
    rw [Panel.cell, this]
    simp
  · intro x y hx hno
    have := Panel.lookup_putAll_miss (((List.range (n+1)).map (fun j => lo8 (p.cell (pixelCol x1 w j) (pixelRow y1 w h j)) ^^^ m)).map (0#8 ++ ·)) hwr (x := x) (y := y) hx (by
      intro j _ h2 h3
      simp only [List.length_map, List.length_range] at h2
      exact hno j (by omega) h3)
    rw [Panel.cell, this]
    show (q.gram.lookup _).getD _ = _
    rw [k4]; rfl

/-- What `fastXORRect` does to the pixels (R242, R243). -/
theorem xorRect_pixels (x y w h : Int) (m : Byte) {s : State} {p : Panel} (hs : s.panel = .known p) (hf : p.format = .oneByte) (hset : settleMet s = true) :
    ∃ q, (xorRect8 x y w h m s).panel = .known q ∧ q.format = .oneByte ∧ ∀ px py : Nat, px < 240 → py < 320 →
      (inRect x y w h px py → q.cell px py = 0#8 ++ (lo8 (p.cell px py) ^^^ m)) ∧ (¬inRect x y w h px py → q.cell px py = p.cell px py) := by
  have hc := clipRect_spec x y w h
  simp only [xorRect8]
  rcases e : clipRect x y w h with _ | ⟨xa, ya, wa, ha⟩ <;> rw [e] at hc <;> dsimp only
  · refine ⟨p, hs, hf, fun px py h1 h2 => ⟨fun hr => ?_, fun _ => rfl⟩⟩
    exact absurd hr (hc px py (by rw [inb_iff]; omega))
  · obtain ⟨h1, h2, h3, h4, h5⟩ := hc
    have main : ∀ n j s p, s.panel = .known p → p.format = .oneByte → settleMet s = true → j + n ≤ 320 → 
       ∃ q, ((List.range' j n).foldl (fun t (j : Nat) => xorRun m wa (winSet xa j ((xa : Int) + wa - 1) j t)) s).panel = .known q ∧ q.format = .oneByte ∧
          ∀ px py : Nat, px < 240 → py < 320 → (inRect xa j wa n px py → q.cell px py = 0#8 ++ (lo8 (p.cell px py) ^^^ m)) ∧ (¬inRect xa j wa n px py → q.cell px py = p.cell px py) := by
      intro n
      induction n with
      | zero =>
        intro j s p hs hf _ _
        refine ⟨p, hs, hf, fun px py _ _ => ⟨fun hr => ?_, fun _ => rfl⟩⟩
        simp only [inRect] at hr; omega
      | succ n ih =>
        intro j s p hs hf hset hj
        have hk := winSet_known xa j ((xa : Int) + wa - 1) j hs
        have hw := p.hasWindow_withWindow (x1 := xa) (y1 := j) (w := wa) (h := 1) (x2 := (xa : Int) + wa - 1) (y2 := j) rfl (by omega) h1 (by omega) h3 (by omega)
        have c1 := (carries_winSet (x := false) xa j ((xa : Int) + wa - 1) j s)
        obtain ⟨n', rfl⟩ : ∃ k, wa = k + 1 := ⟨wa - 1, by omega⟩
        obtain ⟨q, a, b, c, d⟩ := xorRun_pixels (m := m) (n := n') hk hw hf (by simpa only [settleMet, c1.targetClockHz, c1.settleCycles] using hset) (by omega)
        have c2 := c1.trans (carries_xorRun m (n'+1) _)
        obtain ⟨r, e, f, g⟩ := ih (j+1) _ q a b (by simpa only [settleMet, c2.targetClockHz, c2.settleCycles] using hset) (by omega)
        rw [List.range'_succ, List.foldl_cons]
        refine ⟨r, e, f, fun px py hx hy => ?_⟩
        have hrow : inRect xa j (n'+1 : Nat) 1 px py → q.cell px py = 0#8 ++ (lo8 (p.cell px py) ^^^ m) := by
          rintro ⟨i1, i2, i3, i4⟩
          have := c (px - xa) (by omega)
          simp only [pixelCol, pixelRow] at this
          rw [Nat.mod_eq_of_lt (by omega), Nat.mod_one, show xa + (px - xa) = px by omega, show j + 0 = py by omega] at this
          exact this
        have hno : ¬inRect xa j (n'+1 : Nat) 1 px py → q.cell px py = p.cell px py := by
          intro hn
          refine d px py hx fun i hi ⟨u1, u2⟩ => hn ?_
          simp only [pixelCol, pixelRow, Nat.mod_one] at u1 u2
          rw [Nat.mod_eq_of_lt hi] at u1
          simp only [inRect]; omega
        obtain ⟨g1, g2⟩ := g px py hx hy
        constructor
        · intro hin
          by_cases hr : inRect xa j (n'+1 : Nat) 1 px py
          · rw [g2, hrow hr]
            simp only [inRect] at hr ⊢; omega
          · rw [g1, hno hr]
            simp only [inRect] at hr hin ⊢; omega
        · intro hin
          rw [g2, hno]
          · simp only [inRect] at hin ⊢; omega
          · simp only [inRect] at hin ⊢; omega
    obtain ⟨q, a, b, c⟩ := main ha ya s p hs hf hset h4
    refine ⟨q, a, b, fun px py hx hy => ?_⟩
    have : inRect xa ya wa ha px py ↔ inRect x y w h px py := by
      rw [← h5]; exact ⟨And.right, fun hr => ⟨by rw [inb_iff]; omega, hr⟩⟩
    rw [← this]
    exact c px py hx hy

/-- What the in-bounds part of `readPixel` returns and leaves (R207, R76). -/
theorem readPixel_known {s : State} {p : Panel} (x y : Nat) (hx : x < 240) (hy : y < 320) (hs : s.panel = .known p) (hf : p.format = .twoBytes) (hset : settleMet s = true) :
    ∃ q, (readPixelAt x y s).panel = .known q ∧ q.gram = p.gram ∧ (readPixelAt x y s).result = p.cell x y := by
  have hk := winSet_known x y x y hs
  have hw := p.hasWindow_withWindow (x1 := x) (y1 := y) (w := 1) (h := 1) (x2 := x) (y2 := y) (by omega) (by omega) (by omega) (by omega) (by omega) (by omega)
  have hb := readBegin_known hk
  have hr := Panel.Reading.of_openRead (winSet x y x y s).readDummyReads hw
  have c1 := (carries_winSet (x := true) x y x y s)
  have c2 := c1.trans (carries_readBegin (x := true) _)
  have hset' : settleMet (readBegin (winSet x y x y s)) = true := by simpa only [settleMet, c2.targetClockHz, c2.settleCycles] using hset
  generalize htt : (readBegin (winSet x y x y s)) = t at *
  obtain ⟨o, ho, hfo, hgo, hro⟩ : ∃ o : Panel, t.panel = .known o ∧ o.format = .twoBytes ∧ o.gram = p.gram ∧ o.Reading x y 1 1 0 := ⟨_, hb, hf, rfl, hr⟩
  obtain ⟨r1, r2, r3, r4, r5⟩ := hro
  have hn := Panel.pixelRefusal_eq_none r4 r5
  have hcx : o.pCx = x := by rw [r5.cx]; simp
  have hcy : o.pCy = y := by rw [r5.cy]; simp
  have hc : o.cell x y = p.cell x y := Panel.cell_gram hgo x y
  have s1 : sampledByte t = hi8 (p.cell x y) := by
    rw [sampledByte, hset', if_pos rfl, ho]
    simp [PanelView.readByte, Panel.readByte, r1, r2, hn, Panel.pixelByte, hfo, r3, hcx, hcy, hc]
  have p1 : (busRead t).panel = .known { o with pHalf := .second } := by
    show t.panel.onRead = _
    rw [ho]
    simp [PanelView.onRead, Panel.onRead, r1, r2, hn, Panel.afterPixelByte, hfo, r3]
  have hn' : ({ o with pHalf := .second } : Panel).pixelRefusal = none := hn
  have s2 : sampledByte (busRead t) = lo8 (p.cell x y) := by
    rw [sampledByte, settleMet_busRead, hset', if_pos rfl, p1]
    rw [← hc, ← hcx, ← hcy]
    exact (Panel.onRead_second (P := { o with pHalf := .second }) r1 r2 hn' hfo rfl _).1
  refine ⟨({ o with pHalf := .none } : Panel).advance, ?_, by simpa using hgo, ?_⟩
  · have : (busRead (busRead t)).panel = (busRead t).panel.onRead := rfl
    have e : (readPixelAt x y s).panel = (busRead (busRead t)).panel := by rw [readPixelAt, htt]
    rw [e, this, p1]
    exact (Panel.onRead_second (P := { o with pHalf := .second }) r1 r2 hn' hfo rfl 0#8).2
  · have e : (readPixelAt x y s).result = sampledByte t ++ sampledByte (busRead t) := by rw [readPixelAt, htt]
    rw [e]
    rw [s1, s2, hi8_append_lo8]

end Sys2Proof.Machine
end

