-- ==== Sys2Proof/Laws/Kept.lean ====
section
/-! SUPPORT. What every operation does to the overdraw memory, and that every memory keeps its canonical form. -/

namespace Sys2Proof.Machine

theorem busReads_memo (n : Nat) (s : State) : (busReads n s).2.rowMemo = s.rowMemo ∧ (busReads n s).2.colMemo = s.colMemo := by
  induction n generalizing s with
  | zero => exact ⟨rfl, rfl⟩
  | succ n ih => rw [busReads_succ]; exact ih (busRead s)
theorem readBegin_memo (s : State) : (readBegin s).rowMemo = s.rowMemo ∧ (readBegin s).colMemo = s.colMemo :=
  busReads_memo s.readDummyReads (readCmd s)
theorem readPixelAt_memo (x y : Int) (s : State) : (readPixelAt x y s).rowMemo = s.rowMemo ∧ (readPixelAt x y s).colMemo = s.colMemo := by
  obtain ⟨h1, h2⟩ := readBegin_memo (winSet x y x y s)
  rw [winSet_rowMemo] at h1
  rw [winSet_colMemo] at h2
  simp only [readPixelAt, busRead_eq_received, received_rowMemo, received_colMemo]
  exact ⟨h1, h2⟩
theorem Carries.length_le {x} {s t : State} (c : Carries x s t) : s.txlog.length ≤ t.txlog.length := by
  obtain ⟨fs, h, -⟩ := c.sent
  rw [h, List.length_append]; omega
/-- `fastXORRect` that sends nothing does nothing. -/
theorem xorRect8_quiet {x y w h : Int} {m : Byte} {s : State} (he : emitted s (xorRect8 x y w h m s) = false) : xorRect8 x y w h m s = s := by
  have hc := clipRect_spec x y w h
  simp only [xorRect8] at he ⊢
  rcases e : clipRect x y w h with _ | ⟨xa, ya, wa, ha⟩ <;> rw [e] at hc he <;> dsimp only at he ⊢
  exfalso
  obtain ⟨n, rfl⟩ : ∃ k, ha = k + 1 := ⟨ha - 1, by have := hc.2.1; omega⟩
  rw [List.range'_succ, List.foldl_cons] at he
  simp only [emitted, decide_eq_false_iff_not, not_lt] at he
  have c := (carries_foldl (x := false) (fun t (j : Nat) => xorRun m wa (winSet xa j ((xa : Int) + wa - 1) j t)) (fun t j => (carries_winSet _ _ _ _ t).trans (carries_xorRun _ _ _)) (List.range' (ya+1) n) (xorRun m wa (winSet xa ya ((xa : Int) + wa - 1) ya s))).length_le
  have c2 := (carries_xorRun m wa (winSet xa ya ((xa : Int) + wa - 1) ya s)).length_le
  have c3 : s.txlog.length < (winSet xa ya ((xa : Int) + wa - 1) ya s).txlog.length := by
    rw [winSet_eq]; simp [windowSetFrames_eq, windowLog, columnLog]
  omega

/-- What an operation does to the overdraw memory: it is one of the six drawing operations, or it clears the memory, or it
keeps the memory and the pixels. -/
theorem memo_cases (i : Instr) (s t : State) (h : exec i s = .next t) :
    (∃ c, colourOf16 i = some c) ∨ (t.rowMemo = [] ∧ t.colMemo = []) ∨
    (t.rowMemo = s.rowMemo ∧ t.colMemo = s.colMemo ∧ KeepsPixels s t) := by
  cases hc : colourOf8 i with
  | some v =>
    have he := fast_exec i v s hc
    have hw := wrote_emitEach v (fastEmits_pos i) s
    have hk := emitsKeep_emitEach v (fastEmits_pos i) s
    rw [he] at h; cases h
    rw [← fastLog_eq hc] at hw
    generalize emitEach v (fastEmits i) s = u at hw hk
    rw [fastEnd, emitted_of_wrote hw]
    by_cases hf : fastLog i = []
    · rw [hf] at hw
      simp only [hf, ne_eq, not_true_eq_false, decide_false, Bool.false_eq_true, if_false]
      exact .inr (.inr ⟨hk.rowMemo, hk.colMemo, .of_panel (by show u.panel = _; rw [hw.2]; rfl)⟩)
    · simp only [hf, ne_eq, not_false_eq_true, decide_true, if_true]
      exact .inr (.inl ⟨rfl, rfl⟩)
  | none =>
  have same : ∀ u : State, u = s → u.rowMemo = s.rowMemo ∧ u.colMemo = s.colMemo ∧ KeepsPixels s u := fun u hu => by subst hu; exact ⟨rfl, rfl, .refl _⟩
  cases i <;> simp only [exec] at h <;> simp [colourOf8] at hc <;> (try exact .inl ⟨_, rfl⟩) <;> right <;> rw [← Host.Outcome.next.inj h]
  case writeCommand => exact .inl ⟨rfl, rfl⟩
  case caset => exact .inl ⟨rfl, rfl⟩
  case paset => exact .inl ⟨rfl, rfl⟩
  case ramwr => exact .inl ⟨rfl, rfl⟩
  case ramrd => exact .inl ⟨rfl, rfl⟩
  case ramrdCont => exact .inl ⟨rfl, rfl⟩
  case writeData => exact .inl ⟨rfl, rfl⟩
  case readData => exact .inr ⟨rfl, rfl, (keepsPixels_busRead s).trans (.of_panel rfl)⟩
  case clockPulse => exact .inl ⟨rfl, rfl⟩
  case setColumnWindow => exact .inr ⟨by rw [winCols_eq]; rfl, by rw [winCols_eq]; rfl, (keepsPixels_winCols _ _ s).trans (.of_panel (finish_panel _))⟩
  case setRowWindow => exact .inr ⟨by rw [winRows_eq]; rfl, by rw [winRows_eq]; rfl, (keepsPixels_winRows _ _ s).trans (.of_panel (finish_panel _))⟩
  case setPoint => exact .inr ⟨by simp, by simp, (keepsPixels_winSet _ _ _ _ s).trans (.of_panel (finish_panel _))⟩
  case setAddrWindow => exact .inr ⟨by simp, by simp, (keepsPixels_winSet _ _ _ _ s).trans (.of_panel (finish_panel _))⟩
  case pushColor => exact .inl ⟨rfl, rfl⟩
  case pushColors =>
    rw [pushColors]; split
    · exact .inr (same _ rfl)
    · exact .inl ⟨rfl, rfl⟩
  case flood =>
    rw [floodOp]; split
    · exact .inr (same _ rfl)
    · exact .inl ⟨rfl, rfl⟩
  case fastFlood =>
    rw [fastFloodOp]; split
    · exact .inr (same _ rfl)
    · exact .inl ⟨rfl, rfl⟩
  case fastXorFlood =>
    rw [fastXorFloodOp]; split
    · exact .inr (same _ rfl)
    · split
      · exact .inr ⟨rfl, rfl, .of_panel rfl⟩
      · exact .inl ⟨rfl, rfl⟩
  case readPixel =>
    right
    simp only [endIdle_rowMemo, endIdle_colMemo]
    split
    · exact ⟨(readPixelAt_memo ..).1, (readPixelAt_memo ..).2, (keepsPixels_readPixelAt _ _ s).trans (.of_panel (endIdle_panel _))⟩
    · exact ⟨rfl, rfl, .of_panel rfl⟩
  case fastXorRect =>
    rw [fastEnd]; split
    · exact .inl ⟨rfl, rfl⟩
    · rename_i he
      right
      rw [xorRect8_quiet (by simpa using he)]
      exact ⟨rfl, rfl, .of_panel rfl⟩
  all_goals exact .inr ⟨rfl, rfl, .of_panel rfl⟩
/-- The six drawing operations of the 16-bit path are drawing pieces. -/
theorem draws_exec (i : Instr) (c : Color) (s : State) (hc : colourOf16 i = some c) :
   ∃ t, exec i s = .next (endIdle t) ∧ Draws16 s t (touches i) (eff s c) := by
  cases i <;> simp [colourOf16] at hc <;> subst hc
  case drawPixel x y k => exact ⟨_, rfl, draws_pixel16 x y _ s⟩
  case drawLine a b x y k =>
    refine ⟨_, rfl, (Draws16.foldl (f := stroke16 (eff s k)) _ (fun t z _ => draws_stroke16 _ t z) s).congr ?_⟩
    intro x y _ _
    exact lineStrokes_shape _ _ _ _ _ _
  case drawFastHLine => exact ⟨_, rfl, draws_hline16 _ _ _ _ s⟩
  case drawFastVLine => exact ⟨_, rfl, draws_vline16 _ _ _ _ s⟩
  case fillRect => exact ⟨_, rfl, draws_fillRect16 _ _ _ _ _ s⟩
  case fillScreen => exact ⟨_, rfl, draws_fillRect16 _ _ _ _ _ s⟩

/-- Every operation keeps the overdraw memory sound (R201). -/
theorem sound_exec (i : Instr) (s t : State) (hs : MemoSound s) (h : exec i s = .next t) : MemoSound t := by
  rcases memo_cases i s t h with ⟨c, hc⟩ | ⟨h1, h2⟩ | ⟨h1, h2, h3⟩
  · obtain ⟨u, he, hd⟩ := draws_exec i c s hc
    rw [he] at h; cases h
    exact hd.sound hs
  · exact .of_nil h1 h2
  · exact hs.of_same h1 h2 h3

/-! ### The canonical form -/

/-- The pixel memory of a panel, as far as it is known, is in its canonical form. -/
def PanelView.Canon : PanelView → Prop
  | .known p => Memory.wf 76800 p.gram = true
  | .unspecified _ => True

theorem Panel.Canon_onPixelByte {b : Byte} {p : Panel} (hr : p.pixelRefusal = none) (h : Memory.wf 76800 p.gram = true) : Memory.wf 76800 (p.onPixelByte b).gram = true := by
  have hc : p.pCx < 240 ∧ p.pCy < 320 := by
    simp only [Panel.pixelRefusal] at hr
    split at hr
    · cases hr
    · split at hr
      · cases hr
      · rename_i h2; simpa [Panel.cursorInRange] using h2
  have hk : cellKey p.pCx p.pCy < 76800 := by simp only [cellKey]; omega
  rw [Panel.onPixelByte]
  split
  · split
    · rw [Panel.advance_gram]; exact Memory.wf_insert _ h hk
    · exact h
  · rw [Panel.advance_gram]; exact Memory.wf_insert _ h hk

theorem PanelView.Canon.onFrame {d : Nat} {v : PanelView} {f : Frame} (h : v.Canon) : (v.onFrame d f).Canon := by
  cases v with
  | unspecified why => rw [PanelView.onFrame_unspecified]; trivial
  | known p =>
    cases f with
    | cmd b => show Memory.wf _ (p.onCommand d b).gram = true; rw [Panel.onCommand_gram]; exact h
    | dat b =>
      show (p.onData b).Canon
      have hp : ∀ b, Memory.wf 76800 (p.pushParam b).gram = true := fun b => by rw [(p.pushParam_keeps b).2]; exact h
      simp only [Panel.onData]
      split
      · simp only [Panel.onColumnParam]; split <;> exact hp b
      · simp only [Panel.onRowParam]; split <;> exact hp b
      · split
        · trivial
        · exact Panel.Canon_onPixelByte ‹_› h
      all_goals trivial
    | rd v =>
      show p.onRead.Canon
      cases hq : p.onRead with
      | unspecified => trivial
      | known q => show Memory.wf _ q.gram = true; rw [(Panel.onRead_keeps hq).2]; exact h

theorem PanelView.Canon.onFrames {d : Nat} {v : PanelView} {fs : List Frame} (h : v.Canon) : (v.onFrames d fs).Canon := by
  induction fs generalizing v with
  | nil => exact h
  | cons f fs ih => exact ih h.onFrame

/-- The overdraw memory is in its canonical form, and `xbuf` has its length (R28, R29). -/
structure MemosWf (s : State) : Prop where
  row : Memory.wf 320 s.rowMemo = true
  col : Memory.wf 240 s.colMemo = true
  buf : s.xbuf.length = 240

theorem canonical_iff (s : State) : Canonical s ↔ s.panel.Canon ∧ Memory.wf 4294967296 s.pixMem = true ∧ MemosWf s := by
  constructor
  · rintro ⟨h1, h2, h3, h4, h5⟩; exact ⟨h1, h2, h3, h4, h5⟩
  · rintro ⟨h1, h2, h3, h4, h5⟩; exact ⟨h1, h2, h3, h4, h5⟩

theorem MemosWf.of_eq {s t : State} (h : MemosWf s) (h1 : t.rowMemo = s.rowMemo) (h2 : t.colMemo = s.colMemo) (h3 : t.xbuf = s.xbuf) : MemosWf t :=
  ⟨h1 ▸ h.row, h2 ▸ h.col, h3 ▸ h.buf⟩
theorem MemosWf.cleared {s t : State} (h : s.xbuf.length = 240) (h1 : t.rowMemo = []) (h2 : t.colMemo = []) (h3 : t.xbuf = s.xbuf) : MemosWf t :=
  ⟨by rw [h1]; rfl, by rw [h2]; rfl, h3 ▸ h⟩
theorem MemosWf.foldl {α : Type} {f : State → α → State} (l : List α) (h : ∀ s, ∀ a ∈ l, MemosWf s → MemosWf (f s a)) (s : State) (hs : MemosWf s) : MemosWf (l.foldl f s) := by
  induction l generalizing s with
  | nil => exact hs
  | cons a l ih => exact ih (fun s b hb => h s b (List.mem_cons_of_mem _ hb)) _ (h s a List.mem_cons_self hs)
theorem memos_pixel16 (x y k) {s : State} (h : MemosWf s) : MemosWf (pixel16 x y k s) := by
  rw [pixel16_eq]; split
  · exact ⟨Memory.wf_eraseRange _ _ h.row, Memory.wf_eraseRange _ _ h.col, h.buf⟩
  · exact h
theorem memos_hrun (x y n k) {s : State} (hn : 0 < n) (hy : y < 320) (h : MemosWf s) : MemosWf (hrun x y n k s) := by
  rw [hrun_eq _ _ _ _ _ hn]; split
  · exact h
  · exact ⟨Memory.wf_insert _ h.row hy, Memory.wf_eraseRange _ _ h.col, h.buf⟩
theorem memos_vrun (x y n k) {s : State} (hn : 0 < n) (hx : x < 240) (h : MemosWf s) : MemosWf (vrun x y n k s) := by
  rw [vrun_eq _ _ _ _ _ hn]; split
  · exact h
  · exact ⟨Memory.wf_eraseRange _ _ h.row, Memory.wf_insert _ h.col hx, h.buf⟩
theorem memos_hline16 (x y w k) {s : State} (h : MemosWf s) : MemosWf (hline16 x y w k s) := by
  have hc := clipH_spec x y w
  rw [hline16]; split <;> rename_i e <;> rw [e] at hc
  · exact h
  · exact memos_hrun _ _ _ _ hc.1 hc.2.2.1 h
theorem memos_vline16 (x y w k) {s : State} (h : MemosWf s) : MemosWf (vline16 x y w k s) := by
  have hc := clipV_spec x y w
  rw [vline16]; split <;> rename_i e <;> rw [e] at hc
  · exact h
  · exact memos_vrun _ _ _ _ hc.1 hc.2.1 h
theorem memos_stroke16 (k z) {s : State} (h : MemosWf s) : MemosWf (stroke16 k s z) := by
  cases z with
  | h => exact memos_hline16 _ _ _ _ h
  | v => exact memos_vline16 _ _ _ _ h
  | px => exact memos_pixel16 _ _ _ h
theorem memos_fillRect16 (x y w h k) {s : State} (hs : MemosWf s) : MemosWf (fillRect16 x y w h k s) := by
  have hc := clipRect_spec x y w h
  rw [fillRect16]; split <;> rename_i e <;> rw [e] at hc
  · exact hs
  · obtain ⟨h1, h2, h3, h4, -⟩ := hc
    split
    · rename_i xa ya wa ha hf
      rw [fillFullWidth]
      have : MemosWf (flood16 k (240 * ha) (winSet 0 ya 239 ((ya : Int) + ha - 1) s)) := hs.of_eq (by simp) (by simp) ((carries_winSet _ _ _ _ s).trans (carries_flood16 _ _ _) |>.xbuf rfl)
      have := MemosWf.foldl (f := fun t j => { t with rowMemo := t.rowMemo.insert j ⟨0, 240, k⟩ }) (List.range' ya ha) (fun t j hj ht => ⟨Memory.wf_insert _ ht.row (by rw [List.mem_range'_1] at hj; omega), ht.col, ht.buf⟩) _ this
      exact ⟨this.row, Memory.wf_eraseRange _ _ this.col, this.buf⟩
    · exact MemosWf.foldl _ (fun t j hj ht => memos_hrun _ _ _ _ h1 (by rw [List.mem_range'_1] at hj; omega) ht) _ hs
theorem xbuf_xorRun (m n) {s : State} (hn : 0 < n) (h : n ≤ 240) (hs : s.xbuf.length = 240) : (xorRun m n s).xbuf.length = 240 := by
  obtain ⟨n, rfl⟩ : ∃ k, n = k + 1 := ⟨n - 1, by omega⟩
  obtain ⟨ds, vs, h1, h2, -, b, -, h5⟩ := xorRun_eq m n s
  rw [h5]; simp [h2, hs]; omega
theorem xbuf_xorRect8 (x y w h m) {s : State} (hs : s.xbuf.length = 240) : (xorRect8 x y w h m s).xbuf.length = 240 := by
  have hc := clipRect_spec x y w h
  rw [xorRect8]; split <;> rename_i e <;> rw [e] at hc
  · exact hs
  · obtain ⟨h1, h2, h3, h4, -⟩ := hc
    generalize List.range' _ _ = l
    induction l generalizing s with
    | nil => exact hs
    | cons a l ih => exact ih (xbuf_xorRun _ _ h1 (by omega) (by rw [winSet_eq]; exact hs))
/-- Every operation keeps the overdraw memory in its canonical form and `xbuf` at its length. -/
theorem memos_exec (i s t) (hs : MemosWf s) (h : exec i s = .next t) : MemosWf t := by
  have c := carries_exec i s t h
  have hbuf : t.xbuf.length = 240 := by
    by_cases hx : isXor i = true
    · cases i <;> simp [isXor] at hx <;> simp only [exec] at h <;> cases h
      · rw [fastXorFloodOp]; split
        · exact hs.buf
        · split
          · exact hs.buf
          · rename_i h1 h2
            exact xbuf_xorRun _ _ (by omega) (by simpa [Config.xbufBytes] using h2) hs.buf
      · rw [fastEnd]; split <;> exact xbuf_xorRect8 _ _ _ _ _ hs.buf
    · have hx : isXor i = false := by simpa using hx
      have := c.xbuf (by simp [hx])
      rw [this]; exact hs.buf
  rcases memo_cases i s t h with ⟨k, hk⟩ | ⟨h1, h2⟩ | ⟨h1, h2, -⟩
  · cases i <;> simp [colourOf16] at hk <;> simp only [exec] at h <;> cases h
    · exact (memos_pixel16 _ _ _ hs).of_eq rfl rfl rfl
    · exact (MemosWf.foldl _ (fun s z _ h => memos_stroke16 _ z h) _ hs).of_eq rfl rfl rfl
    · exact (memos_hline16 _ _ _ _ hs).of_eq rfl rfl rfl
    · exact (memos_vline16 _ _ _ _ hs).of_eq rfl rfl rfl
    · exact (memos_fillRect16 _ _ _ _ _ hs).of_eq rfl rfl rfl
    · exact (memos_fillRect16 0 0 240 320 _ hs).of_eq (endIdle_rowMemo _) (endIdle_colMemo _) (endIdle_xbuf _)
  · exact ⟨by rw [h1]; rfl, by rw [h2]; rfl, hbuf⟩
  · exact ⟨h1 ▸ hs.row, h2 ▸ hs.col, hbuf⟩
/-- Every memory operation keeps the canonical form. -/
theorem canonical_exec (i s t) (hs : Canonical s) (h : exec i s = .next t) : Canonical t := by
  rw [canonical_iff] at hs ⊢
  have c := carries_exec i s t h
  refine ⟨?_, c.pixMem ▸ hs.2.1, memos_exec i s t hs.2.2 h⟩
  obtain ⟨fs, -, hp⟩ := c.sent
  rw [hp]; exact PanelView.Canon.onFrames hs.1

/-- The memories of the reset state are in their canonical form. -/
theorem memory_wf_reset : Memory.wf 76800 Panel.initialised.gram = true ∧ Memory.wf 4294967296 State.reset.pixMem = true ∧
    Memory.wf 320 State.reset.rowMemo = true ∧ Memory.wf 240 State.reset.colMemo = true := ⟨rfl, rfl, rfl, rfl⟩

end Sys2Proof.Machine
end

