-- ==== Sys2Proof/Laws/Drawing.lean ====
section
/-! SUPPORT. Whole drawing operations: the rows of `fillRect`, shapes that miss the panel, and that the pieces read neither
the masking state (16-bit path) nor any compositing state (fast path). -/

namespace Sys2Proof.Machine

/-! ### Rows (R204) -/

/-- The run of row `j` is remembered, and overdraw avoidance is on (R199). -/
def skipped (s : State) (xa wa : Nat) (k : Color) (j : Nat) : Bool := (s.doOverdraw && decide (s.rowMemo.lookup j = some ⟨xa, wa, k⟩))

theorem hrun_skip {s : State} {xa wa k j} (h : skipped s xa wa k j = true) : hrun xa j wa k s = s := by
  simp only [skipped, Bool.and_eq_true, decide_eq_true_eq] at h
  rw [hrun, if_pos h]
theorem hrun_sent {s : State} {xa wa k j} (hw : 0 < wa) (h : skipped s xa wa k j = false) : hrun xa j wa k s = { sent (hrunLog xa j wa k) (lo8 k) true (withShadow xa j ((xa:Int)+wa-1) j s) with
     primState := .streaming, rowMemo := s.rowMemo.insert j ⟨xa, wa, k⟩, colMemo := s.colMemo.eraseRange xa wa } := by
  rw [hrun_eq _ _ _ _ _ hw, if_neg]
  simp only [skipped, Bool.and_eq_false_iff, decide_eq_false_iff_not] at h
  rintro ⟨h1, h2⟩
  rcases h with h | h
  · rw [h1] at h; cases h
  · exact h h2

theorem hrunLog_last (x y n k) : (hrunLog x y (n+1) k).getLast? = some (.dat (lo8 k)) := by
  rw [hrunLog, List.getLast?_append, floodLog16_last]; rfl

/-- Runs of one length and colour on different rows, one after the other (R204). -/
theorem rows_fold (xa wa : Nat) (k : Color) (hw : 0 < wa) (l : List Nat) (hl : l.Nodup) (s : State) :
    let sr := l.filter fun j => !skipped s xa wa k j
    let t := l.foldl (fun t j => hrun xa j wa k t) s
    Wrote (sr.flatMap fun j => hrunLog xa j wa k) s t ∧
    (shadowOf t = match sr.getLast? with
      | none => shadowOf s
      | some j => shadowOf (withShadow xa j ((xa:Int)+wa-1) j s)) ∧
    (∀ j, t.rowMemo.lookup j = if j ∈ l then some ⟨xa, wa, k⟩ else s.rowMemo.lookup j) ∧
    ∀ i, t.colMemo.lookup i = if sr ≠ [] ∧ xa ≤ i ∧ i < xa + wa then none else s.colMemo.lookup i := by
  induction l generalizing s with
  | nil => exact ⟨.nil s, rfl, by simp, by simp⟩
  | cons a l ih =>
    obtain ⟨hna, hl⟩ := List.nodup_cons.1 hl
    intro sr t
    by_cases hs : skipped s xa wa k a = true
    · have ht : t = l.foldl (fun t j => hrun xa j wa k t) s := by
        show (a :: l).foldl _ _ = _
        rw [List.foldl_cons, hrun_skip hs]
      have hsr : sr = l.filter fun j => !skipped s xa wa k j := by
        show (a :: l).filter _ = _
        rw [List.filter_cons_of_neg (by simp [hs])]
      have := ih hl s
      rw [ht, hsr]
      refine ⟨this.1, this.2.1, fun j => ?_, this.2.2.2⟩
      rw [this.2.2.1 j]
      simp only [List.mem_cons]
      by_cases hj : j = a
      · subst hj
        simp only [hna, if_false, true_or, if_true]
        simp only [skipped, Bool.and_eq_true, decide_eq_true_eq] at hs
        exact hs.2
      · simp only [hj, false_or]
    · have hs : skipped s xa wa k a = false := by simpa using hs
      have e := hrun_sent hw hs
      have ht : t = l.foldl (fun t j => hrun xa j wa k t) (hrun xa a wa k s) := rfl
      have hsk : ∀ j ∈ l, skipped (hrun xa a wa k s) xa wa k j = skipped s xa wa k j := by
        intro j hj
        have hne : j ≠ a := fun h => hna (h ▸ hj)
        rw [e]
        show (s.doOverdraw && decide ((s.rowMemo.insert a ⟨xa, wa, k⟩).lookup j = _)) = _
        rw [Table.lookup_insert_of_ne _ _ hne]; rfl
      have hsr : sr = a :: l.filter fun j => !skipped (hrun xa a wa k s) xa wa k j := by
        show (a :: l).filter _ = _
        rw [List.filter_cons_of_pos (by simp [hs])]
        congr 1
        exact List.filter_congr fun j hj => by rw [hsk j hj]
      obtain ⟨i1, i2, i3, i4⟩ := ih hl (hrun xa a wa k s)
      rw [ht, hsr]
      generalize (l.filter fun j => !skipped (hrun xa a wa k s) xa wa k j) = sr' at *
      refine ⟨?_, ?_, ?_, ?_⟩
      · rw [List.flatMap_cons]
        refine Wrote.trans ?_ i1
        rw [e]
        refine (Wrote.sent _ (lo8 k) s ?_).of_eq rfl
        obtain ⟨n, rfl⟩ : ∃ m, wa = m + 1 := ⟨wa - 1, by omega⟩
        exact hrunLog_last ..
      · rw [i2]
        cases sr' with
        | nil => rw [e]; rfl
        | cons b r => rfl
      · intro j
        rw [i3 j, e]
        simp only [Table.lookup_insert, List.mem_cons]
        by_cases h1 : j ∈ l <;> by_cases h2 : j = a <;> simp [h1, h2]
      · intro i
        rw [i4 i, e]
        simp only [Table.lookup_eraseRange]
        by_cases h1 : xa ≤ i ∧ i < xa + wa <;> simp [h1]

/-! ### Shapes that miss the panel (R210) -/

/-- The shape has no pixel inside the panel. -/
def Misses (R : Int → Int → Prop) : Prop := ∀ px py : Int, 0 ≤ px → px < 240 → 0 ≤ py → py < 320 → ¬R px py
theorem clipH_none {x y w} (h : Misses (inRect x y w 1)) : clipH x y w = none := by
  have hs := clipH_spec x y w
  rcases e : clipH x y w with _ | ⟨xa, ya, n⟩
  · rfl
  · rw [e] at hs
    obtain ⟨h1, h2, h3, -, h4⟩ := hs
    exact absurd ((h4 xa ya).2 (by simp only [inRect]; omega)).2 (h xa ya (by omega) (by omega) (by omega) (by omega))
theorem clipV_none {x y w} (h : Misses (inRect x y 1 w)) : clipV x y w = none := by
  have hs := clipV_spec x y w
  rcases e : clipV x y w with _ | ⟨xa, ya, n⟩
  · rfl
  · rw [e] at hs
    obtain ⟨h1, h2, h3, -, h4⟩ := hs
    exact absurd ((h4 xa ya).2 (by simp only [inRect]; omega)).2 (h xa ya (by omega) (by omega) (by omega) (by omega))
theorem clipRect_none {x y w k} (h : Misses (inRect x y w k)) : clipRect x y w k = none := by
  have hs := clipRect_spec x y w k
  rcases e : clipRect x y w k with _ | ⟨xa, ya, wa, ha⟩
  · rfl
  · rw [e] at hs
    obtain ⟨h1, h2, h3, h3', h4⟩ := hs
    exact absurd ((h4 xa ya).2 (by simp only [inRect]; omega)).2 (h xa ya (by omega) (by omega) (by omega) (by omega))
theorem inb_none {x y} (h : Misses (fun px py => px = x ∧ py = y)) : inb x y = false := by
  rw [inb_iff']; intro hb; exact h x y hb.1 hb.2.1 hb.2.2.1 hb.2.2.2 ⟨rfl, rfl⟩
theorem stroke16_none {k s z} (h : Misses (strokeShape z)) : stroke16 k s z = s := by
  cases z with
  | h x y w => simp only [stroke16, hline16, clipH_none h]
  | v x y w => simp only [stroke16, vline16, clipV_none h]
  | px x y => simp [stroke16, pixel16, inb_none h]
theorem stroke8_none {k s z} (h : Misses (strokeShape z)) : stroke8 k s z = s := by
  cases z with
  | h x y w => simp only [stroke8, fh, clipH_none h]
  | v x y w => simp only [stroke8, fv, clipV_none h]
  | px x y => simp [stroke8, fpixel, inb_none h]
theorem foldl_none {α : Type} {f : State → α → State} (l : List α) (s : State) (h : ∀ a ∈ l, f s a = s) : l.foldl f s = s := by
  induction l with
  | nil => rfl
  | cons a l ih => rw [List.foldl_cons, h a List.mem_cons_self, ih fun b hb => h b (List.mem_cons_of_mem _ hb)]
theorem line_misses {x0 y0 x1 y1 : Int} (h : Misses (onLine x0 y0 x1 y1)) : ∀ z ∈ lineStrokes x0 y0 x1 y1, Misses (strokeShape z) := by
  intro z hz px py a b c d hs
  exact h px py a b c d ((lineStrokes_shape ..).1 ⟨z, hz, hs⟩)
theorem fastEnd_self (s : State) : fastEnd s s = endIdle s := by simp [fastEnd, emitted, endIdle]

/-! ### The masking state (R195) -/


/-- `s` with other masking state. -/
def remask (b1 b3 : Bool) (c1 c2 : Color) (s : State) : State :=
  { s with doMasking := b1, maskFlag := b3, backgroundColor := c1, foregroundColor := c2 }
theorem foldl_comm {α : Type} {f : State → α → State} {U : State → State} (h : ∀ s a, f (U s) a = U (f s a)) (l : List α) (s : State) :
    l.foldl f (U s) = U (l.foldl f s) := by
  induction l generalizing s with
  | nil => rfl
  | cons a l ih => rw [List.foldl_cons, h, ih]; rfl

section
variable (b1 b2 b3 : Bool) (c1 c2 : Color)
theorem remask_rect16 (x1 y1 x2 y2 : Int) (k : Color) (n : Nat) (hn : 0 < n) (s : State) :
   flood16 k n (winSet x1 y1 x2 y2 (remask b1 b3 c1 c2 s)) = remask b1 b3 c1 c2 (flood16 k n (winSet x1 y1 x2 y2 s)) := by
  rw [winSet_flood16 _ _ _ _ _ _ hn, winSet_flood16 _ _ _ _ _ _ hn]; rfl
theorem remask_pixel16 (x y : Int) (k : Color) (s : State) : pixel16 x y k (remask b1 b3 c1 c2 s) = remask b1 b3 c1 c2 (pixel16 x y k s) := by
  rw [pixel16_eq, pixel16_eq]; split <;> rfl
theorem remask_hrun (x y n : Nat) (k : Color) (hn : 0 < n) (s : State) : hrun x y n k (remask b1 b3 c1 c2 s) = remask b1 b3 c1 c2 (hrun x y n k s) := by
  rw [hrun_eq _ _ _ _ _ hn, hrun_eq _ _ _ _ _ hn]
  simp only [show (remask b1 b3 c1 c2 s).doOverdraw = s.doOverdraw from rfl, show (remask b1 b3 c1 c2 s).rowMemo = s.rowMemo from rfl]
  split <;> rfl
theorem remask_vrun (x y n : Nat) (k : Color) (hn : 0 < n) (s : State) : vrun x y n k (remask b1 b3 c1 c2 s) = remask b1 b3 c1 c2 (vrun x y n k s) := by
  rw [vrun_eq _ _ _ _ _ hn, vrun_eq _ _ _ _ _ hn]
  simp only [show (remask b1 b3 c1 c2 s).doOverdraw = s.doOverdraw from rfl, show (remask b1 b3 c1 c2 s).colMemo = s.colMemo from rfl]
  split <;> rfl
theorem remask_hline16 (x y w : Int) (k : Color) (s : State) : hline16 x y w k (remask b1 b3 c1 c2 s) = remask b1 b3 c1 c2 (hline16 x y w k s) := by
  have h := clipH_spec x y w
  simp only [hline16]
  rcases e : clipH x y w with _ | ⟨xa, ya, n⟩ <;> rw [e] at h <;> dsimp only
  exact remask_hrun _ _ _ _ _ _ _ _ h.1 s
theorem remask_vline16 (x y w : Int) (k : Color) (s : State) : vline16 x y w k (remask b1 b3 c1 c2 s) = remask b1 b3 c1 c2 (vline16 x y w k s) := by
  have h := clipV_spec x y w
  simp only [vline16]
  rcases e : clipV x y w with _ | ⟨xa, ya, n⟩ <;> rw [e] at h <;> dsimp only
  exact remask_vrun _ _ _ _ _ _ _ _ h.1 s
theorem remask_stroke16 (k : Color) (s : State) (z : Stroke) : stroke16 k (remask b1 b3 c1 c2 s) z = remask b1 b3 c1 c2 (stroke16 k s z) := by
  cases z with
  | h => exact remask_hline16 ..
  | v => exact remask_vline16 ..
  | px => exact remask_pixel16 ..
theorem remask_fillRect16 (x y w h : Int) (k : Color) (s : State) : fillRect16 x y w h k (remask b1 b3 c1 c2 s) = remask b1 b3 c1 c2 (fillRect16 x y w h k s) := by
  have hc := clipRect_spec x y w h
  simp only [fillRect16]
  rcases e : clipRect x y w h with _ | ⟨xa, ya, wa, ha⟩ <;> rw [e] at hc <;> dsimp only
  rw [show (remask b1 b3 c1 c2 s).doOverdraw = s.doOverdraw from rfl]
  split
  · simp only [fillFullWidth]
    rw [remask_rect16 _ _ _ _ _ _ _ _ _ _ (by have := hc.2.1; omega), foldl_comm (U := remask b1 b3 c1 c2) (fun _ _ => rfl)]; rfl
  · exact foldl_comm (fun s j => remask_hrun _ _ _ _ _ _ _ _ hc.1 s) _ _
end

/-! ### The compositing state (R232) -/

/-- `s` with other compositing state. -/
def recomp (b1 b2 b3 : Bool) (c1 c2 : Color) (s : State) : State :=
  { s with doMasking := b1, doOverdraw := b2, maskFlag := b3, backgroundColor := c1, foregroundColor := c2 }
section
variable (b1 b2 b3 : Bool) (c1 c2 : Color)
theorem rc_emit (fs) (s : State) : emitAll fs (recomp b1 b2 b3 c1 c2 s) = recomp b1 b2 b3 c1 c2 (emitAll fs s) := foldl_comm (f := fun s (f : WriteKind × Byte) => busWrite f.1 f.2 s) (U:=recomp b1 b2 b3 c1 c2) (fun _ _ => rfl) _ _
theorem rc_reads (n : Nat) (s : State) : busReads n (recomp b1 b2 b3 c1 c2 s) = ((busReads n s).1, recomp b1 b2 b3 c1 c2 (busReads n s).2) := by
  induction n generalizing s with
  | zero => rfl
  | succ n ih =>
    rw [busReads_succ, show busRead (recomp b1 b2 b3 c1 c2 s) = recomp b1 b2 b3 c1 c2 (busRead s) from rfl, ih]; rfl
theorem rc_winSet (x1 y1 x2 y2) (s : State) : winSet x1 y1 x2 y2 (recomp b1 b2 b3 c1 c2 s) = recomp b1 b2 b3 c1 c2 (winSet x1 y1 x2 y2 s) := by
  rw [winSet_eq, winSet_eq]; rfl
theorem rc_flood8 (k n) (s : State) : flood8 k n (recomp b1 b2 b3 c1 c2 s) = recomp b1 b2 b3 c1 c2 (flood8 k n s) := by
  rw [flood8, flood8]; split
  · rfl
  · rw [show streamBegin (recomp b1 b2 b3 c1 c2 s) = recomp b1 b2 b3 c1 c2 (streamBegin s) from rfl, rc_emit]
theorem rc_xorRun (k n) (s : State) : xorRun k n (recomp b1 b2 b3 c1 c2 s) = recomp b1 b2 b3 c1 c2 (xorRun k n s) := by
  simp only [xorRun, readBegin]
  rw [show (setPrim .streaming (busWrite .cmd Config.cmdRamrd (recomp b1 b2 b3 c1 c2 s))) = recomp b1 b2 b3 c1 c2 (setPrim .streaming (busWrite .cmd Config.cmdRamrd s)) from rfl]
  rw [show (recomp b1 b2 b3 c1 c2 s).readDummyReads = s.readDummyReads from rfl, rc_reads, rc_reads]
  simp only
  rw [show ∀ bs t, fillXbuf bs (recomp b1 b2 b3 c1 c2 t) = recomp b1 b2 b3 c1 c2 (fillXbuf bs t) from fun _ _ => rfl, show ∀ t, streamBegin (recomp b1 b2 b3 c1 c2 t) = recomp b1 b2 b3 c1 c2 (streamBegin t) from fun _ => rfl, rc_emit]; rfl
theorem rc_fpixel (x y k) (s : State) : fpixel x y k (recomp b1 b2 b3 c1 c2 s) = recomp b1 b2 b3 c1 c2 (fpixel x y k s) := by
  rw [fpixel, fpixel]; split
  · rw [rc_winSet, show ∀ t, streamBegin (recomp b1 b2 b3 c1 c2 t) = recomp b1 b2 b3 c1 c2 (streamBegin t) from fun _ => rfl]; rfl
  · rfl
theorem rc_fh (x y w k) (s : State) : fh x y w k (recomp b1 b2 b3 c1 c2 s) = recomp b1 b2 b3 c1 c2 (fh x y w k s) := by
  simp only [fh]; split
  · rfl
  · rw [rc_winSet, rc_flood8]
theorem rc_fv (x y w k) (s : State) : fv x y w k (recomp b1 b2 b3 c1 c2 s) = recomp b1 b2 b3 c1 c2 (fv x y w k s) := by
  simp only [fv]; split
  · rfl
  · rw [rc_winSet, rc_flood8]
theorem rc_stroke8 (k) (s : State) (z) : stroke8 k (recomp b1 b2 b3 c1 c2 s) z = recomp b1 b2 b3 c1 c2 (stroke8 k s z) := by
  cases z with
  | h => exact rc_fh ..
  | v => exact rc_fv ..
  | px => exact rc_fpixel ..
theorem rc_fillRect8 (x y w h k) (s : State) : fillRect8 x y w h k (recomp b1 b2 b3 c1 c2 s) = recomp b1 b2 b3 c1 c2 (fillRect8 x y w h k s) := by
  simp only [fillRect8]; split
  · rfl
  · split
    · rw [rc_winSet, rc_flood8]
    · exact foldl_comm (fun s j => by rw [rc_winSet, rc_flood8]) _ _
theorem rc_xorRect8 (x y w h k) (s : State) : xorRect8 x y w h k (recomp b1 b2 b3 c1 c2 s) = recomp b1 b2 b3 c1 c2 (xorRect8 x y w h k s) := by
  simp only [xorRect8]; split
  · rfl
  · exact foldl_comm (fun s j => by rw [rc_winSet, rc_xorRun]) _ _
theorem rc_fastEnd (s t : State) : fastEnd (recomp b1 b2 b3 c1 c2 s) (recomp b1 b2 b3 c1 c2 t) = recomp b1 b2 b3 c1 c2 (fastEnd s t) := by
  rw [fastEnd, fastEnd, show emitted (recomp b1 b2 b3 c1 c2 s) (recomp b1 b2 b3 c1 c2 t) = emitted s t from rfl]; split <;> rfl
end

end Sys2Proof.Machine
end

