-- ==== Sys2Proof/Laws/Known.lean ====
section
/-! SUPPORT. Which frames keep a known panel known: the frames of a stream under a window and a cursor inside the panel, so
every piece that programs its own window first; and what a stream under any window can come to (R77, R78). -/

namespace Sys2Proof.Machine

/-- A known panel. -/
def PanelView.IsKnown (v : PanelView) : Prop := ∃ p, v = .known p

/-- A known panel whose window lies inside it (R78). -/
def PanelView.Inside (v : PanelView) : Prop := ∃ p, v = .known p ∧ p.windowInRange = true

/-- A known panel with the stream `o` open whose next pixel frame meets no refusal (R78, log 14). -/
def PanelView.Flows (o : OpenCommand) (v : PanelView) : Prop := ∃ p, v = .known p ∧ p.pOpen = o ∧ p.pixelRefusal = none

/-- A known panel with the stream `o` open, or the refusal its pixel frame met. -/
def PanelView.Streams (o : OpenCommand) (v : PanelView) : Prop :=
  (∃ p, v = .known p ∧ p.pOpen = o) ∨ v = .unspecified .windowOutOfRange ∨ v = .unspecified .cursorOutOfRange

theorem Panel.pixelRefusal_iff {p : Panel} :
    p.pixelRefusal = none ↔ p.windowInRange = true ∧ p.cursorInRange = true := by
  rw [Panel.pixelRefusal]
  cases p.windowInRange <;> cases p.cursorInRange <;> simp

theorem PanelView.Flows.isKnown {o : OpenCommand} {v : PanelView} (h : v.Flows o) : v.IsKnown := h.imp fun _ h => h.1
theorem PanelView.Inside.isKnown {v : PanelView} (h : v.Inside) : v.IsKnown := h.imp fun _ h => h.1
theorem PanelView.Flows.inside {o : OpenCommand} {v : PanelView} (h : v.Flows o) : v.Inside :=
  h.imp fun _ h => ⟨h.1, (Panel.pixelRefusal_iff.1 h.2.2).1⟩

theorem PanelView.IsKnown.ne {v : PanelView} (h : v.IsKnown) (why : PanelRefusal) : v ≠ .unspecified why := by
  rintro rfl
  obtain ⟨p, hp⟩ := h
  cases hp

theorem PanelView.Streams.ne {o : OpenCommand} {v : PanelView} (h : v.Streams o) : v ≠ .unspecified .protocolViolation := by
  rcases h with ⟨p, rfl, -⟩ | rfl | rfl <;> simp

/-! ### One frame -/

theorem Panel.advance_pixelRefusal {p : Panel} (h : p.pixelRefusal = none) : p.advance.pixelRefusal = none := by
  rw [Panel.pixelRefusal_iff] at h ⊢
  simp only [Panel.windowInRange, Panel.cursorInRange, decide_eq_true_eq] at h ⊢
  rw [Panel.advance]
  split
  · split <;> exact ⟨h.1, by dsimp only; omega⟩
  · exact ⟨h.1, by dsimp only; omega⟩

theorem Panel.onPixelByte_flows {p : Panel} (b : Byte) (h : p.pixelRefusal = none) :
    (p.onPixelByte b).pOpen = p.pOpen ∧ (p.onPixelByte b).pixelRefusal = none := by
  rw [Panel.onPixelByte]
  split
  · split
    · exact ⟨by simp [Panel.storePixel], Panel.advance_pixelRefusal h⟩
    · exact ⟨rfl, h⟩
  · exact ⟨by simp [Panel.storePixel], Panel.advance_pixelRefusal h⟩

theorem Panel.afterPixelByte_flows {p : Panel} (h : p.pixelRefusal = none) :
    p.afterPixelByte.pOpen = p.pOpen ∧ p.afterPixelByte.pixelRefusal = none := by
  rw [Panel.afterPixelByte]
  split
  · split
    · exact ⟨rfl, h⟩
    · exact ⟨by simp, Panel.advance_pixelRefusal h⟩
  · exact ⟨by simp, Panel.advance_pixelRefusal h⟩

theorem PanelView.IsKnown.cmd {v : PanelView} (h : v.IsKnown) (d : Nat) (b : Byte) : (v.onFrame d (.cmd b)).IsKnown := by
  obtain ⟨p, rfl⟩ := h
  exact ⟨_, rfl⟩

theorem PanelView.Flows.dat {v : PanelView} (h : v.Flows .ramwr) (d : Nat) (b : Byte) :
    (v.onFrame d (.dat b)).Flows .ramwr := by
  obtain ⟨p, rfl, ho, hr⟩ := h
  have := Panel.onPixelByte_flows b hr
  exact ⟨_, Panel.onData_ramwr ho hr b, this.1.trans ho, this.2⟩

theorem PanelView.Flows.rd {v : PanelView} (h : v.Flows .ramrd) : v.onRead.Flows .ramrd := by
  obtain ⟨p, rfl, ho, hr⟩ := h
  show p.onRead.Flows .ramrd
  rw [Panel.onRead, if_neg (by simp [ho])]
  split
  · exact ⟨_, rfl, ho, hr⟩
  · have := Panel.afterPixelByte_flows hr
    rw [hr]
    exact ⟨_, rfl, this.1.trans ho, this.2⟩

theorem PanelView.Inside.ramwr {v : PanelView} (h : v.Inside) (d : Nat) :
    (v.onFrame d (.cmd Config.cmdRamwr)).Flows .ramwr := by
  obtain ⟨p, rfl, hw⟩ := h
  refine ⟨p.openWrite, onFrame_ramwr d p, rfl, Panel.pixelRefusal_iff.2 ⟨hw, ?_⟩⟩
  simp only [Panel.windowInRange, decide_eq_true_eq] at hw
  exact decide_eq_true (show p.pXs.toNat < 240 ∧ p.pYs.toNat < 320 by omega)

theorem PanelView.Inside.ramrd {v : PanelView} (h : v.Inside) (d : Nat) :
    (v.onFrame d (.cmd Config.cmdRamrd)).Flows .ramrd := by
  obtain ⟨p, rfl, hw⟩ := h
  refine ⟨p.openRead d, onFrame_ramrd d p, rfl, Panel.pixelRefusal_iff.2 ⟨hw, ?_⟩⟩
  simp only [Panel.windowInRange, decide_eq_true_eq] at hw
  exact decide_eq_true (show p.pXs.toNat < 240 ∧ p.pYs.toNat < 320 by omega)

theorem PanelView.streams_of_refusal {o : OpenCommand} {p : Panel} {why : PanelRefusal} (h : p.pixelRefusal = some why) :
    (PanelView.unspecified why).Streams o := by
  rw [Panel.pixelRefusal] at h
  split at h
  · cases h; exact .inr (.inl rfl)
  · split at h
    · cases h; exact .inr (.inr rfl)
    · cases h

theorem PanelView.Streams.dat {v : PanelView} (h : v.Streams .ramwr) (d : Nat) (b : Byte) :
    (v.onFrame d (.dat b)).Streams .ramwr := by
  rcases h with ⟨p, rfl, ho⟩ | rfl | rfl
  · rcases hr : p.pixelRefusal with _ | why
    · exact .inl ((PanelView.Flows.dat ⟨p, rfl, ho, hr⟩ d b).imp fun _ h => ⟨h.1, h.2.1⟩)
    · have : (PanelView.known p).onFrame d (.dat b) = .unspecified why := by
        show p.onData b = _
        rw [Panel.onData, ho]; dsimp only; rw [hr]
      exact this ▸ PanelView.streams_of_refusal hr
  · exact .inr (.inl rfl)
  · exact .inr (.inr rfl)

theorem PanelView.Streams.rd {v : PanelView} (h : v.Streams .ramrd) : v.onRead.Streams .ramrd := by
  rcases h with ⟨p, rfl, ho⟩ | rfl | rfl
  · rcases hr : p.pixelRefusal with _ | why
    · exact .inl ((PanelView.Flows.rd ⟨p, rfl, ho, hr⟩).imp fun _ h => ⟨h.1, h.2.1⟩)
    · show p.onRead.Streams .ramrd
      rw [Panel.onRead, if_neg (by simp [ho])]
      split
      · exact .inl ⟨_, rfl, ho⟩
      · rw [hr]; exact PanelView.streams_of_refusal hr
  · exact .inr (.inl rfl)
  · exact .inr (.inr rfl)

theorem PanelView.Streams.ramwr {o : OpenCommand} {v : PanelView} (h : v.Streams o) (d : Nat) :
    (v.onFrame d (.cmd Config.cmdRamwr)).Streams .ramwr := by
  rcases h with ⟨p, rfl, -⟩ | rfl | rfl
  · exact .inl ⟨_, onFrame_ramwr d p, rfl⟩
  · exact .inr (.inl rfl)
  · exact .inr (.inr rfl)

/-! ### The pieces -/

/-- A predicate on panels that data frames keep holds after write cycles of data. -/
theorem emitAll_dat_keeps {P : PanelView → Prop} (hP : ∀ v d b, P v → P (v.onFrame d (.dat b)))
    (fs : List (WriteKind × Byte)) (hfs : ∀ f ∈ fs, f.1 = .dat) (s : State) (h : P s.panel) : P (emitAll fs s).panel := by
  induction fs generalizing s with
  | nil => exact h
  | cons f fs ih =>
    have h1 := hfs f List.mem_cons_self
    refine ih (fun g hg => hfs g (List.mem_cons_of_mem _ hg)) _ ?_
    show P (busWrite f.1 f.2 s).panel
    rw [busWrite_eq_sent, h1]
    exact hP _ s.readDummyReads _ h

/-- A predicate on panels that read frames keep holds after read cycles. -/
theorem busReads_keeps {P : PanelView → Prop} (hP : ∀ v, P v → P v.onRead) (n : Nat) (s : State) (h : P s.panel) :
    P (busReads n s).2.panel := by
  induction n generalizing s with
  | zero => exact h
  | succ n ih => exact ih (busRead s) (hP _ h)

theorem streamBegin_panel (s : State) :
    (streamBegin s).panel = s.panel.onFrame s.readDummyReads (.cmd Config.cmdRamwr) := rfl

theorem px16Frames_flatten_dat (k : Color) (n : Nat) : ∀ f ∈ (List.replicate n (px16Frames k)).flatten, f.1 = .dat := by
  intro f hf
  obtain ⟨l, hl, hf⟩ := List.mem_flatten.1 hf
  rw [List.eq_of_mem_replicate hl, px16Frames] at hf
  simp only [List.mem_cons, List.not_mem_nil, or_false] at hf
  rcases hf with rfl | rfl <;> rfl

/-- What holds of a panel with a write stream open, and is kept by data frames, holds after a flood that sent a frame. -/
theorem flood16_keeps {P : PanelView → Prop} (hP : ∀ v d b, P v → P (v.onFrame d (.dat b))) (k : Color) {n : Nat}
    (hn : n ≠ 0) {s : State} (h : P (streamBegin s).panel) : P (flood16 k n s).panel := by
  rw [flood16, if_neg hn]
  exact emitAll_dat_keeps hP _ (px16Frames_flatten_dat k n) _ h

theorem flood8_keeps {P : PanelView → Prop} (hP : ∀ v d b, P v → P (v.onFrame d (.dat b))) (k : Byte) {n : Nat}
    (hn : n ≠ 0) {s : State} (h : P (streamBegin s).panel) : P (flood8 k n s).panel := by
  rw [flood8, if_neg hn]
  refine emitAll_dat_keeps hP _ (fun f hf => ?_) _ h
  rw [List.eq_of_mem_replicate hf]

theorem pushWords_keeps {P : PanelView → Prop} (hP : ∀ v d b, P v → P (v.onFrame d (.dat b))) (n : Nat)
    (addr : BitVec 32) {s : State} (h : P s.panel) : P (pushWords n addr s).panel := by
  induction n generalizing addr s with
  | zero => exact h
  | succ n ih =>
    refine ih _ (emitAll_dat_keeps hP _ (fun f hf => ?_) _ h)
    simp only [px16Frames, List.mem_cons, List.not_mem_nil, or_false] at hf
    rcases hf with rfl | rfl <;> rfl

/-- An XOR run: what holds with the read stream open and is kept by reads, then by RAMWR, then by data frames. -/
theorem xorRun_keeps {P Q : PanelView → Prop} (hP : ∀ v, P v → P v.onRead) (hQ : ∀ v d b, Q v → Q (v.onFrame d (.dat b)))
    (hPQ : ∀ v d, P v → Q (v.onFrame d (.cmd Config.cmdRamwr))) (m : Byte) (n : Nat) {s : State}
    (h : P (s.panel.onFrame s.readDummyReads (.cmd Config.cmdRamrd))) : Q (xorRun m n s).panel := by
  refine emitAll_dat_keeps hQ _ (fun f hf => ?_) _ (hPQ _ _ (busReads_keeps hP n _ (busReads_keeps hP _ _ h)))
  obtain ⟨b, -, rfl⟩ := List.mem_map.1 hf
  rfl

theorem inside_winSet {s : State} (h : s.panel.IsKnown) {x1 y1 w k : Nat} {x2 y2 : Int} (hx2 : x2 = (x1 : Int) + w - 1)
    (hy2 : y2 = (y1 : Int) + k - 1) (hw : 0 < w) (hk : 0 < k) (hx : x1 + w ≤ 240) (hy : y1 + k ≤ 320) :
    (winSet x1 y1 x2 y2 s).panel.Inside := by
  obtain ⟨p, hp⟩ := h
  have hwr := p.writing_of_window hx2 hy2 hw hk hx hy
  refine ⟨p.withWindow (windowWord x1) (windowWord x2) (windowWord y1) (windowWord y2), ?_, hwr.window.windowInRange⟩
  rw [winSet_eq, ← onFrames_windowSet s.readDummyReads, ← hp]
  rfl

theorem known_flood16 {s : State} (h : s.panel.Inside) (k : Color) (n : Nat) : (flood16 k n s).panel.IsKnown := by
  by_cases hn : n = 0
  · subst hn; exact h.isKnown
  · exact (flood16_keeps (fun _ d b h => h.dat d b) k hn (h.ramwr _)).isKnown

theorem known_flood8 {s : State} (h : s.panel.Inside) (v : Byte) (n : Nat) : (flood8 v n s).panel.IsKnown := by
  by_cases hn : n = 0
  · subst hn; exact h.isKnown
  · exact (flood8_keeps (fun _ d b h => h.dat d b) v hn (h.ramwr _)).isKnown

theorem known_xorRun {s : State} (h : s.panel.Inside) (m : Byte) (n : Nat) : (xorRun m n s).panel.IsKnown :=
  (xorRun_keeps (P := PanelView.Flows .ramrd) (Q := PanelView.Flows .ramwr) (fun _ h => h.rd) (fun _ d b h => h.dat d b)
    (fun _ d h => h.inside.ramwr d) m n (h.ramrd _)).isKnown

theorem known_foldl {α : Type} (f : State → α → State) (l : List α)
    (hf : ∀ s, ∀ a ∈ l, s.panel.IsKnown → (f s a).panel.IsKnown) (s : State) (h : s.panel.IsKnown) :
    (l.foldl f s).panel.IsKnown := by
  induction l generalizing s with
  | nil => exact h
  | cons a l ih => exact ih (fun s b hb => hf s b (List.mem_cons_of_mem _ hb)) _ (hf s a List.mem_cons_self h)

/-- A pixel of a panel is a window of one pixel. -/
theorem inside_winSet_pixel {s : State} (h : s.panel.IsKnown) {x y : Int} (hb : inb x y = true) :
    (winSet x y x y s).panel.Inside := by
  rw [inb_iff] at hb
  have := inside_winSet (x1 := x.toNat) (y1 := y.toNat) (w := 1) (k := 1) (x2 := x) (y2 := y) h (by omega) (by omega)
    (by omega) (by omega) (by omega) (by omega)
  rwa [show ((x.toNat : Nat) : Int) = x by omega, show ((y.toNat : Nat) : Int) = y by omega] at this

theorem known_pixel16 {s : State} (h : s.panel.IsKnown) (x y : Int) (k : Color) : (pixel16 x y k s).panel.IsKnown := by
  rw [pixel16]
  split
  · rename_i hb
    exact known_flood16 (inside_winSet_pixel h hb) k 1
  · exact h

theorem known_hrun {s : State} (h : s.panel.IsKnown) {x y n : Nat} (k : Color) (hn : 0 < n) (hx : x + n ≤ 240)
    (hy : y < 320) : (hrun x y n k s).panel.IsKnown := by
  rw [hrun]
  split
  · exact h
  · exact known_flood16 (inside_winSet (k := 1) h rfl (by omega) hn (by omega) hx (by omega)) k n

theorem known_vrun {s : State} (h : s.panel.IsKnown) {x y n : Nat} (k : Color) (hn : 0 < n) (hx : x < 240)
    (hy : y + n ≤ 320) : (vrun x y n k s).panel.IsKnown := by
  rw [vrun]
  split
  · exact h
  · exact known_flood16 (inside_winSet (w := 1) h (by omega) rfl (by omega) hn (by omega) hy) k n

theorem known_stroke16 {s : State} (h : s.panel.IsKnown) (k : Color) (z : Stroke) : (stroke16 k s z).panel.IsKnown := by
  cases z with
  | h x y w =>
    have hc := clipH_spec x y w
    rw [stroke16, hline16]
    rcases e : clipH x y w with _ | ⟨xa, ya, n⟩ <;> rw [e] at hc
    · exact h
    · exact known_hrun h k hc.1 hc.2.1 hc.2.2.1
  | v x y w =>
    have hc := clipV_spec x y w
    rw [stroke16, vline16]
    rcases e : clipV x y w with _ | ⟨xa, ya, n⟩ <;> rw [e] at hc
    · exact h
    · exact known_vrun h k hc.1 hc.2.1 hc.2.2.1
  | px x y => exact known_pixel16 h x y k

theorem known_fillRect16 {s : State} (h : s.panel.IsKnown) (x y w l : Int) (k : Color) :
    (fillRect16 x y w l k s).panel.IsKnown := by
  have hc := clipRect_spec x y w l
  rw [fillRect16]
  rcases e : clipRect x y w l with _ | ⟨xa, ya, wa, ha⟩ <;> rw [e] at hc
  · exact h
  · obtain ⟨h1, h2, h3, h4, -⟩ := hc
    dsimp only
    split
    · rename_i hf
      have h0 := known_flood16 (inside_winSet (x1 := 0) (w := 240) h (x2 := 239) (by omega) rfl (by omega) h2 (by omega) h4)
        k (240 * ha)
      exact known_foldl (fun t j => { t with rowMemo := t.rowMemo.insert j ⟨0, 240, k⟩ }) _ (fun _ _ _ h => h) _ h0
    · refine known_foldl _ _ (fun t j hj ht => ?_) _ h
      rw [List.mem_range'_1] at hj
      exact known_hrun ht k h1 h3 (by omega)

theorem known_fpixel {s : State} (h : s.panel.IsKnown) (x y : Int) (v : Byte) : (fpixel x y v s).panel.IsKnown := by
  rw [fpixel]
  split
  · rename_i hb
    exact known_flood8 (inside_winSet_pixel h hb) v 1
  · exact h

theorem known_fh {s : State} (h : s.panel.IsKnown) (x y w : Int) (v : Byte) : (fh x y w v s).panel.IsKnown := by
  have hc := clipH_spec x y w
  rw [fh]
  rcases e : clipH x y w with _ | ⟨xa, ya, n⟩ <;> rw [e] at hc
  · exact h
  · exact known_flood8 (inside_winSet (k := 1) h rfl (by omega) hc.1 (by omega) hc.2.1 (by omega)) v n

theorem known_fv {s : State} (h : s.panel.IsKnown) (x y l : Int) (v : Byte) : (fv x y l v s).panel.IsKnown := by
  have hc := clipV_spec x y l
  rw [fv]
  rcases e : clipV x y l with _ | ⟨xa, ya, n⟩ <;> rw [e] at hc
  · exact h
  · exact known_flood8 (inside_winSet (w := 1) h (by omega) rfl (by omega) hc.1 (by omega) hc.2.2.1) v n

theorem known_stroke8 {s : State} (h : s.panel.IsKnown) (v : Byte) (z : Stroke) : (stroke8 v s z).panel.IsKnown := by
  cases z with
  | h x y w => exact known_fh h x y w v
  | v x y l => exact known_fv h x y l v
  | px x y => exact known_fpixel h x y v

theorem known_fillRect8 {s : State} (h : s.panel.IsKnown) (x y w l : Int) (v : Byte) :
    (fillRect8 x y w l v s).panel.IsKnown := by
  have hc := clipRect_spec x y w l
  rw [fillRect8]
  rcases e : clipRect x y w l with _ | ⟨xa, ya, wa, ha⟩ <;> rw [e] at hc
  · exact h
  · obtain ⟨h1, h2, h3, h4, -⟩ := hc
    dsimp only
    split
    · exact known_flood8 (inside_winSet (x1 := 0) (w := 240) h (by omega) rfl (by omega) h2 (by omega) h4) v _
    · refine known_foldl _ _ (fun t j hj ht => ?_) _ h
      rw [List.mem_range'_1] at hj
      exact known_flood8 (inside_winSet (k := 1) ht rfl (by omega) h1 (by omega) h3 (by omega)) v wa

theorem known_xorRect8 {s : State} (h : s.panel.IsKnown) (x y w l : Int) (m : Byte) :
    (xorRect8 x y w l m s).panel.IsKnown := by
  have hc := clipRect_spec x y w l
  rw [xorRect8]
  rcases e : clipRect x y w l with _ | ⟨xa, ya, wa, ha⟩ <;> rw [e] at hc
  · exact h
  · obtain ⟨h1, h2, h3, h4, -⟩ := hc
    refine known_foldl _ _ (fun t j hj ht => ?_) _ h
    rw [List.mem_range'_1] at hj
    exact known_xorRun (inside_winSet (k := 1) ht rfl (by omega) h1 (by omega) h3 (by omega)) m wa

theorem known_readPixelAt {s : State} (h : s.panel.IsKnown) {x y : Int} (hb : inb x y = true) :
    (readPixelAt x y s).panel.IsKnown := by
  have h0 : (readBegin (winSet x y x y s)).panel.Flows .ramrd :=
    busReads_keeps (P := PanelView.Flows .ramrd) (fun _ h => h.rd) _ _ ((inside_winSet_pixel h hb).ramrd _)
  have e : (readPixelAt x y s).panel = (readBegin (winSet x y x y s)).panel.onRead.onRead := by
    rw [readPixelAt]
    rfl
  rw [e]
  exact h0.rd.rd.isKnown

theorem fastEnd_panel (s t : State) : (fastEnd s t).panel = t.panel := by
  rw [fastEnd]
  split <;> rfl

end Sys2Proof.Machine
end

