-- ==== Sys2Proof/Laws/Step.lean ====
section
/-! SUPPORT. What one step can be, said once: an operation, or one of the few things the host port does by itself. -/

namespace Sys2Proof.Machine

/-- Issuing a descriptor runs an operation or records an illegal descriptor. -/
theorem issue_cases {w : Descriptor} {s t : State} (h : issue w s = .next t) :
    (∃ i, decode (.opd w) = .ok i ∧ exec i s = .next t) ∨ ((∃ e, decode (.opd w) = .error e) ∧ t = recordIllegal s) := by
  simp only [issue] at h
  split at h
  · exact .inl ⟨_, ‹_›, h⟩
  · cases h
    exact .inr ⟨⟨_, ‹_›⟩, rfl⟩

/-- A wire word decodes to a wire command and to nothing else (R108). -/
theorem decodeWire_cases {w : WireWord} {i : Instr} (h : decode (.wire w) = .ok i) :
    i = .caset ∨ i = .paset ∨ i = .ramwr ∨ i = .ramrd ∨ i = .ramrdCont := by
  simp only [decode, decodeWire] at h
  split at h
  · cases h; simp
  split at h
  · cases h; simp
  split at h
  · cases h; simp
  split at h
  · cases h; simp
  split at h <;> cases h
  simp

/-- Everything serving one access can be. -/
theorem serve_cases {a : HostAccess} {s t : State} (h : serve a s = .next t) :
    (∃ i, exec i s = .next t ∧ ((∃ w, a = .write .opd w ∧ decode (.opd w) = .ok i) ∨ ∃ w, a = .wire w ∧ decode (.wire w) = .ok i)) ∨
    ((∃ w e, a = .write .opd w ∧ decode (.opd w) = .error e) ∧ t = recordIllegal s) ∨
    (∃ r, a = .read r ∧ t = readRegister r s) ∨
    (∃ r v, a = .write r v ∧ r ≠ .opd ∧ t = s) ∨
    (∃ addr v, a = .store addr v ∧ t = storeWord addr v s) ∨
    (a = .reset ∧ t = resetBlock s) ∨
    ∃ w n u, a = .writeThenReset w n ∧ issue w s = .next u ∧ t = abandon s u n := by
  cases a with
  | write r v =>
    cases r with
    | opd =>
      rcases issue_cases h with ⟨i, hd, he⟩ | ⟨⟨e, hd⟩, ht⟩
      · exact .inl ⟨i, he, .inl ⟨v, rfl, hd⟩⟩
      · exact .inr (.inl ⟨⟨v, e, rfl, hd⟩, ht⟩)
    | _ => cases h; exact .inr (.inr (.inr (.inl ⟨_, v, rfl, by simp, rfl⟩)))
  | read r => cases h; exact .inr (.inr (.inl ⟨r, rfl, rfl⟩))
  | wire w =>
    simp only [serve, issueWire] at h
    split at h
    · exact .inl ⟨_, h, .inr ⟨w, rfl, ‹_›⟩⟩
    · cases h
  | store addr v => cases h; exact .inr (.inr (.inr (.inr (.inl ⟨addr, v, rfl, rfl⟩))))
  | reset => cases h; exact .inr (.inr (.inr (.inr (.inr (.inl ⟨rfl, rfl⟩)))))
  | writeThenReset w n =>
    simp only [serve, issueThenReset] at h
    split at h
    · cases h
      exact .inr (.inr (.inr (.inr (.inr (.inr ⟨w, n, _, rfl, ‹_›, rfl⟩)))))
    · cases h
    · cases h

/-- Everything a step can be. -/
theorem step_cases {s t : State} (h : step s = .next t) :
    (s.hostQueue = [] ∧ t = s) ∨
    ∃ a rest, s.hostQueue = a :: rest ∧ serve a { s with hostQueue := rest } = .next t := by
  simp only [step, nextAccess] at h
  split at h
  · cases h
    exact .inl ⟨‹_›, rfl⟩
  · exact .inr ⟨_, _, ‹_›, h⟩

theorem step_of_cons {s : State} {a : HostAccess} {rest : List HostAccess} (h : s.hostQueue = a :: rest) :
    step s = serve a { s with hostQueue := rest } := by
  simp only [step, nextAccess, h]

end Sys2Proof.Machine
end

