-- ==== Sys2Proof/Tests/Slice0.lean ====
section
/-! SUPPORT. Tests against the worked examples and vectors of spec/, and a witness for the hypotheses of each statement.
Every expected value is the spec's: the rule or vector is named in each docstring. -/

namespace Sys2Proof.Test

set_option Elab.async false

open Sys2Proof Sys2Proof.Machine

/-! ### Helpers -/

/-- The state after the table word `w` was run on `s`. -/
def ran (s : State) (w : Nat) : State :=
  match step (s.withFetchWord 128 w) with
  | .next t => t
  | .fault _ => s
  | .refused _ => s

/-- The frames the table word `w` sends from `s`. -/
def sent (s : State) (w : Nat) : List Frame := (ran s w).txlog.drop s.txlog.length

/-- The frames of a window, every coordinate below 256, columns `a .. b`, rows `c .. d`; then 0x2C and the data bytes. -/
def win (a b c d : Byte) (bs : List Byte) : List Frame :=
  [.cmd 0x2A#8, .dat 0#8, .dat a, .dat 0#8, .dat b, .cmd 0x2B#8, .dat 0#8, .dat c, .dat 0#8, .dat d, .cmd 0x2C#8] ++
    bs.map .dat

/-- S0 with cells written, in the given format. -/
def withCells (f : PixelFormat) (cells : List (Nat × Nat × Color)) : State :=
  { State.reset with
    panel := .known { Panel.initialised with
      format := f, gram := cells.foldl (fun g c => g.insert (cellKey c.1 c.2.1) c.2.2) [] } }

/-- S0 of the fast vectors. -/
def fast0 : State := withCells .oneByte []

/-- Pixel (1, 0) holds 0x5AA5, and a write stream over the whole panel has come to column `x`, row `y`. -/
def at_ (x y : Nat) : State :=
  { State.reset with
    panel := .known { Panel.initialised with
      pOpen := .ramwr, pCx := x, pCy := y, gram := [(cellKey 1 0, 0x5AA5#16)] } }

/-- What the known panel of `s` holds in a cell. -/
def pixel (s : State) (x y : Nat) : Option Color :=
  match s.panel with
  | .known p => some (p.cell x y)
  | .unspecified _ => none

/-! ### WellFormed smoke tests (R103) -/

theorem test_wf_refuses_coordinate_above : (Instr.setPoint 32768 0).wf = false := by decide +kernel
theorem test_wf_refuses_coordinate_below : (Instr.setPoint 0 (-32769)).wf = false := by decide +kernel
theorem test_wf_refuses_width : (Instr.fillRect 0 0 32768 1 0#16).wf = false := by decide +kernel
theorem test_wf_refuses_vertex : (Instr.fastFillTriangle 0 0 0 0 0 40000 0#8).wf = false := by decide +kernel
theorem test_wf_refuses_length : (Instr.flood 0#16 4294967296).wf = false := by decide +kernel
theorem test_wf_refuses_fast_length : (Instr.fastXorFlood 0#8 4294967296).wf = false := by decide +kernel
theorem test_wf_refuses_count : (Instr.pushColors 0#32 65536 true).wf = false := by decide +kernel
theorem test_wf_accepts_extremes : (Instr.drawLine (-32768) 32767 0 (-1) 0x8000#16).wf = true := by decide +kernel
theorem test_wf_accepts_lengths :
    (Instr.flood 0#16 4294967295).wf = true ∧ (Instr.pushColors 0#32 65535 true).wf = true := by decide +kernel

/-! ### Decoding: a word of every row, written from R101, R104 and the worked examples -/

theorem test_decode_transport :
    decode (.opd 0x0100002C000000000000000000000000#128) = .ok (.writeCommand 0x2C#8) ∧
    decode (.opd 0x0200005A000000000000000000000000#128) = .ok (.writeData 0x5A#8) ∧
    decode (.opd 0x03000000000000000000000000000000#128) = .ok .readData ∧
    decode (.opd 0x04000000000000000000000000000000#128) = .ok .clockPulse := by decide +kernel

theorem test_decode_window :
    decode (.opd 0x10000000000000EF0000000000000000#128) = .ok (.setColumnWindow 0 239) ∧
    decode (.opd 0x110000000000013F0000000000000000#128) = .ok (.setRowWindow 0 319) ∧
    decode (.opd 0x12000000000A012C0000000000000000#128) = .ok (.setPoint 10 300) ∧
    decode (.opd 0x130000000000000000EF013F00000000#128) = .ok (.setAddrWindow 0 0 239 319) := by decide +kernel

theorem test_decode_streaming :
    decode (.opd 0x20000102000000000000000000000000#128) = .ok (.pushColor 0x0102#16) ∧
    decode (.opd 0x21010000FFFFFFFFFFFF000000000000#128) = .ok (.pushColors 0xFFFFFFFF#32 65535 true) ∧
    decode (.opd 0x21000000000010030002000000000000#128) = .ok (.pushColors 0x1003#32 2 false) ∧
    decode (.opd 0x2200F80000012C000000000000000000#128) = .ok (.flood 0xF800#16 76800) := by decide +kernel

theorem test_decode_compositing :
    decode (.opd 0x30000000000000000000000000000000#128) = .ok .maskingOn ∧
    decode (.opd 0x31000000000000000000000000000000#128) = .ok .maskingOff ∧
    decode (.opd 0x32000000000000000000000000000000#128) = .ok .flipMask ∧
    decode (.opd 0x33000000000000000000000000000000#128) = .ok .overdrawOn ∧
    decode (.opd 0x34000000000000000000000000000000#128) = .ok .overdrawOff ∧
    decode (.opd 0x3500001F000000000000000000000000#128) = .ok (.setBackgroundColor 0x001F#16) ∧
    decode (.opd 0x3600FFE0000000000000000000000000#128) = .ok (.setForegroundColor 0xFFE0#16) := by decide +kernel

theorem test_decode_rendering :
    decode (.opd 0x4000ABCD000A012C0000000000000000#128) = .ok (.drawPixel 10 300 0xABCD#16) ∧
    decode (.opd 0x4100800080007FFF0000FFFF00000000#128) = .ok (.drawLine (-32768) 32767 0 (-1) 0x8000#16) ∧
    decode (.opd 0x420007E0FFFD0007000A000000000000#128) = .ok (.drawFastHLine (-3) 7 10 0x07E0#16) ∧
    decode (.opd 0x4300001F0000FFFE0004000000000000#128) = .ok (.drawFastVLine 0 (-2) 4 0x001F#16) ∧
    decode (.opd 0x4400F800FFFBFFFB000A000A00000000#128) = .ok (.fillRect (-5) (-5) 10 10 0xF800#16) ∧
    decode (.opd 0x45000000000000000000000000000000#128) = .ok (.fillScreen 0#16) ∧
    decode (.opd 0x46000000000A012C0000000000000000#128) = .ok (.readPixel 10 300) := by decide +kernel

theorem test_decode_fast8 :
    decode (.opd 0x5000005A000000040000000000000000#128) = .ok (.fastFlood 0x5A#8 4) ∧
    decode (.opd 0x510000E0000A012C0000000000000000#128) = .ok (.fastDrawPixel 10 300 0xE0#8) ∧
    decode (.opd 0x520000FF000000000003000200000000#128) = .ok (.fastDrawLine 0 0 3 2 0xFF#8) ∧
    decode (.opd 0x5300001C00EE00010005000000000000#128) = .ok (.fastDrawFastHLine 238 1 5 0x1C#8) ∧
    decode (.opd 0x540000030000FFFE0004000000000000#128) = .ok (.fastDrawFastVLine 0 (-2) 4 0x03#8) ∧
    decode (.opd 0x550000AA000100010002000200000000#128) = .ok (.fastFillRect 1 1 2 2 0xAA#8) ∧
    decode (.opd 0x56000000000000000000000000000000#128) = .ok (.fastFillScreen 0#8) ∧
    decode (.opd 0x570000FF000000F10000000000000000#128) = .ok (.fastXorFlood 0xFF#8 241) ∧
    decode (.opd 0x580000FF000400040002000200000000#128) = .ok (.fastXorRect 4 4 2 2 0xFF#8) ∧
    decode (.opd 0x5900005A000000000004000000000004#128) = .ok (.fastFillTriangle 0 0 4 0 0 4 0x5A#8) ∧
    decode (.opd 0x5A000001000700070007000700070007#128) = .ok (.fastDrawTriangle 7 7 7 7 7 7 0x01#8) := by decide +kernel

theorem test_decode_wire :
    decode (.wire 0x02A#9) = .ok .caset ∧ decode (.wire 0x02B#9) = .ok .paset ∧
    decode (.wire 0x02C#9) = .ok .ramwr ∧ decode (.wire 0x02E#9) = .ok .ramrd ∧
    decode (.wire 0x03E#9) = .ok .ramrdCont ∧ decode (.wire 0x12C#9) = .error .unlistedWireWord := by decide +kernel

/-- V13: illegal descriptors, the unassigned codes and one bit set outside the used fields. -/
theorem test_decode_refuses :
    decode (.opd 0x00000000000000000000000000000000#128) = .error .unassignedOp ∧
    decode (.opd 0x05000000000000000000000000000000#128) = .error .unassignedOp ∧
    decode (.opd 0x5B000000000000000000000000000000#128) = .error .unassignedOp ∧
    decode (.opd 0x4002ABCD000A012C0000000000000000#128) = .error .unusedBitSet ∧
    decode (.opd 0x4001ABCD000A012C0000000000000000#128) = .error .unusedBitSet ∧
    decode (.opd 0x4000ABCD000A012C0000000000000001#128) = .error .unusedBitSet ∧
    decode (.opd 0x510001E0000A012C0000000000000000#128) = .error .unusedBitSet ∧
    decode (.opd 0x2101FFFF000010000003000000000000#128) = .error .unusedBitSet := by decide +kernel

/-! ### One step each, from the worked examples -/

/-- R135: worked example. -/
theorem test_writeCommand : sent State.reset 0x0100002C000000000000000000000000 = [.cmd 0x2C#8] := by decide +kernel
/-- R135: 0x2A alone invalidates the column half of the shadow and ends the stream. -/
theorem test_writeCommand_caset :
    let t := ran (ran State.reset 0x130000000000000000EF013F00000000) 0x0100002A000000000000000000000000
    t.winColSet = false ∧ t.winRowSet = true ∧ t.primState = .idle := by decide +kernel
/-- R136: worked example. -/
theorem test_writeData : sent State.reset 0x0200005A000000000000000000000000 = [.dat 0x5A#8] := by decide +kernel
/-- R77: no command is open after S0. -/
theorem test_writeData_unopened :
    (ran State.reset 0x0200005A000000000000000000000000).panel = .unspecified .protocolViolation := by decide +kernel
/-- R139: worked example, after `writeData 0x5A`. -/
theorem test_clockPulse :
    sent (ran State.reset 0x0200005A000000000000000000000000) 0x04000000000000000000000000000000 =
      [.dat 0x5A#8, .dat 0x5A#8] := by decide +kernel
/-- R138: worked example, the high byte after one dummy read. -/
theorem test_readData :
    (ran (ran (ran (withCells .twoBytes [(0, 0, 0xABCD#16)]) 0x0100002E000000000000000000000000)
      0x03000000000000000000000000000000) 0x03000000000000000000000000000000).result = 0x00AB#16 := by decide +kernel

/-- V1, steps 9 to 12: a read continued at pixel (1, 0), whose low byte comes after one dummy and the high byte. -/
theorem test_readData_continued :
    (ran (ran (ran (ran (at_ 1 0) 0x0100003E000000000000000000000000) 0x03000000000000000000000000000000)
      0x03000000000000000000000000000000) 0x03000000000000000000000000000000).result = 0x00A5#16 := by decide +kernel

/-- V3, R153: worked example. -/
theorem test_setColumnWindow :
    sent State.reset 0x10000000000000EF0000000000000000 =
      [.cmd 0x2A#8, .dat 0#8, .dat 0#8, .dat 0#8, .dat 0xEF#8] := by decide +kernel
/-- R154: worked example. -/
theorem test_setRowWindow :
    sent State.reset 0x110000000000013F0000000000000000 =
      [.cmd 0x2B#8, .dat 0#8, .dat 0#8, .dat 1#8, .dat 0x3F#8] := by decide +kernel
/-- R155: worked example. -/
theorem test_setPoint :
    sent State.reset 0x12000000000A012C0000000000000000 =
      [.cmd 0x2A#8, .dat 0#8, .dat 0x0A#8, .dat 0#8, .dat 0x0A#8,
        .cmd 0x2B#8, .dat 1#8, .dat 0x2C#8, .dat 1#8, .dat 0x2C#8] := by decide +kernel
/-- R156: worked example. -/
theorem test_setAddrWindow :
    sent State.reset 0x130000000000000000EF013F00000000 =
      [.cmd 0x2A#8, .dat 0#8, .dat 0#8, .dat 0#8, .dat 0xEF#8,
        .cmd 0x2B#8, .dat 0#8, .dat 0#8, .dat 1#8, .dat 0x3F#8] := by decide +kernel

/-- R168: two data frames, high byte first. -/
theorem test_pushColor :
    sent State.reset 0x2000F81F000000000000000000000000 = [.dat 0xF8#8, .dat 0x1F#8] := by decide +kernel
/-- R169: worked example. -/
theorem test_pushColors :
    sent { State.reset with pixMem := [(0x1000, 0x1111#16), (0x1001, 0x2222#16), (0x1002, 0xABCD#16)] }
      0x21010000000010000003000000000000 =
      [.cmd 0x2C#8, .dat 0x11#8, .dat 0x11#8, .dat 0x22#8, .dat 0x22#8, .dat 0xAB#8, .dat 0xCD#8] := by decide +kernel
/-- R62: addresses wrap; R169: `first` = 0 sends no command. -/
theorem test_pushColors_wraps :
    sent { State.reset with pixMem := [(0, 0x0203#16), (0xFFFFFFFF, 0x0405#16)] }
      0x21000000FFFFFFFF0002000000000000 = [.dat 4#8, .dat 5#8, .dat 2#8, .dat 3#8] := by decide +kernel
/-- R170: worked example. -/
theorem test_flood :
    sent State.reset 0x220007E0000000030000000000000000 =
      [.cmd 0x2C#8, .dat 7#8, .dat 0xE0#8, .dat 7#8, .dat 0xE0#8, .dat 7#8, .dat 0xE0#8] := by decide +kernel
theorem test_flood_zero : sent State.reset 0x220007E0000000000000000000000000 = [] := by decide +kernel

/-- R180, R46: STATUS bit 1. -/
theorem test_maskingOn : statusWord (ran State.reset 0x30000000000000000000000000000000) = 0x0002#16 := by decide +kernel
theorem test_maskingOff :
    (ran (ran State.reset 0x30000000000000000000000000000000) 0x31000000000000000000000000000000).doMasking = false := by
  decide +kernel
/-- R182, R46: STATUS bit 3. -/
theorem test_flipMask : statusWord (ran State.reset 0x32000000000000000000000000000000) = 0x0008#16 := by decide +kernel
/-- R183, R46: STATUS bit 2. -/
theorem test_overdrawOn : statusWord (ran State.reset 0x33000000000000000000000000000000) = 0x0004#16 := by decide +kernel
theorem test_overdrawOff :
    (ran (ran State.reset 0x33000000000000000000000000000000) 0x34000000000000000000000000000000).doOverdraw = false := by
  decide +kernel
/-- R185: worked example. -/
theorem test_setBackgroundColor :
    hostValue .bgcolor (ran State.reset 0x3500001F000000000000000000000000) = 0x001F#128 := by decide +kernel
/-- R186: worked example. -/
theorem test_setForegroundColor :
    hostValue .fgcolor (ran State.reset 0x3600FFE0000000000000000000000000) = 0xFFE0#128 := by decide +kernel

/-- R197: worked example. -/
theorem test_drawPixel :
    sent State.reset 0x4000ABCD000A012C0000000000000000 =
      [.cmd 0x2A#8, .dat 0#8, .dat 0x0A#8, .dat 0#8, .dat 0x0A#8,
        .cmd 0x2B#8, .dat 1#8, .dat 0x2C#8, .dat 1#8, .dat 0x2C#8, .cmd 0x2C#8, .dat 0xAB#8, .dat 0xCD#8] := by decide +kernel
/-- R197, X3: with masking on the background colour is sent. -/
theorem test_drawPixel_masked :
    sent { State.reset with doMasking := true, backgroundColor := 0x001F#16, foregroundColor := 0xFFE0#16 }
      0x40001234000500060000000000000000 = win 5#8 5#8 6#8 6#8 [0#8, 0x1F#8] := by decide +kernel
/-- X6: a horizontal line, given from right to left. -/
theorem test_drawLine_axis :
    sent State.reset 0x41001234000400000000000000000000 =
      win 0#8 4#8 0#8 0#8 [0x12#8, 0x34#8, 0x12#8, 0x34#8, 0x12#8, 0x34#8, 0x12#8, 0x34#8, 0x12#8, 0x34#8] := by decide +kernel
/-- X7: the golden sequence, frame for frame. -/
theorem test_drawLine_golden :
    sent State.reset 0x4100FFFF000000000003000200000000 =
      win 0#8 0#8 0#8 0#8 [0xFF#8, 0xFF#8] ++
      win 1#8 1#8 1#8 1#8 [0xFF#8, 0xFF#8] ++
      win 2#8 2#8 1#8 1#8 [0xFF#8, 0xFF#8] ++
      win 3#8 3#8 2#8 2#8 [0xFF#8, 0xFF#8] := by decide +kernel
/-- R202: worked example, clipped on the left. -/
theorem test_drawFastHLine :
    sent State.reset 0x420007E0FFFD0007000A000000000000 =
      win 0#8 6#8 7#8 7#8 (List.replicate 7 [7#8, 0xE0#8]).flatten := by decide +kernel
/-- R199, V9: the same run again, with overdraw avoidance on, is skipped. -/
theorem test_drawFastHLine_skips :
    sent (ran { State.reset with doOverdraw := true } 0x420007E0FFFD0007000A000000000000)
      0x420007E0FFFD0007000A000000000000 = [] := by decide +kernel
/-- R203, V6: clipped at the top. -/
theorem test_drawFastVLine :
    sent State.reset 0x4300001F0000FFFE0004000000000000 =
      win 0#8 0#8 0#8 1#8 [0#8, 0x1F#8, 0#8, 0x1F#8] := by decide +kernel
/-- X1: a column above the panel. -/
theorem test_drawFastVLine_outside : sent State.reset 0x4300FFFF0003FFFB0005000000000000 = [] := by decide +kernel
/-- X5: the interior case. -/
theorem test_fillRect :
    sent State.reset 0x4400FFFF006400640002000300000000 =
      win 0x64#8 0x65#8 0x64#8 0x64#8 (List.replicate 4 0xFF#8) ++
      (win 0x64#8 0x65#8 0x65#8 0x65#8 (List.replicate 4 0xFF#8)) ++
      (win 0x64#8 0x65#8 0x66#8 0x66#8 (List.replicate 4 0xFF#8)) := by decide +kernel
/-- X1: a rectangle that ends just outside the panel. -/
theorem test_fillRect_outside : sent State.reset 0x4400FFFFFFFBFFFB0005000500000000 = [] := by decide +kernel
/-- R207: worked example; the first read byte is a dummy. -/
theorem test_readPixel :
    let s := withCells .twoBytes [(10, 300, 0xABCD#16)]
    (sent s 0x46000000000A012C0000000000000000).drop 12 = [.rd 0xAB#8, .rd 0xCD#8] ∧
    (ran s 0x46000000000A012C0000000000000000).result = 0xABCD#16 := by decide +kernel
/-- R207, X1: out of bounds. -/
theorem test_readPixel_outside :
    let t := ran { State.reset with result := 0x1234#16 } 0x4600000000F000000000000000000000
    t.result = 0#16 ∧ t.txlog = [] := by decide +kernel

/-- R233: worked example. -/
theorem test_fastFlood :
    sent fast0 0x5000005A000000040000000000000000 =
      [.cmd 0x2C#8, .dat 0x5A#8, .dat 0x5A#8, .dat 0x5A#8, .dat 0x5A#8] := by decide +kernel
/-- V10, R234. -/
theorem test_fastDrawPixel :
    sent fast0 0x510000E3000100000000000000000000 = win 1#8 1#8 0#8 0#8 [0xE3#8] := by decide +kernel
/-- R237: worked example. -/
theorem test_fastDrawLine :
    sent fast0 0x520000FF000000000003000200000000 =
      win 0#8 0#8 0#8 0#8 [0xFF#8] ++ win 1#8 1#8 1#8 1#8 [0xFF#8] ++
      win 2#8 2#8 1#8 1#8 [0xFF#8] ++ win 3#8 3#8 2#8 2#8 [0xFF#8] := by
  decide +kernel
/-- R235: worked example. -/
theorem test_fastDrawFastHLine :
    sent fast0 0x5300001C00EE00010005000000000000 =
      win 0xEE#8 0xEF#8 1#8 1#8 [0x1C#8, 0x1C#8] := by decide +kernel
/-- R236: worked example. -/
theorem test_fastDrawFastVLine :
    sent fast0 0x540000030000FFFE0004000000000000 =
      win 0#8 0#8 0#8 1#8 [0x03#8, 0x03#8] := by decide +kernel
/-- R238: worked example. -/
theorem test_fastFillRect :
    sent fast0 0x550000AA000100010002000200000000 =
      win 1#8 2#8 1#8 1#8 [0xAA#8, 0xAA#8] ++
      win 1#8 2#8 2#8 2#8 [0xAA#8, 0xAA#8] := by decide +kernel
/-- R241: worked example. -/
theorem test_fastXorFlood :
    let s := ran (withCells .oneByte [(4, 4, 0x0F#16), (5, 4, 0xF0#16), (6, 4, 0x0F#16)])
      0x13000000000400040006000400000000
    let t := ran s 0x570000FF000000030000000000000000
    t.txlog.drop 12 = [.rd 0x0F#8, .rd 0xF0#8, .rd 0x0F#8, .cmd 0x2C#8, .dat 0xF0#8, .dat 0x0F#8, .dat 0xF0#8] ∧
    pixel t 4 4 = some 0xF0#16 ∧ pixel t 5 4 = some 0x0F#16 ∧ pixel t 6 4 = some 0xF0#16 := by decide +kernel
/-- V11: 241 is not performed, and recorded. -/
theorem test_fastXorFlood_too_long :
    let t := ran fast0 0x570000FF000000F10000000000000000
    t.txlog = [] ∧ t.errIllegal = true ∧ t.primState = .idle := by decide +kernel
/-- X4: once. -/
theorem test_fastXorRect :
    let t := ran (withCells .oneByte [(4, 4, 0x0F#16), (5, 4, 0x0F#16), (4, 5, 0x0F#16), (5, 5, 0x81#16)])
      0x580000FF000400040002000200000000
    t.txlog.length = 34 ∧ pixel t 4 4 = some 0xF0#16 ∧ pixel t 5 5 = some 0x7E#16 := by decide +kernel
/-- V11: clipped to one pixel. -/
theorem test_fastXorRect_clipped :
    let t := ran (withCells .oneByte [(0, 0, 0#16)]) 0x58000055FFFFFFFF0002000200000000
    t.txlog.length = 15 ∧ pixel t 0 0 = some 0x55#16 := by decide +kernel
/-- V12: clipped at the left and the top. -/
theorem test_fastFillTriangle :
    let fs := sent fast0 0x59000033FFFEFFFE00030001FFFF0004
    fs.length = 55 ∧ fs.take 13 = win 0#8 1#8 0#8 0#8 [0x33#8, 0x33#8] := by decide +kernel
/-- V12: the spans of the vector's fifth row. -/
theorem test_triSpans :
    triSpans 2 6 1 1 4 3 = [(1, 1, 1), (1, 2, 2), (1, 3, 4), (1, 4, 4), (1, 5, 3), (2, 6, 1)] := by decide +kernel
/-- V12: three runs of one pixel. -/
theorem test_fastDrawTriangle :
    sent fast0 0x5A000001000700070007000700070007 =
      win 7#8 7#8 7#8 7#8 [1#8] ++ win 7#8 7#8 7#8 7#8 [1#8] ++
      win 7#8 7#8 7#8 7#8 [1#8] := by decide +kernel

/-- R205: the frames of a full screen begin with the whole window. -/
theorem test_fillScreen_clip : clipRect 0 0 240 320 = some (0, 0, 240, 320) := by decide +kernel

/-- R108, R109: a wire command issued alone is its command frame (log 1). -/
theorem test_wire_commands :
    [0x02A, 0x02B, 0x02C, 0x02E, 0x03E].map (fun w =>
      match step (State.reset.withFetchWord 16 w) with
      | .next t => (t.txlog, t.primState)
      | .fault _ => ([], .idle)
      | .refused _ => ([], .idle)) =
      [([.cmd 0x2A#8], .idle), ([.cmd 0x2B#8], .idle), ([.cmd 0x2C#8], .streaming), ([.cmd 0x2E#8], .streaming),
        ([.cmd 0x3E#8], .streaming)] := by decide +kernel

/-- R62: a word the host stores is the word there, and the last store counts. -/
theorem test_store :
    (match serve (.store 0x1000#32 0x1111#16) { State.reset with pixMem := [(0x1000, 0x2222#16), (0x1001, 0x3333#16)] } with
      | .next t => t.pixMem
      | .fault _ => []
      | .refused _ => []) = [(0x1000, 0x1111#16), (0x1001, 0x3333#16)] := by decide +kernel

/-- V13: an illegal descriptor sends nothing and STATUS reads 0x0001. -/
theorem test_illegal_recorded :
    (match serve (.write .opd 0x4001ABCD000A012C0000000000000000#128) State.reset with
      | .next t => (statusWord t, t.txlog)
      | .fault _ => (0#16, [])
      | .refused _ => (0#16, [])) = (0x0001#16, []) := by decide +kernel

/-! ### Witnesses: a state and operands that meet the hypotheses of each statement, at the edges of each clause -/

/-- Overdraw avoidance on, and row 5 remembered: one pixel of colour 0xF800 at column 0, which the panel holds. -/
def remembered : State :=
  { withCells .twoBytes [(0, 5, 0xF800#16)] with doOverdraw := true, rowMemo := [(5, ⟨0, 1, 0xF800#16⟩)] }

/-- One access pending. -/
def pending (a : HostAccess) : State := { State.reset with hostQueue := [a] }

/-- The window shadow and the panel agree on columns 1 .. 2. -/
def shadowed : State :=
  { State.reset with
    winX1 := 1#16, winX2 := 2#16, winColSet := true
    panel := .known { Panel.initialised with pXs := 1#16, pXe := 2#16, pOpen := .caset, pK := 4 } }

theorem remembered_holds : MemoSound remembered := by
  refine ⟨⟨?_, ?_⟩, ?_⟩
  · intro y r h
    simp only [remembered, Table.lookup] at h
    split at h
    · cases h; subst_vars; decide
    · cases h
  · intro x r h
    exact absurd (show (none : Option Run) = some r from h) (by simp)
  · intro p hp _
    have hp' : p = { Panel.initialised with gram := [(cellKey 0 5, 0xF800#16)] } := by
      simpa [remembered, withCells, Table.insert, Panel.initialised] using hp.symm
    subst hp'
    refine ⟨?_, ?_⟩
    · intro y r h i hi
      simp only [remembered, Table.lookup] at h
      split at h
      · cases h
        obtain rfl : i = 0 := Nat.lt_one_iff.mp hi
        subst_vars
        rfl
      · cases h
    · intro x r h
      exact absurd (show (none : Option Run) = some r from h) (by simp)

theorem shadowed_agrees : ShadowAgrees shadowed := by
  intro p hp
  cases hp
  exact ⟨fun _ => ⟨rfl, rfl, fun _ => rfl⟩, fun h => absurd h (by decide)⟩

theorem witness_DecodeEncodeRoundTrip :
    (Instr.setAddrWindow (-32768) 32767 0 (-1)).wf = true ∧ (Instr.fastFlood 0xFF#8 4294967295).wf = true ∧
    (Instr.pushColors 0xFFFFFFFF#32 65535 false).wf = true := by decide

theorem witness_EncodeDecodeIdentity :
    decode (.opd 0x4000ABCD000A012C0000000000000000#128) = .ok (.drawPixel 10 300 0xABCD#16) ∧
    (0x4001ABCD000A012C0000000000000000#128 : Descriptor).extractLsb' 120 8 = Op.drawPixel.code ∧
    0x4001ABCD000A012C0000000000000000#128 &&& Op.drawPixel.tableMask ≠ Op.drawPixel.tableMatch := by decide +kernel

theorem witness_RowsSelectExactlyTheLegal :
    Op.pushColors.selects 0x21010000000010000003000000000000#128 = true ∧
    Op.pushColors.selects 0x21000000000010030002000000000000#128 = true := by decide

theorem no_row_selects_zero : ∀ m : Op, m.selects 0#128 = false := by intro m; cases m <;> decide

theorem witness_StepRunsIssuedCode :
    (pending (.write .opd 0#128)).hostQueue = accessOf (.opd 0#128) :: [] ∧
    decode (.opd 0x30000000000000000000000000000000#128) = .ok .maskingOn ∧ State.reset.hostQueue = [] := by
  refine ⟨rfl, ?_, rfl⟩
  decide +kernel

theorem witness_StepRunsIssuedCode_word :
    decodeTableWord 128 0x30000000000000000000000000000000 = some .maskingOn ∧ decodeTableWord 16 0x2C = some .ramwr := by
  decide +kernel

theorem witness_IllegalDescriptorOnlyRecords : ∀ m : Op, m.selects 0#128 = false := no_row_selects_zero

theorem witness_ErrIllegalIsSticky :
    (∃ t, step (pending .reset) = .next t) ∧ isReset .reset = true ∧
    (∃ t, step (pending (.write .opd 0#128)) = .next t) ∧ recordsIllegal 0#128 ∧
    recordsIllegal 0x570000FF000000F10000000000000000#128 ∧ (∃ t, step (pending (.read .status)) = .next t) :=
  ⟨⟨_, rfl⟩, rfl, ⟨_, rfl⟩, .inl no_row_selects_zero, .inr ⟨0xFF#8, 241, by decide +kernel, by decide⟩, ⟨_, rfl⟩⟩

/-- 240 is the longest XOR run that is performed (R241). -/
theorem witness_ErrIllegalIsSticky_legal : ¬recordsIllegal 0x570000FF000000F00000000000000000#128 := by
  rintro (h | ⟨m, n, h, hn⟩)
  · exact absurd (h .fastXorFlood) (by decide)
  · have : decode (.opd 0x570000FF000000F00000000000000000#128) = .ok (.fastXorFlood 0xFF#8 240) := by decide +kernel
    rw [this] at h
    injection h with h
    injection h with _ h
    omega

theorem witness_HostRegisters :
    HostReg.result ≠ .opd ∧ decode (.opd 0x30000000000000000000000000000000#128) = .ok .maskingOn ∧
    shadowed.winColSet = true ∧ shadowed.winRowSet = false := by decide +kernel

theorem witness_AbandonedOperation :
    ∃ t, serve (.write .opd 0x220007E0000000030000000000000000#128) State.reset = .next t := ⟨_, rfl⟩

theorem witness_AtRestIsKept : AtRest remembered ∧ ∃ t, step remembered = .next t :=
  ⟨⟨rfl, rfl, rfl, rfl, rfl⟩, _, rfl⟩

theorem witness_CanonicalIsKept : Canonical remembered ∧ ∃ t, step remembered = .next t := by
  refine ⟨?_, _, rfl⟩
  exact ⟨show Memory.wf 76800 [(cellKey 0 5, 0xF800#16)] = true from rfl, rfl, rfl, rfl, List.length_replicate⟩

theorem witness_MemoStaysSound : MemoSound remembered ∧ ∃ t, step remembered = .next t := ⟨remembered_holds, _, rfl⟩

theorem witness_ShadowStaysRight : ShadowAgrees shadowed ∧ ∃ t, step shadowed = .next t := ⟨shadowed_agrees, _, rfl⟩

theorem witness_PanelFollowsTheLog :
    isReset (.write .opd 0#128) = false ∧ ∃ t, step (pending (.write .opd 0x04000000000000000000000000000000#128)) = .next t :=
  ⟨rfl, _, rfl⟩

theorem witness_SentFramesIgnorePanel :
    isXor (.drawPixel 239 319 0#16) = false ∧ (∃ t, exec (.drawPixel 239 319 0#16) State.reset = .next t) ∧
    ∃ u, exec (.drawPixel 239 319 0#16) { State.reset with panel := .unspecified .protocolViolation } = .next u :=
  ⟨rfl, ⟨_, rfl⟩, _, rfl⟩

theorem witness_ReadCycle : settleMet State.reset = true := by decide

theorem witness_PulsedFloodsRefine : hi8 0x5A5A#16 = lo8 0x5A5A#16 := by decide

theorem witness_SettleCycles : 1 ≤ 7 ∧ 400 * 16000000 ≤ 7 * 1000000000 := by decide

theorem witness_PanelTakesTheWindow : fast0.panel = .known { Panel.initialised with format := .oneByte } := rfl

/-- The whole panel and its last pixel are windows. -/
theorem witness_window_whole : Panel.initialised.HasWindow 0 0 240 320 := by constructor <;> decide
theorem witness_window_pixel :
    Panel.HasWindow { Panel.initialised with pXs := 0xEF#16, pYs := 0x13F#16 } 239 319 1 1 := by constructor <;> decide
theorem witness_FloodFillsTheWindow :
    State.reset.panel = .known Panel.initialised ∧ Panel.initialised.HasWindow 0 0 240 320 ∧
    Panel.initialised.format = .twoBytes ∧
    fast0.panel = .known { Panel.initialised with format := .oneByte } ∧
    Panel.HasWindow { Panel.initialised with format := .oneByte } 0 0 240 320 :=
  ⟨rfl, witness_window_whole, rfl, rfl, by constructor <;> decide⟩

/-- From the window's start, and from its last pixel, 76799, behind which the stream wraps. -/
theorem witness_PushColorsFillsTheWindow :
    State.reset.panel = .known Panel.initialised ∧ Panel.initialised.HasWindow 0 0 240 320 ∧
    Panel.initialised.format = .twoBytes ∧ 65535 ≤ 240 * 320 := ⟨rfl, witness_window_whole, rfl, by decide⟩
theorem witness_PushColorsFillsTheWindow_continued :
    ∃ p, (at_ 239 319).panel = .known p ∧ p.format = .twoBytes ∧ p.Writing 0 0 240 320 76799 := by
  refine ⟨_, rfl, rfl, rfl, rfl, ?_, ?_⟩ <;> constructor <;> decide

theorem witness_PushColorsFrames :
    ((0xFFFFFFFF#32 : BitVec 32).toNat + 1) % 4294967296 = (0#32 : BitVec 32).toNat ∧
    ¬((0xFFFFFFFF#32 : BitVec 32).toNat + 0) % 4294967296 = (0#32 : BitVec 32).toNat := by decide

/-- A panel with this window, cursor, open command and dummy count. -/
def panelWith (xs xe ys ye : Color) (cx cy : Nat) (o : OpenCommand) (d : Nat) : Panel :=
  { Panel.initialised with pXs := xs, pXe := xe, pYs := ys, pYe := ye, pCx := cx, pCy := cy, pOpen := o, pDummy := d }

/-- Each outcome of a data frame and of a read frame: windows reversed, one column too wide, just inside, and a cursor one
row below the panel; a dummy read under a bad window meets none of them. -/
theorem witness_PanelBecomesUnspecified :
    ¬(panelWith 1#16 0#16 0#16 0#16 0 0 .ramwr 0).WindowInside ∧
    ¬(panelWith 0#16 240#16 0#16 319#16 0 0 .ramrd 0).WindowInside ∧
    ((panelWith 239#16 239#16 319#16 319#16 239 320 .ramrd 0).WindowInside ∧ ¬(239 < 240 ∧ 320 < 320)) ∧
    ((panelWith 239#16 239#16 319#16 319#16 239 319 .ramwr 0).WindowInside ∧ (239 < 240 ∧ 319 < 320)) ∧
    (panelWith 1#16 0#16 0#16 0#16 0 0 .ramrd 1).pDummy ≠ 0 ∧ Panel.initialised.pOpen = .none := by
  unfold Panel.WindowInside
  decide
theorem witness_PanelBecomesUnspecified_stays :
    ∃ t, exec .readData { State.reset with panel := .unspecified .protocolViolation } = .next t := ⟨_, rfl⟩
theorem witness_PanelBecomesUnspecified_operation :
    (∃ t, exec .clockPulse State.reset = .next t ∧ t.panel = .unspecified .protocolViolation) ∧
    (∃ t, exec (.pushColors 0#32 1 false) State.reset = .next t ∧ t.panel = .unspecified .protocolViolation) ∧
    State.reset.panel = .known Panel.initialised ∧ hasShape (.fastDrawPixel 239 319 0#8) = true ∧
    ∃ t, exec (.fastDrawPixel 239 319 0#8) State.reset = .next t := ⟨⟨_, rfl, rfl⟩, ⟨_, rfl, rfl⟩, rfl, rfl, _, rfl⟩

/-- 0x2E from the window's start; 0x3E from where the cursor stands, here the window's last pixel. -/
theorem witness_ReadStreamContinues :
    (∃ p, (at_ 239 319).panel = .known p ∧ p.HasWindow 0 0 240 320 ∧ p.AtPixel 0 0 240 320 76799) ∧
    settleMet (at_ 239 319) = true := by
  refine ⟨⟨_, rfl, ?_, ?_⟩, by decide⟩ <;> constructor <;> decide

theorem witness_OnlyTogglesWriteCompositing :
    ∃ t, exec (.setColumnWindow (-1) 240) State.reset = .next t := ⟨_, rfl⟩

theorem witness_WhatNoOperationWrites :
    (∃ t, exec (.fastFlood 1#8 2) State.reset = .next t) ∧ isXor (.fastFlood 1#8 2) = false := ⟨⟨_, rfl⟩, rfl⟩

theorem witness_PrimStateTransitions : ∃ t, exec (.fastXorFlood 1#8 0) State.reset = .next t := ⟨_, rfl⟩

theorem witness_MaskingStage :
    colourOf16 (.drawPixel 0 0 1#16) = some 1#16 ∧ colourOf16 (.drawLine 0 0 3 2 1#16) = some 1#16 ∧
    colourOf16 (.drawFastHLine 0 0 1 1#16) = some 1#16 ∧ colourOf16 (.drawFastVLine 0 0 1 1#16) = some 1#16 ∧
    colourOf16 (.fillRect 0 0 1 1 1#16) = some 1#16 ∧ colourOf16 (.fillScreen 1#16) = some 1#16 :=
  ⟨rfl, rfl, rfl, rfl, rfl, rfl⟩

/-- V6, X5: clipped at the right, at the top, on both sides, and at two edges. -/
theorem witness_ClippingIsExact :
    clipH 235 0 10 = some (235, 0, 5) ∧ clipH (-5) 0 300 = some (0, 0, 240) ∧ clipH 239 319 1 = some (239, 319, 1) ∧
    clipV 2 318 5 = some (2, 318, 2) ∧ clipV 239 (-2) 400 = some (239, 0, 320) ∧
    clipRect (-5) (-5) 10 10 = some (0, 0, 5, 5) ∧ clipRect (-1) (-1) 242 322 = some (0, 0, 240, 320) := by decide

/-- The other cases of the drawing operations: clipped away, skipped, and sent. -/
theorem witness_FastLineFrames :
    clipH 240 0 10 = none ∧ clipH 0 320 1 = none ∧ clipV 0 320 5 = none ∧ clipV 3 (-5) 5 = none ∧
    (remembered.doOverdraw = true ∧ remembered.rowMemo.lookup 5 = some ⟨0, 1, eff remembered 0xF800#16⟩) := by decide

theorem witness_FillRectFrames :
    clipRect 240 320 5 5 = none ∧ clipRect 0 319 300 5 = some (0, 319, 240, 1) ∧ State.reset.doOverdraw = false ∧
    clipRect 0 5 1 1 = some (0, 5, 1, 1) := by decide

theorem witness_DrawLineFrames :
    ((0 : Int) ≠ 2 ∧ (0 : Int) ≠ 3) ∧ ((3 : Int), (2 : Int)) ∈ bres 0 0 3 2 ∧
    ((bres 238 0 241 2).filter fun p => inb p.1 p.2) = [(238, 0), (239, 1)] ∧
    ((bres 240 0 250 7).filter fun p => inb p.1 p.2) = [] := by decide

/-- V7: shallow, diagonal and steep lines. -/
theorem witness_BresenhamWalk :
    ((0 : Int) < 3 ∧ |(2 : Int) - 0| ≤ 3 - 0) ∧ ((0 : Int) < 4 ∧ |(0 : Int) - 4| ≤ 4 - 0) ∧
    ((0 : Int) < 3 ∧ |(2 : Int) - 0| < 3 - 0) ∧ bres 0 0 2 3 = [(0, 0), (1, 1), (1, 2), (2, 3)] := by decide

theorem witness_OutOfBoundsNoTransaction :
    hasShape (.drawPixel 240 0 1#16) = true ∧
    (∀ px py : Int, 0 ≤ px → px < 240 → 0 ≤ py → py < 320 → ¬touches (.drawPixel 240 0 1#16) px py) ∧
    hasShape (.readPixel (-1) 0) = true ∧
    (∀ px py : Int, 0 ≤ px → px < 240 → 0 ≤ py → py < 320 → ¬touches (.readPixel (-1) 0) px py) ∧
    hasShape (.fastXorRect 0 320 4 4 1#8) = true ∧
    ∀ px py : Int, 0 ≤ px → px < 240 → 0 ≤ py → py < 320 → ¬touches (.fastXorRect 0 320 4 4 1#8) px py := by
  refine ⟨rfl, ?_, rfl, ?_, rfl, ?_⟩ <;> intro px py h1 h2 h3 h4 h <;> simp only [touches, inRect] at h <;> omega

theorem witness_DrawingPaintsItsShape :
    colourOf16 (.drawFastHLine 0 5 1 0xF800#16) = some 0xF800#16 ∧
    (∃ p, remembered.panel = .known p ∧ p.format = .twoBytes) ∧ (remembered.doOverdraw = true → MemoSound remembered) :=
  ⟨rfl, ⟨_, rfl, rfl⟩, fun _ => remembered_holds⟩

theorem witness_OverdrawSamePicture :
    colourOf16 (.fillRect 0 5 1 1 0xF800#16) = some 0xF800#16 ∧
    (∃ p, remembered.panel = .known p ∧ p.format = .twoBytes) ∧ MemoSound remembered :=
  ⟨rfl, ⟨_, rfl, rfl⟩, remembered_holds⟩

theorem witness_MemoMaintenance :
    (∃ t, exec (.flood 1#16 0) remembered = .next t ∧ t.txlog = remembered.txlog) ∧
    (∃ t, exec (.pushColor 1#16) remembered = .next t ∧ t.txlog ≠ remembered.txlog) ∧
    ∃ t, exec (.fastFlood 1#8 1) remembered = .next t ∧ t.txlog ≠ remembered.txlog :=
  ⟨⟨_, rfl, rfl⟩, ⟨_, rfl, by decide⟩, _, rfl, by decide⟩

theorem witness_ReadPixelFrames :
    (¬((0 : Int) ≤ 240 ∧ (240 : Int) < 240 ∧ (0 : Int) ≤ 0 ∧ (0 : Int) < 320)) ∧
    ((0 : Int) ≤ 239 ∧ (239 : Int) < 240 ∧ (0 : Int) ≤ 319 ∧ (319 : Int) < 320) := by decide

theorem witness_ReadBackAfterDraw :
    239 < 240 ∧ 319 < 320 ∧ State.reset.panel = .known Panel.initialised ∧ Panel.initialised.format = .twoBytes ∧
    settleMet State.reset = true ∧ State.reset.doMasking = false := by decide

theorem witness_FastFrames :
    colourOf8 (.fastDrawPixel 0 0 7#8) = some 7#8 ∧ fastLog (.fastDrawPixel 240 0 7#8) = [] ∧
    fastLog (.fastDrawPixel 239 319 7#8) ≠ [] := by decide

theorem witness_FastPaintsItsShape :
    colourOf8 (.fastFillTriangle 0 0 4 0 0 4 7#8) = some 7#8 ∧ ∃ p, fast0.panel = .known p ∧ p.format = .oneByte :=
  ⟨rfl, _, rfl, rfl⟩

theorem witness_FastIgnoresCompositing :
    isFast (.fastXorFlood 1#8 2) = true ∧ ∃ t, exec (.fastXorFlood 1#8 2) fast0 = .next t := ⟨rfl, _, rfl⟩

theorem witness_XorFloodFrames : 240 < 241 ∧ 0 < 1 ∧ 240 ≤ 240 := by decide

theorem witness_XorRectFrames :
    clipRect 240 0 1 1 = none ∧ clipRect (-1) (-1) 2 2 = some (0, 0, 1, 1) := by decide

theorem witness_XorFloodFlipsPixels :
    (∃ p, (ran fast0 0x130000000000000400EF000400000000).panel = .known p ∧ p.HasWindow 0 4 240 1 ∧
      p.format = .oneByte) ∧
    settleMet (ran fast0 0x130000000000000400EF000400000000) = true ∧ 240 ≤ 240 ∧ 240 ≤ 240 * 1 := by
  refine ⟨⟨_, rfl, ?_, ?_⟩, ?_, by decide, by decide⟩
  · constructor <;> decide +kernel
  · decide +kernel
  · decide +kernel

theorem witness_XorRectTwiceRestores :
    (∃ p, fast0.panel = .known p ∧ p.format = .oneByte) ∧ settleMet fast0 = true ∧
    inRect 239 319 4 4 239 319 ∧ ¬inRect 239 319 4 4 238 319 :=
  ⟨⟨_, rfl, rfl⟩, by decide, by simp [inRect], by simp [inRect]⟩

/-- V12: sorted vertices, a lower edge on one row, an upper edge on one row, all on one row, and two out of order. -/
theorem witness_TriangleSpans :
    (2, 0, 1) ∈ triSpans 2 0 0 4 4 4 ∧ ((4 : Int) = 4 ∧ (0, 4, 5) ∈ triSpans 2 0 0 4 4 4) ∧
    (0, 0, 5) ∈ triSpans 0 0 4 0 0 4 ∧ (1, 3, 4) ∈ triSpans 1 1 4 3 2 6 ∧
    triSpans 0 0 5 0 2 0 = [(0, 0, 6)] ∧ ((0 : Int) < 4 ∧ (4 : Int) ≤ 4) := by decide

end Sys2Proof.Test
end

section
/-! O37: what no operation writes. `carries_exec` answers for everything but `result` and `err_illegal`; these two are
followed through the operations of `writesRegister`. -/

namespace Sys2Proof.Machine

/-- `readPixel` leaves `err_illegal` alone when its pixel is in bounds (R33, R207). -/
theorem readPixelAt_errIllegal (x y : Int) (s : State) : (readPixelAt x y s).errIllegal = s.errIllegal :=
  (((carries_winSet x y x y s).trans (carries_readBegin _)).trans
    ((carries_busRead _).trans (carries_busRead (x := true) _))).errIllegal

/-- `fastXORFlood` leaves `result` alone, performed or not (R32, R241). -/
theorem fastXorFloodOp_result (m : Byte) (n : Nat) (s : State) : (fastXorFloodOp m n s).result = s.result := by
  rcases Nat.lt_or_ge 240 n with hn | hn
  · rw [fastXorFlood_long m n s hn]
    rfl
  · exact (carries_fastXorFlood m n s hn).result

/-- Only `readData` and `readPixel` write `result` (R32). -/
theorem result_exec (i : Instr) (s t : State) (h : exec i s = .next t) (hd : i ≠ .readData)
    (hp : ∀ x y, i ≠ .readPixel x y) : t.result = s.result := by
  by_cases hw : writesRegister i = false
  · exact (carries_exec_plain i s t hw h).result
  cases i <;> simp only [writesRegister, not_true_eq_false] at hw
  case readData => exact absurd rfl hd
  case readPixel x y => exact absurd rfl (hp x y)
  case fastXorFlood m n => cases h; exact fastXorFloodOp_result m n s
  all_goals cases h; rfl

/-- Only `fastXORFlood` writes `err_illegal` (R33, R241); an illegal descriptor is no operation. -/
theorem errIllegal_exec (i : Instr) (s t : State) (h : exec i s = .next t) (hx : ∀ m n, i ≠ .fastXorFlood m n) :
    t.errIllegal = s.errIllegal := by
  by_cases hw : writesRegister i = false
  · exact (carries_exec_plain i s t hw h).errIllegal
  cases i <;> simp only [writesRegister, not_true_eq_false] at hw
  case readPixel x y =>
    cases h
    refine (endIdle_errIllegal _).trans ?_
    split
    · exact readPixelAt_errIllegal x y s
    · rfl
  case fastXorFlood m n => exact absurd rfl (hx m n)
  all_goals cases h; rfl

/-- Settles O37: `result` and `err_illegal` by their own lemmas, the rest because every operation carries it. -/
theorem whatNoOperationWrites : Obligations.WhatNoOperationWrites := by
  unfold Obligations.WhatNoOperationWrites
  intro i s t h
  have c := carries_exec i s t h
  exact ⟨result_exec i s t h, fun hx => c.xbuf (by rw [hx]; rfl), errIllegal_exec i s t h, c.pixMem, c.readDummyReads,
    c.targetClockHz, c.settleCycles, c.hostQueue, c.hostData⟩

end Sys2Proof.Machine
end

section
/-! An invariant of every step, packaged once (`KeptByHost`): what one access may do is shown harmless case by case, the
steps follow. O14 and O15 are the first two uses. -/

namespace Sys2Proof.Machine

/-- Nothing the host can make the block do breaks `P`. -/
structure KeptByHost (P : State → Prop) : Prop where
  queue : ∀ s q, P s → P { s with hostQueue := q }
  exec : ∀ i s t, P s → exec i s = .next t → P t
  illegal : ∀ s, P s → P (recordIllegal s)
  read : ∀ r s, P s → P (readRegister r s)
  store : ∀ addr v s, P s → P (storeWord addr v s)
  reset : ∀ s, P s → P (resetBlock s)
  abandon : ∀ s t n, P s → P t → P (abandon s t n)

theorem KeptByHost.issue {P : State → Prop} (k : KeptByHost P) {w : Descriptor} {s t : State} (hs : P s)
    (h : issue w s = .next t) : P t := by
  rcases issue_cases h with ⟨i, -, he⟩ | ⟨-, rfl⟩
  · exact k.exec i s t hs he
  · exact k.illegal s hs

theorem KeptByHost.serve {P : State → Prop} (k : KeptByHost P) {a : HostAccess} {s t : State} (hs : P s)
    (h : serve a s = .next t) : P t := by
  rcases serve_cases h with ⟨i, he, -⟩ | ⟨-, rfl⟩ | ⟨r, -, rfl⟩ | ⟨r, v, -, -, rfl⟩ | ⟨addr, v, -, rfl⟩ | ⟨-, rfl⟩ |
    ⟨w, n, u, -, hu, rfl⟩
  · exact k.exec i s t hs he
  · exact k.illegal s hs
  · exact k.read r s hs
  · exact hs
  · exact k.store addr v s hs
  · exact k.reset s hs
  · exact k.abandon s u n hs (k.issue hs hu)

theorem KeptByHost.step {P : State → Prop} (k : KeptByHost P) {s t : State} (hs : P s) (h : step s = .next t) : P t := by
  rcases step_cases h with ⟨-, rfl⟩ | ⟨a, rest, -, ha⟩
  · exact hs
  · exact k.serve (k.queue s rest hs) ha

/-! ### The canonical form -/

/-- The overdraw memory and `xbuf` of reset are in their canonical form (R28, R29, R40). -/
theorem memosWf_reset : MemosWf State.reset := ⟨rfl, rfl, List.length_replicate⟩

theorem canonical_keptByHost : KeptByHost Canonical where
  queue _ _ hs := hs
  exec := canonical_exec
  illegal _ hs := hs
  read _ _ hs := hs
  store addr v s hs := by
    rw [canonical_iff] at hs ⊢
    obtain ⟨hpanel, hpix, hmemos⟩ := hs
    exact ⟨hpanel, Memory.wf_insert v hpix addr.isLt, hmemos.of_eq rfl rfl rfl⟩
  reset s hs := by
    rw [canonical_iff] at hs ⊢
    exact ⟨hs.1, hs.2.1, memosWf_reset.of_eq rfl rfl rfl⟩
  abandon s t n hs ht := by
    rw [canonical_iff] at hs ht ⊢
    exact ⟨PanelView.Canon.onFrames hs.1, ht.2.1, memosWf_reset.of_eq rfl rfl rfl⟩

/-- Settles O14: every operation keeps the form (`canonical_exec`), a host store stays below 2^32, reset empties. -/
theorem canonicalIsKept : Obligations.CanonicalIsKept := by
  unfold Obligations.CanonicalIsKept
  exact fun _ _ hs h => canonical_keptByHost.step hs h

/-! ### The overdraw memory -/

theorem memoSound_keptByHost : KeptByHost MemoSound where
  queue _ _ hs := hs
  exec := sound_exec
  illegal _ hs := hs
  read _ _ hs := hs
  store _ _ _ hs := hs
  reset _ _ := .of_nil rfl rfl
  abandon _ _ _ _ _ := .of_nil rfl rfl

/-- Settles O15: every operation keeps soundness (`sound_exec`), and an empty memory, which reset leaves, is sound. -/
theorem memoStaysSound : Obligations.MemoStaysSound := by
  unfold Obligations.MemoStaysSound
  exact fun _ _ hs h => memoSound_keptByHost.step hs h

end Sys2Proof.Machine
end

section
/-! O16: the window shadow. A frame that is no CASET and no PASET leaves what the shadow says of a panel true
(`PanelView.Agrees`); the window procedures write shadow and panel together; `writeCommand` clears the valid bit of the
window it opens. -/

namespace Sys2Proof.Machine

/-- `ShadowAgrees`, of a panel and a shadow (`shadowOf`) held apart (R27). -/
def PanelView.Agrees (sh : (Color × Color × Bool) × (Color × Color × Bool)) (v : PanelView) : Prop :=
  ∀ p, v = .known p →
    (sh.1.2.2 = true → p.pXs = sh.1.1 ∧ p.pXe = sh.1.2.1 ∧ (p.pOpen = .caset → p.pK = 4)) ∧
    (sh.2.2.2 = true → p.pYs = sh.2.1 ∧ p.pYe = sh.2.2.1 ∧ (p.pOpen = .paset → p.pK = 4))

theorem shadowAgrees_iff (s : State) : ShadowAgrees s ↔ s.panel.Agrees (shadowOf s) := Iff.rfl

theorem ShadowAgrees.agrees {s : State} (h : ShadowAgrees s) : s.panel.Agrees (shadowOf s) := (shadowAgrees_iff s).1 h

/-- The shadow agrees after a piece that leaves the shadow alone, if it agrees with the panel the piece leaves. -/
theorem ShadowAgrees.of_shadow {s t : State} (hsh : shadowOf t = shadowOf s) (h : t.panel.Agrees (shadowOf s)) :
    ShadowAgrees t := by
  rw [shadowAgrees_iff, hsh]
  exact h

theorem ShadowAgrees.finish {s : State} (h : ShadowAgrees s) : ShadowAgrees (finish s) := h
theorem ShadowAgrees.endIdle {s : State} (h : ShadowAgrees s) : ShadowAgrees (endIdle s) := h
theorem ShadowAgrees.memoClearAll {s : State} (h : ShadowAgrees s) : ShadowAgrees (memoClearAll s) := h
theorem ShadowAgrees.memoRow {s : State} (h : ShadowAgrees s) (x y n : Nat) (k : Color) :
    ShadowAgrees (memoRow x y n k s) := h
theorem ShadowAgrees.memoCol {s : State} (h : ShadowAgrees s) (x y n : Nat) (k : Color) :
    ShadowAgrees (memoCol x y n k s) := h
theorem ShadowAgrees.memoPixel {s : State} (h : ShadowAgrees s) (x y : Nat) : ShadowAgrees (memoPixel x y s) := h
theorem ShadowAgrees.setPrim {s : State} (h : ShadowAgrees s) (p : PrimState) : ShadowAgrees (setPrim p s) := h
theorem ShadowAgrees.withMemo {s : State} (h : ShadowAgrees s) (r c : Table Run) :
    ShadowAgrees { s with rowMemo := r, colMemo := c } := h
theorem ShadowAgrees.withResult {s : State} (h : ShadowAgrees s) (r : Color) : ShadowAgrees { s with result := r } := h

section Frames
variable {sh : (Color × Color × Bool) × (Color × Color × Bool)}

theorem PanelView.agrees_unspecified (why : PanelRefusal) : (PanelView.unspecified why).Agrees sh :=
  fun _ hp => by cases hp

/-- A panel with the window of another and no parameter list open agrees with what the other agrees with. -/
theorem PanelView.Agrees.of_window {p q : Panel} (h : (PanelView.known p).Agrees sh) (hw : q.window = p.window)
    (hc : q.pOpen ≠ .caset) (hr : q.pOpen ≠ .paset) : (PanelView.known q).Agrees sh := by
  intro q' hq
  cases hq
  obtain ⟨hcol, hrow⟩ := h p rfl
  simp only [Panel.window, Prod.mk.injEq] at hw
  obtain ⟨⟨hxs, hxe⟩, hys, hye⟩ := hw
  rw [hxs, hxe, hys, hye]
  exact ⟨fun hv => ⟨(hcol hv).1, (hcol hv).2.1, fun ho => absurd ho hc⟩,
    fun hv => ⟨(hrow hv).1, (hrow hv).2.1, fun ho => absurd ho hr⟩⟩

theorem Panel.onCommand_window (d : Nat) (b : Byte) (p : Panel) : (p.onCommand d b).window = p.window := by
  rw [Panel.onCommand]
  repeat' split
  all_goals rfl

theorem Panel.onCommand_pOpen {b : Byte} (hc : b ≠ Config.cmdCaset) (hr : b ≠ Config.cmdPaset) (d : Nat) (p : Panel) :
    (p.onCommand d b).pOpen ≠ .caset ∧ (p.onCommand d b).pOpen ≠ .paset := by
  rw [Panel.onCommand, if_neg hc, if_neg hr]
  repeat' split
  all_goals exact ⟨by simp, by simp⟩

theorem Panel.onPixelByte_window (b : Byte) (p : Panel) :
    (p.onPixelByte b).window = p.window ∧ (p.onPixelByte b).pOpen = p.pOpen := by
  simp only [Panel.onPixelByte, Panel.window]
  split
  · split <;> simp [Panel.storePixel]
  · simp [Panel.storePixel]

theorem Panel.afterPixelByte_window (p : Panel) :
    p.afterPixelByte.window = p.window ∧ p.afterPixelByte.pOpen = p.pOpen := by
  simp only [Panel.afterPixelByte, Panel.window]
  split
  · split <;> simp
  · simp

/-- A data frame under CASET touches the column window alone, and not even that once the list is complete (R73). -/
theorem PanelView.Agrees.columnParam {p : Panel} (h : (PanelView.known p).Agrees sh) (ho : p.pOpen = .caset) (b : Byte) :
    (PanelView.known (p.onColumnParam b)).Agrees sh := by
  intro q hq
  cases hq
  obtain ⟨hcol, hrow⟩ := h p rfl
  refine ⟨fun hv => ?_, fun hv => ?_⟩
  · obtain ⟨hxs, hxe, hk⟩ := hcol hv
    have hfull : p.onColumnParam b = p := by simp [Panel.onColumnParam, Panel.pushParam, hk ho]
    rw [hfull]
    exact ⟨hxs, hxe, hk⟩
  · obtain ⟨hys, hye, -⟩ := hrow hv
    have hkeep : (p.onColumnParam b).pYs = p.pYs ∧ (p.onColumnParam b).pYe = p.pYe ∧
        (p.onColumnParam b).pOpen = p.pOpen := by
      simp only [Panel.onColumnParam, Panel.pushParam]
      repeat' split
      all_goals exact ⟨rfl, rfl, rfl⟩
    obtain ⟨k1, k2, k3⟩ := hkeep
    exact ⟨k1.trans hys, k2.trans hye, fun hp => by rw [k3, ho] at hp; cases hp⟩

/-- The same under PASET, of the row window. -/
theorem PanelView.Agrees.rowParam {p : Panel} (h : (PanelView.known p).Agrees sh) (ho : p.pOpen = .paset) (b : Byte) :
    (PanelView.known (p.onRowParam b)).Agrees sh := by
  intro q hq
  cases hq
  obtain ⟨hcol, hrow⟩ := h p rfl
  refine ⟨fun hv => ?_, fun hv => ?_⟩
  · obtain ⟨hxs, hxe, -⟩ := hcol hv
    have hkeep : (p.onRowParam b).pXs = p.pXs ∧ (p.onRowParam b).pXe = p.pXe ∧
        (p.onRowParam b).pOpen = p.pOpen := by
      simp only [Panel.onRowParam, Panel.pushParam]
      repeat' split
      all_goals exact ⟨rfl, rfl, rfl⟩
    obtain ⟨k1, k2, k3⟩ := hkeep
    exact ⟨k1.trans hxs, k2.trans hxe, fun hp => by rw [k3, ho] at hp; cases hp⟩
  · obtain ⟨hys, hye, hk⟩ := hrow hv
    have hfull : p.onRowParam b = p := by simp [Panel.onRowParam, Panel.pushParam, hk ho]
    rw [hfull]
    exact ⟨hys, hye, hk⟩

theorem PanelView.Agrees.cmd {v : PanelView} (h : v.Agrees sh) {b : Byte} (hc : b ≠ Config.cmdCaset)
    (hr : b ≠ Config.cmdPaset) (d : Nat) : (v.onFrame d (.cmd b)).Agrees sh := by
  cases v with
  | unspecified why => exact agrees_unspecified why
  | known p =>
    obtain ⟨h1, h2⟩ := p.onCommand_pOpen hc hr d
    exact h.of_window (p.onCommand_window d b) h1 h2

theorem PanelView.Agrees.dat {v : PanelView} (h : v.Agrees sh) (d : Nat) (b : Byte) :
    (v.onFrame d (.dat b)).Agrees sh := by
  cases v with
  | unspecified why => exact agrees_unspecified why
  | known p =>
    show (p.onData b).Agrees sh
    rw [Panel.onData]
    split
    case h_1 ho => exact h.columnParam ho b
    case h_2 ho => exact h.rowParam ho b
    case h_3 ho =>
      split
      · exact agrees_unspecified _
      · obtain ⟨hw, hopen⟩ := p.onPixelByte_window b
        exact h.of_window hw (by simp [hopen, ho]) (by simp [hopen, ho])
    all_goals exact agrees_unspecified _

theorem PanelView.Agrees.rd {v : PanelView} (h : v.Agrees sh) : v.onRead.Agrees sh := by
  cases v with
  | unspecified why => exact agrees_unspecified why
  | known p =>
    show p.onRead.Agrees sh
    rw [Panel.onRead]
    split
    · exact agrees_unspecified _
    · rename_i ho
      have ho : p.pOpen = .ramrd := not_not.1 ho
      split
      · exact h.of_window rfl (by simp [ho]) (by simp [ho])
      · split
        · exact agrees_unspecified _
        · obtain ⟨hw, hopen⟩ := p.afterPixelByte_window
          exact h.of_window hw (by simp [hopen, ho]) (by simp [hopen, ho])

theorem PanelView.Agrees.ramwr {v : PanelView} (h : v.Agrees sh) (d : Nat) :
    (v.onFrame d (.cmd Config.cmdRamwr)).Agrees sh := h.cmd (by decide) (by decide) d

theorem PanelView.Agrees.ramrd {v : PanelView} (h : v.Agrees sh) (d : Nat) :
    (v.onFrame d (.cmd Config.cmdRamrd)).Agrees sh := h.cmd (by decide) (by decide) d

end Frames

/-! ### The pieces -/

section Pieces
variable {s : State} (h : ShadowAgrees s)
include h

theorem shadowAgrees_winCols (x1 x2 : Int) : ShadowAgrees (winCols x1 x2 s) := by
  rw [winCols_eq]
  intro q hq
  replace hq : s.panel.onFrames s.readDummyReads _ = .known q := hq
  obtain ⟨p, hp, -⟩ := PanelView.known_of_onFrames hq
  rw [hp, onFrames_columnWindow] at hq
  cases hq
  obtain ⟨-, hrow⟩ := h p hp
  exact ⟨fun _ => ⟨rfl, rfl, fun _ => rfl⟩, fun hv => ⟨(hrow hv).1, (hrow hv).2.1, fun ho => by cases ho⟩⟩

theorem shadowAgrees_winRows (y1 y2 : Int) : ShadowAgrees (winRows y1 y2 s) := by
  rw [winRows_eq]
  intro q hq
  replace hq : s.panel.onFrames s.readDummyReads _ = .known q := hq
  obtain ⟨p, hp, -⟩ := PanelView.known_of_onFrames hq
  rw [hp, onFrames_rowWindow] at hq
  cases hq
  obtain ⟨hcol, -⟩ := h p hp
  exact ⟨fun hv => ⟨(hcol hv).1, (hcol hv).2.1, fun ho => by cases ho⟩, fun _ => ⟨rfl, rfl, fun _ => rfl⟩⟩

theorem shadowAgrees_winSet (x1 y1 x2 y2 : Int) : ShadowAgrees (winSet x1 y1 x2 y2 s) :=
  shadowAgrees_winRows (shadowAgrees_winCols h x1 x2) y1 y2

/-- A command frame that opens a parameter list takes the valid bit of its window with it (R135). -/
theorem shadowAgrees_rawCommand (b : Byte) : ShadowAgrees (rawCommand b s) := by
  by_cases hc : b = Config.cmdCaset
  · subst hc
    intro q hq
    replace hq : s.panel.onFrame s.readDummyReads (.cmd Config.cmdCaset) = .known q := hq
    obtain ⟨p, hp, -⟩ := PanelView.known_of_onFrames (fs := [.cmd _]) hq
    rw [hp] at hq
    cases hq
    obtain ⟨-, hrow⟩ := h p hp
    exact ⟨fun hv => (by cases hv), fun hv => ⟨(hrow hv).1, (hrow hv).2.1, fun ho => by cases ho⟩⟩
  by_cases hr : b = Config.cmdPaset
  · subst hr
    intro q hq
    replace hq : s.panel.onFrame s.readDummyReads (.cmd Config.cmdPaset) = .known q := hq
    obtain ⟨p, hp, -⟩ := PanelView.known_of_onFrames (fs := [.cmd _]) hq
    rw [hp] at hq
    cases hq
    obtain ⟨hcol, -⟩ := h p hp
    exact ⟨fun hv => ⟨(hcol hv).1, (hcol hv).2.1, fun ho => by cases ho⟩, fun hv => by cases hv⟩
  · have hframe : (s.panel.onFrame s.readDummyReads (.cmd b)).Agrees (shadowOf s) := h.agrees.cmd hc hr _
    simp only [rawCommand, if_neg hc, if_neg hr]
    exact hframe

theorem shadowAgrees_busWriteDat (b : Byte) : ShadowAgrees (busWrite .dat b s) := h.agrees.dat s.readDummyReads b

theorem shadowAgrees_busPulse2 : ShadowAgrees (busPulse2 s) := by
  rw [busPulse2_eq_sent]
  exact .of_shadow rfl ((h.agrees.dat s.readDummyReads s.dout).dat s.readDummyReads s.dout)

theorem shadowAgrees_px16 (k : Color) : ShadowAgrees (px16 k s) := by
  rw [px16_eq]
  exact .of_shadow rfl ((h.agrees.dat s.readDummyReads (hi8 k)).dat s.readDummyReads (lo8 k))

theorem shadowAgrees_streamBegin : ShadowAgrees (streamBegin s) := h.agrees.ramwr s.readDummyReads

theorem shadowAgrees_flood16 (k : Color) (n : Nat) : ShadowAgrees (flood16 k n s) := by
  cases n with
  | zero => exact h
  | succ n =>
    refine .of_shadow (by rw [flood16_succ, shadowOf]) ?_
    exact flood16_keeps (fun _ d b hv => hv.dat d b) k n.succ_ne_zero (h.agrees.ramwr s.readDummyReads)

theorem shadowAgrees_flood8 (v : Byte) (n : Nat) : ShadowAgrees (flood8 v n s) := by
  cases n with
  | zero => exact h
  | succ n =>
    refine .of_shadow (by rw [flood8_succ, shadowOf]) ?_
    exact flood8_keeps (fun _ d b hv => hv.dat d b) v n.succ_ne_zero (h.agrees.ramwr _)

theorem shadowAgrees_pushWords (n : Nat) (addr : BitVec 32) : ShadowAgrees (pushWords n addr s) := by
  cases n with
  | zero => exact h
  | succ n =>
    refine .of_shadow (by rw [pushWords_eq, shadowOf]) ?_
    exact pushWords_keeps (P := PanelView.Agrees (shadowOf s)) (fun _ d b hv => hv.dat d b) _ addr h

theorem shadowAgrees_busReads (n : Nat) : ShadowAgrees (busReads n s).2 := by
  cases n with
  | zero => exact h
  | succ n =>
    refine .of_shadow (by rw [busReads_eq_received, shadowOf]) ?_
    exact busReads_keeps (P := PanelView.Agrees (shadowOf s)) (fun _ hv => hv.rd) _ s h

theorem shadowAgrees_busRead : ShadowAgrees (busRead s) := h.agrees.rd

theorem shadowAgrees_readCmd : ShadowAgrees (readCmd s) := h.agrees.ramrd s.readDummyReads

theorem shadowAgrees_readBegin : ShadowAgrees (readBegin s) := shadowAgrees_busReads (shadowAgrees_readCmd h) _

theorem shadowAgrees_xorRun (m : Byte) {n : Nat} (hn : 0 < n) : ShadowAgrees (xorRun m n s) := by
  obtain ⟨n, rfl⟩ : ∃ k, n = k + 1 := ⟨n - 1, by omega⟩
  obtain ⟨ds, vs, -, -, -, b, -, heq⟩ := xorRun_eq m n s
  refine .of_shadow (by rw [heq, shadowOf]) ?_
  exact xorRun_keeps (fun _ hv => hv.rd) (fun _ d b hv => hv.dat d b) (fun _ d hv => hv.ramwr d) m _
    (h.agrees.ramrd _)

theorem shadowAgrees_rect16 (x1 y1 x2 y2 : Int) (k : Color) (n : Nat) :
    ShadowAgrees (flood16 k n (winSet x1 y1 x2 y2 s)) :=
  shadowAgrees_flood16 (shadowAgrees_winSet h x1 y1 x2 y2) k n

theorem shadowAgrees_pixel16 (x y : Int) (k : Color) : ShadowAgrees (pixel16 x y k s) := by
  rw [pixel16]
  split
  · exact (shadowAgrees_rect16 h x y x y k 1).memoPixel _ _
  · exact h

theorem shadowAgrees_hrun (x y n : Nat) (k : Color) : ShadowAgrees (hrun x y n k s) := by
  rw [hrun]
  split
  · exact h
  · exact (shadowAgrees_rect16 h _ _ _ _ k n).memoRow _ _ _ _

theorem shadowAgrees_vrun (x y n : Nat) (k : Color) : ShadowAgrees (vrun x y n k s) := by
  rw [vrun]
  split
  · exact h
  · exact (shadowAgrees_rect16 h _ _ _ _ k n).memoCol _ _ _ _

theorem shadowAgrees_hline16 (x y w : Int) (k : Color) : ShadowAgrees (hline16 x y w k s) := by
  rw [hline16]
  split
  · exact h
  · exact shadowAgrees_hrun h _ _ _ k

theorem shadowAgrees_vline16 (x y n : Int) (k : Color) : ShadowAgrees (vline16 x y n k s) := by
  rw [vline16]
  split
  · exact h
  · exact shadowAgrees_vrun h _ _ _ k

theorem shadowAgrees_stroke16 (k : Color) (z : Stroke) : ShadowAgrees (stroke16 k s z) := by
  cases z with
  | h x y w => exact shadowAgrees_hline16 h x y w k
  | v x y n => exact shadowAgrees_vline16 h x y n k
  | px x y => exact shadowAgrees_pixel16 h x y k

theorem shadowAgrees_foldl {α : Type} {f : State → α → State} (l : List α)
    (hf : ∀ t, ∀ a ∈ l, ShadowAgrees t → ShadowAgrees (f t a)) : ShadowAgrees (l.foldl f s) := by
  induction l generalizing s with
  | nil => exact h
  | cons a l ih =>
    exact ih (hf s a List.mem_cons_self h) fun t b hb => hf t b (List.mem_cons_of_mem a hb)

theorem shadowAgrees_fillRect16 (x y w l : Int) (k : Color) : ShadowAgrees (fillRect16 x y w l k s) := by
  rw [fillRect16]
  split
  · exact h
  · split
    · obtain ⟨rows, heq, -⟩ := fillFullWidth_eq _ _ k s
      rw [heq]
      exact (shadowAgrees_rect16 h _ _ _ _ k _).withMemo rows _
    · exact shadowAgrees_foldl h _ fun t j _ ht => shadowAgrees_hrun ht _ j _ k

theorem shadowAgrees_emitEach (v : Byte) (es : List Emission) : ShadowAgrees (emitEach v es s) :=
  shadowAgrees_foldl h es fun _ _ _ ht => shadowAgrees_flood8 (shadowAgrees_winSet ht _ _ _ _) v _

theorem shadowAgrees_xorRect8 (x y w l : Int) (m : Byte) : ShadowAgrees (xorRect8 x y w l m s) := by
  have hc := clipRect_spec x y w l
  rw [xorRect8]
  split <;> rename_i e <;> rw [e] at hc
  · exact h
  · exact shadowAgrees_foldl h _ fun _ _ _ ht => shadowAgrees_xorRun (shadowAgrees_winSet ht _ _ _ _) m hc.1

theorem shadowAgrees_readPixelAt (x y : Int) : ShadowAgrees (readPixelAt x y s) := by
  have hbegin := shadowAgrees_readBegin (shadowAgrees_winSet h x y x y)
  exact (shadowAgrees_busRead (shadowAgrees_busRead hbegin)).withResult _

theorem shadowAgrees_fastEnd (o : State) : ShadowAgrees (fastEnd o s) := by
  rw [fastEnd]
  split <;> exact h

end Pieces

/-! ### Whole operations -/

/-- The six drawing operations of the 16-bit path. -/
theorem shadowAgrees_exec16 {i : Instr} {c : Color} {s t : State} (hc : colourOf16 i = some c) (hs : ShadowAgrees s)
    (h : exec i s = .next t) : ShadowAgrees t := by
  cases i <;> simp only [colourOf16, reduceCtorEq] at hc <;> cases h
  case drawPixel x y k => exact (shadowAgrees_pixel16 hs x y _).endIdle
  case drawLine x0 y0 x1 y1 k => exact (shadowAgrees_foldl hs _ fun _ z _ ht => shadowAgrees_stroke16 ht _ z).endIdle
  case drawFastHLine x y w k => exact (shadowAgrees_hline16 hs x y w _).endIdle
  case drawFastVLine x y n k => exact (shadowAgrees_vline16 hs x y n _).endIdle
  case fillRect x y w l k => exact (shadowAgrees_fillRect16 hs x y w l _).endIdle
  case fillScreen k => exact (shadowAgrees_fillRect16 hs 0 0 240 320 _).endIdle

/-- The operations of neither family. -/
theorem shadowAgrees_execOther {i : Instr} {s t : State} (h16 : colourOf16 i = none) (h8 : colourOf8 i = none)
    (hs : ShadowAgrees s) (h : exec i s = .next t) : ShadowAgrees t := by
  cases i <;> simp only [colourOf16, colourOf8, reduceCtorEq] at h16 h8 <;> cases h
  case writeCommand b => exact shadowAgrees_rawCommand hs b
  case caset => exact shadowAgrees_rawCommand hs _
  case paset => exact shadowAgrees_rawCommand hs _
  case ramwr => exact shadowAgrees_rawCommand hs _
  case ramrd => exact shadowAgrees_rawCommand hs _
  case ramrdCont => exact shadowAgrees_rawCommand hs _
  case writeData b => exact (shadowAgrees_busWriteDat hs b).memoClearAll.finish
  case clockPulse => exact (shadowAgrees_busPulse2 hs).memoClearAll.finish
  case readData => exact ((shadowAgrees_busRead hs).withResult _).finish
  case setColumnWindow x1 x2 => exact (shadowAgrees_winCols hs x1 x2).finish
  case setRowWindow y1 y2 => exact (shadowAgrees_winRows hs y1 y2).finish
  case setPoint x y => exact (shadowAgrees_winSet hs x y x y).finish
  case setAddrWindow x1 y1 x2 y2 => exact (shadowAgrees_winSet hs x1 y1 x2 y2).finish
  case pushColor k => exact ((shadowAgrees_px16 hs k).setPrim .streaming).memoClearAll.finish
  case pushColors addr n first =>
    rw [pushColors]
    split
    · exact hs
    · refine ((shadowAgrees_pushWords ?_ n addr).setPrim .streaming).memoClearAll.finish
      split
      · exact shadowAgrees_streamBegin hs
      · exact hs
  case flood k n =>
    rw [floodOp]
    split
    · exact hs
    · exact (shadowAgrees_flood16 hs k n).memoClearAll.finish
  case fastFlood v n =>
    rw [fastFloodOp]
    split
    · exact hs
    · exact (shadowAgrees_flood8 hs v n).memoClearAll.finish
  case fastXorFlood m n =>
    rw [fastXorFloodOp]
    split
    · exact hs
    · split
      · exact hs
      · exact (shadowAgrees_xorRun hs m (by omega)).memoClearAll.finish
  case fastXorRect x y w l m => exact shadowAgrees_fastEnd (shadowAgrees_xorRect8 hs x y w l m) s
  case readPixel x y =>
    by_cases hb : inb x y = true
    · rw [if_pos hb]
      exact (shadowAgrees_readPixelAt hs x y).endIdle
    · rw [if_neg hb]
      exact hs
  all_goals exact hs

/-- Every operation keeps the shadow equal to the window the panel holds (R27, R135). -/
theorem shadowAgrees_exec (i : Instr) (s t : State) (hs : ShadowAgrees s) (h : exec i s = .next t) : ShadowAgrees t := by
  rcases h16 : colourOf16 i with _ | c
  · rcases h8 : colourOf8 i with _ | c
    · exact shadowAgrees_execOther h16 h8 hs h
    · rw [fast_exec i c s h8] at h
      cases h
      exact shadowAgrees_fastEnd (shadowAgrees_emitEach hs c _) s
  · exact shadowAgrees_exec16 h16 hs h

theorem shadowAgrees_keptByHost : KeptByHost ShadowAgrees where
  queue _ _ hs := hs
  exec := shadowAgrees_exec
  illegal _ hs := hs
  read _ _ hs := hs
  store _ _ _ hs := hs
  reset _ _ _ _ := ⟨fun hv => absurd hv Bool.false_ne_true, fun hv => absurd hv Bool.false_ne_true⟩
  abandon _ _ _ _ _ _ _ := ⟨fun hv => absurd hv Bool.false_ne_true, fun hv => absurd hv Bool.false_ne_true⟩

/-- Settles O16: every operation keeps the agreement (`shadowAgrees_exec`); reset leaves both valid bits 0. -/
theorem shadowStaysRight : Obligations.ShadowStaysRight := by
  unfold Obligations.ShadowStaysRight
  exact fun _ _ hs h => shadowAgrees_keptByHost.step hs h

end Sys2Proof.Machine
end

section
/-! O8, O13, O36, O38: `err_illegal`, the bus at rest, the compositing registers and `prim_state`, operation by operation. -/

namespace Sys2Proof.Machine

/-! ### `err_illegal` (R33) -/

/-- A legal descriptor records an illegality exactly if it is an XOR flood longer than `XBUF_BYTES` (R33, R241). -/
theorem recordsIllegal_ok {w : Descriptor} {i : Instr} (h : decode (.opd w) = .ok i) :
    recordsIllegal w ↔ ∃ m n, i = .fastXorFlood m n ∧ 240 < n := by
  constructor
  · rintro (hno | ⟨m, n, hd, hn⟩)
    · obtain ⟨e, he⟩ := not_selects_decode hno
      rw [h] at he
      cases he
    · rw [h] at hd
      cases hd
      exact ⟨m, n, rfl, hn⟩
  · rintro ⟨m, n, rfl, hn⟩
    exact .inr ⟨m, n, h, hn⟩

/-- An illegal descriptor is one no row of the table selects (R105, R110). -/
theorem recordsIllegal_error {w : Descriptor} {e : Reject} (h : decode (.opd w) = .error e) : recordsIllegal w := by
  refine .inl fun m => ?_
  by_contra hsel
  rw [Bool.not_eq_false] at hsel
  rw [selects_decode hsel] at h
  cases h

/-- An XOR flood of at most `XBUF_BYTES` keeps `err_illegal`, a longer one sets it (R33, R241). -/
theorem errIllegal_exec_iff {i : Instr} {s t : State} (h : exec i s = .next t) :
    ((∃ m n, i = .fastXorFlood m n ∧ 240 < n) → t.errIllegal = true) ∧
    ((¬∃ m n, i = .fastXorFlood m n ∧ 240 < n) → t.errIllegal = s.errIllegal) := by
  constructor
  · rintro ⟨m, n, rfl, hn⟩
    cases h
    rw [fastXorFlood_long m n s hn, recordIllegal_errIllegal]
  · intro hshort
    by_cases hx : ∃ m n, i = .fastXorFlood m n
    · obtain ⟨m, n, rfl⟩ := hx
      cases h
      exact (carries_fastXorFlood m n s (by by_contra hn; exact hshort ⟨m, n, rfl, by omega⟩)).errIllegal
    · exact errIllegal_exec i s t h fun m n hi => hx ⟨m, n, hi⟩

/-- Issuing a descriptor sets `err_illegal` for the causes of R33 and keeps it otherwise. -/
theorem errIllegal_issue {w : Descriptor} {s t : State} (h : issue w s = .next t) :
    (recordsIllegal w → t.errIllegal = true) ∧ (¬recordsIllegal w → t.errIllegal = s.errIllegal) := by
  rcases issue_cases h with ⟨i, hd, he⟩ | ⟨⟨e, hd⟩, rfl⟩
  · rw [recordsIllegal_ok hd]
    exact errIllegal_exec_iff he
  · exact ⟨fun _ => rfl, fun hno => absurd (recordsIllegal_error hd) hno⟩

/-- No wire command writes `err_illegal` (R33). -/
theorem errIllegal_wire {w : WireWord} {i : Instr} {s t : State} (hd : decode (.wire w) = .ok i)
    (h : exec i s = .next t) : t.errIllegal = s.errIllegal := by
  refine errIllegal_exec i s t h fun m n hi => ?_
  rcases decodeWire_cases hd with rfl | rfl | rfl | rfl | rfl <;> cases hi

/-- Settles O8: by what serving the access can be (`serve_cases`), with `errIllegal_issue` for a write of OPD. -/
theorem errIllegalIsSticky : Obligations.ErrIllegalIsSticky := by
  unfold Obligations.ErrIllegalIsSticky
  intro s t a rest hq h
  rw [step_of_cons hq] at h
  refine ⟨fun hreset => ?_, ?_, fun hreset hopd => ?_⟩
  · rcases serve_cases h with ⟨i, -, ⟨w, rfl, -⟩ | ⟨w, rfl, -⟩⟩ | ⟨⟨w, e, rfl, -⟩, -⟩ | ⟨r, rfl, -⟩ |
      ⟨r, v, rfl, -, -⟩ | ⟨addr, v, rfl, -⟩ | ⟨-, rfl⟩ | ⟨w, n, u, -, -, rfl⟩
    case inr.inr.inr.inr.inr.inl => rfl
    case inr.inr.inr.inr.inr.inr => rfl
    all_goals cases hreset
  · rintro w rfl
    exact errIllegal_issue (s := { s with hostQueue := rest }) h
  · rcases serve_cases h with ⟨i, he, ⟨w, rfl, -⟩ | ⟨w, -, hd⟩⟩ | ⟨⟨w, e, rfl, -⟩, -⟩ | ⟨r, -, rfl⟩ |
      ⟨r, v, -, -, rfl⟩ | ⟨addr, v, -, rfl⟩ | ⟨rfl, -⟩ | ⟨w, n, u, rfl, -, -⟩
    · exact absurd rfl (hopd w)
    · exact errIllegal_wire (s := { s with hostQueue := rest }) hd he
    · exact absurd rfl (hopd w)
    · rfl
    · rfl
    · rfl
    · cases hreset
    · cases hreset

/-! ### The bus at rest (R35) -/

/-- An operation ends with chip-select low: it lowers it, or never raised it (R35, R137). -/
theorem cs_exec (i : Instr) (s t : State) (h : exec i s = .next t) (hs : s.cs = false) : t.cs = false := by
  cases i <;> cases h
  case pushColors addr n first =>
    rw [pushColors]
    split
    · exact hs
    · rfl
  case flood k n =>
    rw [floodOp]
    split
    · exact hs
    · rfl
  case fastFlood v n =>
    rw [fastFloodOp]
    split
    · exact hs
    · rfl
  case fastXorFlood m n =>
    rw [fastXorFloodOp]
    split
    · exact hs
    · split
      · exact hs
      · rfl
  case maskingOn => exact hs
  case maskingOff => exact hs
  case flipMask => exact hs
  case overdrawOn => exact hs
  case overdrawOff => exact hs
  case setBackgroundColor => exact hs
  case setForegroundColor => exact hs
  all_goals rfl

theorem atRest_exec (i : Instr) (s t : State) (hs : AtRest s) (h : exec i s = .next t) : AtRest t := by
  obtain ⟨hdir, hphase, hwr, hrd, hcs⟩ := hs
  have c := carries_exec i s t h
  exact ⟨c.busDir hdir, c.busPhase hphase, c.wr hwr, c.rd hrd, cs_exec i s t h hcs⟩

/-- The reset state is at rest (R35, R40). -/
theorem atRest_reset : AtRest State.reset := ⟨rfl, rfl, rfl, rfl, rfl⟩

theorem atRest_keptByHost : KeptByHost AtRest where
  queue _ _ hs := hs
  exec := atRest_exec
  illegal _ hs := hs
  read _ _ hs := hs
  store _ _ _ hs := hs
  reset _ _ := atRest_reset
  abandon _ _ _ _ _ := atRest_reset

/-- Settles O13: the pins by `carries_exec`, chip-select by `cs_exec`. -/
theorem atRestIsKept : Obligations.AtRestIsKept := by
  unfold Obligations.AtRestIsKept
  exact fun _ _ hs h => atRest_keptByHost.step hs h

/-! ### The compositing registers (R25, R26) -/

/-- The flags and colours of the compositing state (R25, R26). -/
def compositing (s : State) : Bool × Bool × Bool × Color × Color :=
  (s.doMasking, s.doOverdraw, s.maskFlag, s.backgroundColor, s.foregroundColor)

theorem Carries.compositing {x : Bool} {s t : State} (c : Carries x s t) : compositing t = compositing s := by
  simp only [Machine.compositing, c.doMasking, c.doOverdraw, c.maskFlag, c.backgroundColor, c.foregroundColor]

theorem compositing_withResult (s : State) (r : Color) : compositing { s with result := r } = compositing s := rfl
theorem compositing_endIdle (s : State) : compositing (endIdle s) = compositing s := rfl

/-- The seven operations of spec/43. -/
def isCompositing : Instr → Bool
  | .maskingOn => true
  | .maskingOff => true
  | .flipMask => true
  | .overdrawOn => true
  | .overdrawOff => true
  | .setBackgroundColor _ => true
  | .setForegroundColor _ => true
  | _ => false

/-- `readPixel` in bounds keeps the compositing state: its pieces do (R207). -/
theorem readPixelAt_compositing (x y : Int) (s : State) : compositing (readPixelAt x y s) = compositing s := by
  have c := ((carries_winSet x y x y s).trans (carries_readBegin _)).trans
    ((carries_busRead _).trans (carries_busRead (x := true) _))
  exact (compositing_withResult _ _).trans c.compositing

/-- An operation of no other chapter than spec/43 writes the compositing state. -/
theorem compositing_exec (i : Instr) (s t : State) (h : exec i s = .next t) (hi : isCompositing i = false) :
    compositing t = compositing s := by
  by_cases hw : writesRegister i = false
  · exact (carries_exec_plain i s t hw h).compositing
  cases i <;> simp only [writesRegister, not_true_eq_false] at hw <;> simp only [isCompositing, reduceCtorEq] at hi <;>
    rw [← Host.Outcome.next.inj h]
  case readData => exact (carries_busRead (x := true) s).compositing
  case readPixel x y =>
    rw [compositing_endIdle]
    split
    · exact readPixelAt_compositing x y s
    · rfl
  case fastXorFlood m n =>
    rcases Nat.lt_or_ge 240 n with hn | hn
    · rw [fastXorFlood_long m n s hn]
      rfl
    · exact (carries_fastXorFlood m n s hn).compositing

/-- Settles O36: the seven operations of spec/43 one by one, all others by `compositing_exec`. -/
theorem onlyTogglesWriteCompositing : Obligations.OnlyTogglesWriteCompositing := by
  unfold Obligations.OnlyTogglesWriteCompositing
  intro i s t h
  by_cases hi : isCompositing i = false
  · have hc := compositing_exec i s t h hi
    simp only [compositing, Prod.mk.injEq] at hc
    obtain ⟨hmask, hover, hflag, hback, hfore⟩ := hc
    exact ⟨fun _ _ => hmask, fun _ _ => hover, fun _ => hflag, fun _ => hback, fun _ => hfore⟩
  · cases i <;> simp only [isCompositing, not_true_eq_false] at hi <;>
      rw [← Host.Outcome.next.inj h]
    case maskingOn => exact ⟨fun hne _ => absurd rfl hne, fun _ _ => rfl, fun _ => rfl, fun _ => rfl, fun _ => rfl⟩
    case maskingOff => exact ⟨fun _ hne => absurd rfl hne, fun _ _ => rfl, fun _ => rfl, fun _ => rfl, fun _ => rfl⟩
    case flipMask => exact ⟨fun _ _ => rfl, fun _ _ => rfl, fun hne => absurd rfl hne, fun _ => rfl, fun _ => rfl⟩
    case overdrawOn => exact ⟨fun _ _ => rfl, fun hne _ => absurd rfl hne, fun _ => rfl, fun _ => rfl, fun _ => rfl⟩
    case overdrawOff => exact ⟨fun _ _ => rfl, fun _ hne => absurd rfl hne, fun _ => rfl, fun _ => rfl, fun _ => rfl⟩
    case setBackgroundColor c =>
      exact ⟨fun _ _ => rfl, fun _ _ => rfl, fun _ => rfl, fun hne => absurd rfl (hne c), fun _ => rfl⟩
    case setForegroundColor c =>
      exact ⟨fun _ _ => rfl, fun _ _ => rfl, fun _ => rfl, fun _ => rfl, fun hne => absurd rfl (hne c)⟩

/-! ### `prim_state` (R36) -/

theorem rawCommand_primState (b : Byte) (s : State) :
    (rawCommand b s).primState = if b = 0x2C#8 ∨ b = 0x2E#8 ∨ b = 0x3E#8 then .streaming else .idle := by
  simp only [rawCommand]
  split <;> split <;> rfl

theorem busPulse2_primState (s : State) : (busPulse2 s).primState = s.primState := by
  rw [busPulse2_eq_sent, sent_primState]

theorem flood16_primState (k : Color) {n : Nat} (hn : n ≠ 0) (s : State) : (flood16 k n s).primState = .streaming := by
  obtain ⟨n, rfl⟩ := Nat.exists_eq_succ_of_ne_zero hn
  rw [flood16_succ]

theorem flood8_primState (v : Byte) {n : Nat} (hn : n ≠ 0) (s : State) : (flood8 v n s).primState = .streaming := by
  obtain ⟨n, rfl⟩ := Nat.exists_eq_succ_of_ne_zero hn
  rw [flood8_succ]

theorem xorRun_primState (m : Byte) {n : Nat} (hn : n ≠ 0) (s : State) : (xorRun m n s).primState = .streaming := by
  obtain ⟨n, rfl⟩ := Nat.exists_eq_succ_of_ne_zero hn
  obtain ⟨ds, vs, -, -, -, b, -, heq⟩ := xorRun_eq m n s
  rw [heq]

/-- Settles O38: the operations that stream are followed through their pieces; the others set `prim_state` last, or keep
it. -/
theorem primStateTransitions : Obligations.PrimStateTransitions := by
  unfold Obligations.PrimStateTransitions
  intro i s t h
  cases i <;> cases h <;> simp only [primAfter]
  case writeCommand b => exact rawCommand_primState b s
  case clockPulse => exact busPulse2_primState s
  case pushColors addr n first =>
    rw [pushColors]
    split <;> rfl
  case flood k n =>
    rw [floodOp]
    split
    · rfl
    · exact flood16_primState k ‹_› s
  case fastFlood v n =>
    rw [fastFloodOp]
    split
    · rfl
    · exact flood8_primState v ‹_› s
  case fastXorFlood m n =>
    simp only [fastXorFloodOp, Config.xbufBytes]
    by_cases h0 : n = 0
    · simp [h0]
    by_cases hlong : 240 < n
    · simp [h0, hlong]
    · simp only [h0, hlong, or_self, if_false]
      exact xorRun_primState m h0 s
  case caset => exact rawCommand_primState Config.cmdCaset s
  case paset => exact rawCommand_primState Config.cmdPaset s
  case ramwr => exact rawCommand_primState Config.cmdRamwr s
  case ramrd => exact rawCommand_primState Config.cmdRamrd s
  case ramrdCont => exact rawCommand_primState Config.cmdRamrdCont s
  all_goals rfl

end Sys2Proof.Machine
end

section
/-! O5, O9, O10, O11, O17: the host port, its registers and reset. O26, O27: the raw operations of the bus transport. -/

namespace Sys2Proof.Machine

/-! ### The next access (R46, R47) -/

/-- The access that issues a code runs the instruction the code decodes to. -/
theorem serve_accessOf {c : Code} {i : Instr} (h : decode c = .ok i) (s : State) : serve (accessOf c) s = exec i s := by
  cases c with
  | opd w => simp only [accessOf, serve, writeRegister, issue, h]
  | wire w => simp only [accessOf, serve, issueWire, h]

/-- A word of the opcode table that has an instruction is a code that decodes to it. -/
theorem decodeTableWord_eq_some {nbits w : Nat} {i : Instr} (h : decodeTableWord nbits w = some i) :
    ∃ c, codeOfTableWord nbits w = some c ∧ decode c = .ok i := by
  rw [decodeTableWord] at h
  split at h
  · cases h
  · split at h
    · cases h
      exact ⟨_, ‹_›, ‹_›⟩
    · cases h

/-- Settles O5: the access a step takes is the head of the queue, where `withFetchWord` puts the table word. -/
theorem stepRunsIssuedCode : Obligations.StepRunsIssuedCode := by
  unfold Obligations.StepRunsIssuedCode
  refine ⟨fun s c i rest hq hd => ?_, fun s hq => ?_, fun s nbits w i h => ?_⟩
  · rw [step_of_cons hq]
    exact serve_accessOf hd _
  · simp only [step, nextAccess, hq]
  · obtain ⟨c, hc, hd⟩ := decodeTableWord_eq_some h
    simp only [State.withFetchWord, placeTableWord, hc]
    rw [step_of_cons rfl]
    exact serve_accessOf hd s

/-! ### The registers (R46) -/

theorem getLsbD_append_low {v w i : Nat} (x : BitVec v) (y : BitVec w) (h : i < w) :
    (x ++ y).getLsbD i = y.getLsbD i := by simp [BitVec.getLsbD_append, h]

theorem getLsbD_append_high {v w i : Nat} (x : BitVec v) (y : BitVec w) (h : w ≤ i) :
    (x ++ y).getLsbD i = x.getLsbD (i - w) := by simp [BitVec.getLsbD_append, h]

theorem getLsbD_append_ofBool {v : Nat} (x : BitVec v) (b : Bool) : (x ++ BitVec.ofBool b).getLsbD 0 = b :=
  (getLsbD_append_low _ _ Nat.one_pos).trans (by simp)

/-- The bits of STATUS that are a register each, from bit 0 up; `prim_state` takes two bits between them (R46). -/
theorem hostValue_status_bits (s : State) :
    (hostValue .status s).getLsbD 0 = s.errIllegal ∧ (hostValue .status s).getLsbD 1 = s.doMasking ∧
    (hostValue .status s).getLsbD 2 = s.doOverdraw ∧ (hostValue .status s).getLsbD 3 = s.maskFlag ∧
    (hostValue .status s).getLsbD 6 = s.winColSet ∧ (hostValue .status s).getLsbD 7 = s.winRowSet := by
  refine ⟨?_, ?_, ?_, ?_, ?_, ?_⟩ <;> refine (getLsbD_append_low _ (statusWord s) (by decide)).trans ?_
  · exact getLsbD_append_ofBool _ _
  · refine (getLsbD_append_high _ _ (by decide)).trans ?_
    exact getLsbD_append_ofBool _ _
  · iterate 2 refine (getLsbD_append_high _ _ (by decide)).trans ?_
    exact getLsbD_append_ofBool _ _
  · iterate 3 refine (getLsbD_append_high _ _ (by decide)).trans ?_
    exact getLsbD_append_ofBool _ _
  · iterate 5 refine (getLsbD_append_high _ _ (by decide)).trans ?_
    exact getLsbD_append_ofBool _ _
  · iterate 6 refine (getLsbD_append_high _ _ (by decide)).trans ?_
    exact getLsbD_append_ofBool _ _

/-- `prim_state` in STATUS bits 5:4 (R22, R46). -/
theorem hostValue_status_prim (s : State) : (hostValue .status s).extractLsb' 4 2 = s.primState.number := by
  refine (BitVec.extractLsb'_append_eq_of_add_le (by decide)).trans ?_
  iterate 4 refine (extract_high _ _ (by decide)).trans ?_
  exact extract_low _ _

/-- STATUS is zero above bit 7 (R46). -/
theorem hostValue_status_high (s : State) : (hostValue .status s).extractLsb' 8 120 = 0#120 := by
  refine BitVec.eq_of_getLsbD_eq fun i hi => ?_
  rw [BitVec.getLsbD_extractLsb', BitVec.getLsbD_zero, decide_eq_true hi, Bool.true_and]
  by_cases hlow : 8 + i < 16
  · refine (getLsbD_append_low _ (statusWord s) hlow).trans ?_
    iterate 7 refine (getLsbD_append_high _ _ (by omega)).trans ?_
    exact BitVec.getLsbD_zero
  · refine (getLsbD_append_high _ (statusWord s) (by omega)).trans ?_
    exact BitVec.getLsbD_zero

/-- Settles O9: every clause but those on the bits of STATUS is what the host port is defined to do. -/
theorem hostRegisters : Obligations.HostRegisters := by
  unfold Obligations.HostRegisters
  refine ⟨fun r s => rfl, fun r v s hr => ?_, fun w i s hd => serve_accessOf (c := .opd w) hd s, fun s => ?_⟩
  · cases r with
    | opd => exact absurd rfl hr
    | _ => rfl
  · obtain ⟨h0, h1, h2, h3, h6, h7⟩ := hostValue_status_bits s
    refine ⟨rfl, rfl, rfl, rfl, fun h => ?_, fun h => ?_, fun h => ?_, fun h => ?_, h0, h1, h2, h3, ?_, h6, h7,
      hostValue_status_high s⟩
    · simp [hostValue, h]
    · simp [hostValue, h]
    · simp [hostValue, h]
    · simp [hostValue, h]
    · rw [hostValue_status_prim]
      cases s.primState <;> rfl

/-! ### Reset (R40, R290) -/

/-- Settles O10: the literal state of reset, field by field. -/
theorem resetValues : Obligations.ResetValues := by
  unfold Obligations.ResetValues
  exact ⟨rfl, rfl, rfl, rfl, rfl, rfl, rfl, rfl, rfl, rfl, rfl, Table.lookup_nil, Table.lookup_nil, rfl, rfl, rfl⟩

/-- Settles O11: the reset event is `resetBlock`, which is this record. -/
theorem resetEvent : Obligations.ResetEvent := by
  unfold Obligations.ResetEvent
  exact fun _ => rfl

theorem canonical_reset : Canonical State.reset := by
  obtain ⟨hgram, hpix, -, -⟩ := memory_wf_reset
  exact (canonical_iff _).2 ⟨hgram, hpix, memosWf_reset⟩

/-- A shadow with neither valid bit set says nothing (R27). -/
theorem ShadowAgrees.of_invalid {s : State} (hc : s.winColSet = false) (hr : s.winRowSet = false) : ShadowAgrees s :=
  fun _ _ => ⟨fun h => by simp [hc] at h, fun h => by simp [hr] at h⟩

/-- Settles O17: the bus rests, the memories are empty, and neither valid bit is set. -/
theorem invariantsAtReset : Obligations.InvariantsAtReset := by
  unfold Obligations.InvariantsAtReset
  exact ⟨atRest_reset, canonical_reset, .of_nil rfl rfl, .of_invalid rfl rfl⟩

/-! ### Raw operations (R135 to R139) -/

/-- What `writeCommand` does, in one record update (R135). -/
theorem rawCommand_eq (b : Byte) (s : State) :
    rawCommand b s =
      { s with
        cs := false, busPhase := .idle, wr := false, dout := b, dcx := false
        txlog := s.txlog ++ [.cmd b], panel := s.panel.onWrite s.readDummyReads .cmd b
        primState := if b = 0x2C#8 ∨ b = 0x2E#8 ∨ b = 0x3E#8 then .streaming else .idle
        winColSet := if b = 0x2A#8 then false else s.winColSet
        winRowSet := if b = 0x2B#8 then false else s.winRowSet
        rowMemo := [], colMemo := [] } := by
  by_cases hc : b = Config.cmdCaset
  · subst hc
    rfl
  by_cases hr : b = Config.cmdPaset
  · subst hr
    rfl
  · have hc' : b ≠ 0x2A#8 := hc
    have hr' : b ≠ 0x2B#8 := hr
    simp only [rawCommand, if_neg hc, if_neg hr, if_neg hc', if_neg hr']
    rfl

/-- Settles O26: `rawCommand_eq`; the wire commands are `writeCommand` of their byte by definition. -/
theorem writeCommandTracks : Obligations.WriteCommandTracks := by
  unfold Obligations.WriteCommandTracks
  exact fun b s => ⟨congrArg Host.Outcome.next (rawCommand_eq b s), rfl, rfl, rfl, rfl, rfl⟩

/-- Settles O27: one write cycle, the clock pulse as two (`busPulse2_eq_sent`), one read cycle. -/
theorem rawDataOperations : Obligations.RawDataOperations := by
  unfold Obligations.RawDataOperations
  refine fun b s => ⟨congrArg Host.Outcome.next ?_, congrArg Host.Outcome.next ?_, congrArg Host.Outcome.next ?_⟩
  · rw [busWrite_eq_sent]
    rfl
  · rw [busPulse2_eq_sent]
    rfl
  · rw [busRead_eq_received]
    rfl

end Sys2Proof.Machine
end

section
/-! O41, O42, O43, O45: the drawing operations of the 16-bit path, frame by frame. -/

namespace Sys2Proof.Machine

/-- A piece that did nothing ends as an operation that sent nothing (R36, R137). -/
theorem endIdle_eq (s : State) : endIdle s = { s with primState := .idle, cs := false } := rfl

/-- The end of an operation that sent `fs`, programmed a window and left the memories `r`, `c` (R36, R137). -/
theorem endIdle_sent (fs : List Frame) (d : Byte) (s : State) (r c : Table Run) :
    endIdle { sent fs d true s with primState := .streaming, rowMemo := r, colMemo := c } =
      { afterWrites fs d s with primState := .idle, rowMemo := r, colMemo := c } := rfl

/-! ### Pixels and fast lines (R196 to R203) -/

/-- Settles O41: `pixel16_eq`, and the end of the operation. -/
theorem drawPixelFrames : Obligations.DrawPixelFrames := by
  unfold Obligations.DrawPixelFrames
  intro x y color s
  refine congrArg Host.Outcome.next ?_
  rw [pixel16_eq]
  by_cases hb : 0 ≤ x ∧ x < 240 ∧ 0 ≤ y ∧ y < 320
  · rw [if_pos ((inb_iff x y).2 hb), if_pos hb, endIdle_sent]
  · rw [if_neg (by rw [inb_iff]; exact hb), if_neg hb, endIdle_eq]

/-- A horizontal run, skipped or sent, as an operation (R199). -/
theorem endIdle_hrun (x y n : Nat) (k : Color) (s : State) (hn : 0 < n) :
    endIdle (hrun x y n k s) =
      if s.doOverdraw = true ∧ s.rowMemo.lookup y = some ⟨x, n, k⟩ then { s with primState := .idle, cs := false }
      else
        { afterWrites (hrunLog x y n k) (lo8 k) (withShadow x y ((x : Int) + n - 1) y s) with
          primState := .idle, rowMemo := s.rowMemo.insert y ⟨x, n, k⟩, colMemo := s.colMemo.eraseRange x n } := by
  rw [hrun_eq x y n k s hn]
  split
  · exact endIdle_eq s
  · exact endIdle_sent _ _ _ _ _

/-- A vertical run, skipped or sent, as an operation (R200). -/
theorem endIdle_vrun (x y n : Nat) (k : Color) (s : State) (hn : 0 < n) :
    endIdle (vrun x y n k s) =
      if s.doOverdraw = true ∧ s.colMemo.lookup x = some ⟨y, n, k⟩ then { s with primState := .idle, cs := false }
      else
        { afterWrites (vrunLog x y n k) (lo8 k) (withShadow x y x ((y : Int) + n - 1) s) with
          primState := .idle, colMemo := s.colMemo.insert x ⟨y, n, k⟩, rowMemo := s.rowMemo.eraseRange y n } := by
  rw [vrun_eq x y n k s hn]
  split
  · exact endIdle_eq s
  · exact endIdle_sent _ _ _ _ _

/-- Settles O42: clipped away, or the run of what is left (`endIdle_hrun`, `endIdle_vrun`). -/
theorem fastLineFrames : Obligations.FastLineFrames := by
  unfold Obligations.FastLineFrames
  refine fun x y n color s => ⟨congrArg Host.Outcome.next ?_, congrArg Host.Outcome.next ?_⟩
  · have hc := clipH_spec x y n
    rw [hline16]
    rcases e : clipH x y n with _ | ⟨xa, ya, k⟩ <;> rw [e] at hc
    · exact endIdle_eq s
    · exact endIdle_hrun xa ya k _ s hc.1
  · have hc := clipV_spec x y n
    rw [vline16]
    rcases e : clipV x y n with _ | ⟨xa, ya, k⟩ <;> rw [e] at hc
    · exact endIdle_eq s
    · exact endIdle_vrun xa ya k _ s hc.1

/-! ### Rectangles (R204) -/

/-- Settles O43: clipped away, one flood (`fillFullWidth_eq`), or the rows one by one (`rows_fold`). -/
theorem fillRectFrames : Obligations.FillRectFrames := by
  unfold Obligations.FillRectFrames
  intro x y w h color s
  refine ⟨endIdle (fillRect16 x y w h (eff s color) s), rfl, ?_⟩
  have hc := clipRect_spec x y w h
  rw [fillRect16]
  rcases e : clipRect x y w h with _ | ⟨xa, ya, wa, ha⟩ <;> rw [e] at hc <;> dsimp only
  · exact endIdle_eq s
  obtain ⟨hwa, hha, -⟩ := hc
  split
  · obtain ⟨rows, heq, hrows⟩ := fillFullWidth_eq ya ha (eff s color) s
    have hn : 0 < 240 * ha := by omega
    generalize hk : 240 * ha = k at heq hn
    rw [heq]
    refine ⟨((wrote_rect16 0 ya 239 ((ya : Int) + ha - 1) (eff s color) k hn s).of_eq rfl).drawn, ?_, hrows, fun i => ?_⟩
    · rw [winSet_flood16 _ _ _ _ _ _ hn]
      rfl
    · simp only [endIdle_colMemo, Table.lookup_eraseRange, Nat.zero_le, true_and, Nat.zero_add]
  · obtain ⟨hwrote, hshadow, hrow, hcol⟩ := rows_fold xa wa (eff s color) hwa (List.range' ya ha) List.nodup_range' s
    refine ⟨hwrote.drawn, hshadow, fun j => ?_, hcol⟩
    rw [endIdle_rowMemo, hrow]
    simp only [List.mem_range'_1]

/-! ### Lines (R206, R209) -/

/-- Some point of the line inside the panel lies on row `j`. -/
def rowHit (ps : List (Int × Int)) (j : Nat) : Prop := ∃ i : Nat, i < 240 ∧ j < 320 ∧ ((i : Int), (j : Int)) ∈ ps

/-- Some point of the line inside the panel lies on column `i`. -/
def colHit (ps : List (Int × Int)) (i : Nat) : Prop := ∃ j : Nat, i < 240 ∧ j < 320 ∧ ((i : Int), (j : Int)) ∈ ps

/-- The points of a sloped line, one by one. -/
def drawPoints (k : Color) (ps : List (Int × Int)) (s : State) : State :=
  ps.foldl (fun t p => pixel16 p.1 p.2 k t) s

theorem wrote_drawPoints (k : Color) (ps : List (Int × Int)) (s : State) :
    Wrote (ps.flatMap fun p => pixelLog16 p.1 p.2 k) s (drawPoints k ps s) :=
  Wrote.foldl (fun t p => wrote_pixel16 p.1 p.2 k t) ps s

theorem drawPoints_concat (k : Color) (ps : List (Int × Int)) (p : Int × Int) (s : State) :
    drawPoints k (ps ++ [p]) s = pixel16 p.1 p.2 k (drawPoints k ps s) := by
  rw [drawPoints, List.foldl_append]
  rfl

/-- The shadow is the window of the last point inside the panel (R27). -/
theorem drawPoints_shadow (k : Color) (ps : List (Int × Int)) (s : State) :
    shadowOf (drawPoints k ps s) =
      match (ps.filter fun p => inb p.1 p.2).getLast? with
      | none => shadowOf s
      | some p => shadowOf (withShadow p.1 p.2 p.1 p.2 s) := by
  induction ps using List.reverseRecOn with
  | nil => rfl
  | append_singleton ps p ih =>
    rw [drawPoints_concat, pixel16_eq, List.filter_append]
    by_cases hb : inb p.1 p.2 = true
    · simp only [hb, if_true, List.filter_cons_of_pos, List.filter_nil, List.getLast?_concat]
      rfl
    · simp only [hb, if_false, List.filter_cons_of_neg, not_false_eq_true, List.filter_nil, List.append_nil, ih,
        Bool.false_eq_true]

/-- A point drops its row, if it lies inside the panel, and no other (R30). -/
theorem pixel16_row_lookup (x y : Int) (k : Color) (s : State) (j : Nat) :
    (pixel16 x y k s).rowMemo.lookup j = if inb x y = true ∧ (j : Int) = y then none else s.rowMemo.lookup j := by
  rw [pixel16_eq]
  by_cases hb : inb x y = true
  · have hy := (inb_iff x y).1 hb
    rw [if_pos hb]
    show (s.rowMemo.eraseRange y.toNat 1).lookup j = _
    rw [Table.lookup_eraseRange]
    exact if_congr (by simp only [hb, true_and]; omega) rfl rfl
  · simp [hb]

/-- A point drops its column, if it lies inside the panel, and no other (R30). -/
theorem pixel16_col_lookup (x y : Int) (k : Color) (s : State) (i : Nat) :
    (pixel16 x y k s).colMemo.lookup i = if inb x y = true ∧ (i : Int) = x then none else s.colMemo.lookup i := by
  rw [pixel16_eq]
  by_cases hb : inb x y = true
  · have hx := (inb_iff x y).1 hb
    rw [if_pos hb]
    show (s.colMemo.eraseRange x.toNat 1).lookup i = _
    rw [Table.lookup_eraseRange]
    exact if_congr (by simp only [hb, true_and]; omega) rfl rfl
  · simp [hb]

theorem rowHit_concat (ps : List (Int × Int)) (p : Int × Int) (j : Nat) :
    rowHit (ps ++ [p]) j ↔ rowHit ps j ∨ (inb p.1 p.2 = true ∧ (j : Int) = p.2) := by
  obtain ⟨x, y⟩ := p
  simp only [rowHit, List.mem_append, List.mem_singleton, Prod.mk.injEq, inb_iff, and_or_left, exists_or]
  refine or_congr_right ⟨?_, ?_⟩
  · rintro ⟨i, hi, hj, rfl, rfl⟩
    omega
  · rintro ⟨hb, hj⟩
    exact ⟨x.toNat, by omega⟩

theorem colHit_concat (ps : List (Int × Int)) (p : Int × Int) (i : Nat) :
    colHit (ps ++ [p]) i ↔ colHit ps i ∨ (inb p.1 p.2 = true ∧ (i : Int) = p.1) := by
  obtain ⟨x, y⟩ := p
  simp only [colHit, List.mem_append, List.mem_singleton, Prod.mk.injEq, inb_iff, and_or_left, exists_or]
  refine or_congr_right ⟨?_, ?_⟩
  · rintro ⟨j, hi, hj, rfl, rfl⟩
    omega
  · rintro ⟨hb, hi⟩
    exact ⟨y.toNat, by omega⟩

/-- The points drop the rows they lie on and no others (R30). -/
theorem drawPoints_row_lookup (k : Color) (ps : List (Int × Int)) (s : State) (j : Nat) :
    (rowHit ps j → (drawPoints k ps s).rowMemo.lookup j = none) ∧
      (¬rowHit ps j → (drawPoints k ps s).rowMemo.lookup j = s.rowMemo.lookup j) := by
  induction ps using List.reverseRecOn with
  | nil => exact ⟨fun ⟨_, _, _, h⟩ => absurd h List.not_mem_nil, fun _ => rfl⟩
  | append_singleton ps p ih =>
    rw [drawPoints_concat, pixel16_row_lookup, rowHit_concat]
    by_cases hp : inb p.1 p.2 = true ∧ (j : Int) = p.2
    · simp only [hp, and_self, or_true, if_true, not_true, false_implies, implies_true]
    · simpa only [hp, or_false, if_false] using ih

/-- The points drop the columns they lie on and no others (R30). -/
theorem drawPoints_col_lookup (k : Color) (ps : List (Int × Int)) (s : State) (i : Nat) :
    (colHit ps i → (drawPoints k ps s).colMemo.lookup i = none) ∧
      (¬colHit ps i → (drawPoints k ps s).colMemo.lookup i = s.colMemo.lookup i) := by
  induction ps using List.reverseRecOn with
  | nil => exact ⟨fun ⟨_, _, _, h⟩ => absurd h List.not_mem_nil, fun _ => rfl⟩
  | append_singleton ps p ih =>
    rw [drawPoints_concat, pixel16_col_lookup, colHit_concat]
    by_cases hp : inb p.1 p.2 = true ∧ (i : Int) = p.1
    · simp only [hp, and_self, or_true, if_true, not_true, false_implies, implies_true]
    · simpa only [hp, or_false, if_false] using ih

/-- The line dispatcher does not ask for the order of the end points (R208, R209). -/
theorem lineStrokes_swap (x0 y0 x1 y1 : Int) : lineStrokes x1 y1 x0 y0 = lineStrokes x0 y0 x1 y1 := by
  simp only [lineStrokes, absInt_eq, eq_comm (a := y1), eq_comm (a := x1), min_comm x1, min_comm y1, abs_sub_comm x0,
    abs_sub_comm y0]
  by_cases hy : y0 = y1
  · simp only [hy, if_true]
  · by_cases hx : x0 = x1
    · simp only [hy, hx, if_false, if_true]
    · simp only [hy, hx, if_false, bres_swap x0 y0 x1 y1 hx hy]

theorem drawLine_horizontal {y0 y1 : Int} (h : y0 = y1) (x0 x1 : Int) (color : Color) (s : State) :
    exec (.drawLine x0 y0 x1 y1 color) s = exec (.drawFastHLine (min x0 x1) y0 (|x1 - x0| + 1) color) s := by
  show execDrawLine x0 y0 x1 y1 color s = _
  rw [execDrawLine, lineStrokes, if_pos h, absInt_eq]
  rfl

theorem drawLine_vertical {x0 y0 x1 y1 : Int} (hy : y0 ≠ y1) (hx : x0 = x1) (color : Color) (s : State) :
    exec (.drawLine x0 y0 x1 y1 color) s = exec (.drawFastVLine x0 (min y0 y1) (|y1 - y0| + 1) color) s := by
  show execDrawLine x0 y0 x1 y1 color s = _
  rw [execDrawLine, lineStrokes, if_neg hy, if_pos hx, absInt_eq]
  rfl

theorem drawLine_sloped {x0 y0 x1 y1 : Int} (hy : y0 ≠ y1) (hx : x0 ≠ x1) (color : Color) (s : State) :
    exec (.drawLine x0 y0 x1 y1 color) s = .next (endIdle (drawPoints (eff s color) (bres x0 y0 x1 y1) s)) := by
  show execDrawLine x0 y0 x1 y1 color s = _
  rw [execDrawLine, lineStrokes, if_neg hy, if_neg hx, List.foldl_map]
  rfl

/-- Settles O45: the dispatcher's three cases; a sloped line by induction over its points (`drawPoints_*`). -/
theorem drawLineFrames : Obligations.DrawLineFrames := by
  unfold Obligations.DrawLineFrames
  intro x0 y0 x1 y1 color s
  refine ⟨fun hy => drawLine_horizontal hy .., fun hy hx => drawLine_vertical hy hx .., fun hy hx =>
    ⟨_, drawLine_sloped hy hx .., (wrote_drawPoints _ _ s).drawn, fun j => (drawPoints_row_lookup _ _ s j).1,
      fun j => (drawPoints_row_lookup _ _ s j).2, fun i => (drawPoints_col_lookup _ _ s i).1,
      fun i => (drawPoints_col_lookup _ _ s i).2, drawPoints_shadow _ _ s⟩, ?_⟩
  show execDrawLine x1 y1 x0 y0 color s = execDrawLine x0 y0 x1 y1 color s
  rw [execDrawLine, execDrawLine, lineStrokes_swap]

end Sys2Proof.Machine
end

section
/-! O47, O53, O56: shapes that miss the panel, and the fast path frame by frame. -/

namespace Sys2Proof.Machine

/-! ### Shapes that miss the panel (R210) -/

theorem endIdle_next {s u : State} (h : u = s) :
    (.next (endIdle u) : Host.Outcome State Fault Refusal) = .next (endIdle s) := by
  rw [h]

theorem fastEnd_next {s u : State} (h : u = s) :
    (.next (fastEnd s u) : Host.Outcome State Fault Refusal) = .next (endIdle s) := by
  rw [h, fastEnd_self]

theorem fillRect16_none {x y w h : Int} (k : Color) (s : State) (hm : Misses (inRect x y w h)) : fillRect16 x y w h k s = s := by
  rw [fillRect16, clipRect_none hm]

theorem fillRect8_none {x y w h : Int} (v : Byte) (s : State) (hm : Misses (inRect x y w h)) : fillRect8 x y w h v s = s := by
  rw [fillRect8, clipRect_none hm]

theorem xorRect8_none {x y w h : Int} (m : Byte) (s : State) (hm : Misses (inRect x y w h)) : xorRect8 x y w h m s = s := by
  rw [xorRect8, clipRect_none hm]

/-- Every span of a triangle that misses the panel misses it. -/
theorem triangle_misses {x0 y0 x1 y1 x2 y2 : Int} (h : Misses (inTriangle x0 y0 x1 y1 x2 y2)) :
    ∀ sp ∈ triSpans x0 y0 x1 y1 x2 y2, Misses (strokeShape (.h sp.1 sp.2.1 sp.2.2)) :=
  fun sp hsp px py a b c d hs => h px py a b c d ⟨sp, hsp, hs⟩

/-- Every stroke of three edges that miss the panel misses it. -/
theorem edges_misses {x0 y0 x1 y1 x2 y2 : Int} {c : Byte} (h : Misses (touches (.fastDrawTriangle x0 y0 x1 y1 x2 y2 c))) :
    ∀ z ∈ lineStrokes x0 y0 x1 y1 ++ lineStrokes x1 y1 x2 y2 ++ lineStrokes x2 y2 x0 y0, Misses (strokeShape z) := by
  intro z hz
  rw [List.mem_append, List.mem_append] at hz
  obtain (hz | hz) | hz := hz
  · exact line_misses (fun px py a b c d hs => h px py a b c d (.inl hs)) z hz
  · exact line_misses (fun px py a b c d hs => h px py a b c d (.inr (.inl hs))) z hz
  · exact line_misses (fun px py a b c d hs => h px py a b c d (.inr (.inr hs))) z hz

/-- Settles O47: every piece of a shape that misses the panel is clipped away, so nothing but the end is left. -/
theorem outOfBoundsNoTransaction : Obligations.OutOfBoundsNoTransaction := by
  unfold Obligations.OutOfBoundsNoTransaction
  intro i s hi h
  have hm : Misses (touches i) := h
  cases i <;> cases hi
  case drawPixel x y c => exact endIdle_next (stroke16_none (z := .px x y) hm)
  case drawFastHLine x y w c => exact endIdle_next (stroke16_none (z := .h x y w) hm)
  case drawFastVLine x y l c => exact endIdle_next (stroke16_none (z := .v x y l) hm)
  case drawLine => exact endIdle_next (foldl_none _ s fun z hz => stroke16_none (line_misses hm z hz))
  case fillRect => exact endIdle_next (fillRect16_none _ s hm)
  case fillScreen => exact endIdle_next (fillRect16_none _ s hm)
  case readPixel x y =>
    show execReadPixel x y s = _
    rw [execReadPixel, inb_none hm]
    rfl
  case fastDrawPixel x y c => exact fastEnd_next (stroke8_none (z := .px x y) hm)
  case fastDrawFastHLine x y w c => exact fastEnd_next (stroke8_none (z := .h x y w) hm)
  case fastDrawFastVLine x y l c => exact fastEnd_next (stroke8_none (z := .v x y l) hm)
  case fastDrawLine => exact fastEnd_next (foldl_none _ s fun z hz => stroke8_none (line_misses hm z hz))
  case fastFillRect => exact fastEnd_next (fillRect8_none _ s hm)
  case fastFillScreen => exact fastEnd_next (fillRect8_none _ s hm)
  case fastXorRect => exact fastEnd_next (xorRect8_none _ s hm)
  case fastFillTriangle => exact fastEnd_next (foldl_none _ s fun sp hsp => stroke8_none (triangle_misses hm sp hsp))
  case fastDrawTriangle => exact fastEnd_next (foldl_none _ s fun z hz => stroke8_none (edges_misses hm z hz))

/-! ### The painting operations of the fast path (R234 to R239, R244 to R248) -/

theorem fastEnd_eq (s u : State) : fastEnd s u = endIdle (if emitted s u then memoClearAll u else u) := rfl

/-- `fast_end` of a piece that sent something clears the overdraw memory (R245). -/
theorem fastEnd_of_emitted {s u : State} (h : emitted s u = true) : fastEnd s u = endIdle (memoClearAll u) := by
  rw [fastEnd_eq, if_pos h]

/-- `fast_end` makes a piece an operation (R36, R245). -/
theorem Wrote.drawn_fastEnd {fs : List Frame} {s u : State} (h : Wrote fs s u) : Drawn s (fastEnd s u) fs := by
  rw [fastEnd_eq]
  split
  · exact (h.of_eq rfl).drawn
  · exact h.drawn

theorem fastEnd_shadow (s u : State) : shadowOf (fastEnd s u) = shadowOf u := by
  rw [fastEnd_eq]
  split <;> rfl

/-- An emission sends at least its window (R244). -/
theorem Emission.log_ne_nil (v : Byte) (e : Emission) : e.log v ≠ [] := by
  simp [Emission.log, windowLog, columnLog]

/-- No frames means no emission. -/
theorem fastLog_eq_nil {i : Instr} {c : Byte} (h : colourOf8 i = some c) : fastLog i = [] ↔ fastEmits i = [] := by
  rw [fastLog_eq h, List.flatMap_eq_nil_iff, List.eq_nil_iff_forall_not_mem]
  exact forall₂_congr fun e _ => iff_false_intro (Emission.log_ne_nil c e)

/-- After an emission both valid bits are set (R27). -/
theorem shadowAfter_set {es : List Emission} (h : es ≠ []) (s : State) :
    (shadowAfter es s).1.2.2 = true ∧ (shadowAfter es s).2.2.2 = true := by
  rw [shadowAfter, List.getLast?_eq_some_getLast h]
  exact ⟨rfl, rfl⟩

/-- Settles O53: the emissions (`wrote_emitEach`, `emitsKeep_emitEach`) and `fast_end`, with or without a frame. -/
theorem fastFrames : Obligations.FastFrames := by
  unfold Obligations.FastFrames
  intro i c s hc
  have hw := wrote_emitEach c (fastEmits_pos i) s
  have hk := emitsKeep_emitEach c (fastEmits_pos i) s
  have he := emitted_of_wrote hw
  rw [← fastLog_eq hc] at hw he
  have hshadow := (fastEnd_shadow s (emitEach c (fastEmits i) s)).trans hk.shadow
  refine ⟨_, fast_exec i c s hc, hw.drawn_fastEnd, hshadow, fun hn => ?_, fun hn => ?_⟩
  · rw [(fastLog_eq_nil hc).1 hn]
    have hend : fastEnd s (emitEach c [] s) = endIdle s := fastEnd_self s
    rw [hend]
    exact ⟨rfl, rfl, rfl⟩
  · obtain ⟨hcol, hrow⟩ := shadowAfter_set (fun h => hn ((fastLog_eq_nil hc).2 h)) s
    rw [← hshadow] at hcol hrow
    rw [fastEnd_of_emitted (he.trans (decide_eq_true hn))] at hcol hrow ⊢
    exact ⟨rfl, rfl, hcol, hrow⟩

/-! ### `fastXORFlood` (R240, R241) -/

theorem fastXorFloodOp_short (m : Byte) {n : Nat} (s : State) (h0 : 0 < n) (hn : n ≤ 240) :
    fastXorFloodOp m n s = finish (memoClearAll (xorRun m n s)) := by
  rw [fastXorFloodOp, if_neg (by omega), if_neg (show ¬Config.xbufBytes < n from Nat.not_lt.2 hn)]

/-- The frames of an operation that ends with a data frame. -/
theorem afterFrames_dat {fs : List Frame} {b : Byte} (h : fs.getLast? = some (.dat b)) (s : State) :
    afterFrames fs s = afterWrites fs b s := by
  rw [afterFrames, h]

/-- Settles O56: nothing, `fastXorFlood_long`, or `xorRun_eq` and the end of the operation. -/
theorem xorFloodFrames : Obligations.XorFloodFrames := by
  unfold Obligations.XorFloodFrames
  refine fun m n s => ⟨rfl, fun hn => congrArg Host.Outcome.next (fastXorFlood_long m n s hn), fun h0 hn => ?_⟩
  obtain ⟨k, rfl⟩ : ∃ k, n = k + 1 := ⟨n - 1, by omega⟩
  obtain ⟨ds, vs, hds, hvs, -, b, hb, heq⟩ := xorRun_eq m k s
  refine ⟨ds, vs, hds, hvs, congrArg Host.Outcome.next ?_⟩
  rw [fastXorFloodOp_short m s h0 hn, heq, afterFrames_dat hb, Nat.add_assoc]
  rfl

end Sys2Proof.Machine
end

section
/-! O50: the maintenance of the overdraw memory. -/

namespace Sys2Proof.Machine

/-! ### A piece sends something or does nothing -/

/-- The log has grown. -/
def Grew (s t : State) : Prop := s.txlog.length < t.txlog.length

/-- The piece sent at least one frame, or did nothing at all. -/
def SendsOrRests (s t : State) : Prop := t = s ∨ Grew s t

theorem Grew.of_append {s t : State} {f : Frame} {fs : List Frame} (h : t.txlog = s.txlog ++ f :: fs) : Grew s t := by
  rw [Grew, h, List.length_append, List.length_cons]
  omega

theorem Grew.carries {s t u : State} (h : Grew s t) (k : Carries true t u) : Grew s u :=
  Nat.lt_of_lt_of_le h k.length_le

theorem emitted_iff (s t : State) : emitted s t = true ↔ Grew s t := decide_eq_true_iff

theorem Grew.ne {s t : State} (h : Grew s t) : t.txlog ≠ s.txlog := fun e => by
  rw [Grew, e] at h
  exact Nat.lt_irrefl _ h

theorem SendsOrRests.refl (s : State) : SendsOrRests s s := .inl rfl

theorem SendsOrRests.trans {s t u : State} (h : SendsOrRests s t) (k : SendsOrRests t u) : SendsOrRests s u := by
  obtain rfl | h := h
  · exact k
  obtain rfl | k := k
  · exact .inr h
  · exact .inr (Nat.lt_trans h k)

theorem SendsOrRests.foldl {α : Type} {f : State → α → State} (h : ∀ s a, SendsOrRests s (f s a)) (l : List α)
    (s : State) : SendsOrRests s (l.foldl f s) := by
  induction l generalizing s with
  | nil => exact .refl s
  | cons a l ih => exact (h s a).trans (ih _)

theorem grew_busWrite (k : WriteKind) (b : Byte) (s : State) : Grew s (busWrite k b s) := by
  rw [busWrite_eq_sent]
  exact .of_append rfl

theorem grew_winSet (x1 y1 x2 y2 : Int) (s : State) : Grew s (winSet x1 y1 x2 y2 s) := by
  rw [winSet_eq]
  exact .of_append rfl

theorem grew_busPulse2 (s : State) : Grew s (busPulse2 s) := by
  rw [busPulse2_eq_sent]
  exact .of_append rfl

theorem grew_px16 (k : Color) (s : State) : Grew s (px16 k s) :=
  (grew_busWrite .dat (hi8 k) s).carries (carries_busWrite .dat (lo8 k) _)

theorem grew_streamBegin (s : State) : Grew s (streamBegin s) :=
  (grew_busWrite .cmd Config.cmdRamwr s).carries (carries_setPrim .streaming _)

theorem grew_flood16 (k : Color) {n : Nat} (hn : n ≠ 0) (s : State) : Grew s (flood16 k n s) := by
  rw [flood16, if_neg hn]
  exact (grew_streamBegin s).carries (carries_emitAll _ _)

theorem grew_flood8 (v : Byte) {n : Nat} (hn : n ≠ 0) (s : State) : Grew s (flood8 v n s) := by
  rw [flood8, if_neg hn]
  exact (grew_streamBegin s).carries (carries_emitAll _ _)

theorem grew_pushWords {n : Nat} (hn : n ≠ 0) (addr : BitVec 32) (s : State) : Grew s (pushWords n addr s) := by
  obtain ⟨k, rfl⟩ := Nat.exists_eq_succ_of_ne_zero hn
  exact (grew_px16 _ (countDraw s)).carries (carries_pushWords k _ _)

theorem grew_xorRun (m : Byte) {n : Nat} (hn : n ≠ 0) (s : State) : Grew s (xorRun m n s) := by
  obtain ⟨k, rfl⟩ := Nat.exists_eq_succ_of_ne_zero hn
  obtain ⟨ds, vs, -, -, -, b, -, h⟩ := xorRun_eq m k s
  rw [h]
  exact .of_append rfl

/-! ### The drawing pieces of the 16-bit path -/

theorem sends_pixel16 (x y : Int) (k : Color) (s : State) : SendsOrRests s (pixel16 x y k s) := by
  rw [pixel16]
  split
  · exact .inr ((grew_winSet x y x y s).carries
      (((carries_streamBegin _).trans (carries_px16 k _)).trans (carries_memoPixel _ _ _)))
  · exact .refl s

theorem sends_hrun (x y n : Nat) (k : Color) (s : State) : SendsOrRests s (hrun x y n k s) := by
  rw [hrun]
  split
  · exact .refl s
  · exact .inr ((grew_winSet _ _ _ _ s).carries ((carries_flood16 k n _).trans (carries_memoRow _ _ _ _ _)))

theorem sends_vrun (x y n : Nat) (k : Color) (s : State) : SendsOrRests s (vrun x y n k s) := by
  rw [vrun]
  split
  · exact .refl s
  · exact .inr ((grew_winSet _ _ _ _ s).carries ((carries_flood16 k n _).trans (carries_memoCol _ _ _ _ _)))

theorem sends_hline16 (x y w : Int) (k : Color) (s : State) : SendsOrRests s (hline16 x y w k s) := by
  rw [hline16]
  split
  · exact .refl s
  · exact sends_hrun ..

theorem sends_vline16 (x y h : Int) (k : Color) (s : State) : SendsOrRests s (vline16 x y h k s) := by
  rw [vline16]
  split
  · exact .refl s
  · exact sends_vrun ..

theorem sends_stroke16 (k : Color) (s : State) (z : Stroke) : SendsOrRests s (stroke16 k s z) := by
  cases z with
  | h x y w => exact sends_hline16 x y w k s
  | v x y h => exact sends_vline16 x y h k s
  | px x y => exact sends_pixel16 x y k s

theorem grew_fillFullWidth (y h : Nat) (k : Color) (s : State) : Grew s (fillFullWidth y h k s) := by
  obtain ⟨rows, heq, -⟩ := fillFullWidth_eq y h k s
  have hg : Grew s (flood16 k (240 * h) (winSet 0 y 239 ((y : Int) + h - 1) s)) :=
    (grew_winSet _ _ _ _ s).carries (carries_flood16 _ _ _)
  generalize flood16 k (240 * h) (winSet 0 y 239 ((y : Int) + h - 1) s) = u at heq hg
  rw [heq]
  exact hg

theorem sends_fillRect16 (x y w h : Int) (k : Color) (s : State) : SendsOrRests s (fillRect16 x y w h k s) := by
  rw [fillRect16]
  split
  · exact .refl s
  · rename_i xa ya wa ha _
    split
    · exact .inr (grew_fillFullWidth ya ha k s)
    · exact .foldl (fun t j => sends_hrun xa j wa k t) _ s

/-- A drawing operation of the 16-bit path is a piece that sends or rests, and the end of the operation (R195 to R206). -/
theorem draw16_exec {i : Instr} {c : Color} (h : colourOf16 i = some c) (s : State) :
    ∃ u, exec i s = .next (endIdle u) ∧ SendsOrRests s u := by
  cases i <;> cases h
  case drawPixel => exact ⟨_, rfl, sends_pixel16 ..⟩
  case drawLine => exact ⟨_, rfl, .foldl (sends_stroke16 _) _ s⟩
  case drawFastHLine => exact ⟨_, rfl, sends_hline16 ..⟩
  case drawFastVLine => exact ⟨_, rfl, sends_vline16 ..⟩
  case fillRect => exact ⟨_, rfl, sends_fillRect16 ..⟩
  case fillScreen => exact ⟨_, rfl, sends_fillRect16 ..⟩

/-! ### What an operation does to the memory when it sends nothing, and when it sends (R30, R31) -/

/-- An operation that sent nothing left the overdraw memory alone. -/
def Leaves (s t : State) : Prop := t.txlog = s.txlog → t.rowMemo = s.rowMemo ∧ t.colMemo = s.colMemo

/-- An operation that sent nothing left the overdraw memory alone, and one that sent something cleared it. -/
def Clears (s t : State) : Prop := Leaves s t ∧ (t.txlog ≠ s.txlog → t.rowMemo = [] ∧ t.colMemo = [])

theorem Clears.of_same {s t : State} (hl : t.txlog = s.txlog) (hr : t.rowMemo = s.rowMemo) (hc : t.colMemo = s.colMemo) :
    Clears s t := ⟨fun _ => ⟨hr, hc⟩, fun h => absurd hl h⟩

theorem Clears.of_grew {s t : State} (h : Grew s t) (hr : t.rowMemo = []) (hc : t.colMemo = []) : Clears s t :=
  ⟨fun e => absurd e h.ne, fun _ => ⟨hr, hc⟩⟩

theorem Grew.clears {s u : State} (h : Grew s u) : Clears s (finish (memoClearAll u)) := .of_grew h rfl rfl

theorem SendsOrRests.leaves {s u : State} (h : SendsOrRests s u) : Leaves s (endIdle u) := by
  obtain rfl | h := h
  · exact fun _ => ⟨rfl, rfl⟩
  · exact fun e => absurd e (Grew.ne h)

theorem SendsOrRests.clears_fastEnd {s u : State} (h : SendsOrRests s u) : Clears s (fastEnd s u) := by
  obtain rfl | h := h
  · rw [fastEnd_self]
    exact .of_same rfl rfl rfl
  · rw [fastEnd_of_emitted ((emitted_iff _ _).2 h)]
    exact .of_grew h rfl rfl

theorem sends_emitEach (v : Byte) (es : List Emission) (s : State) : SendsOrRests s (emitEach v es s) := by
  rw [emitEach]
  exact .foldl (fun t e => .inr ((grew_winSet _ _ _ _ t).carries (carries_flood8 v e.n _))) es s

theorem sends_xorRect8 (x y w h : Int) (m : Byte) (s : State) : SendsOrRests s (xorRect8 x y w h m s) := by
  by_cases he : emitted s (xorRect8 x y w h m s) = true
  · exact .inr ((emitted_iff _ _).1 he)
  · exact .inl (xorRect8_quiet (Bool.eq_false_of_not_eq_true he))

theorem clears_rawCommand (b : Byte) (s : State) : Clears s (rawCommand b s) :=
  .of_grew (by rw [rawCommand_eq]; exact grew_busWrite .cmd b s) rfl rfl

theorem clears_pushColors (addr : BitVec 32) (n : Nat) (first : Bool) (s : State) : Clears s (pushColors addr n first s) := by
  rw [pushColors]
  split
  · exact .of_same rfl rfl rfl
  · rename_i hn
    refine Grew.clears (u := setPrim .streaming (pushWords n addr (if first then streamBegin s else s))) ?_
    have hw := grew_pushWords hn addr (if first then streamBegin s else s)
    refine Nat.lt_of_le_of_lt ?_ hw
    split
    · exact (grew_streamBegin s).le
    · exact Nat.le_refl _

theorem clears_floodOp (k : Color) (n : Nat) (s : State) : Clears s (floodOp k n s) := by
  rw [floodOp]
  split
  · exact .of_same rfl rfl rfl
  · exact (grew_flood16 k ‹_› s).clears

theorem clears_fastFloodOp (v : Byte) (n : Nat) (s : State) : Clears s (fastFloodOp v n s) := by
  rw [fastFloodOp]
  split
  · exact .of_same rfl rfl rfl
  · exact (grew_flood8 v ‹_› s).clears

theorem clears_fastXorFloodOp (m : Byte) (n : Nat) (s : State) : Clears s (fastXorFloodOp m n s) := by
  rw [fastXorFloodOp]
  split
  · exact .of_same rfl rfl rfl
  · split
    · exact .of_same rfl rfl rfl
    · exact (grew_xorRun m ‹_› s).clears

/-- The operations that clear the overdraw memory when they send (R31). -/
def clearing (i : Instr) : Prop :=
  isFast i = true ∨ (∃ b, i = .writeCommand b) ∨ (∃ b, i = .writeData b) ∨ i = .clockPulse ∨
    (∃ c, i = .pushColor c) ∨ (∃ a n f, i = .pushColors a n f) ∨ ∃ c n, i = .flood c n

theorem clears_fast_rest {i : Instr} {s t : State} (hc : colourOf8 i = none) (hf : isFast i = true) (h : exec i s = .next t) :
    Clears s t := by
  cases i <;> cases hc <;> cases hf
  case fastFlood v n => exact Host.Outcome.next.inj h ▸ clears_fastFloodOp v n s
  case fastXorFlood m n => exact Host.Outcome.next.inj h ▸ clears_fastXorFloodOp m n s
  case fastXorRect x y w l m => exact Host.Outcome.next.inj h ▸ (sends_xorRect8 x y w l m s).clears_fastEnd

theorem clears_fast {i : Instr} {s t : State} (hf : isFast i = true) (h : exec i s = .next t) : Clears s t := by
  cases hc : colourOf8 i with
  | some v =>
    rw [fast_exec i v s hc] at h
    rw [← Host.Outcome.next.inj h]
    exact (sends_emitEach v (fastEmits i) s).clears_fastEnd
  | none => exact clears_fast_rest hc hf h

theorem clears_exec {i : Instr} {s t : State} (hi : clearing i) (h : exec i s = .next t) : Clears s t := by
  obtain hf | ⟨b, rfl⟩ | ⟨b, rfl⟩ | rfl | ⟨c, rfl⟩ | ⟨a, n, f, rfl⟩ | ⟨c, n, rfl⟩ := hi
  · exact clears_fast hf h
  all_goals rw [← Host.Outcome.next.inj h]
  · exact clears_rawCommand b s
  · exact (grew_busWrite .dat b s).clears
  · exact (grew_busPulse2 s).clears
  · exact Grew.clears (u := setPrim .streaming (px16 c s)) (grew_px16 c s)
  · exact clears_pushColors a n f s
  · exact clears_floodOp c n s

theorem leaves_draw16 {i : Instr} {c : Color} {s t : State} (hc : colourOf16 i = some c) (h : exec i s = .next t) :
    Leaves s t := by
  obtain ⟨u, he, hu⟩ := draw16_exec hc s
  rw [he] at h
  exact Host.Outcome.next.inj h ▸ hu.leaves

theorem leaves_readPixel (x y : Int) (s : State) :
    Leaves s (endIdle (if inb x y then readPixelAt x y s else { s with result := 0#16 })) := by
  rw [Leaves, endIdle_rowMemo, endIdle_colMemo]
  split
  · exact fun _ => readPixelAt_memo x y s
  · exact fun _ => ⟨rfl, rfl⟩

/-- An operation that sends nothing leaves the overdraw memory alone, whichever it is (R30, R31). -/
theorem leaves_exec {i : Instr} {s t : State} (h : exec i s = .next t) : Leaves s t := by
  cases i
  case drawPixel | drawLine | drawFastHLine | drawFastVLine | fillRect | fillScreen => exact leaves_draw16 rfl h
  case writeCommand => exact (clears_exec (.inr (.inl ⟨_, rfl⟩)) h).1
  case writeData => exact (clears_exec (.inr (.inr (.inl ⟨_, rfl⟩))) h).1
  case clockPulse => exact (clears_exec (.inr (.inr (.inr (.inl rfl)))) h).1
  case pushColor => exact (clears_exec (.inr (.inr (.inr (.inr (.inl ⟨_, rfl⟩))))) h).1
  case pushColors => exact (clears_exec (.inr (.inr (.inr (.inr (.inr (.inl ⟨_, _, _, rfl⟩)))))) h).1
  case flood => exact (clears_exec (.inr (.inr (.inr (.inr (.inr (.inr ⟨_, _, rfl⟩)))))) h).1
  case fastFlood | fastDrawPixel | fastDrawLine | fastDrawFastHLine | fastDrawFastVLine | fastFillRect | fastFillScreen |
      fastXorFlood | fastXorRect | fastFillTriangle | fastDrawTriangle =>
    exact (clears_fast rfl h).1
  all_goals rw [← Host.Outcome.next.inj h]
  case caset | paset | ramwr | ramrd | ramrdCont => exact (clears_rawCommand _ s).1
  case readPixel x y => exact leaves_readPixel x y s
  case readData => exact fun _ => ⟨rfl, rfl⟩
  case setPoint | setAddrWindow =>
    exact fun _ => ⟨by simp only [finish_rowMemo, winSet_rowMemo], by simp only [finish_colMemo, winSet_colMemo]⟩
  case setColumnWindow x1 x2 =>
    rw [winCols_eq]
    exact fun _ => ⟨rfl, rfl⟩
  case setRowWindow y1 y2 =>
    rw [winRows_eq]
    exact fun _ => ⟨rfl, rfl⟩
  case maskingOn | maskingOff | flipMask | overdrawOn | overdrawOff | setBackgroundColor | setForegroundColor =>
    exact fun _ => ⟨rfl, rfl⟩

theorem memoPixel_row_lookup (x y j : Nat) (s : State) :
    (memoPixel x y s).rowMemo.lookup j = if j = y then none else s.rowMemo.lookup j := by
  rw [memoPixel_rowMemo, Table.lookup_eraseRange]
  exact if_congr (by omega) rfl rfl

theorem memoPixel_col_lookup (x y i : Nat) (s : State) :
    (memoPixel x y s).colMemo.lookup i = if i = x then none else s.colMemo.lookup i := by
  rw [memoPixel_colMemo, Table.lookup_eraseRange]
  exact if_congr (by omega) rfl rfl

/-- Settles O50: the maintenance steps cell by cell (the laws of the tables), then `leaves_exec` and `clears_exec`. -/
theorem memoMaintenance : Obligations.MemoMaintenance := by
  unfold Obligations.MemoMaintenance
  refine ⟨fun x y n k s => ⟨fun j => Table.lookup_insert _ y j _, fun i => Table.lookup_eraseRange _ x n i,
    fun i => Table.lookup_insert _ x i _, fun j => Table.lookup_eraseRange _ y n j,
    fun j => memoPixel_row_lookup x y j s, fun i => memoPixel_col_lookup x y i s⟩,
    fun i s t h => ⟨leaves_exec h, fun hne hi => ?_⟩⟩
  obtain ⟨hrow, hcol⟩ := (clears_exec hi h).2 hne
  rw [hrow, hcol]
  exact ⟨fun _ => rfl, fun _ => rfl⟩

end Sys2Proof.Machine
end

section
/-! O12, O18, O22: what the host port makes of an operation (its log, and a reset in its middle), and the read cycle. -/

namespace Sys2Proof.Machine

/-- What a piece keeps it keeps whether or not `xbuf` is asked about. -/
theorem Carries.forgetXbuf {x : Bool} {s t : State} (h : Carries x s t) : Carries false s t :=
  { h with xbuf := fun e => absurd e Bool.false_ne_true }

/-- Issuing a descriptor carries what every operation carries, legal or not (R100, R110). -/
theorem carries_issue {w : Descriptor} {s t : State} (h : issue w s = .next t) :
    Carries false (withRegistersOf t s) t := by
  rcases issue_cases h with ⟨i, -, he⟩ | ⟨-, rfl⟩
  · exact (carries_exec i s t he).forgetXbuf
  · exact Carries.refl _ _

/-- Settles O12: the reset abandons the operation the write issues, which kept everything the block does not own. -/
theorem abandonedOperation : Obligations.AbandonedOperation := by
  unfold Obligations.AbandonedOperation
  intro w n s t h
  have hi : issue w s = .next t := h
  have c := carries_issue hi
  have hserve : serve (.writeThenReset w n) s = .next (abandon s t n) := by simp only [serve, issueThenReset, hi]
  rw [hserve, abandon, resetBlock, c.pixMem, c.readDummyReads, c.targetClockHz, c.settleCycles, c.hostQueue, c.hostData]
  rfl

/-- An access that sends nothing leaves log and panel alone. -/
theorem follows_of_same {s t : State} (hl : t.txlog = s.txlog) (hp : t.panel = s.panel) :
    ∃ fs, t.txlog = s.txlog ++ fs ∧ t.panel = s.panel.onFrames s.readDummyReads fs :=
  ⟨[], by rw [hl, List.append_nil], hp⟩

/-- Settles O18: an operation by `carries_exec`; every other access but a reset sends nothing (`serve_cases`). -/
theorem panelFollowsTheLog : Obligations.PanelFollowsTheLog := by
  unfold Obligations.PanelFollowsTheLog
  intro s t a rest hq hreset h
  rw [step_of_cons hq] at h
  rcases serve_cases h with ⟨i, he, -⟩ | ⟨-, rfl⟩ | ⟨r, -, rfl⟩ | ⟨r, v, -, -, rfl⟩ | ⟨addr, v, -, rfl⟩ | ⟨rfl, -⟩ |
    ⟨w, n, u, rfl, -, -⟩
  · exact (carries_exec i _ t he).sent
  · exact follows_of_same rfl rfl
  · exact follows_of_same rfl rfl
  · exact follows_of_same rfl rfl
  · exact follows_of_same rfl rfl
  · cases hreset
  · cases hreset

/-- Settles O22: the frame level is `busRead_eq_received`, the pin level the list of states the cycle is made of. -/
theorem readCycle : Obligations.ReadCycle := by
  unfold Obligations.ReadCycle
  exact fun s => ⟨busRead_eq_received s, rfl, rfl, fun hset => if_pos hset⟩

end Sys2Proof.Machine
end

section
/-! O20: what an operation that does not XOR sends does not depend on the panel. Two states that differ only in what the
panel decides (`Alike`) are followed through the same pieces (`Blind`). -/

namespace Sys2Proof.Machine

/-- `u` is `s` but for the panel, the bytes read from it, and the value an operation returned (R80, R82). -/
def Alike (s u : State) : Prop :=
  ∃ v l r, l.map Frame.sentPart = s.txlog.map Frame.sentPart ∧ u = { s with panel := v, txlog := l, result := r }

/-- A piece that takes states alike to states alike. -/
def Blind (f : State → State) : Prop := ∀ s u, Alike s u → Alike (f s) (f u)

theorem alike_withPanel (v : PanelView) (s : State) : Alike s { s with panel := v } := ⟨v, s.txlog, s.result, rfl, rfl⟩

theorem Alike.withResult {s u : State} (h : Alike s u) (r r' : Color) :
    Alike { s with result := r } { u with result := r' } := by
  obtain ⟨v, l, -, hl, rfl⟩ := h
  exact ⟨v, l, r', hl, rfl⟩

/-- Logs that send alike are of one length. -/
theorem Alike.txlog_length {s u : State} (h : Alike s u) : u.txlog.length = s.txlog.length := by
  obtain ⟨v, l, r, hl, rfl⟩ := h
  simpa using congrArg List.length hl

theorem Alike.eff {s u : State} (h : Alike s u) (c : Color) : eff u c = eff s c := by
  obtain ⟨v, l, r, -, rfl⟩ := h
  rfl

theorem Alike.emitted {s u s' u' : State} (h : Alike s u) (h' : Alike s' u') : emitted u u' = emitted s s' := by
  rw [Machine.emitted, Machine.emitted, h.txlog_length, h'.txlog_length]

/-! ### Pieces from pieces -/

theorem Blind.id : Blind fun s => s := fun _ _ h => h

theorem Blind.comp {f g : State → State} (hg : Blind g) (hf : Blind f) : Blind fun s => g (f s) :=
  fun _ _ h => hg _ _ (hf _ _ h)

theorem Blind.foldl {α : Type} {f : State → α → State} (hf : ∀ a, Blind fun s => f s a) (l : List α) :
    Blind fun s => l.foldl f s := by
  induction l with
  | nil => exact .id
  | cons a l ih => exact ih.comp (hf a)

/-- A choice the panel has no part in. -/
theorem Blind.ite {f g : State → State} {c : State → Prop} [DecidablePred c] (hc : ∀ s u, Alike s u → (c u ↔ c s))
    (hf : Blind f) (hg : Blind g) : Blind fun s => if c s then f s else g s := by
  intro s u h
  dsimp only
  simp only [hc s u h]
  split
  · exact hf s u h
  · exact hg s u h

/-- A piece that neither reads nor writes the panel, the log and `result`. -/
theorem Blind.of_commutes {f : State → State}
    (hf : ∀ s v l r, f { s with panel := v, txlog := l, result := r } = { f s with panel := v, txlog := l, result := r }) :
    Blind f := by
  rintro s _ ⟨v, l, r, hl, rfl⟩
  have hlog : (f s).txlog = s.txlog := by
    have hsame := congrArg State.txlog (hf s s.panel s.txlog s.result)
    exact hsame
  exact ⟨v, l, r, by rw [hlog, hl], hf s v l r⟩

theorem blind_setPrim (p : PrimState) : Blind (setPrim p) := .of_commutes fun _ _ _ _ => rfl
theorem blind_finish : Blind finish := .of_commutes fun _ _ _ _ => rfl
theorem blind_endIdle : Blind endIdle := .of_commutes fun _ _ _ _ => rfl
theorem blind_memoClearAll : Blind memoClearAll := .of_commutes fun _ _ _ _ => rfl
theorem blind_memoRow (x y n : Nat) (k : Color) : Blind (memoRow x y n k) := .of_commutes fun _ _ _ _ => rfl
theorem blind_memoCol (x y n : Nat) (k : Color) : Blind (memoCol x y n k) := .of_commutes fun _ _ _ _ => rfl
theorem blind_memoPixel (x y : Nat) : Blind (memoPixel x y) := .of_commutes fun _ _ _ _ => rfl
theorem blind_countDraw : Blind countDraw := .of_commutes fun _ _ _ _ => rfl

/-! ### Bus cycles, windows and streams -/

theorem blind_sent (fs : List Frame) (d : Byte) (c : Bool) : Blind (sent fs d c) := by
  rintro s _ ⟨v, l, r, hl, rfl⟩
  exact ⟨v.onFrames s.readDummyReads fs, l ++ fs, r, by simp only [sent_txlog, List.map_append, hl], rfl⟩

theorem blind_busWrite (k : WriteKind) (b : Byte) : Blind (busWrite k b) := by
  intro s u h
  rw [busWrite_eq_sent, busWrite_eq_sent]
  exact blind_sent _ _ _ s u h

theorem Alike.received {s u : State} (h : Alike s u) (a b : Byte) :
    Alike (received [.rd a] 1 s) (received [.rd b] 1 u) := by
  obtain ⟨v, l, r, hl, rfl⟩ := h
  exact ⟨v.onRead, l ++ [.rd b], r, by simp [hl, Frame.sentPart], rfl⟩

/-- A read cycle: which byte came back is the panel's, that one came back is not (R132). -/
theorem blind_busRead : Blind busRead := by
  intro s u h
  rw [busRead_eq_received, busRead_eq_received]
  exact h.received _ _

theorem blind_emitAll (fs : List (WriteKind × Byte)) : Blind (emitAll fs) :=
  .foldl (f := fun s (f : WriteKind × Byte) => busWrite f.1 f.2 s) (fun f => blind_busWrite f.1 f.2) fs

theorem blind_busReads (n : Nat) : Blind fun s => (busReads n s).2 := by
  induction n with
  | zero => exact .id
  | succ n ih => exact ih.comp blind_busRead

/-- The clock pulse sends `dout`, which is the block's (R134). -/
theorem blind_busPulse2 : Blind busPulse2 := by
  intro s u h
  have hdout : u.dout = s.dout := by
    obtain ⟨v, l, r, -, rfl⟩ := h
    rfl
  rw [busPulse2_eq_sent, busPulse2_eq_sent, hdout]
  exact blind_sent _ _ _ s u h

theorem blind_winCols (x1 x2 : Int) : Blind (winCols x1 x2) := by
  intro s u h
  rw [winCols_eq, winCols_eq]
  obtain ⟨v, l, r, hl, hu⟩ := blind_sent _ _ true s u h
  rw [hu]
  exact ⟨v, l, r, hl, rfl⟩

theorem blind_winRows (y1 y2 : Int) : Blind (winRows y1 y2) := by
  intro s u h
  rw [winRows_eq, winRows_eq]
  obtain ⟨v, l, r, hl, hu⟩ := blind_sent _ _ true s u h
  rw [hu]
  exact ⟨v, l, r, hl, rfl⟩

theorem blind_winSet (x1 y1 x2 y2 : Int) : Blind (winSet x1 y1 x2 y2) := (blind_winRows y1 y2).comp (blind_winCols x1 x2)

theorem blind_streamBegin : Blind streamBegin := (blind_setPrim .streaming).comp (blind_busWrite .cmd _)

theorem blind_px16 (k : Color) : Blind (px16 k) := blind_emitAll _

theorem blind_flood16 (k : Color) (n : Nat) : Blind (flood16 k n) :=
  .ite (fun _ _ _ => Iff.rfl) .id ((blind_emitAll _).comp blind_streamBegin)

theorem blind_flood8 (v : Byte) (n : Nat) : Blind (flood8 v n) :=
  .ite (fun _ _ _ => Iff.rfl) .id ((blind_emitAll _).comp blind_streamBegin)

theorem blind_readBegin : Blind readBegin := by
  intro s u h
  have hdummies : u.readDummyReads = s.readDummyReads := by
    obtain ⟨v, l, r, -, rfl⟩ := h
    rfl
  rw [readBegin, readBegin, hdummies]
  exact blind_busReads _ _ _ ((blind_setPrim .streaming).comp (blind_busWrite .cmd _) s u h)

theorem blind_pushWords (n : Nat) (addr : BitVec 32) : Blind (pushWords n addr) := by
  induction n generalizing addr with
  | zero => exact .id
  | succ n ih =>
    intro s u h
    have hword : pixMemWord addr u = pixMemWord addr s := by
      obtain ⟨v, l, r, -, rfl⟩ := h
      rfl
    rw [pushWords, pushWords, hword]
    exact ih _ _ _ (blind_px16 _ _ _ (blind_countDraw s u h))

theorem blind_rawCommand (b : Byte) : Blind (rawCommand b) := by
  intro s u h
  obtain ⟨v, l, r, hl, rfl⟩ := h
  rw [rawCommand_eq, rawCommand_eq]
  exact ⟨_, l ++ [.cmd b], r, by simp only [List.map_append, hl], rfl⟩

theorem blind_clearing : Blind fun s => finish (memoClearAll s) := blind_finish.comp blind_memoClearAll

theorem blind_pushColors (addr : BitVec 32) (n : Nat) (first : Bool) : Blind (pushColors addr n first) := by
  have hbegin : Blind fun s => if first then streamBegin s else s := .ite (fun _ _ _ => Iff.rfl) blind_streamBegin .id
  exact .ite (fun _ _ _ => Iff.rfl) .id
    (blind_clearing.comp ((blind_setPrim .streaming).comp ((blind_pushWords n addr).comp hbegin)))

theorem blind_floodOp (k : Color) (n : Nat) : Blind (floodOp k n) :=
  .ite (fun _ _ _ => Iff.rfl) .id (blind_clearing.comp (blind_flood16 k n))

theorem blind_fastFloodOp (v : Byte) (n : Nat) : Blind (fastFloodOp v n) :=
  .ite (fun _ _ _ => Iff.rfl) .id (blind_clearing.comp (blind_flood8 v n))

/-! ### Drawing pieces -/

theorem blind_pixel16 (x y : Int) (k : Color) : Blind (pixel16 x y k) :=
  .ite (fun _ _ _ => Iff.rfl)
    ((blind_memoPixel _ _).comp ((blind_px16 k).comp (blind_streamBegin.comp (blind_winSet x y x y)))) .id

theorem blind_hrun (x y n : Nat) (k : Color) : Blind (hrun x y n k) := by
  refine .ite ?_ .id ((blind_memoRow x y n k).comp ((blind_flood16 k n).comp (blind_winSet _ _ _ _)))
  rintro s _ ⟨v, l, r, -, rfl⟩
  exact Iff.rfl

theorem blind_vrun (x y n : Nat) (k : Color) : Blind (vrun x y n k) := by
  refine .ite ?_ .id ((blind_memoCol x y n k).comp ((blind_flood16 k n).comp (blind_winSet _ _ _ _)))
  rintro s _ ⟨v, l, r, -, rfl⟩
  exact Iff.rfl

theorem blind_stroke16 (k : Color) (z : Stroke) : Blind fun s => stroke16 k s z := by
  cases z with
  | h x y w =>
    simp only [stroke16, hline16]
    rcases clipH x y w with _ | ⟨xa, ya, n⟩
    · exact .id
    · exact blind_hrun xa ya n k
  | v x y h =>
    simp only [stroke16, vline16]
    rcases clipV x y h with _ | ⟨xa, ya, n⟩
    · exact .id
    · exact blind_vrun xa ya n k
  | px x y => exact blind_pixel16 x y k

theorem blind_fillFullWidth (y h : Nat) (k : Color) : Blind (fillFullWidth y h k) := by
  have hrows : Blind fun s => (List.range' y h).foldl (fun t j => { t with rowMemo := t.rowMemo.insert j ⟨0, 240, k⟩ }) s :=
    .foldl (fun _ => .of_commutes fun _ _ _ _ => rfl) _
  have hcols : Blind fun s => { s with colMemo := s.colMemo.eraseRange 0 240 } := .of_commutes fun _ _ _ _ => rfl
  exact hcols.comp (hrows.comp ((blind_flood16 k (240 * h)).comp (blind_winSet _ _ _ _)))

theorem blind_fillRect16 (x y w h : Int) (k : Color) : Blind (fillRect16 x y w h k) := by
  unfold fillRect16
  rcases clipRect x y w h with _ | ⟨xa, ya, wa, ha⟩
  · exact .id
  · refine .ite ?_ (blind_fillFullWidth ya ha k) (.foldl (fun j => blind_hrun xa j wa k) _)
    rintro s _ ⟨v, l, r, -, rfl⟩
    exact Iff.rfl

theorem blind_emitEach (v : Byte) (es : List Emission) : Blind (emitEach v es) :=
  .foldl (fun _ => (blind_flood8 v _).comp (blind_winSet _ _ _ _)) es

theorem alike_fastEnd {s u s' u' : State} (h : Alike s u) (h' : Alike s' u') : Alike (fastEnd s s') (fastEnd u u') := by
  rw [fastEnd, fastEnd, h.emitted h']
  refine blind_finish _ _ (blind_setPrim .idle _ _ ?_)
  split
  · exact blind_memoClearAll _ _ h'
  · exact h'

/-- `readPixel` in bounds: the bytes and the value returned are the panel's (R207). -/
theorem alike_readPixelAt {s u : State} (x y : Int) (h : Alike s u) : Alike (readPixelAt x y s) (readPixelAt x y u) :=
  (blind_busRead.comp (blind_busRead.comp (blind_readBegin.comp (blind_winSet x y x y))) s u h).withResult _ _

/-! ### Whole operations -/

/-- The six drawing operations of the 16-bit path. -/
theorem alike_exec16 {i : Instr} {c : Color} {s u t t' : State} (hc : colourOf16 i = some c) (h : Alike s u)
    (hs : exec i s = .next t) (hu : exec i u = .next t') : Alike t t' := by
  cases i <;> cases hc <;> cases hs <;> cases hu
  all_goals
    rw [h.eff]
    refine blind_endIdle _ _ ?_
  case drawPixel x y => exact blind_pixel16 x y _ s u h
  case drawLine x0 y0 x1 y1 => exact Blind.foldl (blind_stroke16 _) _ s u h
  case drawFastHLine x y w => exact blind_stroke16 _ (.h x y w) s u h
  case drawFastVLine x y w => exact blind_stroke16 _ (.v x y w) s u h
  case fillRect x y w l => exact blind_fillRect16 x y w l _ s u h
  case fillScreen => exact blind_fillRect16 0 0 240 320 _ s u h

/-- The operations of neither family. -/
theorem alike_execOther {i : Instr} {s u t t' : State} (hx : isXor i = false) (h16 : colourOf16 i = none)
    (h8 : colourOf8 i = none) (h : Alike s u) (hs : exec i s = .next t) (hu : exec i u = .next t') : Alike t t' := by
  cases i <;> cases hx <;> cases h16 <;> cases h8 <;> cases hs <;> cases hu
  case writeCommand b => exact blind_rawCommand b s u h
  case caset | paset | ramwr | ramrd | ramrdCont => exact blind_rawCommand _ s u h
  case writeData b => exact blind_clearing.comp (blind_busWrite .dat b) s u h
  case readData => exact blind_finish _ _ ((blind_busRead s u h).withResult _ _)
  case clockPulse => exact blind_clearing.comp blind_busPulse2 s u h
  case setColumnWindow x1 x2 => exact blind_finish.comp (blind_winCols x1 x2) s u h
  case setRowWindow y1 y2 => exact blind_finish.comp (blind_winRows y1 y2) s u h
  case setPoint x y => exact blind_finish.comp (blind_winSet x y x y) s u h
  case setAddrWindow x1 y1 x2 y2 => exact blind_finish.comp (blind_winSet x1 y1 x2 y2) s u h
  case pushColor k => exact blind_clearing.comp ((blind_setPrim .streaming).comp (blind_px16 k)) s u h
  case pushColors addr n first => exact blind_pushColors addr n first s u h
  case flood k n => exact blind_floodOp k n s u h
  case fastFlood v n => exact blind_fastFloodOp v n s u h
  case readPixel x y =>
    refine blind_endIdle _ _ ?_
    split
    · exact alike_readPixelAt x y h
    · exact h.withResult _ _
  case maskingOn | maskingOff | flipMask | overdrawOn | overdrawOff | setBackgroundColor | setForegroundColor =>
    obtain ⟨v, l, r, hl, rfl⟩ := h
    exact ⟨v, l, r, hl, rfl⟩

/-- An operation that does not XOR takes states alike to states alike (R80, R82). -/
theorem alike_exec {i : Instr} {s u t t' : State} (hx : isXor i = false) (h : Alike s u) (hs : exec i s = .next t)
    (hu : exec i u = .next t') : Alike t t' := by
  rcases h16 : colourOf16 i with _ | c
  · rcases h8 : colourOf8 i with _ | v
    · exact alike_execOther hx h16 h8 h hs hu
    · rw [fast_exec i v _ h8] at hs hu
      cases hs
      cases hu
      exact alike_fastEnd h (blind_emitEach v _ s u h)
  · exact alike_exec16 h16 h hs hu

/-- Settles O20: the two runs begin alike, so they end alike (`alike_exec`). -/
theorem sentFramesIgnorePanel : Obligations.SentFramesIgnorePanel := by
  unfold Obligations.SentFramesIgnorePanel
  intro i s v t u hx ht hu
  obtain ⟨v', l, r, hl, rfl⟩ := alike_exec hx (alike_withPanel v s) ht hu
  exact ⟨hl, rfl⟩

end Sys2Proof.Machine
end

section
/-! O23, O29, O31: read streams, the window a panel takes, the frames of `pushColors`. -/

namespace Sys2Proof.Machine

/-! ### Windows (R150 to R156) -/

theorem winCols_panel (x1 x2 : Int) (s : State) :
    (winCols x1 x2 s).panel =
      s.panel.onFrames s.readDummyReads (framesOf (windowFrames Config.cmdCaset (windowWord x1) (windowWord x2))) := by
  rw [winCols_eq]
  rfl

theorem winRows_panel (y1 y2 : Int) (s : State) :
    (winRows y1 y2 s).panel =
      s.panel.onFrames s.readDummyReads (framesOf (windowFrames Config.cmdPaset (windowWord y1) (windowWord y2))) := by
  rw [winRows_eq]
  rfl

theorem winCols_known {s : State} {p : Panel} (x1 x2 : Int) (hp : s.panel = .known p) :
    ∃ q, (winCols x1 x2 s).panel = .known q ∧ q.window = ((windowWord x1, windowWord x2), (p.pYs, p.pYe)) ∧
      q.pixels = p.pixels := by
  rw [winCols_panel, hp, onFrames_columnWindow]
  exact ⟨_, rfl, rfl, rfl⟩

theorem winRows_known {s : State} {p : Panel} (y1 y2 : Int) (hp : s.panel = .known p) :
    ∃ q, (winRows y1 y2 s).panel = .known q ∧ q.window = ((p.pXs, p.pXe), (windowWord y1, windowWord y2)) ∧
      q.pixels = p.pixels := by
  rw [winRows_panel, hp, onFrames_rowWindow]
  exact ⟨_, rfl, rfl, rfl⟩

/-- Settles O29: half a window by `winCols_known` and `winRows_known`, both halves by `winSet_known`. -/
theorem panelTakesTheWindow : Obligations.PanelTakesTheWindow := by
  unfold Obligations.PanelTakesTheWindow
  intro x1 y1 x2 y2 s p hp
  obtain ⟨q, hq, hqw, hqp⟩ := winCols_known x1 x2 hp
  obtain ⟨r, hr, hrw, hrp⟩ := winRows_known y1 y2 hp
  have hpoint := (finish_panel _).trans (winSet_known x1 y1 x1 y1 hp)
  have hwindow := (finish_panel _).trans (winSet_known x1 y1 x2 y2 hp)
  exact ⟨⟨_, q, rfl, hq, hqw, hqp⟩, ⟨_, r, rfl, hr, hrw, hrp⟩, ⟨_, _, rfl, hpoint, rfl, rfl⟩,
    ⟨_, _, rfl, hwindow, rfl, rfl⟩⟩

/-! ### Words from the host's memory (R62, R169) -/

/-- `pushColors` of at least one word in one record update (R169). -/
theorem pushColors_succ (addr : BitVec 32) (n : Nat) (first : Bool) (s : State) :
    pushColors addr (n + 1) first s =
      { afterWrites (bufferLog s addr (n + 1) first) (lo8 (bufferWord s addr n)) s with
        primState := .streaming, rowMemo := [], colMemo := [], freeDraws := s.freeDraws + (n + 1) } := by
  rw [pushColors, if_neg n.succ_ne_zero]
  dsimp only
  rw [pushWords_eq, bufferLog]
  cases first with
  | false => rfl
  | true =>
    have hword : ∀ i, bufferWord (streamBegin s) addr i = bufferWord s addr i := fun _ => rfl
    rw [if_pos rfl, if_pos rfl]
    simp only [hword]
    rw [streamBegin_eq]
    simp only [sent, afterWrites, PanelView.onFrames_append, List.append_assoc]
    rfl

/-- A stored word is read back, every other word reads as before (R62). -/
theorem bufferWord_storeWord (addr a : BitVec 32) (v : Color) (i : Nat) (s : State) :
    bufferWord (storeWord addr v s) a i = if (a.toNat + i) % 4294967296 = addr.toNat then v else bufferWord s a i := by
  show ((s.pixMem.insert addr.toNat v).lookup _).getD _ = _
  rw [Table.lookup_insert]
  split <;> rfl

/-- Settles O31: `pushColors_succ`, and the host's store word by word. -/
theorem pushColorsFrames : Obligations.PushColorsFrames := by
  unfold Obligations.PushColorsFrames
  exact ⟨fun addr count first s => ⟨rfl, congrArg Host.Outcome.next (pushColors_succ addr count first s)⟩,
    fun addr v s => ⟨storeWord addr v s, rfl, rfl, fun a i => bufferWord_storeWord addr a v i s⟩⟩

/-! ### Read streams (R72, R76, R138) -/

/-- 0x2E opens a read stream at the window's start, 0x3E one where the cursor stands; either asks for `d` dummies and
writes no pixel (R72, R109). -/
theorem Panel.onCommand_read {p : Panel} {x1 y1 w h k : Nat} {c : Byte} (d : Nat) (hw : p.HasWindow x1 y1 w h)
    (hc : (c = 0x2E#8 ∧ k = 0) ∨ (c = 0x3E#8 ∧ p.AtPixel x1 y1 w h k)) :
    (p.onCommand d c).pOpen = .ramrd ∧ (p.onCommand d c).pDummy = d ∧
      ({ p.onCommand d c with pDummy := 0 } : Panel).Reading x1 y1 w h k := by
  rcases hc with ⟨rfl, rfl⟩ | ⟨rfl, ha⟩
  · exact ⟨rfl, rfl, Panel.Reading.of_openRead d hw⟩
  · exact ⟨rfl, rfl, rfl, rfl, rfl, ⟨hw.xs, hw.xe, hw.ys, hw.ye, hw.wpos, hw.hpos, hw.xin, hw.yin⟩, ⟨ha.cx, ha.cy⟩⟩

/-- The reads behind a read command: the dummies, then the pixels (R75, R76). -/
theorem busReads_stream {s : State} {p : Panel} {x1 y1 w h k : Nat} (n : Nat) (hs : s.panel = .known p)
    (ho : p.pOpen = .ramrd) (hr : ({ p with pDummy := 0 } : Panel).Reading x1 y1 w h k) (hset : settleMet s = true) :
    let bs := p.streamBytes x1 y1 w h k n
    (busReads (p.pDummy + bs.length) s).1 = (busReads p.pDummy s).1 ++ bs ∧
    ∃ q, (busReads (p.pDummy + bs.length) s).2.panel = .known q ∧ q.Reading x1 y1 w h (k + n) ∧ q.gram = p.gram ∧
      q.format = p.format := by
  have hset' : settleMet (busReads p.pDummy s).2 = true := by
    have c := carries_busReads (x := true) p.pDummy s
    simpa only [settleMet, c.targetClockHz, c.settleCycles] using hset
  obtain ⟨hbytes, q, hq, hqr, hqg, hqf⟩ := busReads_pixels n (busReads_dummies p.pDummy hs ho rfl) hr hset'
  intro bs
  have hbs : ({ p with pDummy := 0 } : Panel).streamBytes x1 y1 w h k n = bs := Panel.streamBytes_congr rfl rfl ..
  rw [hbs] at hbytes hq
  rw [busReads_add]
  exact ⟨by rw [hbytes], q, hq, hqr, hqg, hqf⟩

/-- Settles O23: the command frame (`Panel.onCommand_read`), then `readData` as read cycles (`execAll_readData`). -/
theorem readStreamContinues : Obligations.ReadStreamContinues := by
  unfold Obligations.ReadStreamContinues
  intro s p x1 y1 w h k n c hp hw hset hc
  obtain ⟨ho, hd, hr⟩ := Panel.onCommand_read s.readDummyReads hw hc
  have hpanel : (rawCommand c s).panel = .known (p.onCommand s.readDummyReads c) := by
    rw [rawCommand_eq, hp]
    rfl
  have hlog : (rawCommand c s).txlog = s.txlog ++ [.cmd c] := by rw [rawCommand_eq]
  have hset' : settleMet (rawCommand c s) = true := by
    have hc := carries_rawCommand (x := true) c s
    simpa only [settleMet, hc.targetClockHz, hc.settleCycles] using hset
  have hgram := p.onCommand_gram s.readDummyReads c
  have hformat := p.onCommand_format s.readDummyReads c
  obtain ⟨hbytes, q, hq, hqr, hqg, hqf⟩ := busReads_stream n hpanel ho hr hset'
  rw [hd, Panel.streamBytes_congr hgram hformat] at hbytes hq
  obtain ⟨t, ht, htlog, htpanel, htresult⟩ :=
    execAll_readData (s.readDummyReads + (p.streamBytes x1 y1 w h k n).length) (rawCommand c s)
  rw [hbytes] at htlog htresult
  have hlen := busReads_length s.readDummyReads (rawCommand c s)
  generalize (busReads s.readDummyReads (rawCommand c s)).1 = ds at *
  refine ⟨t, q, ds, _, hlen, rfl, ?_, ?_, fun b hb => ?_, htpanel.trans hq, hqr, hqg.trans hgram, hqf.trans hformat⟩
  · rw [hlen]
    exact (execAll_cons rfl).trans ht
  · rw [htlog, hlog, List.append_assoc]
    rfl
  · rw [htresult, List.getLast?_append, hb]
    rfl

end Sys2Proof.Machine
end

section
/-! O33, O34, O48, O52, O54, O58: the pixels that floods, streams, drawing operations and XOR runs leave, and their read-back. -/

namespace Sys2Proof.Machine

/-! ### Floods and streams of the panel's window (R167 to R170, R231, R233) -/

theorem floodOp_panel (k : Color) (n : Nat) (s : State) : (floodOp k n s).panel = (flood16 k n s).panel := by
  rw [floodOp]
  split
  · subst n
    rfl
  · rw [finish_panel, memoClearAll_panel]

theorem fastFloodOp_panel (v : Byte) (n : Nat) (s : State) : (fastFloodOp v n s).panel = (flood8 v n s).panel := by
  rw [fastFloodOp]
  split
  · subst n
    rfl
  · rw [finish_panel, memoClearAll_panel]

/-- Settles O33: a flood lands where `landing` says (`flood16_paints`, `flood8_paints`), and its end writes no pixel. -/
theorem floodFillsTheWindow : Obligations.FloodFillsTheWindow := by
  unfold Obligations.FloodFillsTheWindow
  exact fun s p x1 y1 w h n hp hw =>
    ⟨fun k hf => ⟨floodOp k n s, rfl, (flood16_paints k n hp hf hw).of_panel (floodOp_panel k n s)⟩,
      fun v hf => ⟨fastFloodOp v n s, rfl, (flood8_paints v n hp hf hw).of_panel (fastFloodOp_panel v n s)⟩⟩

/-- Words sent into an open write stream land pixel by pixel (R74, R75, R166). -/
theorem onFrames_words (d : Nat) {p : Panel} {x1 y1 w h k n : Nat} (hf : p.format = .twoBytes)
    (hp : p.Writing x1 y1 w h k) (hn : n ≤ w * h) (v : Nat → Color) :
    ∃ q, (PanelView.known p).onFrames d ((List.range n).flatMap fun i => wordLog (v i)) = .known q ∧
      p.Streamed q x1 y1 w h k n v ∧ q.Writing x1 y1 w h (k + n) := by
  have hframes := onFrames_pixels16 d hf hp ((List.range n).map v)
  rw [List.flatMap_map] at hframes
  exact ⟨_, hframes, Panel.streamed_putAll v hp hn⟩

/-- What `pushColors` does to the panel without `first`, a zero count included (R169). -/
theorem pushColors_continue_panel (addr : BitVec 32) (n : Nat) (s : State) :
    (pushColors addr n false s).panel =
      s.panel.onFrames s.readDummyReads ((List.range n).flatMap fun i => wordLog (bufferWord s addr i)) := by
  cases n with
  | zero => rfl
  | succ n => rw [pushColors_succ]; rfl

/-- With `first` the stream is opened before (R165, R169). -/
theorem pushColors_first_panel (addr : BitVec 32) (n : Nat) {s : State} {p : Panel} (hp : s.panel = .known p) :
    (pushColors addr (n + 1) true s).panel =
      (PanelView.known p.openWrite).onFrames s.readDummyReads
        ((List.range (n + 1)).flatMap fun i => wordLog (bufferWord s addr i)) := by
  rw [pushColors_succ, ← onFrame_ramwr s.readDummyReads p, ← hp]
  rfl

theorem Panel.streamed_zero (p : Panel) (x1 y1 w h k : Nat) (v : Nat → Color) : p.Streamed p x1 y1 w h k 0 v :=
  ⟨rfl, fun i hi => absurd hi i.not_lt_zero, fun _ _ _ _ _ => rfl⟩

/-- Settles O34: each form of the stream is a list of words into an open write stream (`onFrames_words`). -/
theorem pushColorsFillsTheWindow : Obligations.PushColorsFillsTheWindow := by
  unfold Obligations.PushColorsFillsTheWindow
  intro s p x1 y1 w h k count addr hp hf
  refine ⟨fun hw hn => ?_, fun hwr hn => ?_, fun hwr color => ?_⟩
  · cases count with
    | zero => exact ⟨s, p, rfl, hp, p.streamed_zero .., fun h0 => absurd h0 (Nat.lt_irrefl 0)⟩
    | succ n =>
      obtain ⟨q, hq, hstream, hwriting⟩ :=
        onFrames_words (p := p.openWrite) s.readDummyReads hf hw.openWrite hn (bufferWord s addr)
      rw [Nat.zero_add] at hwriting
      exact ⟨_, q, rfl, (pushColors_first_panel addr n hp).trans hq, hstream, fun _ => hwriting⟩
  · obtain ⟨q, hq, hstream, hwriting⟩ := onFrames_words s.readDummyReads hf hwr hn (bufferWord s addr)
    rw [← hp] at hq
    exact ⟨_, q, rfl, (pushColors_continue_panel addr count s).trans hq, hstream, hwriting⟩
  · have hone : 1 ≤ w * h := Nat.mul_pos hwr.window.wpos hwr.window.hpos
    obtain ⟨q, hq, hstream, hwriting⟩ := onFrames_words s.readDummyReads hf hwr hone fun _ => color
    rw [← hp] at hq
    exact ⟨_, q, rfl, hq, hstream, hwriting⟩

/-! ### Drawing operations (R195 to R206, R234 to R249) -/

/-- Settles O48: the six operations are drawing pieces (`draws_exec`), and their end writes no pixel. -/
theorem drawingPaintsItsShape : Obligations.DrawingPaintsItsShape := by
  unfold Obligations.DrawingPaintsItsShape
  intro i color s p hc hp hf ho
  obtain ⟨t, he, hd⟩ := draws_exec i color s hc
  exact ⟨_, he, (hd.paints p hp hf ho).of_panel rfl⟩

/-- Strokes of the fast path paint the union of their shapes (R237, R248). -/
theorem draws_strokes8 (v : Byte) (l : List Stroke) (s : State) :
    Draws8 s (l.foldl (stroke8 v) s) (fun px py => ∃ z ∈ l, strokeShape z px py) v :=
  .foldl l (fun t z _ => draws_stroke8 v t z) s

/-- The strokes of the three edges of a triangle cover exactly their points (R248). -/
theorem edgeStrokes_shape (x0 y0 x1 y1 x2 y2 px py : Int) :
    (∃ z ∈ lineStrokes x0 y0 x1 y1 ++ lineStrokes x1 y1 x2 y2 ++ lineStrokes x2 y2 x0 y0, strokeShape z px py) ↔
      onLine x0 y0 x1 y1 px py ∨ onLine x1 y1 x2 y2 px py ∨ onLine x2 y2 x0 y0 px py := by
  simp only [← lineStrokes_shape, List.mem_append, or_and_right, exists_or, or_assoc]

/-- The eight painting operations of the fast path are drawing pieces (R234 to R239, R246, R248). -/
theorem draws8_exec (i : Instr) (v : Byte) (s : State) (hc : colourOf8 i = some v) :
    ∃ t, exec i s = .next (fastEnd s t) ∧ Draws8 s t (touches i) v := by
  cases i <;> cases hc
  case fastDrawPixel x y => exact ⟨_, rfl, draws_fpixel x y v s⟩
  case fastDrawFastHLine x y w => exact ⟨_, rfl, draws_fh x y w v s⟩
  case fastDrawFastVLine x y h => exact ⟨_, rfl, draws_fv x y h v s⟩
  case fastDrawLine x0 y0 x1 y1 =>
    exact ⟨_, rfl, (draws_strokes8 v _ s).congr fun x y _ _ => lineStrokes_shape x0 y0 x1 y1 x y⟩
  case fastFillRect x y w h => exact ⟨_, rfl, draws_fillRect8 x y w h v s⟩
  case fastFillScreen => exact ⟨_, rfl, draws_fillRect8 0 0 240 320 v s⟩
  case fastFillTriangle x0 y0 x1 y1 x2 y2 => exact ⟨_, rfl, .foldl _ (fun t sp _ => draws_fh sp.1 sp.2.1 sp.2.2 v t) s⟩
  case fastDrawTriangle x0 y0 x1 y1 x2 y2 =>
    exact ⟨_, rfl, (draws_strokes8 v _ s).congr fun x y _ _ => edgeStrokes_shape x0 y0 x1 y1 x2 y2 x y⟩

/-- Settles O54: the eight operations are drawing pieces (`draws8_exec`), and `fast_end` writes no pixel. -/
theorem fastPaintsItsShape : Obligations.FastPaintsItsShape := by
  unfold Obligations.FastPaintsItsShape
  intro i v s p hc hp hf
  obtain ⟨t, he, hd⟩ := draws8_exec i v s hc
  exact ⟨_, he, (hd.paints p hp hf).of_panel (fastEnd_panel s t)⟩

/-! ### Read-back (R207) -/

/-- A pixel of the panel is in bounds (R198). -/
theorem inb_of_lt {x y : Nat} (hx : x < 240) (hy : y < 320) : inb x y = true := (inb_iff x y).2 (by omega)

/-- `readPixel` of a pixel of the panel: what it holds, and no pixel changes (R76, R207). -/
theorem readPixel_exec {x y : Nat} {s : State} {p : Panel} (hx : x < 240) (hy : y < 320) (hp : s.panel = .known p)
    (hf : p.format = .twoBytes) (hset : settleMet s = true) :
    ∃ t q, exec (.readPixel x y) s = .next t ∧ t.result = p.cell x y ∧ t.panel = .known q ∧ q.gram = p.gram := by
  obtain ⟨q, hq, hg, hr⟩ := readPixel_known x y hx hy hp hf hset
  refine ⟨endIdle (readPixelAt x y s), q, ?_, (endIdle_result _).trans hr, (endIdle_panel _).trans hq, hg⟩
  show execReadPixel x y s = _
  rw [execReadPixel, if_pos (inb_of_lt hx hy)]

/-- A pixel is sent whatever the overdraw memory holds (R196). -/
theorem paints_pixel16 {x y : Nat} {s : State} {p : Panel} (k : Color) (hx : x < 240) (hy : y < 320)
    (hp : s.panel = .known p) (hf : p.format = .twoBytes) : Paints s (pixel16 x y k s) (inRect x y 1 1) k := by
  rw [pixel16, if_pos (inb_of_lt hx hy), flood16_one]
  have hrect := rect16_paints (x1 := x) (y1 := y) (w := 1) (h := 1) (x2 := x) (y2 := y) k hp hf (by omega) (by omega)
    Nat.one_pos Nat.one_pos hx hy
  exact hrect.of_panel (memoPixel_panel ..)

/-- Settles O52: `readPixel_exec`, from the state `drawPixel` leaves for the second clause. -/
theorem readBackAfterDraw : Obligations.ReadBackAfterDraw := by
  unfold Obligations.ReadBackAfterDraw
  refine fun x y s p hx hy hp hf hset => ⟨readPixel_exec hx hy hp hf hset, fun color hmask => ?_⟩
  obtain ⟨p', q, hp', hq, hfq, hcell⟩ := paints_pixel16 color hx hy hp hf
  rw [hp] at hp'
  cases hp'
  have hdraw : exec (.drawPixel x y color) s = .next (endIdle (pixel16 x y color s)) := by
    show execDrawPixel x y color s = _
    rw [execDrawPixel, eff, hmask, if_neg Bool.false_ne_true]
  have hset' : settleMet (endIdle (pixel16 x y color s)) = true := by
    have c := carries_pixel16 (x := true) x y color s
    simpa only [settleMet, endIdle_targetClockHz, endIdle_settleCycles, c.targetClockHz, c.settleCycles] using hset
  obtain ⟨u, r, hu, hresult, -⟩ := readPixel_exec hx hy ((endIdle_panel _).trans hq) (hfq.trans hf) hset'
  refine ⟨_, u, hdraw, hu, hresult.trans ((hcell x y hx hy).1 ?_)⟩
  simp only [inRect]
  omega

/-! ### XOR runs (R243) -/

/-- Settles O58: the run itself is `xorRun_pixels`; a run of no pixel does nothing. -/
theorem xorFloodFlipsPixels : Obligations.XorFloodFlipsPixels := by
  unfold Obligations.XorFloodFlipsPixels
  intro s p x1 y1 w h n m hp hw hf hset hlen hn
  cases n with
  | zero => exact ⟨s, p, rfl, hp, fun i hi => absurd hi i.not_lt_zero, fun _ _ _ _ _ => rfl⟩
  | succ n =>
    obtain ⟨q, hq, -, hflip, hkeep⟩ := xorRun_pixels (m := m) hp hw hf hset hn
    have hpanel : (finish (memoClearAll (xorRun m (n + 1) s))).panel = .known q := by
      rw [finish_panel, memoClearAll_panel, hq]
    exact ⟨_, q, congrArg Host.Outcome.next (fastXorFloodOp_short m s n.succ_pos hlen), hpanel, hflip,
      fun x y hx _ hno => hkeep x y hx hno⟩

end Sys2Proof.Machine
end

section
/-! O6: when the panel becomes unspecified (R77, R78): what one data frame and one read frame can come to, then which
operations send a frame the panel does not expect. -/

namespace Sys2Proof.Machine

/-! ### One frame -/

/-- What a pixel frame meets, in the terms of R78 and log 14. -/
theorem Panel.pixelRefusal_eq_some {p : Panel} {why : PanelRefusal} :
    p.pixelRefusal = some why ↔
      (why = .windowOutOfRange ∧ ¬p.WindowInside) ∨
      (why = .cursorOutOfRange ∧ p.WindowInside ∧ ¬(p.pCx < 240 ∧ p.pCy < 320)) := by
  have hwindow : p.windowInRange = true ↔ p.WindowInside := decide_eq_true_iff
  have hcursor : p.cursorInRange = true ↔ p.pCx < 240 ∧ p.pCy < 320 := decide_eq_true_iff
  rw [← hwindow, ← hcursor, Panel.pixelRefusal]
  cases p.windowInRange <;> cases p.cursorInRange <;> simp [eq_comm]

/-- When a data frame makes the panel unspecified, and with which reason (R77, R78). -/
theorem Panel.onData_unspecified {p : Panel} {b : Byte} {why : PanelRefusal} :
    p.onData b = .unspecified why ↔
      (why = .protocolViolation ∧ (p.pOpen = .none ∨ p.pOpen = .ramrd ∨ p.pOpen = .other)) ∨
      (p.pOpen = .ramwr ∧ p.pixelRefusal = some why) := by
  rw [Panel.onData]
  cases p.pOpen
  case ramwr => cases p.pixelRefusal <;> simp
  all_goals simp [eq_comm]

/-- When a read frame makes the panel unspecified, and with which reason (R77, R78, log 15). -/
theorem Panel.onRead_unspecified {p : Panel} {why : PanelRefusal} :
    p.onRead = .unspecified why ↔
      (why = .protocolViolation ∧ p.pOpen ≠ .ramrd) ∨
      (p.pOpen = .ramrd ∧ p.pDummy = 0 ∧ p.pixelRefusal = some why) := by
  rw [Panel.onRead]
  by_cases ho : p.pOpen = .ramrd
  · rcases Nat.eq_zero_or_pos p.pDummy with hd | hd
    · cases p.pixelRefusal <;> simp [ho, hd]
    · simp [ho, hd, Nat.ne_of_gt hd]
  · simp [ho, eq_comm]

/-- The read frame that makes the panel unspecified returns a free value (R77, log 10). -/
theorem Panel.readByte_of_unspecified {p : Panel} {why : PanelRefusal} (h : p.onRead = .unspecified why) (free : Byte) :
    p.readByte free = free := by
  rw [Panel.readByte]
  rcases Panel.onRead_unspecified.1 h with ⟨-, ho⟩ | ⟨ho, hd, hr⟩
  · rw [if_pos ho]
  · simp only [ho, hd, hr, ne_eq, not_true_eq_false, if_false, Nat.lt_irrefl]

/-- A read cycle whose frame leaves the panel unspecified samples a free value, settle time met or not (log 10). -/
theorem sampledByte_of_unspecified {s : State} {why : PanelRefusal} (h : s.panel.onRead = .unspecified why) :
    sampledByte s = Config.freeByte s.freeDraws := by
  have hread : s.panel.readByte (Config.freeByte s.freeDraws) = Config.freeByte s.freeDraws := by
    cases hp : s.panel with
    | unspecified => rfl
    | known p =>
      rw [hp] at h
      exact Panel.readByte_of_unspecified h _
  rw [sampledByte, hread, ite_self]

/-- One data frame, as an operation (R136). -/
theorem writeData_panel {s : State} {p : Panel} (hp : s.panel = .known p) (b : Byte) :
    (finish (memoClearAll (busWrite .dat b s))).panel = p.onData b := by
  rw [finish_panel, memoClearAll_panel, busWrite_eq_sent, sent_panel, hp]
  rfl

/-- One read frame, as an operation (R138). -/
theorem readData_panel {s : State} {p : Panel} (hp : s.panel = .known p) :
    (finish { busRead s with result := 0#8 ++ sampledByte s }).panel = p.onRead := by
  rw [finish_panel, busRead_eq_received, received_panel, hp]
  rfl

/-! ### An operation with coordinates keeps a known panel known (R78, R198) -/

/-- The six drawing operations of the 16-bit path clip what they program. -/
theorem known_exec16 {i : Instr} {c : Color} {s t : State} (hc : colourOf16 i = some c) (h : s.panel.IsKnown)
    (he : exec i s = .next t) : t.panel.IsKnown := by
  cases i <;> cases hc <;> cases he <;> rw [endIdle_panel]
  case drawPixel x y => exact known_pixel16 h x y _
  case drawLine x0 y0 x1 y1 => exact known_foldl _ _ (fun _ z _ ht => known_stroke16 ht _ z) s h
  case drawFastHLine x y w => exact known_stroke16 h _ (.h x y w)
  case drawFastVLine x y l => exact known_stroke16 h _ (.v x y l)
  case fillRect x y w l => exact known_fillRect16 h x y w l _
  case fillScreen => exact known_fillRect16 h 0 0 240 320 _

/-- The eight painting operations of the fast path clip what they program. -/
theorem known_exec8 {i : Instr} {v : Byte} {s t : State} (hc : colourOf8 i = some v) (h : s.panel.IsKnown)
    (he : exec i s = .next t) : t.panel.IsKnown := by
  cases i <;> cases hc <;> cases he <;> rw [fastEnd_panel]
  case fastDrawPixel x y => exact known_fpixel h x y v
  case fastDrawLine x0 y0 x1 y1 => exact known_foldl _ _ (fun _ z _ ht => known_stroke8 ht v z) s h
  case fastDrawFastHLine x y w => exact known_fh h x y w v
  case fastDrawFastVLine x y l => exact known_fv h x y l v
  case fastFillRect x y w l => exact known_fillRect8 h x y w l v
  case fastFillScreen => exact known_fillRect8 h 0 0 240 320 v
  case fastFillTriangle x0 y0 x1 y1 x2 y2 => exact known_foldl _ _ (fun _ _ _ ht => known_fh ht _ _ _ v) s h
  case fastDrawTriangle x0 y0 x1 y1 x2 y2 => exact known_foldl _ _ (fun _ z _ ht => known_stroke8 ht v z) s h

theorem known_readPixel {s : State} (x y : Int) (h : s.panel.IsKnown) :
    (endIdle (if inb x y then readPixelAt x y s else { s with result := 0#16 })).panel.IsKnown := by
  rw [endIdle_panel]
  split
  · exact known_readPixelAt h ‹_›
  · exact h

/-- The two operations with a shape that paint no colour read their own window (R207, R242). -/
theorem known_execReads {i : Instr} {s t : State} (hi : hasShape i = true) (h16 : colourOf16 i = none)
    (h8 : colourOf8 i = none) (h : s.panel.IsKnown) (he : exec i s = .next t) : t.panel.IsKnown := by
  cases i <;> cases h16 <;> cases h8 <;> cases hi <;> cases he
  case readPixel x y => exact known_readPixel x y h
  case fastXorRect x y w l m =>
    rw [fastEnd_panel]
    exact known_xorRect8 h x y w l m

/-- An operation that takes coordinates to clip leaves a known panel known. -/
theorem known_of_hasShape {i : Instr} {s t : State} (hi : hasShape i = true) (h : s.panel.IsKnown)
    (he : exec i s = .next t) : t.panel.IsKnown := by
  rcases h16 : colourOf16 i with _ | c
  · rcases h8 : colourOf8 i with _ | v
    · exact known_execReads hi h16 h8 h he
    · exact known_exec8 h8 h he
  · exact known_exec16 h16 h he

/-! ### Which operations meet an unexpected frame (R77) -/

/-- The operations that send data or read frames without a command of their own. -/
def sendsBareFrames (i : Instr) : Prop :=
  (∃ b, i = .writeData b) ∨ i = .readData ∨ i = .clockPulse ∨ (∃ c, i = .pushColor c) ∨ ∃ a n, i = .pushColors a n false

/-- The panel as an operation leaves it that meets no unexpected frame. -/
def PanelView.NoViolation (v : PanelView) : Prop := v ≠ .unspecified .protocolViolation

theorem PanelView.IsKnown.noViolation {v : PanelView} (h : v.IsKnown) : v.NoViolation := h.ne _

section
variable {s : State} (h : s.panel.IsKnown)
include h

theorem streams_streamBegin : (streamBegin s).panel.Streams .ramwr := by
  obtain ⟨p, hp⟩ := h
  exact PanelView.Streams.ramwr (o := p.pOpen) (.inl ⟨p, hp, rfl⟩) s.readDummyReads

theorem noViolation_flood16 (k : Color) (n : Nat) : (flood16 k n s).panel.NoViolation := by
  by_cases hn : n = 0
  · subst hn
    exact h.noViolation
  · exact (flood16_keeps (fun _ d b hv => hv.dat d b) k hn (streams_streamBegin h)).ne

theorem noViolation_flood8 (v : Byte) (n : Nat) : (flood8 v n s).panel.NoViolation := by
  by_cases hn : n = 0
  · subst hn
    exact h.noViolation
  · exact (flood8_keeps (fun _ d b hv => hv.dat d b) v hn (streams_streamBegin h)).ne

theorem noViolation_xorRun (m : Byte) (n : Nat) : (xorRun m n s).panel.NoViolation := by
  obtain ⟨p, hp⟩ := h
  refine (xorRun_keeps (P := PanelView.Streams .ramrd) (Q := PanelView.Streams .ramwr) (fun _ hv => hv.rd)
    (fun _ d b hv => hv.dat d b) (fun _ d hv => hv.ramwr d) m n (.inl ⟨p.openRead s.readDummyReads, ?_, rfl⟩)).ne
  rw [hp, onFrame_ramrd]

theorem noViolation_pushColors (addr : BitVec 32) (n : Nat) : (pushColors addr n true s).panel.NoViolation := by
  rw [pushColors]
  split
  · exact h.noViolation
  · exact (pushWords_keeps (fun _ d b hv => hv.dat d b) n addr (streams_streamBegin h)).ne

theorem known_rawCommand (b : Byte) : (rawCommand b s).panel.IsKnown := by
  rw [rawCommand_eq]
  exact h.cmd s.readDummyReads b

theorem known_winCols (x1 x2 : Int) : (winCols x1 x2 s).panel.IsKnown := by
  obtain ⟨p, hp⟩ := h
  obtain ⟨q, hq, -⟩ := winCols_known x1 x2 hp
  exact ⟨q, hq⟩

theorem known_winRows (y1 y2 : Int) : (winRows y1 y2 s).panel.IsKnown := by
  obtain ⟨p, hp⟩ := h
  obtain ⟨q, hq, -⟩ := winRows_known y1 y2 hp
  exact ⟨q, hq⟩

theorem known_winSet (x1 y1 x2 y2 : Int) : (winSet x1 y1 x2 y2 s).panel.IsKnown := known_winRows (known_winCols h x1 x2) y1 y2

theorem noViolation_fastXorFloodOp (m : Byte) (n : Nat) : (fastXorFloodOp m n s).panel.NoViolation := by
  rw [fastXorFloodOp]
  split
  · exact h.noViolation
  · split
    · exact h.noViolation
    · exact noViolation_xorRun h m n

/-- The operations without a shape: those that send bare frames, those that send their own command, and those that send
nothing. -/
theorem noViolation_execOther {i : Instr} {t : State} (hshape : hasShape i = false) (hi : ¬sendsBareFrames i)
    (he : exec i s = .next t) : t.panel.NoViolation := by
  cases i <;> cases hshape <;> cases he
  case writeData b => exact absurd (.inl ⟨b, rfl⟩) hi
  case readData => exact absurd (.inr (.inl rfl)) hi
  case clockPulse => exact absurd (.inr (.inr (.inl rfl))) hi
  case pushColor c => exact absurd (.inr (.inr (.inr (.inl ⟨c, rfl⟩)))) hi
  case pushColors addr n first =>
    cases first with
    | false => exact absurd (.inr (.inr (.inr (.inr ⟨addr, n, rfl⟩)))) hi
    | true => exact noViolation_pushColors h addr n
  case writeCommand b => exact (known_rawCommand h b).noViolation
  case caset | paset | ramwr | ramrd | ramrdCont => exact (known_rawCommand h _).noViolation
  case setColumnWindow x1 x2 => exact (known_winCols h x1 x2).noViolation
  case setRowWindow y1 y2 => exact (known_winRows h y1 y2).noViolation
  case setPoint x y => exact (known_winSet h x y x y).noViolation
  case setAddrWindow x1 y1 x2 y2 => exact (known_winSet h x1 y1 x2 y2).noViolation
  case flood k n => exact floodOp_panel k n s ▸ noViolation_flood16 h k n
  case fastFlood v n => exact fastFloodOp_panel v n s ▸ noViolation_flood8 h v n
  case fastXorFlood m n => exact noViolation_fastXorFloodOp h m n
  all_goals exact h.noViolation

/-- An operation that sends no bare frame never meets a frame the panel does not expect (R77). -/
theorem noViolation_exec {i : Instr} {t : State} (hi : ¬sendsBareFrames i) (he : exec i s = .next t) :
    t.panel.NoViolation := by
  cases hshape : hasShape i with
  | true => exact (known_of_hasShape hshape h he).noViolation
  | false => exact noViolation_execOther h hshape hi he

end

/-! ### An unspecified panel stays so (log 4) -/

theorem unspecified_exec {i : Instr} {s t : State} {why : PanelRefusal} (hp : s.panel = .unspecified why)
    (he : exec i s = .next t) : t.panel = .unspecified why := by
  obtain ⟨fs, -, hpanel⟩ := (carries_exec i s t he).sent
  have hpanel : t.panel = s.panel.onFrames s.readDummyReads fs := hpanel
  rw [hpanel, hp, PanelView.onFrames_unspecified]

/-- Settles O6: one frame on a known panel (`Panel.onData_unspecified`, `Panel.onRead_unspecified`), then every operation
(`unspecified_exec`, `noViolation_exec`, `known_of_hasShape`). -/
theorem panelBecomesUnspecified : Obligations.PanelBecomesUnspecified := by
  unfold Obligations.PanelBecomesUnspecified
  refine ⟨fun s p hp => ⟨fun b => PanelView.IsKnown.cmd ⟨p, hp⟩ s.readDummyReads b, fun b => ⟨_, rfl, ?_⟩, ⟨_, rfl, ?_⟩⟩,
    fun i s t why hp he => ⟨unspecified_exec hp he, ?_⟩,
    fun i s t p hp he => ⟨fun hv => ?_, fun hi => known_of_hasShape hi ⟨p, hp⟩ he⟩⟩
  · rw [writeData_panel hp]
    simp [Panel.onData_unspecified, Panel.pixelRefusal_eq_some]
  · rw [readData_panel hp]
    refine ⟨?_, ?_, ?_, fun why h => ?_⟩
    iterate 3 simp [Panel.onRead_unspecified, Panel.pixelRefusal_eq_some]
    rw [finish_result, sampledByte_of_unspecified (by rw [hp]; exact h)]
  · rintro rfl
    cases he
    rw [finish_result, sampledByte_of_unspecified (by rw [hp]; rfl)]
  · by_contra hi
    exact noViolation_exec ⟨p, hp⟩ hi he hv

end Sys2Proof.Machine
end

section
/-! O2, O3, O4, O7, O1: the two encodings. A descriptor is legal exactly if a row of the table selects it, and the fields of
a legal descriptor are the ones the encoder makes of the operands they hold. -/

namespace Sys2Proof

/-! ### The row a descriptor selects (R102, R105) -/

theorem Op.code_injective : Function.Injective Op.code := fun m n h =>
  Option.some.inj (by rw [← Op.ofCode_code m, h, Op.ofCode_code])

/-- Every row tests the whole field `op`, so no two rows select one descriptor (R105). -/
theorem selects_unique {m n : Op} {w : Descriptor} (hm : m.selects w = true) (hn : n.selects w = true) : m = n := by
  rw [selects_ofWord, Bool.and_eq_true, beq_iff_eq] at hm hn
  exact Op.code_injective (hm.1.symm.trans hn.1)

/-- What is decoded was built by a row that selects the descriptor (R105). -/
theorem selects_of_decode {w : Descriptor} {i : Instr} (h : decode (.opd w) = .ok i) :
    ∃ m : Op, m.selects w = true ∧ m.build (Fields.ofWord w) = i := by
  by_cases hsel : ∃ m : Op, m.selects w = true
  · obtain ⟨m, hm⟩ := hsel
    exact ⟨m, hm, Except.ok.inj ((selects_decode hm).symm.trans h)⟩
  · obtain ⟨e, he⟩ := not_selects_decode (w := w) (by simpa using hsel)
    rw [he] at h
    cases h

/-- The row of an assigned `op` does not select the descriptor: a bit outside the used fields is set (R102, R110). -/
theorem decode_unusedBitSet {m : Op} {w : Descriptor} (hop : (Fields.ofWord w).op = m.code)
    (hsel : m.selects w = false) : decode (.opd w) = .error .unusedBitSet := by
  rw [selects_ofWord, hop, beq_self_eq_true, Bool.true_and] at hsel
  rw [← Fields.toWord_ofWord w, decode, decodeOpd_toWord m _ hop, hsel, if_neg Bool.false_ne_true]

/-! ### Operands and fields (R103) -/

theorem append_extract_high (a b : BitVec 16) : (a ++ b).extractLsb' 16 16 = a :=
  (extract_high a b (Nat.le_refl 16)).trans (extract_self a)

theorem append_extract_low (a b : BitVec 16) : (a ++ b).extractLsb' 0 16 = b := extract_low a b

/-- A field holds no operand out of range, whatever its bits (R103). -/
theorem wf_build (m : Op) (f : Fields) : (m.build f).wf = true := by
  cases m <;> simp [Op.build, Instr.wf, coordOk_sint16, lengthOk_uint32, countOk_uint16]

/-- The encoder puts the operands back into the fields they were built from, and 0 into the unused ones (R102). -/
theorem encode_build {m : Op} {f : Fields} (hop : f.op = m.code) (hclear : f.unusedClear m.usage = true) :
    encode (m.build f) = .opd f.toWord := by
  obtain ⟨op, rsv, flag, c, a0, a1, a2, a3, a4, a5⟩ := f
  subst hop
  cases m
  all_goals
    simp [Fields.unusedClear, Op.usage] at hclear
    simp [Op.build, encode, Op.fields, coordField_sint16, highField_uint32, lowField_uint32, lowField_uint16,
      byteField_lo8, ofBool_flag, append_extract_high, append_extract_low, hclear]

/-- Fields whose unused bits are 0 decode to what their operation builds from them (R105). -/
theorem decode_fields {m : Op} {c a0 a1 a2 a3 a4 a5 : BitVec 16} {g : BitVec 1} {i : Instr}
    (hclear : (Op.fields m c a0 a1 a2 a3 a4 a5 g).unusedClear m.usage = true)
    (hbuild : m.build (Op.fields m c a0 a1 a2 a3 a4 a5 g) = i) :
    decode (.opd (Op.fields m c a0 a1 a2 a3 a4 a5 g).toWord) = .ok i := by
  rw [decode, decodeOpd_fields, if_pos hclear, hbuild]

/-! ### Wire words (R108) -/

/-- A wire word that decodes is the one the encoder makes of its command (R108). -/
theorem encode_of_decodeWire {w : WireWord} {i : Instr} (h : decode (.wire w) = .ok i) :
    i.wf = true ∧ encode i = .wire w := by
  simp only [decode, decodeWire] at h
  split_ifs at h with hw hw hw hw hw <;> cases h
  all_goals exact ⟨rfl, hw ▸ rfl⟩

/-- A wire word that fails the decoder's five tests is no instruction (the model's choice, log 21). -/
theorem decode_wire_unlisted {w : WireWord} (hcaset : w ≠ 0x02A#9) (hpaset : w ≠ 0x02B#9) (hramwr : w ≠ 0x02C#9)
    (hramrd : w ≠ 0x02E#9) (hramrdCont : w ≠ 0x03E#9) : decode (.wire w) = .error .unlistedWireWord := by
  simp only [decode, decodeWire]
  exact (if_neg hcaset).trans <| (if_neg hpaset).trans <| (if_neg hramwr).trans <| (if_neg hramrd).trans <|
    if_neg hramrdCont

end Sys2Proof

namespace Sys2Proof.Machine

/-- A descriptor that does not decode is recorded, and nothing else happens (R110, log 3). -/
theorem serve_illegal {w : Descriptor} {e : Reject} (h : decode (.opd w) = .error e) (s : State) :
    serve (.write .opd w) s = .next (recordIllegal s) := by
  simp only [serve, writeRegister, issue, h]

/-! ### The statements -/

/-- Settles O2: operation by operation, the encoder leaves the unused bits 0 and every operand comes back from its field;
a wire command is one of five words. -/
theorem decodeEncodeRoundTrip : Obligations.DecodeEncodeRoundTrip := by
  unfold Obligations.DecodeEncodeRoundTrip
  intro i h
  cases i
  case caset | paset | ramwr | ramrd | ramrdCont => rfl
  all_goals
    simp only [Instr.wf, Bool.and_eq_true] at h
    apply decode_fields
    · simp [Op.fields, Fields.unusedClear, Op.usage, hi8_byteField]
    · simp [Op.build, Op.fields, lo8_byteField, sint16_coordField, uint32_fields, uint16_lowField, addr_halves,
        flag_ofBool, h]

/-- Settles O3: a descriptor by the row that selects it and `encode_build`, a wire word by the list of the five. -/
theorem encodeDecodeIdentity : Obligations.EncodeDecodeIdentity := by
  unfold Obligations.EncodeDecodeIdentity
  refine ⟨fun c i h => ?_, fun m w hop hmask => decode_unusedBitSet hop (beq_eq_false_iff_ne.mpr hmask)⟩
  cases c with
  | opd w =>
    obtain ⟨m, hsel, rfl⟩ := selects_of_decode h
    rw [selects_ofWord, Bool.and_eq_true, beq_iff_eq] at hsel
    obtain ⟨hop, hclear⟩ := hsel
    exact ⟨wf_build m _, by rw [encode_build hop hclear, Fields.toWord_ofWord]⟩
  | wire w => exact encode_of_decodeWire h

/-- Settles O4: a row tests its `op` and its unused bits (`selects_ofWord`), as the decoder does. -/
theorem rowsSelectExactlyTheLegal : Obligations.RowsSelectExactlyTheLegal := by
  unfold Obligations.RowsSelectExactlyTheLegal
  exact fun w => ⟨fun m => selects_decode, fun m n => selects_unique, not_selects_decode⟩

/-- Settles O7: no row selects the descriptor, so it does not decode. -/
theorem illegalDescriptorOnlyRecords : Obligations.IllegalDescriptorOnlyRecords := by
  unfold Obligations.IllegalDescriptorOnlyRecords
  intro w s hno
  obtain ⟨e, he⟩ := not_selects_decode hno
  exact serve_illegal he s

/-- Settles O1: the written words by evaluation, every other wire word by `decode_wire_unlisted`. -/
theorem writtenWordsDecode : Obligations.WrittenWordsDecode := by
  unfold Obligations.WrittenWordsDecode
  refine ⟨?_, ?_, ?_, ?_, ?_, ?_, ?_, ?_, ?_, ?_, ?_, ?_, ?_, ?_, fun w => decode_wire_unlisted⟩
  all_goals decide +kernel

end Sys2Proof.Machine
end

section
/-! O21, O24, O25: the write cycle, floods sent as clock pulses, and the settle count. -/

namespace Sys2Proof.Machine

/-! ### The write cycle (R130, R131) -/

/-- Settles O21: the frame level for each kind of write, the pin level as the list of states the cycle is made of. -/
theorem writeCycle : Obligations.WriteCycle := by
  unfold Obligations.WriteCycle
  refine fun k b s => ⟨?_, rfl, rfl⟩
  rw [busWrite_eq_sent]
  cases k with
  | cmd => rfl
  | dat => rfl

/-! ### Clock pulses are data writes of the byte on the lines (R134) -/

theorem busPulse2_eq_busWrite (s : State) : busPulse2 s = busWrite .dat s.dout (busWrite .dat s.dout s) := by
  rw [busPulse2_eq_sent, busWrite_eq_sent, busWrite_eq_sent, sent_sent]
  rfl

theorem busPulse2_dout (s : State) : (busPulse2 s).dout = s.dout := by rw [busPulse2_eq_sent, sent_dout]

/-- Each clock pulse leaves the byte on the lines, so the next one sends it again. -/
theorem pulses_eq_emitAll (n : Nat) (s : State) : pulses n s = emitAll (List.replicate (n * 2) (.dat, s.dout)) s := by
  induction n generalizing s with
  | zero => rfl
  | succ n ih =>
    rw [pulses, ih, busPulse2_dout, busPulse2_eq_busWrite, Nat.succ_mul, List.replicate_succ, List.replicate_succ,
      emitAll_cons, emitAll_cons]

/-- After a first write of a byte, pulses and further writes of it are one list of writes. -/
theorem pulses_busWrite (v : Byte) (n : Nat) (s : State) :
    pulses n (busWrite .dat v s) = emitAll (List.replicate (n * 2 + 1) (.dat, v)) s := by
  rw [pulses_eq_emitAll]
  rfl

/-- An even rest of the flood is pulses alone, an odd one has one write more (R231). -/
theorem flood8Pulsed_eq (v : Byte) (n : Nat) (s : State) : flood8Pulsed v n s = flood8 v n s := by
  cases n with
  | zero => rfl
  | succ m =>
    simp only [flood8Pulsed, flood8, Nat.add_one_ne_zero, if_false, Nat.add_sub_cancel, pulses_busWrite]
    split
    case isTrue hodd =>
      have hm : m + 1 = m / 2 * 2 + 1 + 1 := by omega
      rw [hm, List.replicate_succ' (n := m / 2 * 2 + 1), emitAll_append]
      rfl
    case isFalse heven =>
      have hm : m + 1 = m / 2 * 2 + 1 := by omega
      rw [hm]

/-- A pixel of two equal bytes is two writes of that byte (R166). -/
theorem px16Frames_of_bytesEqual {k : Color} (h : hi8 k = lo8 k) : px16Frames k = List.replicate 2 (.dat, lo8 k) := by
  rw [px16Frames, h]
  rfl

theorem flood16Pulsed_eq {k : Color} (h : hi8 k = lo8 k) (n : Nat) (s : State) :
    flood16Pulsed k n s = flood16 k n s := by
  cases n with
  | zero => rfl
  | succ m =>
    have hflood : (List.replicate (m + 1) (px16Frames k)).flatten =
        px16Frames k ++ List.replicate (m * 2) (.dat, lo8 k) := by
      rw [List.replicate_succ, List.flatten_cons, px16Frames_of_bytesEqual h, List.flatten_replicate_replicate]
    simp only [flood16Pulsed, flood16, Nat.add_one_ne_zero, if_false, Nat.add_sub_cancel, hflood, emitAll_append]
    exact pulses_eq_emitAll m (px16 k (streamBegin s))

/-- Settles O24: pulses as writes (`busPulse2_eq_busWrite`), and each flood by the list of writes it is. -/
theorem pulsedFloodsRefine : Obligations.PulsedFloodsRefine := by
  unfold Obligations.PulsedFloodsRefine
  exact ⟨busPulse2_eq_busWrite, fun n s => ⟨fun v => flood8Pulsed_eq v n s, fun k h => flood16Pulsed_eq h n s⟩⟩

/-! ### The settle count (R140) -/

/-- The counts the settle count does not exceed are those of at least 1 that last 400 ns. -/
theorem readSettleCycles_le_iff (hz c : Nat) :
    readSettleCycles hz ≤ c ↔ 1 ≤ c ∧ 400 * hz ≤ c * 1000000000 := by
  have hceil : (400 * hz + 999999999) / 1000000000 ≤ c ↔ 400 * hz ≤ c * 1000000000 := by omega
  rw [readSettleCycles, max_le_iff, Config.readSettleNs, hceil]

/-- Settles O25: the settle count is itself such a count and is at most every other (`readSettleCycles_le_iff`). -/
theorem settleCycles : Obligations.SettleCycles := by
  unfold Obligations.SettleCycles
  refine ⟨fun hz => ?_, by decide⟩
  obtain ⟨hone, hlasts⟩ := (readSettleCycles_le_iff hz _).mp le_rfl
  exact ⟨hone, hlasts, fun c hc hl => (readSettleCycles_le_iff hz c).mpr ⟨hc, hl⟩⟩

end Sys2Proof.Machine
end

section
/-! O28: the window operations, each window procedure (`winCols_eq`, `winRows_eq`, `winSet_eq`) ended by chip-select low. -/

namespace Sys2Proof.Machine

/-- A column window sent as an operation of its own (R150, R153). -/
theorem finish_winCols (x1 x2 : Int) (s : State) :
    finish (winCols x1 x2 s) =
      { afterWrites (columnLog x1 x2) (lo8 (windowWord x2)) s with
        winX1 := windowWord x1, winX2 := windowWord x2, winColSet := true, primState := .windowSet } := by
  rw [winCols_eq]
  rfl

/-- A row window sent as an operation of its own (R151, R154). -/
theorem finish_winRows (y1 y2 : Int) (s : State) :
    finish (winRows y1 y2 s) =
      { afterWrites (rowLog y1 y2) (lo8 (windowWord y2)) s with
        winY1 := windowWord y1, winY2 := windowWord y2, winRowSet := true, primState := .windowSet } := by
  rw [winRows_eq]
  rfl

/-- A whole window sent as an operation of its own (R152, R156). -/
theorem finish_winSet (x1 y1 x2 y2 : Int) (s : State) :
    finish (winSet x1 y1 x2 y2 s) =
      { afterWrites (windowLog x1 y1 x2 y2) (lo8 (windowWord y2)) (withShadow x1 y1 x2 y2 s) with
        primState := .windowSet } := by
  rw [winSet_eq, windowSetFrames_eq]
  rfl

/-- Settles O28: each operation is its window procedure and the end of the operation, and a point is the window that
starts and ends at it. -/
theorem windowOperations : Obligations.WindowOperations := by
  unfold Obligations.WindowOperations
  intro x1 y1 x2 y2 s
  exact ⟨congrArg Host.Outcome.next (finish_winCols x1 x2 s), congrArg Host.Outcome.next (finish_winRows y1 y2 s),
    congrArg Host.Outcome.next (finish_winSet x1 y1 x2 y2 s), rfl⟩

end Sys2Proof.Machine
end

section
/-! O30, O32: `pushColor` and the two floods, each the pixel frames it sends ended as an operation that streams. -/

namespace Sys2Proof.Machine

/-- The end of an operation that sent `fs` and leaves the stream open: the overdraw memory is cleared and chip-select is low
(R31, R137). -/
theorem finish_memoClearAll_sent (fs : List Frame) (d : Byte) (s : State) :
    finish (memoClearAll { sent fs d true s with primState := .streaming }) =
      { afterWrites fs d s with primState := .streaming, rowMemo := [], colMemo := [] } := rfl

/-- `flood` of at least one pixel in one record update (R167, R170). -/
theorem floodOp_succ (k : Color) (n : Nat) (s : State) :
    floodOp k (n + 1) s =
      { afterWrites (floodLog16 k (n + 1)) (lo8 k) s with primState := .streaming, rowMemo := [], colMemo := [] } := by
  rw [floodOp, if_neg n.succ_ne_zero, flood16_succ, floodLog16_eq, finish_memoClearAll_sent]

/-- `fastFlood` of at least one pixel in one record update (R231, R233). -/
theorem fastFloodOp_succ (v : Byte) (n : Nat) (s : State) :
    fastFloodOp v (n + 1) s =
      { afterWrites (floodLog8 v (n + 1)) v s with primState := .streaming, rowMemo := [], colMemo := [] } := by
  rw [fastFloodOp, if_neg n.succ_ne_zero, flood8_succ, finish_memoClearAll_sent]
  rfl

/-- Settles O32: a zero length leaves the state as it is, and any other is `floodOp_succ` or `fastFloodOp_succ`. -/
theorem floodFrames : Obligations.FloodFrames := by
  unfold Obligations.FloodFrames
  exact fun color c8 length s => ⟨rfl, rfl, congrArg Host.Outcome.next (floodOp_succ color length s),
    congrArg Host.Outcome.next (fastFloodOp_succ c8 length s)⟩

/-- Settles O30: the two bytes of the pixel (`px16_eq`), and the end of the operation. -/
theorem pushColorFrames : Obligations.PushColorFrames := by
  unfold Obligations.PushColorFrames
  intro color s
  refine congrArg Host.Outcome.next ?_
  rw [px16_eq]
  exact finish_memoClearAll_sent (wordLog color) (lo8 color) s

end Sys2Proof.Machine
end

section
/-! O35: the seven operations of spec/43, each one register assignment. -/

namespace Sys2Proof.Machine

/-- Settles O35: no operation of spec/43 goes through the bus, the window or the end of an operation, so each arm of `exec`
is its one assignment by definition (R180 to R187). -/
theorem compositingOperations : Obligations.CompositingOperations := by
  unfold Obligations.CompositingOperations
  exact fun color s => ⟨rfl, rfl, rfl, rfl, rfl, rfl, rfl⟩

end Sys2Proof.Machine
end

section
/-! O39: the masking stage. Each drawing piece takes the Color of R195 as an argument and reads `do_masking` nowhere, so it
does the same whatever that flag is (`IgnoresMasking`). -/

namespace Sys2Proof.Machine

/-- `do_masking` is written, and nothing else (R25). -/
def setMasking (b : Bool) (s : State) : State := { s with doMasking := b }

/-- `f` does the same whatever `do_masking` is, and leaves it. -/
def IgnoresMasking (f : State → State) : Prop := ∀ b, Function.Commute (setMasking b) f

theorem IgnoresMasking.id : IgnoresMasking fun s => s := fun _ _ => rfl

theorem IgnoresMasking.comp {f g : State → State} (hg : IgnoresMasking g) (hf : IgnoresMasking f) :
    IgnoresMasking fun s => g (f s) := fun b => (hg b).comp_right (hf b)

theorem IgnoresMasking.foldl {α : Type} {f : State → α → State} (hf : ∀ a, IgnoresMasking fun s => f s a) (l : List α) :
    IgnoresMasking fun s => l.foldl f s := by
  induction l with
  | nil => exact .id
  | cons a l ih => exact ih.comp (hf a)

/-- A choice `do_masking` has no part in. -/
theorem IgnoresMasking.ite {f g : State → State} {c : State → Prop} [DecidablePred c]
    (hc : ∀ b s, c (setMasking b s) ↔ c s) (hf : IgnoresMasking f) (hg : IgnoresMasking g) :
    IgnoresMasking fun s => if c s then f s else g s := by
  intro b s
  dsimp only
  simp only [hc b s]
  split
  · exact hf b s
  · exact hg b s

theorem ignoresMasking_winSet (x1 y1 x2 y2 : Int) : IgnoresMasking (winSet x1 y1 x2 y2) := by
  intro b s
  rw [winSet_eq, winSet_eq]
  rfl

theorem ignoresMasking_flood16 (k : Color) (n : Nat) : IgnoresMasking (flood16 k n) := by
  cases n with
  | zero => exact .id
  | succ n =>
    intro b s
    rw [flood16_succ, flood16_succ]
    rfl

/-- One window and one flood (R199, R200, R204). -/
theorem ignoresMasking_rect16 (x1 y1 x2 y2 : Int) (k : Color) (n : Nat) :
    IgnoresMasking fun s => flood16 k n (winSet x1 y1 x2 y2 s) :=
  (ignoresMasking_flood16 k n).comp (ignoresMasking_winSet x1 y1 x2 y2)

theorem ignoresMasking_pixel16 (x y : Int) (k : Color) : IgnoresMasking (pixel16 x y k) := by
  intro b s
  rw [pixel16_eq, pixel16_eq]
  split <;> rfl

theorem ignoresMasking_hrun (x y n : Nat) (k : Color) : IgnoresMasking (hrun x y n k) := by
  have hmemo : IgnoresMasking (memoRow x y n k) := fun _ _ => rfl
  exact .ite (fun _ _ => Iff.rfl) .id (hmemo.comp (ignoresMasking_rect16 x y ((x : Int) + n - 1) y k n))

theorem ignoresMasking_vrun (x y n : Nat) (k : Color) : IgnoresMasking (vrun x y n k) := by
  have hmemo : IgnoresMasking (memoCol x y n k) := fun _ _ => rfl
  exact .ite (fun _ _ => Iff.rfl) .id (hmemo.comp (ignoresMasking_rect16 x y x ((y : Int) + n - 1) k n))

theorem ignoresMasking_hline16 (x y w : Int) (k : Color) : IgnoresMasking (hline16 x y w k) := by
  unfold hline16
  split
  · exact .id
  · exact ignoresMasking_hrun _ _ _ k

theorem ignoresMasking_vline16 (x y h : Int) (k : Color) : IgnoresMasking (vline16 x y h k) := by
  unfold vline16
  split
  · exact .id
  · exact ignoresMasking_vrun _ _ _ k

theorem ignoresMasking_stroke16 (k : Color) (z : Stroke) : IgnoresMasking fun s => stroke16 k s z := by
  cases z with
  | h x y w => exact ignoresMasking_hline16 x y w k
  | v x y h => exact ignoresMasking_vline16 x y h k
  | px x y => exact ignoresMasking_pixel16 x y k

theorem ignoresMasking_fillFullWidth (y h : Nat) (k : Color) : IgnoresMasking (fillFullWidth y h k) := by
  have hrows := IgnoresMasking.foldl (f := fun t j => { t with rowMemo := t.rowMemo.insert j ⟨0, 240, k⟩ })
    (fun _ _ _ => rfl) (List.range' y h)
  have hcols : IgnoresMasking fun t => { t with colMemo := t.colMemo.eraseRange 0 240 } := fun _ _ => rfl
  exact hcols.comp (hrows.comp (ignoresMasking_rect16 0 y 239 ((y : Int) + h - 1) k (240 * h)))

theorem ignoresMasking_fillRect16 (x y w h : Int) (k : Color) : IgnoresMasking (fillRect16 x y w h k) := by
  unfold fillRect16
  split
  · exact .id
  · exact .ite (fun _ _ => Iff.rfl) (ignoresMasking_fillFullWidth _ _ k)
      (.foldl (fun j => ignoresMasking_hrun _ j _ k) _)

/-- What a drawing operation draws with the Color `k` (R196 to R206). -/
def drawWith (k : Color) (i : Instr) (s : State) : State :=
  match i with
  | .drawPixel x y _ => pixel16 x y k s
  | .drawLine x0 y0 x1 y1 _ => (lineStrokes x0 y0 x1 y1).foldl (stroke16 k) s
  | .drawFastHLine x y w _ => hline16 x y w k s
  | .drawFastVLine x y h _ => vline16 x y h k s
  | .fillRect x y w h _ => fillRect16 x y w h k s
  | .fillScreen _ => fillRect16 0 0 240 320 k s
  | _ => s

/-- A drawing operation draws with the Color of the masking stage (R195). -/
theorem exec_eq_drawWith {i : Instr} {c : Color} (h : colourOf16 i = some c) (s : State) :
    exec i s = .next (endIdle (drawWith (eff s c) i s)) := by
  cases i <;> cases h <;> rfl

theorem colourOf16_withColour {i : Instr} {c : Color} (h : colourOf16 i = some c) (k : Color) :
    colourOf16 (withColour k i) = some k := by
  cases i <;> cases h <;> rfl

/-- The Color operand enters an operation through the masking stage alone. -/
theorem drawWith_withColour (k k' : Color) (i : Instr) : drawWith k (withColour k' i) = drawWith k i := by
  cases i <;> rfl

theorem ignoresMasking_drawWith (k : Color) (i : Instr) : IgnoresMasking (drawWith k i) := by
  cases i
  case drawPixel x y c => exact ignoresMasking_pixel16 x y k
  case drawLine x0 y0 x1 y1 c => exact .foldl (ignoresMasking_stroke16 k) _
  case drawFastHLine x y w c => exact ignoresMasking_hline16 x y w k
  case drawFastVLine x y h c => exact ignoresMasking_vline16 x y h k
  case fillRect x y w h c => exact ignoresMasking_fillRect16 x y w h k
  case fillScreen c => exact ignoresMasking_fillRect16 0 0 240 320 k
  all_goals exact .id

theorem eff_eq_ite (s : State) (color : Color) :
    eff s color =
      (if s.doMasking = false then color
       else if s.maskFlag = false then s.backgroundColor else s.foregroundColor) := by
  rw [eff]
  cases s.doMasking <;> cases s.maskFlag <;> rfl

/-- Settles O39: with masking off the stage passes the Color on, and what is drawn with it reads no `do_masking`
(`ignoresMasking_drawWith`). -/
theorem maskingStage : Obligations.MaskingStage := by
  unfold Obligations.MaskingStage
  refine ⟨eff_eq_ite, fun i color s hc => ⟨_, exec_eq_drawWith hc s, ?_⟩⟩
  have hoff : eff (setMasking false s) (eff s color) = eff s color := rfl
  show exec _ (setMasking false s) = _
  rw [exec_eq_drawWith (colourOf16_withColour hc (eff s color)), hoff, drawWith_withColour,
    ← ignoresMasking_drawWith (eff s color) i false s]
  rfl

end Sys2Proof.Machine
end

section
/-! O44, O49: two ways of drawing the same picture. -/

namespace Sys2Proof.Machine

/-- Settles O44: both operations are defined as the rectangle that is the whole panel (R205, R239). -/
theorem fillScreenIsFillRect : Obligations.FillScreenIsFillRect := by
  unfold Obligations.FillScreenIsFillRect
  exact fun color c8 s => ⟨rfl, rfl⟩

/-- Two states that paint one shape with one Color on one panel hold the same pixels. -/
theorem Paints.unique {s s' t u : State} {R : Int → Int → Prop} {v : Color} (h : Paints s t R v) (k : Paints s' u R v)
    (hpanel : s'.panel = s.panel) :
    ∃ q r, t.panel = .known q ∧ u.panel = .known r ∧ ∀ x y : Nat, x < 240 → y < 320 → q.cell x y = r.cell x y := by
  obtain ⟨p, q, hp, hq, -, hcell⟩ := h
  obtain ⟨p', r, hp', hr, -, hcell'⟩ := k
  rw [hpanel, hp] at hp'
  cases hp'
  refine ⟨q, r, hq, hr, fun x y hx hy => ?_⟩
  by_cases hR : R x y
  · rw [(hcell x y hx hy).1 hR, (hcell' x y hx hy).1 hR]
  · rw [(hcell x y hx hy).2 hR, (hcell' x y hx hy).2 hR]

/-- Settles O49: with a sound memory the operation paints its shape, overdraw avoidance on or off
(`drawingPaintsItsShape`). -/
theorem overdrawSamePicture : Obligations.OverdrawSamePicture := by
  unfold Obligations.OverdrawSamePicture
  intro i color s p hc hp hf hsound
  have hpaints (b : Bool) := drawingPaintsItsShape i color { s with doOverdraw := b } p hc hp hf fun _ => hsound
  obtain ⟨t, ht, hpt⟩ := hpaints true
  obtain ⟨u, hu, hpu⟩ := hpaints false
  obtain ⟨q, r, hq, hr, hcell⟩ := hpt.unique hpu rfl
  exact ⟨t, u, q, r, ht, hu, hq, hr, hcell⟩

end Sys2Proof.Machine
end

section
/-! O40: clipping, read off the specification of each function (`clipH_spec`, `clipV_spec`, `clipRect_spec`). -/

namespace Sys2Proof.Machine

theorem clipH_exact (x y w px py : Int) :
    ((inb px py = true ∧ inRect x y w 1 px py) ↔
      ∃ xa ya n, clipH x y w = some (xa, ya, n) ∧ inRect xa ya n 1 px py) ∧
    ∀ xa ya n, clipH x y w = some (xa, ya, n) → 0 < n ∧ xa + n ≤ 240 ∧ ya < 320 := by
  have h := clipH_spec x y w
  rcases e : clipH x y w with _ | ⟨xa, ya, n⟩ <;> rw [e] at h
  · simpa using h px py
  · obtain ⟨hn, hx, hy, -, hexact⟩ := h
    refine ⟨by simp [hexact], ?_⟩
    rintro _ _ _ ⟨⟩
    exact ⟨hn, hx, hy⟩

theorem clipV_exact (x y h px py : Int) :
    ((inb px py = true ∧ inRect x y 1 h px py) ↔
      ∃ xa ya n, clipV x y h = some (xa, ya, n) ∧ inRect xa ya 1 n px py) ∧
    ∀ xa ya n, clipV x y h = some (xa, ya, n) → 0 < n ∧ xa < 240 ∧ ya + n ≤ 320 := by
  have hc := clipV_spec x y h
  rcases e : clipV x y h with _ | ⟨xa, ya, n⟩ <;> rw [e] at hc
  · simpa using hc px py
  · obtain ⟨hn, hx, hy, -, hexact⟩ := hc
    refine ⟨by simp [hexact], ?_⟩
    rintro _ _ _ ⟨⟩
    exact ⟨hn, hx, hy⟩

theorem clipRect_exact (x y w h px py : Int) :
    ((inb px py = true ∧ inRect x y w h px py) ↔
      ∃ xa ya wa ha, clipRect x y w h = some (xa, ya, wa, ha) ∧ inRect xa ya wa ha px py) ∧
    ∀ xa ya wa ha, clipRect x y w h = some (xa, ya, wa, ha) → 0 < wa ∧ 0 < ha ∧ xa + wa ≤ 240 ∧ ya + ha ≤ 320 := by
  have hc := clipRect_spec x y w h
  rcases e : clipRect x y w h with _ | ⟨xa, ya, wa, ha⟩ <;> rw [e] at hc
  · simpa using hc px py
  · obtain ⟨hw, hh, hx, hy, hexact⟩ := hc
    refine ⟨by simp [hexact], ?_⟩
    rintro _ _ _ _ ⟨⟩
    exact ⟨hw, hh, hx, hy⟩

/-- Settles O40: the bounds test by `inb_iff`, the three clipping functions one by one. -/
theorem clippingIsExact : Obligations.ClippingIsExact := by
  unfold Obligations.ClippingIsExact
  intro x y w h px py
  obtain ⟨hH, hHin⟩ := clipH_exact x y w px py
  obtain ⟨hV, hVin⟩ := clipV_exact x y h px py
  obtain ⟨hR, hRin⟩ := clipRect_exact x y w h px py
  exact ⟨inb_iff px py, hH, hV, hR, hHin, hVin, hRin⟩

end Sys2Proof.Machine
end

section
/-! O46: the line walker in closed form (`bresWalk_getElem?`), from its driving coordinate upwards. -/

namespace Sys2Proof.Machine

section
variable {a0 b0 a1 b1 x0 y0 x1 y1 : Int}

/-- The walk over an ascending driving coordinate, point by point (R208). -/
theorem bresAscending_getElem? (steep : Bool) (ha : a0 < a1) (hb : |b1 - b0| ≤ a1 - a0) (n : Nat) :
    (bresAscending steep a0 b0 a1 b1)[n]? =
      if n ≤ (a1 - a0).toNat then
        some (bresPoint steep (a0 + n)
          (b0 + (if b0 < b1 then 1 else -1) * ((n * |b1 - b0| + (a1 - a0) - 1 - (a1 - a0) / 2) / (a1 - a0))))
      else none := by
  rw [bresAscending, absInt_eq, bresWalk_getElem? _ _ _ _ _ _ _ _ (by omega) (abs_nonneg _) hb (by omega) (by omega)]
  exact if_congr (by omega) rfl rfl

theorem bres_eq_bresAscending_flat (hx : x0 < x1) (hy : |y1 - y0| ≤ x1 - x0) :
    bres x0 y0 x1 y1 = bresAscending false x0 y0 x1 y1 := by
  rw [bres_flat hx hy, bresAscending, absInt_eq]

theorem bres_eq_bresAscending_steep (hy : y0 < y1) (hx : |x1 - x0| < y1 - y0) :
    bres x0 y0 x1 y1 = bresAscending true y0 x0 y1 x1 := by
  rw [bres_steep hy hx, bresAscending, absInt_eq]

/-- A list of points joins `(x0, y0)` and `(x1, y1)`: both are on it, and it is as long as the greater extent asks. -/
def JoinsEnds (ps : List (Int × Int)) (x0 y0 x1 y1 : Int) : Prop :=
  (x0, y0) ∈ ps ∧ (x1, y1) ∈ ps ∧ (ps.length : Int) = max |x1 - x0| |y1 - y0| + 1

theorem JoinsEnds.symm {ps : List (Int × Int)} (h : JoinsEnds ps x0 y0 x1 y1) : JoinsEnds ps x1 y1 x0 y0 := by
  obtain ⟨h0, h1, hlen⟩ := h
  exact ⟨h1, h0, by rw [hlen, abs_sub_comm x1, abs_sub_comm y1]⟩

/-- Before the first step the error term has not gone below zero, and after the last it has done so once for each unit of
the other extent (R208). -/
theorem bresAscending_ends (steep : Bool) (ha : a0 < a1) (hb : |b1 - b0| ≤ a1 - a0) :
    bresPoint steep a0 b0 ∈ bresAscending steep a0 b0 a1 b1 ∧
      bresPoint steep a1 b1 ∈ bresAscending steep a0 b0 a1 b1 ∧
      ((bresAscending steep a0 b0 a1 b1).length : Int) = a1 - a0 + 1 := by
  have hhalf : (a1 - a0 - 1 - (a1 - a0) / 2) / (a1 - a0) = 0 := Int.ediv_eq_zero_of_lt (by omega) (by omega)
  have hlast : ((a1 - a0) * |b1 - b0| + (a1 - a0) - 1 - (a1 - a0) / 2) / (a1 - a0) = |b1 - b0| := by
    rw [add_sub_assoc, add_sub_assoc, add_comm, Int.add_mul_ediv_left _ _ (by omega), hhalf, zero_add]
  have hsign : (if b0 < b1 then 1 else -1) * |b1 - b0| = b1 - b0 := by
    split
    · rw [abs_of_pos (by omega), one_mul]
    · rw [abs_of_nonpos (by omega)]; ring
  refine ⟨List.mem_of_getElem? (i := 0) ?_, List.mem_of_getElem? (i := (a1 - a0).toNat) ?_, ?_⟩
  · rw [bresAscending_getElem? steep ha hb, if_pos (Nat.zero_le _)]
    simp [hhalf]
  · rw [bresAscending_getElem? steep ha hb, if_pos le_rfl, Int.toNat_of_nonneg (by omega), hlast, hsign]
    simp
  · rw [bresAscending, bresWalk_length]
    omega

theorem joinsEnds_flat (hx : x0 < x1) (hy : |y1 - y0| ≤ x1 - x0) : JoinsEnds (bres x0 y0 x1 y1) x0 y0 x1 y1 := by
  rw [JoinsEnds, bres_eq_bresAscending_flat hx hy, abs_of_pos (sub_pos.2 hx), max_eq_left hy]
  exact bresAscending_ends false hx hy

theorem joinsEnds_steep (hy : y0 < y1) (hx : |x1 - x0| < y1 - y0) : JoinsEnds (bres x0 y0 x1 y1) x0 y0 x1 y1 := by
  rw [JoinsEnds, bres_eq_bresAscending_steep hy hx, abs_of_pos (sub_pos.2 hy), max_eq_right hx.le]
  exact bresAscending_ends true hy hx.le

/-- A sloped line joins its end points, whichever comes first. -/
theorem joinsEnds_bres (hx : x0 ≠ x1) (hy : y0 ≠ y1) : JoinsEnds (bres x0 y0 x1 y1) x0 y0 x1 y1 := by
  rcases le_or_gt |y1 - y0| |x1 - x0| with hflat | hsteep
  · rcases lt_or_gt_of_ne hx with h | h
    · exact joinsEnds_flat h (by rwa [abs_of_pos (sub_pos.2 h)] at hflat)
    · rw [abs_sub_comm, abs_sub_comm x1, abs_of_pos (sub_pos.2 h)] at hflat
      exact bres_swap x0 y0 x1 y1 hx hy ▸ (joinsEnds_flat h hflat).symm
  · rcases lt_or_gt_of_ne hy with h | h
    · exact joinsEnds_steep h (by rwa [abs_of_pos (sub_pos.2 h)] at hsteep)
    · rw [abs_sub_comm, abs_sub_comm y1, abs_of_pos (sub_pos.2 h)] at hsteep
      exact bres_swap x0 y0 x1 y1 hx hy ▸ (joinsEnds_steep h hsteep).symm

end

/-- Settles O46: the closed form for each slope, the order and the ends of the line, and the source's example by
evaluation. -/
theorem bresenhamWalk : Obligations.BresenhamWalk := by
  unfold Obligations.BresenhamWalk
  refine ⟨fun x0 y0 x1 y1 hx hy n => ?_, fun x0 y0 x1 y1 hy hx n => ?_,
    fun x0 y0 x1 y1 hx hy => ⟨bres_swap x0 y0 x1 y1 hx hy, joinsEnds_bres hx hy⟩, by decide⟩
  · rw [bres_eq_bresAscending_flat hx hy, bresAscending_getElem? false hx hy]
    rfl
  · rw [bres_eq_bresAscending_steep hy hx, bresAscending_getElem? true hy hx.le]
    rfl

end Sys2Proof.Machine
end

section
/-! O51: `readPixel`, the window, the read command and the reads in one record update (`readBegin_reads`). -/

namespace Sys2Proof.Machine

/-- The in-bounds part of `readPixel` in one record update (R207). -/
theorem readPixelAt_eq (x y : Int) (s : State) :
    ∃ (ds : List Byte) (hi lo : Byte), ds.length = s.readDummyReads ∧
      readPixelAt x y s =
        { received (ds.map .rd ++ [.rd hi, .rd lo]) (s.readDummyReads + 2) (readCmd (winSet x y x y s)) with
          result := hi ++ lo } := by
  obtain ⟨ds, vs, hds, -, hvs, heq⟩ := readBegin_reads 1 (winSet x y x y s)
  have hdummies : (winSet x y x y s).readDummyReads = s.readDummyReads :=
    (carries_winSet (x := true) x y x y s).readDummyReads
  rw [hdummies] at hds heq
  subst hvs
  have hreads : busRead (busRead (readBegin (winSet x y x y s))) = _ := heq
  refine ⟨ds, sampledByte (readBegin (winSet x y x y s)), sampledByte (busRead (readBegin (winSet x y x y s))), hds, ?_⟩
  rw [readPixelAt, hreads]
  rfl

/-- Settles O51: out of bounds by definition, in bounds by `readPixelAt_eq` behind the window and the read command. -/
theorem readPixelFrames : Obligations.ReadPixelFrames := by
  unfold Obligations.ReadPixelFrames
  refine fun x y s => ⟨fun hout => congrArg Host.Outcome.next ?_, fun hin => ?_⟩
  · rw [if_neg (by rwa [inb_iff])]
    rfl
  · obtain ⟨ds, hi, lo, hds, heq⟩ := readPixelAt_eq x y s
    refine ⟨ds, hi, lo, _, hds, rfl, congrArg Host.Outcome.next ?_⟩
    rw [if_pos ((inb_iff x y).2 hin), heq, readCmd_eq, winSet_eq, windowSetFrames_eq]
    simp only [received, sent, PanelView.onFrames_append, PanelView.onFrames_cons, List.append_assoc, Nat.add_assoc]
    rfl

end Sys2Proof.Machine
end

section
/-! O57: `fastXORRect`, scanline by scanline. What a scanline reads is a function of the state it begins in, so the bytes of
row `j` are those read behind the rows above it (`xorRows`). -/

namespace Sys2Proof.Machine

/-- One scanline of `fastXORRect`: its window and its run (R242). -/
def xorRow (m : Byte) (xa wa : Nat) (t : State) (j : Nat) : State := xorRun m wa (winSet xa j ((xa : Int) + wa - 1) j t)

/-- The first `n` scanlines from row `ya` on (R242). -/
def xorRows (m : Byte) (xa wa ya n : Nat) (s : State) : State := (List.range' ya n).foldl (xorRow m xa wa) s

theorem xorRect8_some {x y w h : Int} {xa ya wa ha : Nat} (hc : clipRect x y w h = some (xa, ya, wa, ha)) (m : Byte)
    (s : State) : xorRect8 x y w h m s = xorRows m xa wa ya ha s := by
  rw [xorRect8, hc]
  rfl

theorem xorRows_succ (m : Byte) (xa wa ya n : Nat) (s : State) :
    xorRows m xa wa ya (n + 1) s = xorRow m xa wa (xorRows m xa wa ya n s) (ya + n) := by
  rw [xorRows, List.range'_1_concat, List.foldl_append]
  rfl

theorem xorRows_readDummyReads (m : Byte) (xa wa ya n : Nat) (s : State) :
    (xorRows m xa wa ya n s).readDummyReads = s.readDummyReads :=
  (carries_foldl (x := false) (xorRow m xa wa) (fun t _ => (carries_winSet _ _ _ _ t).trans (carries_xorRun m wa _)) _
    s).readDummyReads

/-- The state behind scanlines that sent `fs`, the last of them row `j`, whose reads were `vs`; they drew `n` free values. -/
def afterXorRows (fs : List Frame) (b : Byte) (xa wa j : Nat) (vs : List Byte) (n : Nat) (s : State) : State :=
  { sent fs b true (withShadow xa j ((xa : Int) + wa - 1) j s) with
    primState := .streaming, busDir := .write, rd := false
    xbuf := vs ++ s.xbuf.drop wa, freeDraws := s.freeDraws + n }

/-- One scanline in one record update (R240, R242). -/
theorem xorRow_eq (m : Byte) (xa : Nat) {wa : Nat} (hwa : 0 < wa) (t : State) (j : Nat) :
    ∃ ds vs : List Byte, ds.length = t.readDummyReads ∧ vs.length = wa ∧
      ∃ b, (xorRowLog m xa wa j ds vs).getLast? = some (.dat b) ∧
        xorRow m xa wa t j =
          afterXorRows (xorRowLog m xa wa j ds vs) b xa wa j vs (t.readDummyReads + wa) t := by
  obtain ⟨n, rfl⟩ : ∃ n, wa = n + 1 := ⟨wa - 1, by omega⟩
  obtain ⟨ds, vs, hds, hvs, -, b, hb, heq⟩ := xorRun_eq m n (winSet xa j ((xa : Int) + (n + 1 : Nat) - 1) j t)
  rw [(carries_winSet (x := true) _ _ _ _ t).readDummyReads] at hds
  refine ⟨ds, vs, hds, hvs, b, by rw [xorRowLog, List.getLast?_append, hb]; rfl, ?_⟩
  rw [xorRow, heq, winSet_eq, windowSetFrames_eq]
  simp only [afterXorRows, xorRowLog, sent, PanelView.onFrames_append, List.append_assoc]
  rfl

/-- A scanline behind others: frames and draws add up, shadow and `xbuf` are the last one's. -/
theorem afterXorRows_afterXorRows (fs gs : List Frame) (b c : Byte) (xa wa i j : Nat) {us : List Byte}
    (hus : us.length = wa) (vs : List Byte) (n k : Nat) (s : State) :
    afterXorRows gs c xa wa j vs k (afterXorRows fs b xa wa i us n s) =
      afterXorRows (fs ++ gs) c xa wa j vs (n + k) s := by
  subst hus
  simp only [afterXorRows, sent, withShadow, PanelView.onFrames_append, List.append_assoc, List.drop_left, Nat.add_assoc]

/-- All scanlines in one record update: the dummies and pixels read in row `j` are `ds j` and `vs j` (R242). -/
theorem xorRows_eq (m : Byte) (xa : Nat) {wa : Nat} (hwa : 0 < wa) (ya : Nat) (s : State) :
    ∃ ds vs : Nat → List Byte, (∀ j, (ds j).length = s.readDummyReads ∧ (vs j).length = wa) ∧
      ∀ n, ∃ b, let fs := (List.range' ya (n + 1)).flatMap fun j => xorRowLog m xa wa j (ds j) (vs j)
        fs.getLast? = some (.dat b) ∧
        xorRows m xa wa ya (n + 1) s =
          afterXorRows fs b xa wa (ya + n) (vs (ya + n)) ((n + 1) * (s.readDummyReads + wa)) s := by
  choose ds vs hds hvs b hb hrow using fun j => xorRow_eq m xa hwa (xorRows m xa wa ya (j - ya) s) j
  simp only [xorRows_readDummyReads] at hds hrow
  refine ⟨ds, vs, fun j => ⟨hds j, hvs j⟩, fun n => ⟨b (ya + n), ?_⟩⟩
  have hnext (n : Nat) := hrow (ya + n)
  simp only [Nat.add_sub_cancel_left, ← xorRows_succ] at hnext
  refine ⟨?_, ?_⟩
  · rw [List.range'_1_concat, List.flatMap_append, List.getLast?_append, List.flatMap_singleton, hb]
    rfl
  induction n with
  | zero =>
    rw [hnext]
    simp [xorRows]
  | succ n ih =>
    rw [hnext, ih, afterXorRows_afterXorRows _ _ _ _ _ _ _ _ (hvs _), List.range'_1_concat (n := n + 1),
      List.flatMap_append, List.flatMap_singleton, Nat.succ_mul (n + 1)]

theorem grew_afterXorRows {fs : List Frame} {b : Byte} (h : fs.getLast? = some (.dat b)) (c : Byte) (xa wa j : Nat)
    (vs : List Byte) (n : Nat) (s : State) : Grew s (afterXorRows fs c xa wa j vs n s) := by
  obtain ⟨f, gs, rfl⟩ := List.exists_cons_of_ne_nil (l := fs) (by rintro rfl; cases h)
  exact .of_append rfl

/-- Settles O57: clipped away, or the scanlines (`xorRows_eq`) and `fast_end` of an operation that sent something. -/
theorem xorRectFrames : Obligations.XorRectFrames := by
  unfold Obligations.XorRectFrames
  intro x y w h m s
  refine ⟨fastEnd s (xorRect8 x y w h m s), rfl, ?_⟩
  have hc := clipRect_spec x y w h
  rcases e : clipRect x y w h with _ | ⟨xa, ya, wa, ha⟩ <;> rw [e] at hc <;> dsimp only
  · rw [xorRect8, e]
    exact fastEnd_self s
  · obtain ⟨hwa, hha, -⟩ := hc
    obtain ⟨n, rfl⟩ : ∃ n, ha = n + 1 := ⟨ha - 1, by omega⟩
    obtain ⟨ds, vs, hlen, hrows⟩ := xorRows_eq m xa hwa ya s
    obtain ⟨b, hb, heq⟩ := hrows n
    have hbottom : (ya : Int) + (n + 1 : Nat) - 1 = (ya + n : Nat) := by omega
    refine ⟨ds, vs, hlen, ?_⟩
    rw [xorRect8_some e, heq, fastEnd_of_emitted ((emitted_iff _ _).2 (grew_afterXorRows hb ..)), afterFrames_dat hb,
      hbottom]
    rfl

end Sys2Proof.Machine
end

section
/-! O55: the compositing state. Every piece of the fast path commutes with a change of it (`rc_fpixel` to
`rc_xorRect8`), and so does every operation. -/

namespace Sys2Proof.Machine

section
variable {b1 b2 b3 : Bool} {c1 c2 : Color}

/-- The end of an operation of the fast path whose pieces commute with a change of the compositing state (R245). -/
theorem fastEnd_recomp {s u u' : State} (h : u' = recomp b1 b2 b3 c1 c2 u) :
    (.next (fastEnd (recomp b1 b2 b3 c1 c2 s) u') : Host.Outcome State Fault Refusal) =
      .next (recomp b1 b2 b3 c1 c2 (fastEnd s u)) := by
  rw [h, rc_fastEnd]

theorem strokes8_recomp (v : Byte) (l : List Stroke) (s : State) :
    l.foldl (stroke8 v) (recomp b1 b2 b3 c1 c2 s) = recomp b1 b2 b3 c1 c2 (l.foldl (stroke8 v) s) :=
  foldl_comm (fun _ _ => rc_stroke8 ..) l s

theorem fastFloodOp_recomp (v : Byte) (n : Nat) (s : State) :
    fastFloodOp v n (recomp b1 b2 b3 c1 c2 s) = recomp b1 b2 b3 c1 c2 (fastFloodOp v n s) := by
  rw [fastFloodOp, fastFloodOp, rc_flood8]
  split <;> rfl

theorem fastXorFloodOp_recomp (m : Byte) (n : Nat) (s : State) :
    fastXorFloodOp m n (recomp b1 b2 b3 c1 c2 s) = recomp b1 b2 b3 c1 c2 (fastXorFloodOp m n s) := by
  rw [fastXorFloodOp, fastXorFloodOp, rc_xorRun]
  split
  · rfl
  · split <;> rfl

/-- Every operation of the fast path commutes with a change of the compositing state (R232). -/
theorem fast_exec_recomp {i : Instr} {s t : State} (hi : isFast i = true) (h : exec i s = .next t) :
    exec i (recomp b1 b2 b3 c1 c2 s) = .next (recomp b1 b2 b3 c1 c2 t) := by
  cases i <;> cases hi <;> cases h
  case fastFlood => exact congrArg Host.Outcome.next (fastFloodOp_recomp ..)
  case fastDrawPixel => exact fastEnd_recomp (rc_fpixel ..)
  case fastDrawFastHLine => exact fastEnd_recomp (rc_fh ..)
  case fastDrawFastVLine => exact fastEnd_recomp (rc_fv ..)
  case fastDrawLine => exact fastEnd_recomp (strokes8_recomp ..)
  case fastFillRect => exact fastEnd_recomp (rc_fillRect8 ..)
  case fastFillScreen => exact fastEnd_recomp (rc_fillRect8 ..)
  case fastXorFlood => exact congrArg Host.Outcome.next (fastXorFloodOp_recomp ..)
  case fastXorRect => exact fastEnd_recomp (rc_xorRect8 ..)
  case fastFillTriangle => exact fastEnd_recomp (foldl_comm (fun _ _ => rc_fh ..) _ s)
  case fastDrawTriangle => exact fastEnd_recomp (strokes8_recomp ..)
end

/-- Settles O55: every operation commutes with the change of the five registers (`fast_exec_recomp`). -/
theorem fastIgnoresCompositing : Obligations.FastIgnoresCompositing := by
  unfold Obligations.FastIgnoresCompositing
  exact fun i s t b1 b2 b3 c1 c2 hi h => fast_exec_recomp hi h

end Sys2Proof.Machine
end

section
/-! O59: the double-XOR property, from the pixels of one pass (`xorRect_pixels`) and `(a ^^^ m) ^^^ m = a`. -/

namespace Sys2Proof.Machine

/-- From the panel `p` to the panel `q`, the byte of every cell inside `shape` was XORed with `m`, and no other cell
changed (R243). -/
def Panel.XoredIn (p q : Panel) (shape : Int → Int → Prop) (m : Byte) : Prop :=
  ∀ px py : Nat, px < 240 → py < 320 →
    (shape px py → q.cell px py = 0#8 ++ (lo8 (p.cell px py) ^^^ m)) ∧ (¬shape px py → q.cell px py = p.cell px py)

/-- The same mask on the same cells twice gives every byte back (R243). -/
theorem Panel.XoredIn.twice {p q r : Panel} {shape : Int → Int → Prop} {m : Byte} (h : p.XoredIn q shape m)
    (k : q.XoredIn r shape m) {px py : Nat} (hx : px < 240) (hy : py < 320) :
    (shape px py → lo8 (r.cell px py) = lo8 (p.cell px py)) ∧ (¬shape px py → r.cell px py = p.cell px py) := by
  obtain ⟨hflip, hkeep⟩ := h px py hx hy
  obtain ⟨hflip', hkeep'⟩ := k px py hx hy
  refine ⟨fun hin => ?_, fun hout => (hkeep' hout).trans (hkeep hout)⟩
  rw [hflip' hin, hflip hin, lo8_zero_append, lo8_zero_append, BitVec.xor_assoc, BitVec.xor_self, BitVec.xor_zero]

/-- One `fastXORRect`: its pixels, and that another can follow (R242, R243). -/
theorem exec_fastXorRect_xoredIn (x y w h : Int) (m : Byte) {s : State} {p : Panel} (hp : s.panel = .known p)
    (hf : p.format = .oneByte) (hset : settleMet s = true) :
    ∃ t q, exec (.fastXorRect x y w h m) s = .next t ∧ t.panel = .known q ∧ q.format = .oneByte ∧
      settleMet t = true ∧ p.XoredIn q (inRect x y w h) m := by
  obtain ⟨q, hq, hqf, hcells⟩ := xorRect_pixels x y w h m hp hf hset
  have hc := (carries_xorRect8 x y w h m s).trans (carries_fastEnd s _)
  refine ⟨_, q, rfl, (fastEnd_panel s _).trans hq, hqf, ?_, hcells⟩
  simpa only [settleMet, hc.targetClockHz, hc.settleCycles] using hset

/-- Settles O59: two passes (`exec_fastXorRect_xoredIn`), the second undoing the first (`Panel.XoredIn.twice`). -/
theorem xorRectTwiceRestores : Obligations.XorRectTwiceRestores := by
  unfold Obligations.XorRectTwiceRestores
  intro s p x y w h m hp hf hset
  obtain ⟨t, q, ht, hq, hqf, hset', hfirst⟩ := exec_fastXorRect_xoredIn x y w h m hp hf hset
  obtain ⟨u, r, hu, hr, -, -, hsecond⟩ := exec_fastXorRect_xoredIn x y w h m hq hqf hset'
  refine ⟨t, u, q, r, ht, hu, hq, hr, fun px py hx hy => ?_⟩
  obtain ⟨hflip, hkeep⟩ := hfirst px py hx hy
  obtain ⟨hback, hstill⟩ := hfirst.twice hsecond hx hy
  exact ⟨fun hin => ⟨hflip hin, hback hin⟩, fun hout => ⟨hkeep hout, hstill hout⟩⟩

end Sys2Proof.Machine
end

section
/-! O60: the spans of a triangle. The vertices are sorted by compare-and-swap; the running sums of a loop of `tri_spans`
(`triRows_mem`) are the closed form of its two edges. -/

namespace Sys2Proof.Machine

/-! ### Sorting (R247) -/

theorem sortByY_of_le {p q : Int × Int} (h : p.2 ≤ q.2) : sortByY p q = (p, q) := if_neg (by omega)

theorem sortByY_of_lt {p q : Int × Int} (h : q.2 < p.2) : sortByY p q = (q, p) := if_pos h

/-- The first compare-and-swap (R247). -/
theorem triSpans_swap_first {x0 y0 x1 y1 : Int} (h : y1 < y0) (x2 y2 : Int) :
    triSpans x0 y0 x1 y1 x2 y2 = triSpans x1 y1 x0 y0 x2 y2 := by
  have hswap : sortByY (x0, y0) (x1, y1) = sortByY (x1, y1) (x0, y0) := by
    rw [sortByY_of_lt h, sortByY_of_le h.le]
  rw [triSpans, triSpans, hswap]

/-- The second compare-and-swap, which the third one completes (R247). -/
theorem triSpans_swap_last {y0 y1 y2 : Int} (h0 : y0 ≤ y1) (h1 : y2 < y1) (x0 x1 x2 : Int) :
    triSpans x0 y0 x1 y1 x2 y2 = triSpans x0 y0 x2 y2 x1 y1 := by
  simp only [triSpans, sortByY_of_le (p := (x0, y0)) (q := (x1, y1)) h0,
    sortByY_of_lt (p := (x1, y1)) (q := (x2, y2)) h1]
  rcases le_or_gt y0 y2 with h | h
  · simp only [sortByY_of_le (p := (x0, y0)) (q := (x2, y2)) h, sortByY_of_le (p := (x2, y2)) (q := (x1, y1)) h1.le]
  · simp only [sortByY_of_lt (p := (x0, y0)) (q := (x2, y2)) h, sortByY_of_le (p := (x0, y0)) (q := (x1, y1)) h0,
      sortByY_of_le (p := (x2, y2)) (q := (x0, y0)) h.le]

theorem triSpans_one_row (x0 x1 x2 y : Int) :
    triSpans x0 y x1 y x2 y = [(min x0 (min x1 x2), y, max x0 (max x1 x2) - min x0 (min x1 x2) + 1)] := by
  rw [triSpans_of_sorted le_rfl le_rfl, triSorted, if_pos rfl]

/-! ### Rows and lengths (R247) -/

theorem triSpans_rows (x0 y0 x1 y1 x2 y2 : Int) :
    (triSpans x0 y0 x1 y1 x2 y2).map (fun sp => sp.2.1) =
      (List.range (max y0 (max y1 y2) - min y0 (min y1 y2) + 1).toNat).map fun n : Nat => min y0 (min y1 y2) + n := by
  obtain ⟨a, b, c, heq, hab, hbc, hmin, hmax⟩ := triSpans_sorted x0 y0 x1 y1 x2 y2
  rw [heq, triSorted_rows _ _ _ hab hbc, hmin, hmax]

theorem triSpans_length_pos (x0 y0 x1 y1 x2 y2 : Int) : ∀ sp ∈ triSpans x0 y0 x1 y1 x2 y2, 1 ≤ sp.2.2 := by
  obtain ⟨a, b, c, heq, -⟩ := triSpans_sorted x0 y0 x1 y1 x2 y2
  rw [heq]
  exact triSorted_len

/-! ### Edges (R247) -/

/-- The column of the edge from `(x0, y0)` to `(x1, y1)` on row `y` (R247). -/
def edgeAt (x0 y0 x1 y1 y : Int) : Int := x0 + ((x1 - x0) * (y - y0)).tdiv (y1 - y0)

/-- A span reaches from one column to the other, whichever is the left one (R247). -/
def SpanBetween (a b : Int) (sp : Int × Int × Int) : Prop := sp.1 = min a b ∧ sp.2.2 = max a b - min a b + 1

/-- A loop whose running sums start at those of its first row: each span lies between the two edges (R247). -/
theorem triRows_between {xa ya xa' ya' xb yb xb' yb' y sa sb : Int} {n : Nat} {sp : Int × Int × Int}
    (h : sp ∈ triRows xa (xa' - xa) (ya' - ya) xb (xb' - xb) (yb' - yb) n y sa sb)
    (hsa : sa = (xa' - xa) * (y - ya)) (hsb : sb = (xb' - xb) * (y - yb)) :
    y ≤ sp.2.1 ∧ sp.2.1 < y + n ∧ SpanBetween (edgeAt xa ya xa' ya' sp.2.1) (edgeAt xb yb xb' yb' sp.2.1) sp := by
  obtain ⟨k, hk, hy, hx, hn⟩ := triRows_mem h
  have hsum (d y0 : Int) : d * (y - y0) + k * d = d * (sp.2.1 - y0) := by rw [hy]; ring
  rw [hsa, hsb, hsum, hsum] at hx hn
  exact ⟨by omega, by omega, hx, hn⟩

/-- Sorted vertices on more than one row: each span lies between the long edge and a short one, the upper one above the
middle row, the lower one from it on; if the middle row is the last, the upper one throughout (R247). -/
theorem triSorted_between {x0 y0 x1 y1 x2 y2 : Int} (hy : y0 < y2) {sp : Int × Int × Int}
    (h : sp ∈ triSorted x0 y0 x1 y1 x2 y2) :
    ((sp.2.1 < y1 ∨ y1 = y2) ∧ SpanBetween (edgeAt x0 y0 x1 y1 sp.2.1) (edgeAt x0 y0 x2 y2 sp.2.1) sp) ∨
      (y1 ≤ sp.2.1 ∧ y1 ≠ y2 ∧ SpanBetween (edgeAt x1 y1 x2 y2 sp.2.1) (edgeAt x0 y0 x2 y2 sp.2.1) sp) := by
  rw [triSorted, if_neg hy.ne] at h
  rcases List.mem_append.1 h with hupper | hlower
  · obtain ⟨hfirst, hlast, hspan⟩ := triRows_between hupper (by simp) (by simp)
    exact .inl ⟨by split at hlast <;> omega, hspan⟩
  · obtain ⟨hfirst, hlast, hspan⟩ := triRows_between hlower rfl rfl
    refine .inr ⟨?_, ?_, hspan⟩ <;> split at hfirst <;> omega

/-- Settles O60: rows, lengths and sorting by their lemmas; of the two short edges (`triSorted_between`) the row of a
span rules one out. -/
theorem triangleSpans : Obligations.TriangleSpans := by
  unfold Obligations.TriangleSpans
  refine ⟨fun x0 y0 x1 y1 x2 y2 => ⟨triSpans_rows .., triSpans_length_pos x0 y0 x1 y1 x2 y2⟩,
    fun x0 y0 x1 y1 x2 y2 => ⟨fun h => triSpans_swap_first h x2 y2, fun h0 h1 => triSpans_swap_last h0 h1 x0 x1 x2, ?_⟩,
    fun x0 y0 x1 y1 x2 y2 h0 h1 hy sp hsp => ?_, by decide⟩
  · rintro rfl rfl
    exact triSpans_one_row ..
  · rw [triSpans_of_sorted h0 h1] at hsp
    rcases triSorted_between hy hsp with ⟨hrow, hspan⟩ | ⟨hrow, hne, hspan⟩
    · exact ⟨fun _ => ⟨_, _, rfl, rfl, hspan⟩, fun h h' => by omega⟩
    · exact ⟨fun h => by omega, fun _ _ => ⟨_, _, rfl, rfl, hspan⟩⟩

end Sys2Proof.Machine
end

section
/-! O19: no operation can fail to complete (R270, R276). -/

namespace Sys2Proof.Machine

/-- Settles O19: in each arm of `exec` the operation is defined to answer `.next`, whatever the state it starts from; a
length that is not performed (R241, log 3) and a shape that misses the panel (R210) are next states too. -/
theorem everyInstructionCompletes : Obligations.EveryInstructionCompletes := by
  unfold Obligations.EveryInstructionCompletes
  intro i s
  cases i <;> exact ⟨_, rfl⟩

end Sys2Proof.Machine
end
